-- ==== Sys2Proof/Word.lean ====
section
/-! DEFINITION. Word.lean: the plain words of KVA 1 (R2, R70): 64-bit registers and pointers, 32-bit
instruction words, bytes, and the register numbers that name a register file's member (R72). -/

namespace Sys2Proof

/-- A 64-bit register or pointer. -/
abbrev Word := BitVec 64
/-- One byte of memory. -/
abbrev Byte := BitVec 8
/-- A register number of a file of 32 (x, f, v). -/
abbrev Reg := BitVec 5
/-- A register number of the mask file, m0–m7. -/
abbrev MReg := BitVec 3
/-- A register number of the topology file, t0–t7. -/
abbrev TReg := BitVec 3
/-- A pennant accumulator number, pa0–pa1. -/
abbrev PaReg := BitVec 1
/-- A stream slot number, 0–3. -/
abbrev SlotReg := BitVec 2

end Sys2Proof
end

