-- ==== Sys2Proof/Syntax.lean ====
section
/-! DEFINITION. Syntax.lean: the instructions of KVA 1 and the device's other steps, one constructor per row of
spec/opcode_table.json (293 rows: 229 instruction words, R82 and R83, and 64 operations and events that have no
word). Operation codes of a field with a fixed set of names are inductive types with their code (R49, R72–R77);
register numbers keep the width of their file. -/

namespace Sys2Proof

/-- Precision of a scalar floating-point instruction, mod bits 4:3 (R73). -/
inductive Prec where
  | b64 | b32 | b16 | bf
  deriving DecidableEq, Repr

def Prec.code : Prec → Nat
  | .b64 => 0
  | .b32 => 1
  | .b16 => 2
  | .bf => 3

def Prec.ofCode : Nat → Option Prec
  | 0 => some .b64
  | 1 => some .b32
  | 2 => some .b16
  | 3 => some .bf
  | _ => none

/-- Rounding code (R49): four static modes, stochastic, and the dynamic mode. -/
inductive Rc where
  | rne | rdn | rup | rtz | sr | dyn
  deriving DecidableEq, Repr

def Rc.code : Rc → Nat
  | .rne => 0
  | .rdn => 1
  | .rup => 2
  | .rtz => 3
  | .sr => 4
  | .dyn => 5

def Rc.ofCode : Nat → Option Rc
  | 0 => some .rne
  | 1 => some .rdn
  | 2 => some .rup
  | 3 => some .rtz
  | 4 => some .sr
  | 5 => some .dyn
  | _ => none

/-- Condition of fcmp and vfcmp (R123, R162). -/
inductive FCond where
  | eq | lt | le | un
  deriving DecidableEq, Repr

def FCond.code : FCond → Nat
  | .eq => 0
  | .lt => 1
  | .le => 2
  | .un => 3

def FCond.ofCode : Nat → Option FCond
  | 0 => some .eq
  | 1 => some .lt
  | 2 => some .le
  | 3 => some .un
  | _ => none

/-- Direction of fmv (R125): f to f, x to f, f to x. -/
inductive FmvDir where
  | ff | xf | fx
  deriving DecidableEq, Repr

def FmvDir.code : FmvDir → Nat
  | .ff => 0
  | .xf => 1
  | .fx => 2

def FmvDir.ofCode : Nat → Option FmvDir
  | 0 => some .ff
  | 1 => some .xf
  | 2 => some .fx
  | _ => none

/-- Integer kind of fcvt (R124). -/
inductive IKind where
  | s32 | u32 | s64 | u64
  deriving DecidableEq, Repr

def IKind.code : IKind → Nat
  | .s32 => 0
  | .u32 => 1
  | .s64 => 2
  | .u64 => 3

def IKind.ofCode : Nat → Option IKind
  | 0 => some .s32
  | 1 => some .u32
  | 2 => some .s64
  | 3 => some .u64
  | _ => none

/-- Access width of ordered scalar memory instructions (R74). -/
inductive MWidth where
  | w8 | w16 | w32 | w64
  deriving DecidableEq, Repr

def MWidth.code : MWidth → Nat
  | .w8 => 0
  | .w16 => 1
  | .w32 => 2
  | .w64 => 3

def MWidth.ofCode : Nat → Option MWidth
  | 0 => some .w8
  | 1 => some .w16
  | 2 => some .w32
  | 3 => some .w64
  | _ => none

/-- Scope of a fence, acquire, release or copy (R74). -/
inductive Scope where
  | hart | core | cluster | die | package | system
  deriving DecidableEq, Repr

def Scope.code : Scope → Nat
  | .hart => 0
  | .core => 1
  | .cluster => 2
  | .die => 3
  | .package => 4
  | .system => 5

def Scope.ofCode : Nat → Option Scope
  | 0 => some .hart
  | 1 => some .core
  | 2 => some .cluster
  | 3 => some .die
  | 4 => some .package
  | 5 => some .system
  | _ => none

/-- Order field of cas and the amo ops (R74). -/
inductive Order where
  | relaxed | acquire | release | acqRel
  deriving DecidableEq, Repr

def Order.code : Order → Nat
  | .relaxed => 0
  | .acquire => 1
  | .release => 2
  | .acqRel => 3

def Order.ofCode : Nat → Option Order
  | 0 => some .relaxed
  | 1 => some .acquire
  | 2 => some .release
  | 3 => some .acqRel
  | _ => none

/-- Kinds of access a fence orders (R74); 00 is ILLEGAL. -/
inductive Kinds where
  | loads | stores | both
  deriving DecidableEq, Repr

def Kinds.code : Kinds → Nat
  | .loads => 1
  | .stores => 2
  | .both => 3

def Kinds.ofCode : Nat → Option Kinds
  | 1 => some .loads
  | 2 => some .stores
  | 3 => some .both
  | _ => none

/-- Scope of bar (R83, R138). -/
inductive BarScope where
  | core | cluster | die | package
  deriving DecidableEq, Repr

def BarScope.code : BarScope → Nat
  | .core => 1
  | .cluster => 2
  | .die => 3
  | .package => 4

def BarScope.ofCode : Nat → Option BarScope
  | 1 => some .core
  | 2 => some .cluster
  | 3 => some .die
  | 4 => some .package
  | _ => none

/-- Extent of tlbinv (R142). -/
inductive TlbExtent where
  | page | all | pkPage | pkAll
  deriving DecidableEq, Repr

def TlbExtent.code : TlbExtent → Nat
  | .page => 0
  | .all => 1
  | .pkPage => 2
  | .pkAll => 3

def TlbExtent.ofCode : Nat → Option TlbExtent
  | 0 => some .page
  | 1 => some .all
  | 2 => some .pkPage
  | 3 => some .pkAll
  | _ => none

/-- Destination copy file of a prefix word (R77). -/
inductive CFile where
  | none | v | x | t
  deriving DecidableEq, Repr

def CFile.code : CFile → Nat
  | .none => 0
  | .v => 1
  | .x => 2
  | .t => 3

def CFile.ofCode : Nat → Option CFile
  | 0 => some .none
  | 1 => some .v
  | 2 => some .x
  | 3 => some .t
  | _ => none

/-- Variant of vmspan (R153). -/
inductive SpanVar where
  | pre | thru | post | span
  deriving DecidableEq, Repr

def SpanVar.code : SpanVar → Nat
  | .pre => 0
  | .thru => 1
  | .post => 2
  | .span => 3

def SpanVar.ofCode : Nat → Option SpanVar
  | 0 => some .pre
  | 1 => some .thru
  | 2 => some .post
  | 3 => some .span
  | _ => none

/-- Signedness of vmulh (R154). -/
inductive MulhVar where
  | ss | uu | su
  deriving DecidableEq, Repr

def MulhVar.code : MulhVar → Nat
  | .ss => 0
  | .uu => 1
  | .su => 2

def MulhVar.ofCode : Nat → Option MulhVar
  | 0 => some .ss
  | 1 => some .uu
  | 2 => some .su
  | _ => none

/-- Condition of vcmp (R155). -/
inductive ICond where
  | eq | ne | lt | le | gt | ge
  deriving DecidableEq, Repr

def ICond.code : ICond → Nat
  | .eq => 0
  | .ne => 1
  | .lt => 2
  | .le => 3
  | .gt => 4
  | .ge => 5

def ICond.ofCode : Nat → Option ICond
  | 0 => some .eq
  | 1 => some .ne
  | 2 => some .lt
  | 3 => some .le
  | 4 => some .gt
  | 5 => some .ge
  | _ => none

/-- Factor of vext (R159). -/
inductive ExtF where
  | x2 | x4 | x8
  deriving DecidableEq, Repr

def ExtF.code : ExtF → Nat
  | .x2 => 0
  | .x4 => 1
  | .x8 => 2

def ExtF.ofCode : Nat → Option ExtF
  | 0 => some .x2
  | 1 => some .x4
  | 2 => some .x8
  | _ => none

/-- Source format of the stochastic form of vfcvt and vquant (R165). -/
inductive CtrSrc where
  | f32 | bf | f16 | f64
  deriving DecidableEq, Repr

def CtrSrc.code : CtrSrc → Nat
  | .f32 => 0
  | .bf => 1
  | .f16 => 2
  | .f64 => 3

def CtrSrc.ofCode : Nat → Option CtrSrc
  | 0 => some .f32
  | 1 => some .bf
  | 2 => some .f16
  | 3 => some .f64
  | _ => none

/-- Variant of vredsum (R169). -/
inductive RedVar where
  | wrap | satS | satU
  deriving DecidableEq, Repr

def RedVar.code : RedVar → Nat
  | .wrap => 0
  | .satS => 1
  | .satU => 2

def RedVar.ofCode : Nat → Option RedVar
  | 0 => some .wrap
  | 1 => some .satS
  | 2 => some .satU
  | _ => none

/-- Operation of vredbit (R169). -/
inductive BitOp where
  | and | or | xor
  deriving DecidableEq, Repr

def BitOp.code : BitOp → Nat
  | .and => 0
  | .or => 1
  | .xor => 2

def BitOp.ofCode : Nat → Option BitOp
  | 0 => some .and
  | 1 => some .or
  | 2 => some .xor
  | _ => none

/-- Combination of vscan, tup and tdown (R174, R184). -/
inductive FoldOp where
  | sum | max | min
  deriving DecidableEq, Repr

def FoldOp.code : FoldOp → Nat
  | .sum => 0
  | .max => 1
  | .min => 2

def FoldOp.ofCode : Nat → Option FoldOp
  | 0 => some .sum
  | 1 => some .max
  | 2 => some .min
  | _ => none

/-- Memory element width (R76); sew is the SEW in VTYPE. -/
inductive VWidth where
  | e2 | e4 | e8 | e16 | e32 | e64 | sew
  deriving DecidableEq, Repr

def VWidth.code : VWidth → Nat
  | .e2 => 0
  | .e4 => 1
  | .e8 => 2
  | .e16 => 3
  | .e32 => 4
  | .e64 => 5
  | .sew => 6

def VWidth.ofCode : Nat → Option VWidth
  | 0 => some .e2
  | 1 => some .e4
  | 2 => some .e8
  | 3 => some .e16
  | 4 => some .e32
  | 5 => some .e64
  | 6 => some .sew
  | _ => none

/-- Placement policy of a vector memory instruction (R76, R200). -/
inductive Policy where
  | dflt | stream | keep | l2
  deriving DecidableEq, Repr

def Policy.code : Policy → Nat
  | .dflt => 0
  | .stream => 1
  | .keep => 2
  | .l2 => 3

def Policy.ofCode : Nat → Option Policy
  | 0 => some .dflt
  | 1 => some .stream
  | 2 => some .keep
  | 3 => some .l2
  | _ => none

/-- Operation of vamo, the value {bit 3, bit 2, bit 0} (R76, R239). -/
inductive VamoOp where
  | add | swap | and | or | xor | min | max | fadd
  deriving DecidableEq, Repr

def VamoOp.code : VamoOp → Nat
  | .add => 0
  | .swap => 1
  | .and => 2
  | .or => 3
  | .xor => 4
  | .min => 5
  | .max => 6
  | .fadd => 7

def VamoOp.ofCode : Nat → Option VamoOp
  | 0 => some .add
  | 1 => some .swap
  | 2 => some .and
  | 3 => some .or
  | 4 => some .xor
  | 5 => some .min
  | 6 => some .max
  | 7 => some .fadd
  | _ => none

/-- Operation of hacc (R245, R249). -/
inductive HaccOp where
  | add | fadd | max | min
  deriving DecidableEq, Repr

def HaccOp.code : HaccOp → Nat
  | .add => 0
  | .fadd => 1
  | .max => 2
  | .min => 3

def HaccOp.ofCode : Nat → Option HaccOp
  | 0 => some .add
  | 1 => some .fadd
  | 2 => some .max
  | 3 => some .min
  | _ => none

/-- Weight format of mlds (R281, R287). -/
inductive WFmt where
  | bf16 | e4m3 | e5m2 | mxfp4 | kfp4 | int4
  deriving DecidableEq, Repr

def WFmt.code : WFmt → Nat
  | .bf16 => 0
  | .e4m3 => 1
  | .e5m2 => 2
  | .mxfp4 => 3
  | .kfp4 => 4
  | .int4 => 5

def WFmt.ofCode : Nat → Option WFmt
  | 0 => some .bf16
  | 1 => some .e4m3
  | 2 => some .e5m2
  | 3 => some .mxfp4
  | 4 => some .kfp4
  | 5 => some .int4
  | _ => none

/-- Operation of mmac (R281, R289). -/
inductive MmacOp where
  | acc | dfifo | dspm
  deriving DecidableEq, Repr

def MmacOp.code : MmacOp → Nat
  | .acc => 0
  | .dfifo => 1
  | .dspm => 2

def MmacOp.ofCode : Nat → Option MmacOp
  | 0 => some .acc
  | 1 => some .dfifo
  | 2 => some .dspm
  | _ => none

/-- Conversion code of fcvt, its b field (R124): float to float from a source precision, float to integer, integer to
float. -/
inductive FcvtKind where
  | ff (src : Prec) | fi (k : IKind) | xf (k : IKind)
  deriving DecidableEq, Repr

def FcvtKind.code : FcvtKind → Nat
  | .ff p => p.code
  | .fi k => 8 + k.code
  | .xf k => 16 + k.code

def FcvtKind.ofCode (b : Nat) : Option FcvtKind :=
  match b / 8 with
  | 0 => (Prec.ofCode (b % 8)).map .ff
  | 1 => (IKind.ofCode (b % 8)).map .fi
  | 2 => (IKind.ofCode (b % 8)).map .xf
  | _ => none

/-- Source operand of vfcvt and vquant (R165): a source code in the b field (sb = 0), or an x register holding the
counter of stochastic rounding and a source named by var (sb = 1). -/
inductive CvtSrc where
  | code (c : BitVec 5) | ctr (x : Reg) (src : CtrSrc)
  deriving DecidableEq, Repr

/-- The instructions and device steps: the words with operands, the device steps, then the rows without operands. -/
inductive Instr where
  /-- ADD (R117). Writes x[a] + x[b] modulo 2^64 to x[d]. -/
  | add (d a b : Reg)
  /-- SUB (R117). Writes x[a] - x[b] modulo 2^64 to x[d]. -/
  | sub (d a b : Reg)
  /-- MUL (R117). Writes the low 64 bits of x[a] × x[b] to x[d]. -/
  | mul (d a b : Reg)
  /-- MULH (R117). Writes the high 64 bits of the signed 128-bit product to x[d]. -/
  | mulh (d a b : Reg)
  /-- MULHU (R117). Writes the high 64 bits of the unsigned 128-bit product to x[d]. -/
  | mulhu (d a b : Reg)
  /-- DIV (R118). Signed division rounded toward zero, never trapping. -/
  | div (d a b : Reg)
  /-- DIVU (R118). Unsigned division, never trapping. -/
  | divu (d a b : Reg)
  /-- REM (R118). Signed remainder with the sign of the dividend. -/
  | rem (d a b : Reg)
  /-- REMU (R118). Unsigned remainder. -/
  | remu (d a b : Reg)
  /-- AND (R117). Bitwise and of x[a] and x[b]. -/
  | and (d a b : Reg)
  /-- OR (R117). Bitwise or of x[a] and x[b]. -/
  | or (d a b : Reg)
  /-- XOR (R117). Bitwise exclusive or of x[a] and x[b]. -/
  | xor (d a b : Reg)
  /-- SLL (R117). Shifts x[a] left by x[b] & 63. -/
  | sll (d a b : Reg)
  /-- SRL (R117). Logical right shift of x[a] by x[b] & 63. -/
  | srl (d a b : Reg)
  /-- SRA (R117). Arithmetic right shift of x[a] by x[b] & 63. -/
  | sra (d a b : Reg)
  /-- SLT (R117). Writes 1 if x[a] < x[b] signed, else 0. -/
  | slt (d a b : Reg)
  /-- SLTU (R117). Writes 1 if x[a] < x[b] unsigned, else 0. -/
  | sltu (d a b : Reg)
  /-- MIN (R117). Signed minimum of x[a] and x[b]. -/
  | min (d a b : Reg)
  /-- MAX (R117). Signed maximum of x[a] and x[b]. -/
  | max (d a b : Reg)
  /-- MINU (R117). Unsigned minimum of x[a] and x[b]. -/
  | minu (d a b : Reg)
  /-- MAXU (R117). Unsigned maximum of x[a] and x[b]. -/
  | maxu (d a b : Reg)
  /-- CLZ (R117). Counts leading zero bits of x[a]. -/
  | clz (d a : Reg)
  /-- CTZ (R117). Counts trailing zero bits of x[a]. -/
  | ctz (d a : Reg)
  /-- POPC (R117). Counts one bits of x[a]. -/
  | popc (d a : Reg)
  /-- ROTL (R117). Rotates x[a] left by x[b] & 63. -/
  | rotl (d a b : Reg)
  /-- ROTR (R117). Rotates x[a] right by x[b] & 63. -/
  | rotr (d a b : Reg)
  /-- EXT (R119). Extracts a sign- or zero-extended bit field of x[a] starting at x[b] & 63. -/
  | ext (d a b : Reg) (sgn : Bool) (len1 : BitVec 6)
  /-- FADD (R121). Rounded floating-point addition in the chosen precision. -/
  | fadd (d a b : Reg) (p : Prec) (rc : Rc)
  /-- FSUB (R121). Rounded floating-point subtraction. -/
  | fsub (d a b : Reg) (p : Prec) (rc : Rc)
  /-- FMUL (R121). Rounded floating-point multiplication. -/
  | fmul (d a b : Reg) (p : Prec) (rc : Rc)
  /-- FDIV (R121). Rounded floating-point division. -/
  | fdiv (d a b : Reg) (p : Prec) (rc : Rc)
  /-- FSQRT (R121). Rounded floating-point square root of f[a]. -/
  | fsqrt (d a : Reg) (p : Prec) (rc : Rc)
  /-- FMADD (R122). Fused multiply-add f[a] × f[b] + f[d] with optional negations and one rounding. -/
  | fmadd (d a b : Reg) (negp negc : Bool) (p : Prec) (rc : Rc)
  /-- FMIN (R56). Floating-point minimum ordering -0 below +0. -/
  | fmin (d a b : Reg) (p : Prec)
  /-- FMAX (R56). Floating-point maximum ordering -0 below +0. -/
  | fmax (d a b : Reg) (p : Prec)
  /-- FCMP (R123). Writes 1 to x[d] when the floating-point condition holds. -/
  | fcmp (d a b : Reg) (p : Prec) (c : FCond)
  /-- FCVT (R124). Converts between floating-point precisions or between floating point and integer. -/
  | fcvt (d a : Reg) (k : FcvtKind) (p : Prec) (rc : Rc)
  /-- FMV (R125). Copies bits between f and x registers without conversion. -/
  | fmv (d a : Reg) (dir : FmvDir) (p : Prec)
  /-- FCLASS (R126). Writes a classification word of f[a] to x[d]. -/
  | fclass (d a : Reg) (p : Prec)
  /-- ADDI (R127). Adds a sign-extended 12-bit immediate to x[a]. -/
  | addi (d a : Reg) (imm : BitVec 12)
  /-- ANDI (R127). Ands x[a] with a zero-extended immediate. -/
  | andi (d a : Reg) (imm : BitVec 12)
  /-- ORI (R127). Ors x[a] with a zero-extended immediate. -/
  | ori (d a : Reg) (imm : BitVec 12)
  /-- XORI (R127). Exclusive-ors x[a] with a zero-extended immediate. -/
  | xori (d a : Reg) (imm : BitVec 12)
  /-- SLLI (R127). Shifts x[a] left by an immediate. -/
  | slli (d a : Reg) (sh : BitVec 6)
  /-- SRLI (R127). Logical right shift by an immediate. -/
  | srli (d a : Reg) (sh : BitVec 6)
  /-- SRAI (R127). Arithmetic right shift by an immediate. -/
  | srai (d a : Reg) (sh : BitVec 6)
  /-- SLTI (R127). Signed compare of x[a] with an immediate. -/
  | slti (d a : Reg) (imm : BitVec 12)
  /-- SLTUI (R127). Unsigned compare of x[a] with a sign-extended immediate. -/
  | sltui (d a : Reg) (imm : BitVec 12)
  /-- LIH (R127). Writes the sign-extended immediate shifted left by 12. -/
  | lih (d : Reg) (imm : BitVec 17)
  /-- PCADD (R127). Writes the word's address plus the immediate shifted left by 12. -/
  | pcadd (d : Reg) (imm : BitVec 17)
  /-- BEQ (R128). Branches when x[a] equals x[b]. -/
  | beq (a b : Reg) (off : BitVec 15)
  /-- BNE (R128). Branches when x[a] differs from x[b]. -/
  | bne (a b : Reg) (off : BitVec 15)
  /-- BLT (R128). Branches when x[a] < x[b] signed. -/
  | blt (a b : Reg) (off : BitVec 15)
  /-- BGE (R128). Branches when x[a] >= x[b] signed. -/
  | bge (a b : Reg) (off : BitVec 15)
  /-- BLTU (R128). Branches when x[a] < x[b] unsigned. -/
  | bltu (a b : Reg) (off : BitVec 15)
  /-- BGEU (R128). Branches when x[a] >= x[b] unsigned. -/
  | bgeu (a b : Reg) (off : BitVec 15)
  /-- JAL (R128). Jumps to a PC-relative target and writes the link register. -/
  | jal (d : Reg) (off : BitVec 20)
  /-- JALR (R128). Jumps to x[a] plus an offset and writes the link register. -/
  | jalr (d a : Reg) (off : BitVec 15)
  /-- LD_S8 (R221). Loads a byte sign-extended. -/
  | ldS8 (d a : Reg) (imm : BitVec 12)
  /-- LD_Z8 (R221). Loads a byte zero-extended. -/
  | ldZ8 (d a : Reg) (imm : BitVec 12)
  /-- LD_S16 (R221). Loads 2 bytes sign-extended. -/
  | ldS16 (d a : Reg) (imm : BitVec 12)
  /-- LD_Z16 (R221). Loads 2 bytes zero-extended. -/
  | ldZ16 (d a : Reg) (imm : BitVec 12)
  /-- LD_S32 (R221). Loads 4 bytes sign-extended. -/
  | ldS32 (d a : Reg) (imm : BitVec 12)
  /-- LD_Z32 (R221). Loads 4 bytes zero-extended. -/
  | ldZ32 (d a : Reg) (imm : BitVec 12)
  /-- LD_64 (R221). Loads 8 bytes. -/
  | ld64 (d a : Reg) (imm : BitVec 12)
  /-- ST_8 (R221). Stores the low byte of x[d]. -/
  | st8 (d a : Reg) (imm : BitVec 12)
  /-- ST_16 (R221). Stores the low 2 bytes of x[d]. -/
  | st16 (d a : Reg) (imm : BitVec 12)
  /-- ST_32 (R221). Stores the low 4 bytes of x[d]. -/
  | st32 (d a : Reg) (imm : BitVec 12)
  /-- ST_64 (R221). Stores the 8 bytes of x[d]. -/
  | st64 (d a : Reg) (imm : BitVec 12)
  /-- FLD_16 (R221). Loads 2 bytes into an f register. -/
  | fld16 (d a : Reg) (imm : BitVec 12)
  /-- FLD_32 (R221). Loads 4 bytes into an f register. -/
  | fld32 (d a : Reg) (imm : BitVec 12)
  /-- FLD_64 (R221). Loads 8 bytes into an f register. -/
  | fld64 (d a : Reg) (imm : BitVec 12)
  /-- FST_16 (R221). Stores the low 2 bytes of f[d]. -/
  | fst16 (d a : Reg) (imm : BitVec 12)
  /-- FST_32 (R221). Stores the low 4 bytes of f[d]. -/
  | fst32 (d a : Reg) (imm : BitVec 12)
  /-- FST_64 (R221). Stores the 8 bytes of f[d]. -/
  | fst64 (d a : Reg) (imm : BitVec 12)
  /-- LDA (R223). Acquire load at the named scope. -/
  | lda (d a : Reg) (sc : Scope) (w : MWidth)
  /-- STL (R223). Release store at the named scope. -/
  | stl (d a : Reg) (sc : Scope) (w : MWidth)
  /-- CAS (R224). Atomic compare and swap returning the old value. -/
  | cas (d a b : Reg) (o : Order) (sc : Scope) (w : MWidth)
  /-- AMOSWAP (R225). Atomic swap returning the old value. -/
  | amoswap (d a b : Reg) (o : Order) (sc : Scope) (w : MWidth)
  /-- AMOADD (R225). Atomic add returning the old value. -/
  | amoadd (d a b : Reg) (o : Order) (sc : Scope) (w : MWidth)
  /-- AMOAND (R225). Atomic bitwise and returning the old value. -/
  | amoand (d a b : Reg) (o : Order) (sc : Scope) (w : MWidth)
  /-- AMOOR (R225). Atomic bitwise or returning the old value. -/
  | amoor (d a b : Reg) (o : Order) (sc : Scope) (w : MWidth)
  /-- AMOXOR (R225). Atomic exclusive or returning the old value. -/
  | amoxor (d a b : Reg) (o : Order) (sc : Scope) (w : MWidth)
  /-- AMOMIN (R225). Atomic signed minimum returning the old value. -/
  | amomin (d a b : Reg) (o : Order) (sc : Scope) (w : MWidth)
  /-- AMOMAX (R225). Atomic signed maximum returning the old value. -/
  | amomax (d a b : Reg) (o : Order) (sc : Scope) (w : MWidth)
  /-- FENCE (R227). Orders the thread's scalar accesses of the named kinds at a scope. -/
  | fence (k : Kinds) (sc : Scope)
  /-- CSRR (R130). Reads a CSR into x[d]. -/
  | csrr (d : Reg) (n : BitVec 12)
  /-- CSRW (R130). Writes x[a] to a CSR and returns the old value. -/
  | csrw (d a : Reg) (n : BitVec 12)
  /-- CSRS (R130). Sets CSR bits from x[a] and returns the old value. -/
  | csrs (d a : Reg) (n : BitVec 12)
  /-- CSRC (R130). Clears CSR bits from x[a] and returns the old value. -/
  | csrc (d a : Reg) (n : BitVec 12)
  /-- TRAP (R131). Raises BREAK on the issuing thread's core. -/
  | trap (imm : BitVec 17)
  /-- SYSCALL (R133). Copies a 64-byte request into the system-call ring and raises SYSCALL. -/
  | syscall (d a : Reg)
  /-- PARK (R134). Parks the thread until the line holding x[a] is written. -/
  | park (a : Reg)
  /-- SPLIT (R20). Checks, drains the VIQ and replaces the hart by n children. -/
  | split (n : BitVec 4)
  /-- BAR (R31). Parks the hart until every participant of the scope has arrived. -/
  | bar (sc : BarScope)
  /-- LAUNCH (R139). Reads and checks a launch descriptor and queues it or defers it to icommit. -/
  | launch (d a : Reg)
  /-- IOPEN (R34). Drains, snapshots state and opens an iteration region with a budget. -/
  | iopen (a : Reg)
  /-- WAITGE (R135). Waits until a completion cell's count reaches a target or its status is non-zero. -/
  | waitge (d a b : Reg)
  /-- CTXSAVE (R141). Writes the parked user thread's context image and vacates the slot under PREEMPT. -/
  | ctxsave (d a : Reg)
  /-- CTXLOAD (R141). Restores a context image into a vacant slot. -/
  | ctxload (d a : Reg)
  /-- TLBINV (R142). Removes translations from this core or every core of the package. -/
  | tlbinv (a : Reg) (e : TlbExtent)
  /-- PFX (R77). Prefix lending its successor a predicate and a destination copy. -/
  | pfx (m : MReg) (sense zero : Bool) (cf : CFile) (creg : Reg)
  /-- SETVL (R149). Sets VTYPE, VL and VSHAPE and returns the granted length. -/
  | setvl (d a : Reg) (vt : BitVec 9)
  /-- SETSHAPE (R150). Sets the row count and row length of VSHAPE. -/
  | setshape (d a b : Reg)
  /-- VMAND (R151). Mask and. -/
  | vmand (d a b : MReg) (mk : Bool)
  /-- VMOR (R151). Mask or. -/
  | vmor (d a b : MReg) (mk : Bool)
  /-- VMXOR (R151). Mask exclusive or. -/
  | vmxor (d a b : MReg) (mk : Bool)
  /-- VMNOT (R151). Mask complement. -/
  | vmnot (d a : MReg) (mk : Bool)
  /-- VPOPC (R152). Returns the count of active set mask bits to x[d]. -/
  | vpopc (d : Reg) (a : MReg) (mk : Bool)
  /-- VFIRST (R152). Returns the lowest active set mask index, or VL. -/
  | vfirst (d : Reg) (a : MReg) (mk : Bool)
  /-- VMSPAN (R153). Writes a mask before, through, after or between the first and last set bits. -/
  | vmspan (d a : MReg) (mk : Bool) (v : SpanVar)
  /-- VMRANK (R153). Writes the exclusive or inclusive rank of each element in a mask. -/
  | vmrank (d : Reg) (a : MReg) (mk incl : Bool)
  /-- VADD (R154). Elementwise integer add. -/
  | vadd (d a b : Reg) (mk sb : Bool)
  /-- VSUB (R154). Elementwise integer subtract. -/
  | vsub (d a b : Reg) (mk sb : Bool)
  /-- VMUL (R154). Elementwise low-half integer multiply. -/
  | vmul (d a b : Reg) (mk sb : Bool)
  /-- VMULH (R154). Elementwise high-half integer multiply. -/
  | vmulh (d a b : Reg) (mk sb : Bool) (v : MulhVar)
  /-- VAND (R154). Elementwise bitwise and. -/
  | vand (d a b : Reg) (mk sb : Bool)
  /-- VOR (R154). Elementwise bitwise or. -/
  | vor (d a b : Reg) (mk sb : Bool)
  /-- VXOR (R154). Elementwise bitwise exclusive or. -/
  | vxor (d a b : Reg) (mk sb : Bool)
  /-- VSLL (R154). Elementwise left shift. -/
  | vsll (d a b : Reg) (mk sb : Bool)
  /-- VSRL (R154). Elementwise logical right shift. -/
  | vsrl (d a b : Reg) (mk sb : Bool)
  /-- VSRA (R154). Elementwise arithmetic right shift. -/
  | vsra (d a b : Reg) (mk sb : Bool)
  /-- VMIN (R154). Elementwise signed minimum. -/
  | vmin (d a b : Reg) (mk sb : Bool)
  /-- VMAX (R154). Elementwise signed maximum. -/
  | vmax (d a b : Reg) (mk sb : Bool)
  /-- VMINU (R154). Elementwise unsigned minimum. -/
  | vminu (d a b : Reg) (mk sb : Bool)
  /-- VMAXU (R154). Elementwise unsigned maximum. -/
  | vmaxu (d a b : Reg) (mk sb : Bool)
  /-- VSADD (R154). Elementwise saturating add. -/
  | vsadd (d a b : Reg) (mk sb uns : Bool)
  /-- VSSUB (R154). Elementwise saturating subtract. -/
  | vssub (d a b : Reg) (mk sb uns : Bool)
  /-- VCMP (R155). Elementwise integer compare into a mask. -/
  | vcmp (d : MReg) (a b : Reg) (mk sb uns : Bool) (c : ICond)
  /-- VMERGE (R156). Selects operand b or v[a] per element by the predicate. -/
  | vmerge (d a b : Reg) (mk sb : Bool)
  /-- VMV (R156). Copies a register or splats a scalar into active elements. -/
  | vmv (d b : Reg) (mk sb : Bool)
  /-- VMV_X (R156). Returns element x[b] of v[a] to x[d]. -/
  | vmvX (d a b : Reg) (mk : Bool)
  /-- VWADD (R157). Widening integer add. -/
  | vwadd (d a b : Reg) (mk sb uns : Bool)
  /-- VWMUL (R157). Widening integer multiply. -/
  | vwmul (d a b : Reg) (mk sb uns : Bool)
  /-- VNARROW (R158). Narrows a wide operand, optionally saturating. -/
  | vnarrow (d a : Reg) (mk sat uns : Bool)
  /-- VEXT (R159). Sign- or zero-extends narrower elements to SEW. -/
  | vext (d a : Reg) (mk : Bool) (f : ExtF) (zero : Bool)
  /-- VFADD (R160). Elementwise floating-point add. -/
  | vfadd (d a b : Reg) (mk sb : Bool) (rc : Rc)
  /-- VFSUB (R160). Elementwise floating-point subtract. -/
  | vfsub (d a b : Reg) (mk sb : Bool) (rc : Rc)
  /-- VFMUL (R160). Elementwise floating-point multiply. -/
  | vfmul (d a b : Reg) (mk sb : Bool) (rc : Rc)
  /-- VFDIV (R160). Elementwise floating-point divide. -/
  | vfdiv (d a b : Reg) (mk sb : Bool) (rc : Rc)
  /-- VFSQRT (R160). Elementwise floating-point square root. -/
  | vfsqrt (d a : Reg) (mk : Bool) (rc : Rc)
  /-- VFMADD (R161). Elementwise fused multiply-add with v[d] as addend. -/
  | vfmadd (d a b : Reg) (mk sb negp negc : Bool) (rc : Rc)
  /-- VFMIN (R160). Elementwise floating-point minimum. -/
  | vfmin (d a b : Reg) (mk sb : Bool)
  /-- VFMAX (R160). Elementwise floating-point maximum. -/
  | vfmax (d a b : Reg) (mk sb : Bool)
  /-- VFCMP (R162). Elementwise floating-point compare into a mask. -/
  | vfcmp (d : MReg) (a b : Reg) (mk sb : Bool) (c : FCond)
  /-- VFCVT (R166). Converts v[a] from a source format to the VTYPE format. -/
  | vfcvt (d a : Reg) (mk : Bool) (src : CvtSrc) (rc : Rc)
  /-- VFEXP2 (R163). Correctly rounded 2^a. -/
  | vfexp2 (d a : Reg) (mk : Bool) (rc : Rc)
  /-- VFLOG2 (R163). Correctly rounded log2 a. -/
  | vflog2 (d a : Reg) (mk : Bool) (rc : Rc)
  /-- VFRECIP (R163). Correctly rounded 1/a. -/
  | vfrecip (d a : Reg) (mk : Bool) (rc : Rc)
  /-- VFSCALE (R164). Rounds a × 2^n. -/
  | vfscale (d a b : Reg) (mk sb : Bool) (rc : Rc)
  /-- VMXDOT (R168). Accumulates block-scaled dot products into FP32 elements. -/
  | vmxdot (d a b : Reg) (mk scb sca : Bool)
  /-- VQUANT (R167). Quantises into a block format and writes descriptors to v31. -/
  | vquant (d a : Reg) (mk : Bool) (src : CvtSrc) (rc : Rc)
  /-- VREDSUM (R169). Integer sum reduction into element 0. -/
  | vredsum (d a b : Reg) (mk sb : Bool) (v : RedVar)
  /-- VREDMAX (R169). Integer maximum reduction. -/
  | vredmax (d a b : Reg) (mk sb uns : Bool)
  /-- VREDMIN (R169). Integer minimum reduction. -/
  | vredmin (d a b : Reg) (mk sb uns : Bool)
  /-- VREDBIT (R169). Bitwise and, or or xor reduction. -/
  | vredbit (d a b : Reg) (mk sb : Bool) (op : BitOp)
  /-- VFREDSUM (R170). Floating-point sum reduction in canonical or fast order. -/
  | vfredsum (d a b : Reg) (mk sb : Bool)
  /-- VFREDMAX (R170). Floating-point maximum reduction. -/
  | vfredmax (d a b : Reg) (mk sb : Bool)
  /-- VARGMAX (R171). Returns the active index of greatest value. -/
  | vargmax (d a : Reg) (mk : Bool)
  /-- VCOMPRESS (R172). Packs selected elements to the front of v[d]. -/
  | vcompress (d a : Reg) (mk : Bool)
  /-- VEXPAND (R172). Spreads consecutive elements into selected positions. -/
  | vexpand (d a : Reg) (mk : Bool)
  /-- VSLIDEUP (R173). Slides elements up by a scalar offset. -/
  | vslideup (d a b : Reg) (mk : Bool)
  /-- VSLIDEDN (R173). Slides elements down by a scalar offset. -/
  | vslidedn (d a b : Reg) (mk : Bool)
  /-- VPERM (R173). Permutes elements by an index. -/
  | vperm (d a b : Reg) (mk sb : Bool)
  /-- VSCAN (R174). Inclusive running sum, max or min. -/
  | vscan (d a : Reg) (mk : Bool) (op : FoldOp)
  /-- VRAND (R175). Writes counter-based random words or uniforms. -/
  | vrand (d a b : Reg) (mk uni : Bool)
  /-- VSAMPLE (R176). Draws an index from non-negative FP32 weights. -/
  | vsample (d a b : Reg) (mk sb : Bool)
  /-- VGMAX (R177). Gumbel-max sampling over logits. -/
  | vgmax (d a b : Reg) (mk : Bool)
  /-- VLD (R232). Unit-stride vector load. -/
  | vld (d base : Reg) (w : VWidth) (o h : Bool) (pol : Policy) (mk x : Bool)
  /-- VLDS (R232). Strided vector load. -/
  | vlds (d base ix : Reg) (w : VWidth) (o h : Bool) (pol : Policy) (mk x : Bool)
  /-- VLDX (R232). Indexed vector load (gather). -/
  | vldx (d base ix : Reg) (w : VWidth) (o h : Bool) (pol : Policy) (mk x : Bool)
  /-- VLDFF (R238). First-fault unit-stride load that trims VL at a later fault. -/
  | vldff (d base : Reg) (w : VWidth) (o h : Bool) (pol : Policy) (mk x : Bool)
  /-- VLDXFF (R238). First-fault indexed load. -/
  | vldxff (d base ix : Reg) (w : VWidth) (o h : Bool) (pol : Policy) (mk x : Bool)
  /-- VST (R232). Unit-stride vector store. -/
  | vst (d base : Reg) (w : VWidth) (o h : Bool) (pol : Policy) (mk : Bool)
  /-- VSTS (R232). Strided vector store. -/
  | vsts (d base ix : Reg) (w : VWidth) (o h : Bool) (pol : Policy) (mk : Bool)
  /-- VSTX (R232). Indexed vector store (scatter). -/
  | vstx (d base ix : Reg) (w : VWidth) (o h : Bool) (pol : Policy) (mk : Bool)
  /-- VAMO (R239). Applies an atomic operation at each element's address returning old values. -/
  | vamo (d base ix : Reg) (w : VWidth) (o h : Bool) (op : VamoOp) (mk : Bool)
  /-- VLOCK (R241). Tries a set of 8-byte locks by cas and writes the held mask. -/
  | vlock (d : MReg) (base ix : Reg) (s h mk : Bool)
  /-- VUNLOCK (R242). Releases held locks with release stores. -/
  | vunlock (d : MReg) (ix : Reg) (h mk : Bool)
  /-- VSAVE (R243). Writes an image of a whole v register. -/
  | vsave (d base : Reg) (h : Bool) (pol : Policy)
  /-- VRESTORE (R243). Reads a v register image back after header checks. -/
  | vrestore (d base : Reg) (h : Bool) (pol : Policy)
  /-- TSET (R185). Writes topology entries from a value register. -/
  | tset (d : TReg) (a : Reg) (mk : Bool)
  /-- TGET (R185). Reads raw topology entries into a value register. -/
  | tget (d : Reg) (a : TReg) (mk : Bool)
  /-- TUP (R186). Combines values over each node's subtree. -/
  | tup (d : Reg) (a : TReg) (b : Reg) (mk : Bool) (op : FoldOp)
  /-- TDOWN (R186). Combines values along each node's path to its root. -/
  | tdown (d : Reg) (a : TReg) (b : Reg) (mk : Bool) (op : FoldOp)
  /-- TBCAST (R187). Copies root or parent values to each node. -/
  | tbcast (d : Reg) (a : TReg) (b : Reg) (mk par : Bool)
  /-- TDEPTH (R188). Writes each node's depth. -/
  | tdepth (d : Reg) (a : TReg) (mk : Bool)
  /-- TANC (R189). Writes the mask of the chain of node x[b]. -/
  | tanc (d : MReg) (a : TReg) (b : Reg) (mk : Bool)
  /-- TANC_UP (R189). Writes the ancestor reached by a given distance. -/
  | tancUp (d : Reg) (a : TReg) (b : Reg) (mk sb : Bool)
  /-- TROOT (R188). Writes each node's root index. -/
  | troot (d : Reg) (a : TReg) (mk : Bool)
  /-- TCONTRACT (R193). Keeps entries inside this chunk in local numbering. -/
  | tcontract (d a : TReg) (b : Reg) (mk : Bool)
  /-- TCONTRACT_M (R193). Marks the boundary nodes of a chunk. -/
  | tcontractM (d : MReg) (a : TReg) (b : Reg) (mk : Bool)
  /-- TLEAF (R190). Marks nodes that are the parent of no node. -/
  | tleaf (d : MReg) (a : TReg) (mk : Bool)
  /-- TCHECK (R191). Marks cyclic or dangling-rooted nodes. -/
  | tcheck (d : MReg) (a : TReg) (mk dng : Bool)
  /-- TORDER (R192). Lists selected nodes in depth layers. -/
  | torder (d : Reg) (a : TReg) (mk : Bool)
  /-- HCFG (R247). Claims and initialises or releases the hash table. -/
  | hcfg (a b : Reg)
  /-- HINS (R249). Inserts keys not already present. -/
  | hins (d : MReg) (a b : Reg) (mk : Bool)
  /-- HPRB (R249). Probes keys returning values and a found mask. -/
  | hprb (d a : Reg) (b : MReg) (mk : Bool)
  /-- HDEL (R249). Deletes keys. -/
  | hdel (d : MReg) (a : Reg) (mk : Bool)
  /-- HACC (R249). Folds values per key and accumulates or inserts them. -/
  | hacc (d : MReg) (a b : Reg) (mk : Bool) (op : HaccOp)
  /-- HDRN (R252). Reads live table entries out from the cursor. -/
  | hdrn (d a : Reg)
  /-- STRIKE (R253). Strikes consecutive tent tiles, returning frames to the pool. -/
  | strike (a b : Reg)
  /-- LDE (R255). Loads tent data with an existence mask. -/
  | lde (d a : Reg) (b : MReg) (mk : Bool)
  /-- TSITE (R256). Returns a tile's site-map entry. -/
  | tsite (d a : Reg)
  /-- TTAG (R256). Writes a present tile's format tag. -/
  | ttag (a b : Reg)
  /-- TREMAP (R257). Moves tile b's frame into tile a. -/
  | tremap (d a b : Reg)
  /-- TAP_DOT (R260). Accumulates probe dot products into a pennant accumulator. -/
  | tapDot (d : PaReg) (a b : Reg) (mk : Bool) (tap : BitVec 3)
  /-- TAP_FIN (R261). Adds biases, tests thresholds and records or traps on crossings. -/
  | tapFin (d : PaReg) (mk : Bool) (tap : BitVec 3)
  /-- TAP_STEER (R262). Adds scaled steering vectors to enabled rows. -/
  | tapSteer (d : Reg) (a : PaReg) (b : Reg) (mk : Bool) (tap : BitVec 3)
  /-- MLDS (R287). MCC enters a load of a stationary weight tile into the shadow plane. -/
  | mlds (d a : Reg) (push pop late : Bool) (fmt : WFmt)
  /-- MSWAP (R288). MCC enters an exchange of the weight planes. -/
  | mswap (d : Reg) (push pop late : Bool)
  /-- MMAC (R289). MCC checks a control word and enters an accumulate or drain. -/
  | mmac (d a b : Reg) (push pop late : Bool) (op : MmacOp)
  /-- MFEED (R290). Enters rows into the feed FIFO. -/
  | mfeed (a : Reg) (push pop mk : Bool)
  /-- MPULL (R291). Removes rows from the drain FIFO. -/
  | mpull (d : Reg) (push pop mk : Bool)
  /-- VOPACC (R293). Accumulates n outer products in the lanes. -/
  | vopacc (d a b : Reg) (push pop mk : Bool) (n1 : BitVec 3)
  /-- XCOPY (R294). Reads a parameter block and enters a copy or convert command. -/
  | xcopy (a : Reg) (push pop : Bool)
  /-- XRED (R294). Reads a parameter block and enters a reducing copy command. -/
  | xred (a : Reg) (push pop : Bool)
  /-- STRCFG (R300). Declares a stream slot's base, length, stride and width. -/
  | strcfg (d : SlotReg) (a b : Reg) (push pop : Bool) (w : VWidth)
  /-- VLD_S (R301). Loads the next strip of a stream. -/
  | vldS (d : Reg) (a : SlotReg) (push pop mk : Bool)
  /-- TOKPUSH (R286). Adds a token to the outgoing direction of the pair. -/
  | tokpush (d : Reg)
  /-- TOKPOP (R286). Takes a token from the incoming direction, waiting if empty. -/
  | tokpop (d : Reg)
  /-- VIQ_PUSH (R266). The scalar thread decodes a vector or engine word, captures operands and pushes it into the VIQ. -/
  | viqPush (w : BitVec 32)
  /-- ILLEGAL_WORD (R84). A thread fetches a word that is not a valid instruction for it and takes ILLEGAL, PRIV or PREFIX at decode. -/
  | illegalWord (w : BitVec 32) (code : Nat)
  /-- FETCH_FAULT (R129). The fetch of an instruction word fails NONCANON, PAGE or ACCESS and the fault is taken with SEPC, SCPC and STVAL at the target. -/
  | fetchFault (addr : Word) (code : Nat)
  /-- BUDGET_EXHAUSTED (R36). IBUDGET reaching zero abandons the region with PREEMPT. -/
  | budgetExhausted (p : Nat)
  /-- PARK_WAKE (R134). A write to a watched line, a tlbinv of its translation, or an engine record ends a park. -/
  | parkWake (p : Nat) (sup : Bool)
  /-- WAITGE_REREAD (R135). A write to the cell's line makes a parked waitge re-read and re-evaluate. -/
  | waitgeReread (p : Nat) (sup : Bool)
  /-- VECTOR_STORE_PERFORMED (R235). A retired vector store's elements become visible at core scope. -/
  | vectorStorePerformed (p slice : Nat)
  /-- SCALAR_STORE_PERFORMED (R327). A scalar store waiting in its queue is performed at core scope, some time after its instruction executed. -/
  | scalarStorePerformed (p : Nat) (sup : Bool)
  /-- MXA_COMMAND (R288). The Matrix Array begins a queued mlds, mswap or mmac in entry order. -/
  | mxaCommand (c : Nat)
  /-- MXA_COMMAND_DONE (R285). An MXA command completes and its .late token is pushed. -/
  | mxaCommandDone (c : Nat)
  /-- COPY_ISSUE (R298). A copy engine takes a command cleared by the range checker and takes its destination lines. -/
  | copyIssue (ce k : Nat)
  /-- RELEASED_ADD (R298). When every source byte is read the engine adds the increment to the released cell. -/
  | releasedAdd (ce k : Nat)
  /-- VISIBLE_ADD (R298). When every destination byte is visible the engine adds the increment to the visible cell. -/
  | visibleAdd (ce k : Nat)
  /-- COPY_FAILURE (R299). A failing command writes cell statuses, an engine-fault record and raises ENGINE_FAULT. -/
  | copyFailure (ce k code item : Nat)
  /-- STREAM_FETCH (R300). Fetch hardware brings a stream's next strip into the strip buffer. -/
  | streamFetch (p k : Nat)
  /-- MISS_REPLY (R207). A miss register's reply fills L2 and is multicast to merged requesters. -/
  | missReply (die line : Nat)
  /-- PREEMPT_DELIVERY (R354). A held pre-emption request stops the hart at its stop points and delivers PREEMPT. -/
  | preemptDelivery (p k : Nat)
  /-- RESTORE_SUSPENDED (R368). The dispatcher restores a suspended hart into a vacant slot via ctxload. -/
  | restoreSuspended (p : Nat) (va : Word)
  /-- LAUNCH_COMPLETION (R28). When every hart has exited and commands finished, the launch cell count is added and claims freed. -/
  | launchCompletion (n : Nat)
  /-- PRG_RESPONSE (R353). A page request group response arrives; on the last one the instruction restarts or ACCESS is delivered. -/
  | prgResponse (die k : Nat) (ok : Bool)
  /-- CLAIM (R387). A write to CLAIM elects an owner or completes a hand-over. -/
  | claim (port req : Nat) (v : Word)
  /-- CMD_PROD (R386). A write to CMD_PROD rings the doorbell; the peg core takes commands in ring order. -/
  | cmdProd (master : Nat) (v : Word)
  /-- REGISTER_BLOCK_WRITE (R386). A write to another register of the host block; non-owner writes are discarded. -/
  | registerBlockWrite (master off : Nat) (v : Word)
  /-- FFLAGS_WRITE (R60). A write or clear of FFLAGS waits for earlier VIQ instructions and then acts after them. -/
  | fflagsWrite (v : Word)
  /-- VTYPE_WRITE (R106). A CSR write of VTYPE that would leave an invalid pair takes ILLEGAL and leaves VTYPE unchanged. -/
  | vtypeWrite (v : Word)
  /-- VL_WRITE (R107). A supervisor write of VL stores min(value, VLMAX) in VL and VSHAPE.ROWLEN. -/
  | vlWrite (v : Word)
  /-- FMASK_WRITE (R108). A supervisor write to the FMASK window chooses which elements a replay retries. -/
  | fmaskWrite (v : Word)
  /-- VDIRTY_WRITE (R100). Clearing VDIRTY bits declares registers dead. -/
  | vdirtyWrite (v : Word)
  /-- SHTCUR_WRITE (R111). Writing SHTCUR, for instance 0, repositions or restarts a hash drain. -/
  | shtcurWrite (v : Word)
  /-- SHTOVF_WRITE (R247). A user write to SHTOVF is discarded while a table is claimed and stored without effect otherwise. -/
  | shtovfWrite (v : Word)
  /-- PNTBASE_WRITE (R113). A write to PNTBASE takes effect for tap instructions pushed after it. -/
  | pntbaseWrite (v : Word)
  /-- PFXS_WRITE (R80). A supervisor write of the trapped thread's PFXS; a user write takes PRIV. -/
  | pfxsWrite (v : Word)
  /-- PEER_TRAIN_ACK (R341). A destination package acknowledges a tag-0x4 element train. -/
  | peerTrainAck (p pkg : Nat)
  /-- DIRTY_EVICTION (R219). A dirty line is written back, or a bad sector is recorded lost. -/
  | dirtyEviction (die line : Nat)
  /-- HBM_SCRUB (R218). Peg firmware scrubs HBM and L2 in the background. -/
  | hbmScrub (die sector : Nat)
  /-- UNIT_GRANT (R369). A shared unit grants one request by deficit round-robin. -/
  | unitGrant (core u : Nat)
  /-- ATS_INVALIDATION (R391). A host ATS invalidation completes once no access uses the old translation. -/
  | atsInvalidation (va : Word)
  /-- HOST_ACCESS (R342). A host agent's access enters a port and is performed at the home directory. -/
  | hostAccess (addr : Nat) (data : List Byte)
  /-- LAUNCH_PACKET (R363). A rack scheduler node's launch packet is received and submitted. -/
  | launchPacket (data : List Byte)
  /-- RING_CONS (R275). Advancing the system-call consumer count frees slots taken by parked callers in order. -/
  | ringCons (master : Nat) (v : Word)
  /-- SUBMIT_LAUNCH (R388). Command 0x01 submits a launch descriptor and writes its residency report. -/
  | submitLaunch (desc report cpl : Word)
  /-- LOAD_OBJECT (R379). Command 0x02 checks and places a ZLO object or returns a refusal record. -/
  | loadObject (addr size refusal cpl : Word)
  /-- UNLOAD (R381). Command 0x03 unloads an object unless a launch names it. -/
  | unload (handle cpl : Word)
  /-- READ_DESCRIPTOR (R374). Command 0x04 returns a finished launch descriptor by name. -/
  | readDescriptor (handle : Word) (name : BitVec 192) (buf cpl : Word)
  /-- REGISTER_ASID (R388). Command 0x05 registers an address-space root under an ASID. -/
  | registerAsid (asid root cpl : Word)
  /-- DEFAULT_ASID (R389). Command 0x06 sets the owner's default ASID. -/
  | defaultAsid (asid cpl : Word)
  /-- CLUSTER_MASK (R364). Command 0x07 sets the owner's cluster mask for later placements. -/
  | clusterMask (mask : BitVec 128) (cpl : Word)
  /-- SUSPEND_LAUNCH (R388). Command 0x08 with operation 0 requests pre-emption of a launch with DETAIL 1. -/
  | suspendLaunch (n cpl : Word)
  /-- TERMINATE_LAUNCH (R397). Command 0x08 with operation 1 fails a launch with 0x0003. -/
  | terminateLaunch (n cpl : Word)
  /-- RESUME (R368). Command 0x09 restores an owner-suspended launch. -/
  | resume (n cpl : Word)
  /-- INVALIDATE (R388). Command 0x0A performs a package-wide translation invalidation. -/
  | invalidate (asid va extent cpl : Word)
  /-- READ_COUNTERS (R321). Command 0x0B returns error counts and queue occupancies, optionally clearing counts. -/
  | readCounters (buf flags cpl : Word)
  /-- HAND_OVER (R387). Command 0x0C nominates another master as owner. -/
  | handOver (master cpl : Word)
  /-- ATTEST (R393). Command 0x0D returns a signed quote over the nonce. -/
  | attest (nonce : BitVec 256) (buf cpl : Word)
  /-- RESTART_CANVAS (R394). Command 0x0E reloads canvas firmware into a halted supervisor thread. -/
  | restartCanvas (pscore cpl : Word)
  /-- STAGE_CANVAS (R393). Command 0x0F verifies and stages a canvas image for the next reset. -/
  | stageCanvas (addr size cpl : Word)
  /-- PACKAGE_RESET (R392). Reset verifies firmware, zeroes HBM, places canvas and starts supervisor threads. -/
  | packageReset (image : List Byte)
  /-- BOOT_OFFER (R392). A neighbour's image offer over UALink is verified and taken as parent. -/
  | bootOffer (pkg : Nat) (images : List Byte)
  /-- THROTTLE_STEP (R395). Peg sampling lowers or raises a die's clock by 250 MHz. -/
  | throttleStep (die : Nat) (up : Bool)
  /-- THERMAL_TRIP (R396). At 110 °C the die's clocks stop and event 3 is reported. -/
  | thermalTrip (die : Nat)
  /-- PEER_ACCESS (R339). A load, store, atomic or element train from another pod package arrives over UALink and is performed at this package's home directory. -/
  | peerAccess (pkg addr : Nat) (data : List Byte)
  /-- FENCE_SV (R228). Makes later vector accesses observe earlier scalar stores. -/
  | fenceSv
  /-- VDRAIN (R229). Holds the scalar thread until earlier VIQ work retires and its accesses are performed. -/
  | vdrain
  /-- LSYNC (R230). Sets a join point holding later memory work until earlier vector accesses perform. -/
  | lsync
  /-- TRET (R132). Resumes the parked user thread at SEPC, applying PFXS and clearing SVC. -/
  | tret
  /-- JOIN (R23). Drains a child and parks it; the last sibling reassembles the parent. -/
  | join
  /-- EXIT (R137). Drains the VIQ, performs stores and ends the hart or MCC stream. -/
  | exit
  /-- ICOMMIT (R37). Drains, strikes withheld births, makes others permanent and performs deferred work. -/
  | icommit
  /-- IABORT (R38). Terminates children, strikes births, discards deferred work and restores the snapshot. -/
  | iabort
  /-- PLACEMENT_SCAN (R365). The dispatcher offers the head descriptor and places it all or nothing. -/
  | placementScan
  /-- EVENT_RECORD (R390). A held event is written to the next free event-ring record and MSI-X vector 0 signalled. -/
  | eventRecord
  /-- LINK_DOWN (R387). Loss of the owner's link makes the device unowned. -/
  | linkDown
  deriving DecidableEq, Repr

end Sys2Proof
end

