-- ==== Sys2Proof/WellFormed.lean ====
section
/-! DEFINITION. WellFormed.lean: which instructions a word can stand for (R72–R78, R84, R106 and the descriptions of the
instructions): the conditions on an `Instr` that its fields' types do not already say. -/

namespace Sys2Proof

/-- Why a word is not a valid instruction (R84). -/
inductive Reject where
  /-- class 0x0 or 0xF. -/
  | illegalClass
  /-- an unassigned op. -/
  | unassignedOp
  /-- a non-zero resv field or bit. -/
  | resvField
  /-- a register number outside its file (R72), or an odd number where an even one is required. -/
  | badRegister
  /-- a reserved code in a rounding, scope, kind, width, bar or variant field. -/
  | reservedCode
  /-- a csr instruction naming an unassigned CSR number. -/
  | badCsr
  /-- csrw, csrs or csrc of a CSR in 0x800–0x8FF. -/
  | readOnlyCsr
  /-- a setvl immediate with a reserved code or an invalid pair (R106). -/
  | badVtype
  /-- `.late` without `.push` (R281). -/
  | lateWithoutPush
  deriving DecidableEq, Repr

/-- The valid FMT and SEW pairs of R106, on VTYPE bits 6:3 and 2:0. -/
def vtypePairOk (fmt sew : Nat) : Bool :=
  match fmt with
  | 0 | 1 => sew ≤ 5
  | 2 => sew == 3 || sew == 4 || sew == 5
  | 3 => sew == 3
  | 4 | 5 => sew == 2
  | 6 | 7 | 8 => sew == 1
  | _ => false

/-- R106 on a 9-bit VTYPE value. -/
def vtypeOk (vt : Nat) : Bool := vtypePairOk (vt / 8 % 16) (vt % 8)

/-- The assigned CSR numbers of R104. -/
def csrAssigned (n : Nat) : Bool :=
  n ≤ 0x007 || (0x100 ≤ n && n ≤ 0x10A) || (0x110 ≤ n && n ≤ 0x112) || (0x114 ≤ n && n ≤ 0x117) ||
  (0x400 ≤ n && n ≤ 0x406) || (0x800 ≤ n && n ≤ 0x805) || (0x808 ≤ n && n ≤ 0x80D)

/-- The identity CSRs, whose writes are ILLEGAL (R84, R112). -/
def csrIdentity (n : Nat) : Bool := 0x800 ≤ n && n ≤ 0x8FF

/-- A rounding code that is not stochastic (R49: SR only where an instruction lists it). -/
def rcCheck (rc : Rc) : Option Reject := if rc = .sr then some .reservedCode else none

/-- cas and the amo ops accept only the 32- and 64-bit widths (R74). -/
def amoWidthCheck (w : MWidth) : Option Reject :=
  match w with
  | .w8 | .w16 => some .reservedCode
  | .w32 | .w64 => none

/-- csrw, csrs, csrc: an assigned number outside the identity CSRs (R84). -/
def csrWriteCheck (n : BitVec 12) : Option Reject :=
  if csrAssigned n.toNat then (if csrIdentity n.toNat then some .readOnlyCsr else none) else some .badCsr

/-- The token partner of an MCC command is resv unless it is flagged, and `.late` needs `.push` (R281). -/
def mccFlagCheck (d : Reg) (push pop late : Bool) : Option Reject :=
  if late && !push then some .lateWithoutPush
  else if !push && !pop && d != 0 then some .resvField else none

/-- Source operand of vfcvt (R165): codes 21–31 are ILLEGAL, and SR only in the stochastic form. -/
def vfcvtCheck (src : CvtSrc) (rc : Rc) : Option Reject :=
  match src with
  | .code c => if 20 < c.toNat then some .reservedCode else rcCheck rc
  | .ctr _ _ => none

/-- Source operand of vquant (R167): source codes 12 to 15. -/
def vquantCheck (src : CvtSrc) (rc : Rc) : Option Reject :=
  match src with
  | .code c => if 12 ≤ c.toNat ∧ c.toNat ≤ 15 then rcCheck rc else some .reservedCode
  | .ctr _ _ => none

/-- The condition an instruction fails, if any. Device steps have no word and fail none. -/
def Instr.check : Instr → Option Reject
  | .fadd _ _ _ _ rc | .fsub _ _ _ _ rc | .fmul _ _ _ _ rc | .fdiv _ _ _ _ rc => rcCheck rc
  | .fsqrt _ _ _ rc | .fmadd _ _ _ _ _ _ rc | .fcvt _ _ _ _ rc => rcCheck rc
  | .cas _ _ _ _ _ w | .amoswap _ _ _ _ _ w | .amoadd _ _ _ _ _ w | .amoand _ _ _ _ _ w
  | .amoor _ _ _ _ _ w | .amoxor _ _ _ _ _ w | .amomin _ _ _ _ _ w | .amomax _ _ _ _ _ w => amoWidthCheck w
  | .csrr _ n => if csrAssigned n.toNat then none else some .badCsr
  | .csrw _ _ n | .csrs _ _ n | .csrc _ _ n => csrWriteCheck n
  | .tlbinv a e =>
    match e with
    | .all | .pkAll => if a = 0 then none else some .resvField
    | .page | .pkPage => none
  | .pfx _ _ _ cf creg =>
    match cf with
    | .none => if creg = 0 then none else some .resvField
    | .t => if creg.toNat < 8 then none else some .badRegister
    | .v | .x => none
  | .setvl _ _ vt => if vtypeOk vt.toNat then none else some .badVtype
  | .vfadd _ _ _ _ _ rc | .vfsub _ _ _ _ _ rc | .vfmul _ _ _ _ _ rc | .vfdiv _ _ _ _ _ rc
  | .vfscale _ _ _ _ _ rc => rcCheck rc
  | .vfsqrt _ _ _ rc | .vfexp2 _ _ _ rc | .vflog2 _ _ _ rc | .vfrecip _ _ _ rc => rcCheck rc
  | .vfmadd _ _ _ _ _ _ _ rc => rcCheck rc
  | .vfcvt _ _ _ src rc => vfcvtCheck src rc
  | .vquant _ _ _ src rc => vquantCheck src rc
  | .vgmax _ _ b _ => if b.toNat % 2 = 0 then none else some .badRegister
  | .vamo _ _ _ w _ _ _ _ =>
    match w with
    | .e2 | .e4 => some .reservedCode
    | .e8 | .e16 | .e32 | .e64 | .sew => none
  | .mlds d _ push pop late _ => mccFlagCheck d push pop late
  | .mswap d push pop late => mccFlagCheck d push pop late
  | .mmac d _ b push pop late op =>
    if op ≠ .dspm ∧ b ≠ 0 then some .resvField else mccFlagCheck d push pop late
  | .strcfg _ _ b _ _ _ => if b.toNat % 2 = 0 then none else some .badRegister
  | _ => none

/-- An instruction that a word can stand for (device steps are well formed trivially). -/
def Instr.wellFormed (i : Instr) : Bool := i.check.isNone

/-- The three kinds of thread that decode words (R116). -/
inductive ThreadKind where
  | user | sup | mcc
  deriving DecidableEq, Repr

/-- Why a thread of a kind does not run a word that decodes (R84, R116). -/
inductive Denied where
  | illegal | priv
  deriving DecidableEq, Repr

end Sys2Proof
end

