-- ==== Sys2Proof/Decode.lean ====
section
/-! DEFINITION. Decode.lean: instruction words to `Instr`, total on any word and rejecting by name (R70–R78, R82–R84);
which thread runs which instruction (R84, R116); and the encoder, written from the same formats. -/

namespace Sys2Proof

/-! ## Fields -/

/-- The bits `lo + n - 1` to `lo` of a number. -/
def field (w lo n : Nat) : Nat := w / 2 ^ lo % 2 ^ n

/-- Go on when a reserved field is zero (R3, R84). -/
def needResv (ok : Bool) (k : Except Reject Instr) : Except Reject Instr := if ok then k else .error .resvField
/-- Go on when a required code is present. -/
def needCode (ok : Bool) (k : Except Reject Instr) : Except Reject Instr := if ok then k else .error .reservedCode
/-- Go on with the name of a code, or reject a reserved one. -/
def withCode {α : Type} (o : Option α) (k : α → Except Reject Instr) : Except Reject Instr :=
  match o with
  | some x => k x
  | none => .error .reservedCode
/-- Go on with a register of a file of eight (R72). -/
def withM (n : Nat) (k : BitVec 3 → Except Reject Instr) : Except Reject Instr :=
  if n < 8 then k (BitVec.ofNat 3 n) else .error .badRegister
/-- Go on with a stream slot (R72). -/
def withSlot (n : Nat) (k : BitVec 2 → Except Reject Instr) : Except Reject Instr :=
  if n < 4 then k (BitVec.ofNat 2 n) else .error .badRegister
/-- Go on with a pennant accumulator (R72). -/
def withPa (n : Nat) (k : BitVec 1 → Except Reject Instr) : Except Reject Instr :=
  if n < 2 then k (BitVec.ofNat 1 n) else .error .badRegister
/-- A register number of a file of 32. -/
def reg (n : Nat) : Reg := BitVec.ofNat 5 n
/-- A one-bit field. -/
def bit (n : Nat) : Bool := n % 2 == 1
/-- A field with one name for 0 and one for 1, every other value reserved. -/
def Bool.ofCode : Nat → Option Bool
  | 0 => some false
  | 1 => some true
  | _ => none
/-- The code of a one-bit name. -/
def bcode (b : Bool) : Nat := if b then 1 else 0
/-- The sources of vfcvt and vquant (R165), from b, sb and var. -/
def CvtSrc.ofFields (b sb var : Nat) : Except Reject CvtSrc :=
  if sb = 0 then (if var = 0 then .ok (.code (BitVec.ofNat 5 b)) else .error .resvField)
  else match CtrSrc.ofCode var with
    | some s => .ok (.ctr (BitVec.ofNat 5 b) s)
    | none => .error .reservedCode
/-- Go on with a source. -/
def withSrc (s : Except Reject CvtSrc) (k : CvtSrc → Except Reject Instr) : Except Reject Instr :=
  match s with
  | .ok x => k x
  | .error e => .error e

/-! ## One decoder per class (R82, R83) -/

/-- Class 0x1. -/
def dec1 (op d a b m : Nat) : Except Reject Instr :=
  match op with
  | 0 => needResv (m == 0) <| .ok (.add (reg d) (reg a) (reg b))
  | 1 => needResv (m == 0) <| .ok (.sub (reg d) (reg a) (reg b))
  | 2 => needResv (m == 0) <| .ok (.mul (reg d) (reg a) (reg b))
  | 3 => needResv (m == 0) <| .ok (.mulh (reg d) (reg a) (reg b))
  | 4 => needResv (m == 0) <| .ok (.mulhu (reg d) (reg a) (reg b))
  | 5 => needResv (m == 0) <| .ok (.div (reg d) (reg a) (reg b))
  | 6 => needResv (m == 0) <| .ok (.divu (reg d) (reg a) (reg b))
  | 7 => needResv (m == 0) <| .ok (.rem (reg d) (reg a) (reg b))
  | 8 => needResv (m == 0) <| .ok (.remu (reg d) (reg a) (reg b))
  | 9 => needResv (m == 0) <| .ok (.and (reg d) (reg a) (reg b))
  | 10 => needResv (m == 0) <| .ok (.or (reg d) (reg a) (reg b))
  | 11 => needResv (m == 0) <| .ok (.xor (reg d) (reg a) (reg b))
  | 12 => needResv (m == 0) <| .ok (.sll (reg d) (reg a) (reg b))
  | 13 => needResv (m == 0) <| .ok (.srl (reg d) (reg a) (reg b))
  | 14 => needResv (m == 0) <| .ok (.sra (reg d) (reg a) (reg b))
  | 15 => needResv (m == 0) <| .ok (.slt (reg d) (reg a) (reg b))
  | 16 => needResv (m == 0) <| .ok (.sltu (reg d) (reg a) (reg b))
  | 17 => needResv (m == 0) <| .ok (.min (reg d) (reg a) (reg b))
  | 18 => needResv (m == 0) <| .ok (.max (reg d) (reg a) (reg b))
  | 19 => needResv (m == 0) <| .ok (.minu (reg d) (reg a) (reg b))
  | 20 => needResv (m == 0) <| .ok (.maxu (reg d) (reg a) (reg b))
  | 21 => needResv (b == 0 && m == 0) <| .ok (.clz (reg d) (reg a))
  | 22 => needResv (b == 0 && m == 0) <| .ok (.ctz (reg d) (reg a))
  | 23 => needResv (b == 0 && m == 0) <| .ok (.popc (reg d) (reg a))
  | 24 => needResv (m == 0) <| .ok (.rotl (reg d) (reg a) (reg b))
  | 25 => needResv (m == 0) <| .ok (.rotr (reg d) (reg a) (reg b))
  | 26 => .ok (.ext (reg d) (reg a) (reg b) (bit (m / 64)) (BitVec.ofNat 6 (m % 64)))
  | 32 => needResv (m / 32 == 0) <| withCode (Prec.ofCode (m / 8 % 4)) fun pC => withCode (Rc.ofCode (m % 8)) fun rcC => .ok (.fadd (reg d) (reg a) (reg b) pC rcC)
  | 33 => needResv (m / 32 == 0) <| withCode (Prec.ofCode (m / 8 % 4)) fun pC => withCode (Rc.ofCode (m % 8)) fun rcC => .ok (.fsub (reg d) (reg a) (reg b) pC rcC)
  | 34 => needResv (m / 32 == 0) <| withCode (Prec.ofCode (m / 8 % 4)) fun pC => withCode (Rc.ofCode (m % 8)) fun rcC => .ok (.fmul (reg d) (reg a) (reg b) pC rcC)
  | 35 => needResv (m / 32 == 0) <| withCode (Prec.ofCode (m / 8 % 4)) fun pC => withCode (Rc.ofCode (m % 8)) fun rcC => .ok (.fdiv (reg d) (reg a) (reg b) pC rcC)
  | 36 => needResv (b == 0 && m / 32 == 0) <| withCode (Prec.ofCode (m / 8 % 4)) fun pC => withCode (Rc.ofCode (m % 8)) fun rcC => .ok (.fsqrt (reg d) (reg a) pC rcC)
  | 37 => withCode (Prec.ofCode (m / 8 % 4)) fun pC => withCode (Rc.ofCode (m % 8)) fun rcC => .ok (.fmadd (reg d) (reg a) (reg b) (bit (m / 64)) (bit (m / 32 % 2)) pC rcC)
  | 38 => needResv (m % 8 == 0 && m / 32 == 0) <| withCode (Prec.ofCode (m / 8 % 4)) fun pC => .ok (.fmin (reg d) (reg a) (reg b) pC)
  | 39 => needResv (m % 8 == 0 && m / 32 == 0) <| withCode (Prec.ofCode (m / 8 % 4)) fun pC => .ok (.fmax (reg d) (reg a) (reg b) pC)
  | 40 => needResv (m / 32 == 0) <| withCode (Prec.ofCode (m / 8 % 4)) fun pC => withCode (FCond.ofCode (m % 8)) fun cC => .ok (.fcmp (reg d) (reg a) (reg b) pC cC)
  | 41 => needResv (m / 32 == 0) <| withCode (FcvtKind.ofCode b) fun kC => withCode (Prec.ofCode (m / 8 % 4)) fun pC => withCode (Rc.ofCode (m % 8)) fun rcC => .ok (.fcvt (reg d) (reg a) kC pC rcC)
  | 42 => needResv (m % 8 == 0 && m / 32 == 0) <| withCode (FmvDir.ofCode b) fun dirC => withCode (Prec.ofCode (m / 8 % 4)) fun pC => .ok (.fmv (reg d) (reg a) dirC pC)
  | 43 => needResv (b == 0 && m % 8 == 0 && m / 32 == 0) <| withCode (Prec.ofCode (m / 8 % 4)) fun pC => .ok (.fclass (reg d) (reg a) pC)
  | _ => .error .unassignedOp

/-- Class 0x2. -/
def dec2 (op d a b m : Nat) : Except Reject Instr :=
  match op with
  | 0 => .ok (.addi (reg d) (reg a) (BitVec.ofNat 12 (b * 128 + m)))
  | 1 => .ok (.andi (reg d) (reg a) (BitVec.ofNat 12 (b * 128 + m)))
  | 2 => .ok (.ori (reg d) (reg a) (BitVec.ofNat 12 (b * 128 + m)))
  | 3 => .ok (.xori (reg d) (reg a) (BitVec.ofNat 12 (b * 128 + m)))
  | 4 => needResv ((b * 128 + m) / 64 == 0) <| .ok (.slli (reg d) (reg a) (BitVec.ofNat 6 (b * 128 + m)))
  | 5 => needResv ((b * 128 + m) / 64 == 0) <| .ok (.srli (reg d) (reg a) (BitVec.ofNat 6 (b * 128 + m)))
  | 6 => needResv ((b * 128 + m) / 64 == 0) <| .ok (.srai (reg d) (reg a) (BitVec.ofNat 6 (b * 128 + m)))
  | 7 => .ok (.slti (reg d) (reg a) (BitVec.ofNat 12 (b * 128 + m)))
  | 8 => .ok (.sltui (reg d) (reg a) (BitVec.ofNat 12 (b * 128 + m)))
  | 9 => .ok (.lih (reg d) (BitVec.ofNat 17 (a * 4096 + b * 128 + m)))
  | 10 => .ok (.pcadd (reg d) (BitVec.ofNat 17 (a * 4096 + b * 128 + m)))
  | _ => .error .unassignedOp

/-- Class 0x4. -/
def dec4 (op d a b m : Nat) : Except Reject Instr :=
  match op with
  | 0 => .ok (.ldS8 (reg d) (reg a) (BitVec.ofNat 12 (b * 128 + m)))
  | 1 => .ok (.ldZ8 (reg d) (reg a) (BitVec.ofNat 12 (b * 128 + m)))
  | 2 => .ok (.ldS16 (reg d) (reg a) (BitVec.ofNat 12 (b * 128 + m)))
  | 3 => .ok (.ldZ16 (reg d) (reg a) (BitVec.ofNat 12 (b * 128 + m)))
  | 4 => .ok (.ldS32 (reg d) (reg a) (BitVec.ofNat 12 (b * 128 + m)))
  | 5 => .ok (.ldZ32 (reg d) (reg a) (BitVec.ofNat 12 (b * 128 + m)))
  | 6 => .ok (.ld64 (reg d) (reg a) (BitVec.ofNat 12 (b * 128 + m)))
  | 8 => .ok (.st8 (reg d) (reg a) (BitVec.ofNat 12 (b * 128 + m)))
  | 9 => .ok (.st16 (reg d) (reg a) (BitVec.ofNat 12 (b * 128 + m)))
  | 10 => .ok (.st32 (reg d) (reg a) (BitVec.ofNat 12 (b * 128 + m)))
  | 11 => .ok (.st64 (reg d) (reg a) (BitVec.ofNat 12 (b * 128 + m)))
  | 12 => .ok (.fld16 (reg d) (reg a) (BitVec.ofNat 12 (b * 128 + m)))
  | 13 => .ok (.fld32 (reg d) (reg a) (BitVec.ofNat 12 (b * 128 + m)))
  | 14 => .ok (.fld64 (reg d) (reg a) (BitVec.ofNat 12 (b * 128 + m)))
  | 16 => .ok (.fst16 (reg d) (reg a) (BitVec.ofNat 12 (b * 128 + m)))
  | 17 => .ok (.fst32 (reg d) (reg a) (BitVec.ofNat 12 (b * 128 + m)))
  | 18 => .ok (.fst64 (reg d) (reg a) (BitVec.ofNat 12 (b * 128 + m)))
  | 24 => needResv (b == 0 && m / 32 == 0) <| withCode (Scope.ofCode (m / 4 % 8)) fun scC => withCode (MWidth.ofCode (m % 4)) fun wC => .ok (.lda (reg d) (reg a) scC wC)
  | 25 => needResv (b == 0 && m / 32 == 0) <| withCode (Scope.ofCode (m / 4 % 8)) fun scC => withCode (MWidth.ofCode (m % 4)) fun wC => .ok (.stl (reg d) (reg a) scC wC)
  | 26 => withCode (Order.ofCode (m / 32)) fun oC => withCode (Scope.ofCode (m / 4 % 8)) fun scC => withCode (MWidth.ofCode (m % 4)) fun wC => .ok (.cas (reg d) (reg a) (reg b) oC scC wC)
  | 27 => withCode (Order.ofCode (m / 32)) fun oC => withCode (Scope.ofCode (m / 4 % 8)) fun scC => withCode (MWidth.ofCode (m % 4)) fun wC => .ok (.amoswap (reg d) (reg a) (reg b) oC scC wC)
  | 28 => withCode (Order.ofCode (m / 32)) fun oC => withCode (Scope.ofCode (m / 4 % 8)) fun scC => withCode (MWidth.ofCode (m % 4)) fun wC => .ok (.amoadd (reg d) (reg a) (reg b) oC scC wC)
  | 29 => withCode (Order.ofCode (m / 32)) fun oC => withCode (Scope.ofCode (m / 4 % 8)) fun scC => withCode (MWidth.ofCode (m % 4)) fun wC => .ok (.amoand (reg d) (reg a) (reg b) oC scC wC)
  | 30 => withCode (Order.ofCode (m / 32)) fun oC => withCode (Scope.ofCode (m / 4 % 8)) fun scC => withCode (MWidth.ofCode (m % 4)) fun wC => .ok (.amoor (reg d) (reg a) (reg b) oC scC wC)
  | 31 => withCode (Order.ofCode (m / 32)) fun oC => withCode (Scope.ofCode (m / 4 % 8)) fun scC => withCode (MWidth.ofCode (m % 4)) fun wC => .ok (.amoxor (reg d) (reg a) (reg b) oC scC wC)
  | 32 => withCode (Order.ofCode (m / 32)) fun oC => withCode (Scope.ofCode (m / 4 % 8)) fun scC => withCode (MWidth.ofCode (m % 4)) fun wC => .ok (.amomin (reg d) (reg a) (reg b) oC scC wC)
  | 33 => withCode (Order.ofCode (m / 32)) fun oC => withCode (Scope.ofCode (m / 4 % 8)) fun scC => withCode (MWidth.ofCode (m % 4)) fun wC => .ok (.amomax (reg d) (reg a) (reg b) oC scC wC)
  | 40 => needResv (d == 0 && a == 0 && b == 0 && m % 4 == 0) <| withCode (Kinds.ofCode (m / 32)) fun kC => withCode (Scope.ofCode (m / 4 % 8)) fun scC => .ok (.fence kC scC)
  | 41 => needResv (d == 0 && a == 0 && b == 0 && m == 0) <| .ok (.fenceSv)
  | 42 => needResv (d == 0 && a == 0 && b == 0 && m == 0) <| .ok (.vdrain)
  | 43 => needResv (d == 0 && a == 0 && b == 0 && m == 0) <| .ok (.lsync)
  | _ => .error .unassignedOp

/-- Class 0x5. -/
def dec5 (op d a b m : Nat) : Except Reject Instr :=
  match op with
  | 0 => needResv (a == 0) <| .ok (.csrr (reg d) (BitVec.ofNat 12 (b * 128 + m)))
  | 1 => .ok (.csrw (reg d) (reg a) (BitVec.ofNat 12 (b * 128 + m)))
  | 2 => .ok (.csrs (reg d) (reg a) (BitVec.ofNat 12 (b * 128 + m)))
  | 3 => .ok (.csrc (reg d) (reg a) (BitVec.ofNat 12 (b * 128 + m)))
  | 8 => needResv (d == 0) <| .ok (.trap (BitVec.ofNat 17 (a * 4096 + b * 128 + m)))
  | 9 => needResv (d == 0 && a == 0 && b == 0 && m == 0) <| .ok (.tret)
  | 10 => needResv (b == 0 && m == 0) <| .ok (.syscall (reg d) (reg a))
  | 11 => needResv (d == 0 && b == 0 && m == 0) <| .ok (.park (reg a))
  | 16 => needResv (d == 0) <| needResv ((a * 4096 + b * 128 + m) / 16 == 0) <| .ok (.split (BitVec.ofNat 4 (a * 4096 + b * 128 + m)))
  | 17 => needResv (d == 0 && a == 0 && b == 0 && m == 0) <| .ok (.join)
  | 18 => needResv (d == 0) <| needResv ((a * 4096 + b * 128 + m) / 8 == 0) <| withCode (BarScope.ofCode (m % 8)) fun scC => .ok (.bar scC)
  | 19 => needResv (b == 0 && m == 0) <| .ok (.launch (reg d) (reg a))
  | 20 => needResv (d == 0 && a == 0 && b == 0 && m == 0) <| .ok (.exit)
  | 24 => needResv (d == 0 && b == 0 && m == 0) <| .ok (.iopen (reg a))
  | 25 => needResv (d == 0 && a == 0 && b == 0 && m == 0) <| .ok (.icommit)
  | 26 => needResv (d == 0 && a == 0 && b == 0 && m == 0) <| .ok (.iabort)
  | 27 => needResv (m == 0) <| .ok (.waitge (reg d) (reg a) (reg b))
  | 32 => needResv (b == 0 && m == 0) <| .ok (.ctxsave (reg d) (reg a))
  | 33 => needResv (b == 0 && m == 0) <| .ok (.ctxload (reg d) (reg a))
  | 34 => needResv (d == 0 && b == 0 && m / 4 == 0) <| withCode (TlbExtent.ofCode (m % 4)) fun eC => .ok (.tlbinv (reg a) eC)
  | _ => .error .unassignedOp

/-- Class 0x6. -/
def dec6 (op d a b m : Nat) : Except Reject Instr :=
  match op with
  | 0 => needResv ((b * 128 + m) / 512 == 0) <| .ok (.setvl (reg d) (reg a) (BitVec.ofNat 9 (b * 128 + m)))
  | 1 => needResv (m == 0) <| .ok (.setshape (reg d) (reg a) (reg b))
  | 8 => needResv (m % 64 == 0) <| withM d fun dR => withM a fun aR => withM b fun bR => .ok (.vmand dR aR bR (bit (m / 64)))
  | 9 => needResv (m % 64 == 0) <| withM d fun dR => withM a fun aR => withM b fun bR => .ok (.vmor dR aR bR (bit (m / 64)))
  | 10 => needResv (m % 64 == 0) <| withM d fun dR => withM a fun aR => withM b fun bR => .ok (.vmxor dR aR bR (bit (m / 64)))
  | 11 => needResv (b == 0 && m % 64 == 0) <| withM d fun dR => withM a fun aR => .ok (.vmnot dR aR (bit (m / 64)))
  | 12 => needResv (b == 0 && m % 64 == 0) <| withM a fun aR => .ok (.vpopc (reg d) aR (bit (m / 64)))
  | 13 => needResv (b == 0 && m % 64 == 0) <| withM a fun aR => .ok (.vfirst (reg d) aR (bit (m / 64)))
  | 14 => needResv (b == 0 && m % 8 == 0 && m / 32 % 2 == 0) <| withM d fun dR => withM a fun aR => withCode (SpanVar.ofCode (m / 8 % 4)) fun vC => .ok (.vmspan dR aR (bit (m / 64)) vC)
  | 15 => needResv (b == 0 && m % 8 == 0 && m / 32 % 2 == 0) <| withM a fun aR => withCode (Bool.ofCode (m / 8 % 4)) fun inclC => .ok (.vmrank (reg d) aR (bit (m / 64)) inclC)
  | _ => .error .unassignedOp

/-- Class 0x7. -/
def dec7 (op d a b m : Nat) : Except Reject Instr :=
  match op with
  | 0 => needResv (m % 32 == 0) <| .ok (.vadd (reg d) (reg a) (reg b) (bit (m / 64)) (bit (m / 32 % 2)))
  | 1 => needResv (m % 32 == 0) <| .ok (.vsub (reg d) (reg a) (reg b) (bit (m / 64)) (bit (m / 32 % 2)))
  | 2 => needResv (m % 32 == 0) <| .ok (.vmul (reg d) (reg a) (reg b) (bit (m / 64)) (bit (m / 32 % 2)))
  | 3 => needResv (m % 8 == 0) <| withCode (MulhVar.ofCode (m / 8 % 4)) fun vC => .ok (.vmulh (reg d) (reg a) (reg b) (bit (m / 64)) (bit (m / 32 % 2)) vC)
  | 4 => needResv (m % 32 == 0) <| .ok (.vand (reg d) (reg a) (reg b) (bit (m / 64)) (bit (m / 32 % 2)))
  | 5 => needResv (m % 32 == 0) <| .ok (.vor (reg d) (reg a) (reg b) (bit (m / 64)) (bit (m / 32 % 2)))
  | 6 => needResv (m % 32 == 0) <| .ok (.vxor (reg d) (reg a) (reg b) (bit (m / 64)) (bit (m / 32 % 2)))
  | 7 => needResv (m % 32 == 0) <| .ok (.vsll (reg d) (reg a) (reg b) (bit (m / 64)) (bit (m / 32 % 2)))
  | 8 => needResv (m % 32 == 0) <| .ok (.vsrl (reg d) (reg a) (reg b) (bit (m / 64)) (bit (m / 32 % 2)))
  | 9 => needResv (m % 32 == 0) <| .ok (.vsra (reg d) (reg a) (reg b) (bit (m / 64)) (bit (m / 32 % 2)))
  | 10 => needResv (m % 32 == 0) <| .ok (.vmin (reg d) (reg a) (reg b) (bit (m / 64)) (bit (m / 32 % 2)))
  | 11 => needResv (m % 32 == 0) <| .ok (.vmax (reg d) (reg a) (reg b) (bit (m / 64)) (bit (m / 32 % 2)))
  | 12 => needResv (m % 32 == 0) <| .ok (.vminu (reg d) (reg a) (reg b) (bit (m / 64)) (bit (m / 32 % 2)))
  | 13 => needResv (m % 32 == 0) <| .ok (.vmaxu (reg d) (reg a) (reg b) (bit (m / 64)) (bit (m / 32 % 2)))
  | 14 => needResv (m % 8 == 0) <| withCode (Bool.ofCode (m / 8 % 4)) fun unsC => .ok (.vsadd (reg d) (reg a) (reg b) (bit (m / 64)) (bit (m / 32 % 2)) unsC)
  | 15 => needResv (m % 8 == 0) <| withCode (Bool.ofCode (m / 8 % 4)) fun unsC => .ok (.vssub (reg d) (reg a) (reg b) (bit (m / 64)) (bit (m / 32 % 2)) unsC)
  | 16 => withM d fun dR => withCode (Bool.ofCode (m / 8 % 4)) fun unsC => withCode (ICond.ofCode (m % 8)) fun cC => .ok (.vcmp dR (reg a) (reg b) (bit (m / 64)) (bit (m / 32 % 2)) unsC cC)
  | 17 => needResv (m % 32 == 0) <| .ok (.vmerge (reg d) (reg a) (reg b) (bit (m / 64)) (bit (m / 32 % 2)))
  | 18 =>
    match m / 8 % 4 with
    | 0 => needResv (a == 0 && m % 8 == 0) <| .ok (.vmv (reg d) (reg b) (bit (m / 64)) (bit (m / 32 % 2)))
    | 1 => needCode (m / 32 % 2 == 1) <| needResv (m % 8 == 0) <| .ok (.vmvX (reg d) (reg a) (reg b) (bit (m / 64)))
    | _ => .error .reservedCode
  | 24 => needResv (m % 8 == 0) <| withCode (Bool.ofCode (m / 8 % 4)) fun unsC => .ok (.vwadd (reg d) (reg a) (reg b) (bit (m / 64)) (bit (m / 32 % 2)) unsC)
  | 25 => needResv (m % 8 == 0) <| withCode (Bool.ofCode (m / 8 % 4)) fun unsC => .ok (.vwmul (reg d) (reg a) (reg b) (bit (m / 64)) (bit (m / 32 % 2)) unsC)
  | 26 => needResv (b == 0 && m % 8 == 0 && m / 32 % 2 == 0) <| .ok (.vnarrow (reg d) (reg a) (bit (m / 64)) (bit (m / 16 % 2)) (bit (m / 8 % 2)))
  | 27 => needResv (b == 0 && m / 32 % 2 == 0) <| withCode (ExtF.ofCode (m / 8 % 4)) fun fC => withCode (Bool.ofCode (m % 8)) fun zeroC => .ok (.vext (reg d) (reg a) (bit (m / 64)) fC zeroC)
  | _ => .error .unassignedOp

/-- Class 0x8. -/
def dec8 (op d a b m : Nat) : Except Reject Instr :=
  match op with
  | 0 => needResv (m / 8 % 4 == 0) <| withCode (Rc.ofCode (m % 8)) fun rcC => .ok (.vfadd (reg d) (reg a) (reg b) (bit (m / 64)) (bit (m / 32 % 2)) rcC)
  | 1 => needResv (m / 8 % 4 == 0) <| withCode (Rc.ofCode (m % 8)) fun rcC => .ok (.vfsub (reg d) (reg a) (reg b) (bit (m / 64)) (bit (m / 32 % 2)) rcC)
  | 2 => needResv (m / 8 % 4 == 0) <| withCode (Rc.ofCode (m % 8)) fun rcC => .ok (.vfmul (reg d) (reg a) (reg b) (bit (m / 64)) (bit (m / 32 % 2)) rcC)
  | 3 => needResv (m / 8 % 4 == 0) <| withCode (Rc.ofCode (m % 8)) fun rcC => .ok (.vfdiv (reg d) (reg a) (reg b) (bit (m / 64)) (bit (m / 32 % 2)) rcC)
  | 4 => needResv (b == 0 && m / 8 % 8 == 0) <| withCode (Rc.ofCode (m % 8)) fun rcC => .ok (.vfsqrt (reg d) (reg a) (bit (m / 64)) rcC)
  | 5 => withCode (Rc.ofCode (m % 8)) fun rcC => .ok (.vfmadd (reg d) (reg a) (reg b) (bit (m / 64)) (bit (m / 32 % 2)) (bit (m / 16 % 2)) (bit (m / 8 % 2)) rcC)
  | 6 => needResv (m % 32 == 0) <| .ok (.vfmin (reg d) (reg a) (reg b) (bit (m / 64)) (bit (m / 32 % 2)))
  | 7 => needResv (m % 32 == 0) <| .ok (.vfmax (reg d) (reg a) (reg b) (bit (m / 64)) (bit (m / 32 % 2)))
  | 8 => needResv (m / 8 % 4 == 0) <| withM d fun dR => withCode (FCond.ofCode (m % 8)) fun cC => .ok (.vfcmp dR (reg a) (reg b) (bit (m / 64)) (bit (m / 32 % 2)) cC)
  | 9 => withSrc (CvtSrc.ofFields b (m / 32 % 2) (m / 8 % 4)) fun srcC => withCode (Rc.ofCode (m % 8)) fun rcC => .ok (.vfcvt (reg d) (reg a) (bit (m / 64)) srcC rcC)
  | 10 => needResv (b == 0 && m / 8 % 8 == 0) <| withCode (Rc.ofCode (m % 8)) fun rcC => .ok (.vfexp2 (reg d) (reg a) (bit (m / 64)) rcC)
  | 11 => needResv (b == 0 && m / 8 % 8 == 0) <| withCode (Rc.ofCode (m % 8)) fun rcC => .ok (.vflog2 (reg d) (reg a) (bit (m / 64)) rcC)
  | 12 => needResv (b == 0 && m / 8 % 8 == 0) <| withCode (Rc.ofCode (m % 8)) fun rcC => .ok (.vfrecip (reg d) (reg a) (bit (m / 64)) rcC)
  | 13 => needResv (m / 8 % 4 == 0) <| withCode (Rc.ofCode (m % 8)) fun rcC => .ok (.vfscale (reg d) (reg a) (reg b) (bit (m / 64)) (bit (m / 32 % 2)) rcC)
  | 16 => needResv (m % 8 == 0 && m / 32 % 2 == 0) <| .ok (.vmxdot (reg d) (reg a) (reg b) (bit (m / 64)) (bit (m / 16 % 2)) (bit (m / 8 % 2)))
  | 17 => withSrc (CvtSrc.ofFields b (m / 32 % 2) (m / 8 % 4)) fun srcC => withCode (Rc.ofCode (m % 8)) fun rcC => .ok (.vquant (reg d) (reg a) (bit (m / 64)) srcC rcC)
  | _ => .error .unassignedOp

/-- Class 0x9. -/
def dec9 (op d a b m : Nat) : Except Reject Instr :=
  match op with
  | 0 => needResv (m % 8 == 0) <| withCode (RedVar.ofCode (m / 8 % 4)) fun vC => .ok (.vredsum (reg d) (reg a) (reg b) (bit (m / 64)) (bit (m / 32 % 2)) vC)
  | 1 => needResv (m % 8 == 0) <| withCode (Bool.ofCode (m / 8 % 4)) fun unsC => .ok (.vredmax (reg d) (reg a) (reg b) (bit (m / 64)) (bit (m / 32 % 2)) unsC)
  | 2 => needResv (m % 8 == 0) <| withCode (Bool.ofCode (m / 8 % 4)) fun unsC => .ok (.vredmin (reg d) (reg a) (reg b) (bit (m / 64)) (bit (m / 32 % 2)) unsC)
  | 3 => needResv (m % 8 == 0) <| withCode (BitOp.ofCode (m / 8 % 4)) fun opC => .ok (.vredbit (reg d) (reg a) (reg b) (bit (m / 64)) (bit (m / 32 % 2)) opC)
  | 4 => needResv (m % 32 == 0) <| .ok (.vfredsum (reg d) (reg a) (reg b) (bit (m / 64)) (bit (m / 32 % 2)))
  | 5 => needResv (m % 32 == 0) <| .ok (.vfredmax (reg d) (reg a) (reg b) (bit (m / 64)) (bit (m / 32 % 2)))
  | 6 => needResv (b == 0 && m % 64 == 0) <| .ok (.vargmax (reg d) (reg a) (bit (m / 64)))
  | 8 => needResv (b == 0 && m % 64 == 0) <| .ok (.vcompress (reg d) (reg a) (bit (m / 64)))
  | 9 => needResv (b == 0 && m % 64 == 0) <| .ok (.vexpand (reg d) (reg a) (bit (m / 64)))
  | 10 => needCode (m / 32 % 2 == 1) <| needResv (m % 32 == 0) <| .ok (.vslideup (reg d) (reg a) (reg b) (bit (m / 64)))
  | 11 => needCode (m / 32 % 2 == 1) <| needResv (m % 32 == 0) <| .ok (.vslidedn (reg d) (reg a) (reg b) (bit (m / 64)))
  | 12 => needResv (m % 32 == 0) <| .ok (.vperm (reg d) (reg a) (reg b) (bit (m / 64)) (bit (m / 32 % 2)))
  | 13 => needResv (b == 0 && m % 8 == 0 && m / 32 % 2 == 0) <| withCode (FoldOp.ofCode (m / 8 % 4)) fun opC => .ok (.vscan (reg d) (reg a) (bit (m / 64)) opC)
  | 16 => needCode (m / 32 % 2 == 1) <| needResv (m % 8 == 0) <| withCode (Bool.ofCode (m / 8 % 4)) fun uniC => .ok (.vrand (reg d) (reg a) (reg b) (bit (m / 64)) uniC)
  | 17 => needResv (m % 32 == 0) <| .ok (.vsample (reg d) (reg a) (reg b) (bit (m / 64)) (bit (m / 32 % 2)))
  | 18 => needCode (m / 32 % 2 == 1) <| needResv (m % 32 == 0) <| .ok (.vgmax (reg d) (reg a) (reg b) (bit (m / 64)))
  | _ => .error .unassignedOp

/-- Class 0xB. -/
def decB (op d a b m : Nat) : Except Reject Instr :=
  match op with
  | 0 => needResv (b == 0 && m % 64 == 0) <| withM d fun dR => .ok (.tset dR (reg a) (bit (m / 64)))
  | 1 => needResv (b == 0 && m % 64 == 0) <| withM a fun aR => .ok (.tget (reg d) aR (bit (m / 64)))
  | 2 => needResv (m % 8 == 0 && m / 32 % 2 == 0) <| withM a fun aR => withCode (FoldOp.ofCode (m / 8 % 4)) fun opC => .ok (.tup (reg d) aR (reg b) (bit (m / 64)) opC)
  | 3 => needResv (m % 8 == 0 && m / 32 % 2 == 0) <| withM a fun aR => withCode (FoldOp.ofCode (m / 8 % 4)) fun opC => .ok (.tdown (reg d) aR (reg b) (bit (m / 64)) opC)
  | 4 => needResv (m % 8 == 0 && m / 32 % 2 == 0) <| withM a fun aR => withCode (Bool.ofCode (m / 8 % 4)) fun parC => .ok (.tbcast (reg d) aR (reg b) (bit (m / 64)) parC)
  | 5 => needResv (b == 0 && m % 64 == 0) <| withM a fun aR => .ok (.tdepth (reg d) aR (bit (m / 64)))
  | 6 =>
    match m / 8 % 4 with
    | 0 => needCode (m / 32 % 2 == 1) <| needResv (m % 8 == 0) <| withM d fun dR => withM a fun aR => .ok (.tanc dR aR (reg b) (bit (m / 64)))
    | 1 => needResv (m % 8 == 0) <| withM a fun aR => .ok (.tancUp (reg d) aR (reg b) (bit (m / 64)) (bit (m / 32 % 2)))
    | _ => .error .reservedCode
  | 7 => needResv (b == 0 && m % 64 == 0) <| withM a fun aR => .ok (.troot (reg d) aR (bit (m / 64)))
  | 8 =>
    match m / 8 % 4 with
    | 0 => needCode (m / 32 % 2 == 1) <| needResv (m % 8 == 0) <| withM d fun dR => withM a fun aR => .ok (.tcontract dR aR (reg b) (bit (m / 64)))
    | 1 => needCode (m / 32 % 2 == 1) <| needResv (m % 8 == 0) <| withM d fun dR => withM a fun aR => .ok (.tcontractM dR aR (reg b) (bit (m / 64)))
    | _ => .error .reservedCode
  | 9 => needResv (b == 0 && m % 64 == 0) <| withM d fun dR => withM a fun aR => .ok (.tleaf dR aR (bit (m / 64)))
  | 10 => needResv (b == 0 && m % 8 == 0 && m / 32 % 2 == 0) <| withM d fun dR => withM a fun aR => withCode (Bool.ofCode (m / 8 % 4)) fun dngC => .ok (.tcheck dR aR (bit (m / 64)) dngC)
  | 11 => needResv (b == 0 && m % 64 == 0) <| withM a fun aR => .ok (.torder (reg d) aR (bit (m / 64)))
  | _ => .error .unassignedOp

/-- Class 0xC. -/
def decC (op d a b m : Nat) : Except Reject Instr :=
  match op with
  | 0 => needResv (d == 0 && m == 0) <| .ok (.hcfg (reg a) (reg b))
  | 1 => needResv (m % 64 == 0) <| withM d fun dR => .ok (.hins dR (reg a) (reg b) (bit (m / 64)))
  | 2 => needResv (m % 64 == 0) <| withM b fun bR => .ok (.hprb (reg d) (reg a) bR (bit (m / 64)))
  | 3 => needResv (b == 0 && m % 64 == 0) <| withM d fun dR => .ok (.hdel dR (reg a) (bit (m / 64)))
  | 4 => needResv (m / 4 % 16 == 0) <| withM d fun dR => withCode (HaccOp.ofCode (m % 4)) fun opC => .ok (.hacc dR (reg a) (reg b) (bit (m / 64)) opC)
  | 5 => needResv (b == 0 && m == 0) <| .ok (.hdrn (reg d) (reg a))
  | 16 => needResv (d == 0 && m == 0) <| .ok (.strike (reg a) (reg b))
  | 17 => needResv (m % 64 == 0) <| withM b fun bR => .ok (.lde (reg d) (reg a) bR (bit (m / 64)))
  | 18 => needResv (b == 0 && m == 0) <| .ok (.tsite (reg d) (reg a))
  | 19 => needResv (d == 0 && m == 0) <| .ok (.ttag (reg a) (reg b))
  | 20 => needResv (m == 0) <| .ok (.tremap (reg d) (reg a) (reg b))
  | 32 => needResv (m / 8 % 8 == 0) <| withPa d fun dR => .ok (.tapDot dR (reg a) (reg b) (bit (m / 64)) (BitVec.ofNat 3 (m % 8)))
  | 33 => needResv (a == 0 && b == 0 && m / 8 % 8 == 0) <| withPa d fun dR => .ok (.tapFin dR (bit (m / 64)) (BitVec.ofNat 3 (m % 8)))
  | 34 => needResv (m / 8 % 8 == 0) <| withPa a fun aR => .ok (.tapSteer (reg d) aR (reg b) (bit (m / 64)) (BitVec.ofNat 3 (m % 8)))
  | _ => .error .unassignedOp

/-- Class 0xD. -/
def decD (op d a b m : Nat) : Except Reject Instr :=
  match op with
  | 0 => needResv (b == 0 && m / 8 % 2 == 0) <| withCode (WFmt.ofCode (m % 8)) fun fmtC => .ok (.mlds (reg d) (reg a) (bit (m / 64)) (bit (m / 32 % 2)) (bit (m / 16 % 2)) fmtC)
  | 1 => needResv (a == 0 && b == 0 && m % 16 == 0) <| .ok (.mswap (reg d) (bit (m / 64)) (bit (m / 32 % 2)) (bit (m / 16 % 2)))
  | 2 => needResv (m / 4 % 4 == 0) <| withCode (MmacOp.ofCode (m % 4)) fun opC => .ok (.mmac (reg d) (reg a) (reg b) (bit (m / 64)) (bit (m / 32 % 2)) (bit (m / 16 % 2)) opC)
  | 3 => needResv (d == 0 && b == 0 && m % 16 == 0) <| .ok (.mfeed (reg a) (bit (m / 64)) (bit (m / 32 % 2)) (bit (m / 16 % 2)))
  | 4 => needResv (a == 0 && b == 0 && m % 16 == 0) <| .ok (.mpull (reg d) (bit (m / 64)) (bit (m / 32 % 2)) (bit (m / 16 % 2)))
  | 5 => needResv (m / 8 % 2 == 0) <| .ok (.vopacc (reg d) (reg a) (reg b) (bit (m / 64)) (bit (m / 32 % 2)) (bit (m / 16 % 2)) (BitVec.ofNat 3 (m % 8)))
  | 16 => needResv (d == 0 && b == 0 && m % 32 == 0) <| .ok (.xcopy (reg a) (bit (m / 64)) (bit (m / 32 % 2)))
  | 17 => needResv (d == 0 && b == 0 && m % 32 == 0) <| .ok (.xred (reg a) (bit (m / 64)) (bit (m / 32 % 2)))
  | 24 => needResv (m / 8 % 4 == 0) <| withSlot d fun dR => withCode (VWidth.ofCode (m % 8)) fun wC => .ok (.strcfg dR (reg a) (reg b) (bit (m / 64)) (bit (m / 32 % 2)) wC)
  | 25 => needResv (b == 0 && m % 16 == 0) <| withSlot a fun aR => .ok (.vldS (reg d) aR (bit (m / 64)) (bit (m / 32 % 2)) (bit (m / 16 % 2)))
  | 32 => needResv (a == 0 && b == 0 && m == 0) <| .ok (.tokpush (reg d))
  | 33 => needResv (a == 0 && b == 0 && m == 0) <| .ok (.tokpop (reg d))
  | _ => .error .unassignedOp

/-- Class 0x3: branch, jump, register-jump (R71). -/
def dec3 (w : Nat) : Except Reject Instr :=
  match field w 25 3 with
  | 0 => .ok (.beq (reg (field w 20 5)) (reg (field w 15 5)) (BitVec.ofNat 15 (field w 0 15)))
  | 1 => .ok (.bne (reg (field w 20 5)) (reg (field w 15 5)) (BitVec.ofNat 15 (field w 0 15)))
  | 2 => .ok (.blt (reg (field w 20 5)) (reg (field w 15 5)) (BitVec.ofNat 15 (field w 0 15)))
  | 3 => .ok (.bge (reg (field w 20 5)) (reg (field w 15 5)) (BitVec.ofNat 15 (field w 0 15)))
  | 4 => .ok (.bltu (reg (field w 20 5)) (reg (field w 15 5)) (BitVec.ofNat 15 (field w 0 15)))
  | 5 => .ok (.bgeu (reg (field w 20 5)) (reg (field w 15 5)) (BitVec.ofNat 15 (field w 0 15)))
  | 6 => .ok (.jal (reg (field w 20 5)) (BitVec.ofNat 20 (field w 0 20)))
  | 7 => .ok (.jalr (reg (field w 20 5)) (reg (field w 15 5)) (BitVec.ofNat 15 (field w 0 15)))
  | _ => .error .unassignedOp

/-- Class 0xA: the vector-memory format (R71, R76). -/
def decA (op d base ix m : Nat) : Except Reject Instr :=
  match op with
  | 0 => needResv (ix == 0) <| withCode (VWidth.ofCode (m / 64)) fun wC => withCode (Policy.ofCode (m / 4 % 4)) fun polC => .ok (.vld (reg d) (reg base) wC (bit (m / 32 % 2)) (bit (m / 16 % 2)) polC (bit (m / 2 % 2)) (bit (m % 2)))
  | 1 => withCode (VWidth.ofCode (m / 64)) fun wC => withCode (Policy.ofCode (m / 4 % 4)) fun polC => .ok (.vlds (reg d) (reg base) (reg ix) wC (bit (m / 32 % 2)) (bit (m / 16 % 2)) polC (bit (m / 2 % 2)) (bit (m % 2)))
  | 2 => withCode (VWidth.ofCode (m / 64)) fun wC => withCode (Policy.ofCode (m / 4 % 4)) fun polC => .ok (.vldx (reg d) (reg base) (reg ix) wC (bit (m / 32 % 2)) (bit (m / 16 % 2)) polC (bit (m / 2 % 2)) (bit (m % 2)))
  | 3 => needResv (ix == 0) <| withCode (VWidth.ofCode (m / 64)) fun wC => withCode (Policy.ofCode (m / 4 % 4)) fun polC => .ok (.vldff (reg d) (reg base) wC (bit (m / 32 % 2)) (bit (m / 16 % 2)) polC (bit (m / 2 % 2)) (bit (m % 2)))
  | 4 => withCode (VWidth.ofCode (m / 64)) fun wC => withCode (Policy.ofCode (m / 4 % 4)) fun polC => .ok (.vldxff (reg d) (reg base) (reg ix) wC (bit (m / 32 % 2)) (bit (m / 16 % 2)) polC (bit (m / 2 % 2)) (bit (m % 2)))
  | 5 => needResv (ix == 0 && m % 2 == 0) <| withCode (VWidth.ofCode (m / 64)) fun wC => withCode (Policy.ofCode (m / 4 % 4)) fun polC => .ok (.vst (reg d) (reg base) wC (bit (m / 32 % 2)) (bit (m / 16 % 2)) polC (bit (m / 2 % 2)))
  | 6 => needResv (m % 2 == 0) <| withCode (VWidth.ofCode (m / 64)) fun wC => withCode (Policy.ofCode (m / 4 % 4)) fun polC => .ok (.vsts (reg d) (reg base) (reg ix) wC (bit (m / 32 % 2)) (bit (m / 16 % 2)) polC (bit (m / 2 % 2)))
  | 7 => needResv (m % 2 == 0) <| withCode (VWidth.ofCode (m / 64)) fun wC => withCode (Policy.ofCode (m / 4 % 4)) fun polC => .ok (.vstx (reg d) (reg base) (reg ix) wC (bit (m / 32 % 2)) (bit (m / 16 % 2)) polC (bit (m / 2 % 2)))
  | 8 => withCode (VWidth.ofCode (m / 64)) fun wC => withCode (VamoOp.ofCode (m / 4 % 4 * 2 + m % 2)) fun opC => .ok (.vamo (reg d) (reg base) (reg ix) wC (bit (m / 32 % 2)) (bit (m / 16 % 2)) opC (bit (m / 2 % 2)))
  | 9 => needResv (m % 2 == 0 && m / 4 % 4 == 0 && m / 64 == 0) <| withM d fun dR => .ok (.vlock dR (reg base) (reg ix) (bit (m / 32 % 2)) (bit (m / 16 % 2)) (bit (m / 2 % 2)))
  | 10 => needResv (base == 0 && m % 2 == 0 && m / 4 % 4 == 0 && m / 32 == 0) <| withM d fun dR => .ok (.vunlock dR (reg ix) (bit (m / 16 % 2)) (bit (m / 2 % 2)))
  | 11 => needResv (ix == 0 && m % 4 == 0 && m / 32 == 0) <| withCode (Policy.ofCode (m / 4 % 4)) fun polC => .ok (.vsave (reg d) (reg base) (bit (m / 16 % 2)) polC)
  | 12 => needResv (ix == 0 && m % 4 == 0 && m / 32 == 0) <| withCode (Policy.ofCode (m / 4 % 4)) fun polC => .ok (.vrestore (reg d) (reg base) (bit (m / 16 % 2)) polC)
  | _ => .error .unassignedOp

/-- Class 0xE: the prefix word (R77). -/
def decE (w : Nat) : Except Reject Instr :=
  needResv (field w 0 16 == 0) <| withCode (CFile.ofCode (field w 21 2)) fun cf =>
    .ok (.pfx (BitVec.ofNat 3 (field w 25 3)) (bit (field w 24 1)) (bit (field w 23 1)) cf (reg (field w 16 5)))

/-- The fields of a word, before the conditions of `Instr.check`. -/
def decodeFields (w : Nat) : Except Reject Instr :=
  let op := field w 22 6
  let d := field w 17 5
  let a := field w 12 5
  let b := field w 7 5
  let m := field w 0 7
  match field w 28 4 with
  | 1 => dec1 op d a b m
  | 2 => dec2 op d a b m
  | 3 => dec3 w
  | 4 => dec4 op d a b m
  | 5 => dec5 op d a b m
  | 6 => dec6 op d a b m
  | 7 => dec7 op d a b m
  | 8 => dec8 op d a b m
  | 9 => dec9 op d a b m
  | 10 => decA (field w 24 4) (field w 19 5) (field w 14 5) (field w 9 5) (field w 0 9)
  | 11 => decB op d a b m
  | 12 => decC op d a b m
  | 13 => decD op d a b m
  | 14 => decE w
  | _ => .error .illegalClass

/-- The instruction a 32-bit word stands for, whichever thread decodes it (R84). -/
def decodeWord (w : BitVec 32) : Except Reject Instr :=
  match decodeFields w.toNat with
  | .error r => .error r
  | .ok i =>
    match i.check with
    | none => .ok i
    | some r => .error r

/-! ## Which thread runs which instruction (R83, R84, R116) -/

/-- CSR numbers only a supervisor thread reaches. -/
def csrSupervisor (n : Nat) : Bool := 0x400 ≤ n && n ≤ 0x4FF

/-- What a user thread does not run: supervisor-only ops and CSRs take PRIV, MCC-only ops ILLEGAL, and the partner
register of tokpush and tokpop is resv on a hart (R84, R281). -/
def userDenied : Instr → Option Denied
  | .tret | .ctxsave _ _ | .ctxload _ _ | .tlbinv _ _ => some .priv
  | .csrr _ n => if csrSupervisor n.toNat then some .priv else none
  | .csrw _ _ n | .csrs _ _ n | .csrc _ _ n =>
    if csrSupervisor n.toNat || n.toNat == 0x103 then some .priv else none
  | .mlds _ _ _ _ _ _ | .mswap _ _ _ _ | .mmac _ _ _ _ _ _ _ => some .illegal
  | .tokpush d | .tokpop d => if d = 0 then none else some .illegal
  | _ => none

/-- The ops a supervisor thread decodes: classes 0x1–0x4 and a subset of class 0x5 (R116). -/
def supRuns : Instr → Bool
  | .add _ _ _ | .sub _ _ _ | .mul _ _ _ | .mulh _ _ _ | .mulhu _ _ _ | .div _ _ _ | .divu _ _ _ | .rem _ _ _
  | .remu _ _ _ | .and _ _ _ | .or _ _ _ | .xor _ _ _ | .sll _ _ _ | .srl _ _ _ | .sra _ _ _ | .slt _ _ _
  | .sltu _ _ _ | .min _ _ _ | .max _ _ _ | .minu _ _ _ | .maxu _ _ _ | .clz _ _ | .ctz _ _ | .popc _ _
  | .rotl _ _ _ | .rotr _ _ _ | .ext _ _ _ _ _ | .fadd _ _ _ _ _ | .fsub _ _ _ _ _ | .fmul _ _ _ _ _
  | .fdiv _ _ _ _ _ | .fsqrt _ _ _ _ | .fmadd _ _ _ _ _ _ _ | .fmin _ _ _ _ | .fmax _ _ _ _ | .fcmp _ _ _ _ _
  | .fcvt _ _ _ _ _ | .fmv _ _ _ _ | .fclass _ _ _ | .addi _ _ _ | .andi _ _ _ | .ori _ _ _ | .xori _ _ _
  | .slli _ _ _ | .srli _ _ _ | .srai _ _ _ | .slti _ _ _ | .sltui _ _ _ | .lih _ _ | .pcadd _ _ | .beq _ _ _
  | .bne _ _ _ | .blt _ _ _ | .bge _ _ _ | .bltu _ _ _ | .bgeu _ _ _ | .jal _ _ | .jalr _ _ _ | .ldS8 _ _ _
  | .ldZ8 _ _ _ | .ldS16 _ _ _ | .ldZ16 _ _ _ | .ldS32 _ _ _ | .ldZ32 _ _ _ | .ld64 _ _ _ | .st8 _ _ _ | .st16 _ _ _
  | .st32 _ _ _ | .st64 _ _ _ | .fld16 _ _ _ | .fld32 _ _ _ | .fld64 _ _ _ | .fst16 _ _ _ | .fst32 _ _ _
  | .fst64 _ _ _ | .lda _ _ _ _ | .stl _ _ _ _ | .cas _ _ _ _ _ _ | .amoswap _ _ _ _ _ _ | .amoadd _ _ _ _ _ _
  | .amoand _ _ _ _ _ _ | .amoor _ _ _ _ _ _ | .amoxor _ _ _ _ _ _ | .amomin _ _ _ _ _ _ | .amomax _ _ _ _ _ _
  | .fence _ _ | .fenceSv | .vdrain | .lsync | .csrr _ _ | .csrw _ _ _ | .csrs _ _ _ | .csrc _ _ _ | .trap _ | .tret
  | .park _ | .launch _ _ | .waitge _ _ _ | .ctxsave _ _ | .ctxload _ _ | .tlbinv _ _ => true
  | _ => false

/-- The ops an MCC decodes (R83). -/
def mccRuns : Instr → Bool
  | .add _ _ _ | .sub _ _ _ | .mul _ _ _ | .mulh _ _ _ | .mulhu _ _ _ | .div _ _ _ | .divu _ _ _ | .rem _ _ _
  | .remu _ _ _ | .and _ _ _ | .or _ _ _ | .xor _ _ _ | .sll _ _ _ | .srl _ _ _ | .sra _ _ _ | .slt _ _ _
  | .sltu _ _ _ | .min _ _ _ | .max _ _ _ | .minu _ _ _ | .maxu _ _ _ | .clz _ _ | .ctz _ _ | .popc _ _
  | .rotl _ _ _ | .rotr _ _ _ | .ext _ _ _ _ _ | .addi _ _ _ | .andi _ _ _ | .ori _ _ _ | .xori _ _ _ | .slli _ _ _
  | .srli _ _ _ | .srai _ _ _ | .slti _ _ _ | .sltui _ _ _ | .lih _ _ | .pcadd _ _ | .beq _ _ _ | .bne _ _ _
  | .blt _ _ _ | .bge _ _ _ | .bltu _ _ _ | .bgeu _ _ _ | .jal _ _ | .jalr _ _ _ | .exit | .mlds _ _ _ _ _ _
  | .mswap _ _ _ _ | .mmac _ _ _ _ _ _ _ | .tokpush _ | .tokpop _ => true
  | _ => false

/-- Whether a thread runs an instruction that decodes, and the cause it takes otherwise (R84, R116). -/
def denied (k : ThreadKind) (i : Instr) : Option Denied :=
  match k with
  | .user => userDenied i
  | .sup => if supRuns i then none else some .illegal
  | .mcc => if mccRuns i then none else some .illegal

/-- The words that accept a prefix (R78): class 0x6 ops 0x08–0x0F, classes 0x7, 0x8, 0x9 and 0xB, and the element loads,
stores and vamo of class 0xA. -/
def acceptsPfx : Instr → Bool
  | .vmand _ _ _ _ | .vmor _ _ _ _ | .vmxor _ _ _ _ | .vmnot _ _ _ | .vpopc _ _ _ | .vfirst _ _ _ | .vmspan _ _ _ _
  | .vmrank _ _ _ _ | .vadd _ _ _ _ _ | .vsub _ _ _ _ _ | .vmul _ _ _ _ _ | .vmulh _ _ _ _ _ _ | .vand _ _ _ _ _
  | .vor _ _ _ _ _ | .vxor _ _ _ _ _ | .vsll _ _ _ _ _ | .vsrl _ _ _ _ _ | .vsra _ _ _ _ _ | .vmin _ _ _ _ _
  | .vmax _ _ _ _ _ | .vminu _ _ _ _ _ | .vmaxu _ _ _ _ _ | .vsadd _ _ _ _ _ _ | .vssub _ _ _ _ _ _
  | .vcmp _ _ _ _ _ _ _ | .vmerge _ _ _ _ _ | .vmv _ _ _ _ | .vmvX _ _ _ _ | .vwadd _ _ _ _ _ _ | .vwmul _ _ _ _ _ _
  | .vnarrow _ _ _ _ _ | .vext _ _ _ _ _ | .vfadd _ _ _ _ _ _ | .vfsub _ _ _ _ _ _ | .vfmul _ _ _ _ _ _
  | .vfdiv _ _ _ _ _ _ | .vfsqrt _ _ _ _ | .vfmadd _ _ _ _ _ _ _ _ | .vfmin _ _ _ _ _ | .vfmax _ _ _ _ _
  | .vfcmp _ _ _ _ _ _ | .vfcvt _ _ _ _ _ | .vfexp2 _ _ _ _ | .vflog2 _ _ _ _ | .vfrecip _ _ _ _
  | .vfscale _ _ _ _ _ _ | .vmxdot _ _ _ _ _ _ | .vquant _ _ _ _ _ | .vredsum _ _ _ _ _ _ | .vredmax _ _ _ _ _ _
  | .vredmin _ _ _ _ _ _ | .vredbit _ _ _ _ _ _ | .vfredsum _ _ _ _ _ | .vfredmax _ _ _ _ _ | .vargmax _ _ _
  | .vcompress _ _ _ | .vexpand _ _ _ | .vslideup _ _ _ _ | .vslidedn _ _ _ _ | .vperm _ _ _ _ _ | .vscan _ _ _ _
  | .vrand _ _ _ _ _ | .vsample _ _ _ _ _ | .vgmax _ _ _ _ | .vld _ _ _ _ _ _ _ _ | .vlds _ _ _ _ _ _ _ _ _
  | .vldx _ _ _ _ _ _ _ _ _ | .vldff _ _ _ _ _ _ _ _ | .vldxff _ _ _ _ _ _ _ _ _ | .vst _ _ _ _ _ _ _
  | .vsts _ _ _ _ _ _ _ _ | .vstx _ _ _ _ _ _ _ _ | .vamo _ _ _ _ _ _ _ _ | .tset _ _ _ | .tget _ _ _
  | .tup _ _ _ _ _ | .tdown _ _ _ _ _ | .tbcast _ _ _ _ _ | .tdepth _ _ _ | .tanc _ _ _ _ | .tancUp _ _ _ _ _
  | .troot _ _ _ | .tcontract _ _ _ _ | .tcontractM _ _ _ _ | .tleaf _ _ _ | .tcheck _ _ _ _ | .torder _ _ _ => true
  | _ => false

/-- The file of an instruction's destination, as a prefix's cfile names it (R77, R78): m destinations have no copy file. -/
inductive DestFile where
  | none | v | x | t | m
  deriving DecidableEq, Repr

/-- The destination file of the words that accept a prefix. -/
def destFile : Instr → DestFile
  | .vmrank _ _ _ _ | .vadd _ _ _ _ _ | .vsub _ _ _ _ _ | .vmul _ _ _ _ _ | .vmulh _ _ _ _ _ _ | .vand _ _ _ _ _
  | .vor _ _ _ _ _ | .vxor _ _ _ _ _ | .vsll _ _ _ _ _ | .vsrl _ _ _ _ _ | .vsra _ _ _ _ _ | .vmin _ _ _ _ _
  | .vmax _ _ _ _ _ | .vminu _ _ _ _ _ | .vmaxu _ _ _ _ _ | .vsadd _ _ _ _ _ _ | .vssub _ _ _ _ _ _
  | .vmerge _ _ _ _ _ | .vmv _ _ _ _ | .vwadd _ _ _ _ _ _ | .vwmul _ _ _ _ _ _ | .vnarrow _ _ _ _ _
  | .vext _ _ _ _ _ | .vfadd _ _ _ _ _ _ | .vfsub _ _ _ _ _ _ | .vfmul _ _ _ _ _ _ | .vfdiv _ _ _ _ _ _
  | .vfsqrt _ _ _ _ | .vfmadd _ _ _ _ _ _ _ _ | .vfmin _ _ _ _ _ | .vfmax _ _ _ _ _ | .vfcvt _ _ _ _ _
  | .vfexp2 _ _ _ _ | .vflog2 _ _ _ _ | .vfrecip _ _ _ _ | .vfscale _ _ _ _ _ _ | .vmxdot _ _ _ _ _ _
  | .vquant _ _ _ _ _ | .vredsum _ _ _ _ _ _ | .vredmax _ _ _ _ _ _ | .vredmin _ _ _ _ _ _ | .vredbit _ _ _ _ _ _
  | .vfredsum _ _ _ _ _ | .vfredmax _ _ _ _ _ | .vcompress _ _ _ | .vexpand _ _ _ | .vslideup _ _ _ _
  | .vslidedn _ _ _ _ | .vperm _ _ _ _ _ | .vscan _ _ _ _ | .vrand _ _ _ _ _ | .vld _ _ _ _ _ _ _ _
  | .vlds _ _ _ _ _ _ _ _ _ | .vldx _ _ _ _ _ _ _ _ _ | .vldff _ _ _ _ _ _ _ _ | .vldxff _ _ _ _ _ _ _ _ _
  | .vamo _ _ _ _ _ _ _ _ | .tget _ _ _ | .tup _ _ _ _ _ | .tdown _ _ _ _ _ | .tbcast _ _ _ _ _ | .tdepth _ _ _
  | .tancUp _ _ _ _ _ | .troot _ _ _ | .torder _ _ _ => .v
  | .vpopc _ _ _ | .vfirst _ _ _ | .vmvX _ _ _ _ | .vargmax _ _ _ | .vsample _ _ _ _ _ | .vgmax _ _ _ _ => .x
  | .tset _ _ _ | .tcontract _ _ _ _ => .t
  | .vmand _ _ _ _ | .vmor _ _ _ _ | .vmxor _ _ _ _ | .vmnot _ _ _ | .vmspan _ _ _ _ | .vcmp _ _ _ _ _ _ _
  | .vfcmp _ _ _ _ _ _ | .tanc _ _ _ _ | .tcontractM _ _ _ _ | .tleaf _ _ _ | .tcheck _ _ _ _ => .m
  | _ => .none

/-- The mk bit of a word that has one. -/
def mkBit : Instr → Bool
  | .vmand _ _ _ mk => mk
  | .vmor _ _ _ mk => mk
  | .vmxor _ _ _ mk => mk
  | .vmnot _ _ mk => mk
  | .vpopc _ _ mk => mk
  | .vfirst _ _ mk => mk
  | .vmspan _ _ mk _ => mk
  | .vmrank _ _ mk _ => mk
  | .vadd _ _ _ mk _ => mk
  | .vsub _ _ _ mk _ => mk
  | .vmul _ _ _ mk _ => mk
  | .vmulh _ _ _ mk _ _ => mk
  | .vand _ _ _ mk _ => mk
  | .vor _ _ _ mk _ => mk
  | .vxor _ _ _ mk _ => mk
  | .vsll _ _ _ mk _ => mk
  | .vsrl _ _ _ mk _ => mk
  | .vsra _ _ _ mk _ => mk
  | .vmin _ _ _ mk _ => mk
  | .vmax _ _ _ mk _ => mk
  | .vminu _ _ _ mk _ => mk
  | .vmaxu _ _ _ mk _ => mk
  | .vsadd _ _ _ mk _ _ => mk
  | .vssub _ _ _ mk _ _ => mk
  | .vcmp _ _ _ mk _ _ _ => mk
  | .vmerge _ _ _ mk _ => mk
  | .vmv _ _ mk _ => mk
  | .vmvX _ _ _ mk => mk
  | .vwadd _ _ _ mk _ _ => mk
  | .vwmul _ _ _ mk _ _ => mk
  | .vnarrow _ _ mk _ _ => mk
  | .vext _ _ mk _ _ => mk
  | .vfadd _ _ _ mk _ _ => mk
  | .vfsub _ _ _ mk _ _ => mk
  | .vfmul _ _ _ mk _ _ => mk
  | .vfdiv _ _ _ mk _ _ => mk
  | .vfsqrt _ _ mk _ => mk
  | .vfmadd _ _ _ mk _ _ _ _ => mk
  | .vfmin _ _ _ mk _ => mk
  | .vfmax _ _ _ mk _ => mk
  | .vfcmp _ _ _ mk _ _ => mk
  | .vfcvt _ _ mk _ _ => mk
  | .vfexp2 _ _ mk _ => mk
  | .vflog2 _ _ mk _ => mk
  | .vfrecip _ _ mk _ => mk
  | .vfscale _ _ _ mk _ _ => mk
  | .vmxdot _ _ _ mk _ _ => mk
  | .vquant _ _ mk _ _ => mk
  | .vredsum _ _ _ mk _ _ => mk
  | .vredmax _ _ _ mk _ _ => mk
  | .vredmin _ _ _ mk _ _ => mk
  | .vredbit _ _ _ mk _ _ => mk
  | .vfredsum _ _ _ mk _ => mk
  | .vfredmax _ _ _ mk _ => mk
  | .vargmax _ _ mk => mk
  | .vcompress _ _ mk => mk
  | .vexpand _ _ mk => mk
  | .vslideup _ _ _ mk => mk
  | .vslidedn _ _ _ mk => mk
  | .vperm _ _ _ mk _ => mk
  | .vscan _ _ mk _ => mk
  | .vrand _ _ _ mk _ => mk
  | .vsample _ _ _ mk _ => mk
  | .vgmax _ _ _ mk => mk
  | .vld _ _ _ _ _ _ mk _ => mk
  | .vlds _ _ _ _ _ _ _ mk _ => mk
  | .vldx _ _ _ _ _ _ _ mk _ => mk
  | .vldff _ _ _ _ _ _ mk _ => mk
  | .vldxff _ _ _ _ _ _ _ mk _ => mk
  | .vst _ _ _ _ _ _ mk => mk
  | .vsts _ _ _ _ _ _ _ mk => mk
  | .vstx _ _ _ _ _ _ _ mk => mk
  | .vamo _ _ _ _ _ _ _ mk => mk
  | .vlock _ _ _ _ _ mk => mk
  | .vunlock _ _ _ mk => mk
  | .tset _ _ mk => mk
  | .tget _ _ mk => mk
  | .tup _ _ _ mk _ => mk
  | .tdown _ _ _ mk _ => mk
  | .tbcast _ _ _ mk _ => mk
  | .tdepth _ _ mk => mk
  | .tanc _ _ _ mk => mk
  | .tancUp _ _ _ mk _ => mk
  | .troot _ _ mk => mk
  | .tcontract _ _ _ mk => mk
  | .tcontractM _ _ _ mk => mk
  | .tleaf _ _ mk => mk
  | .tcheck _ _ mk _ => mk
  | .torder _ _ mk => mk
  | .hins _ _ _ mk => mk
  | .hprb _ _ _ mk => mk
  | .hdel _ _ mk => mk
  | .hacc _ _ _ mk _ => mk
  | .lde _ _ _ mk => mk
  | .tapDot _ _ _ mk _ => mk
  | .tapFin _ mk _ => mk
  | .tapSteer _ _ _ mk _ => mk
  | .mfeed _ _ _ mk => mk
  | .mpull _ _ _ mk => mk
  | .vopacc _ _ _ _ _ mk _ => mk
  | .vldS _ _ _ _ mk => mk
  | _ => false

/-- Whether a prefix with these fields may stand before a word (R78). -/
def pfxOk (zero : Bool) (cf : CFile) (i : Instr) : Bool :=
  acceptsPfx i && !mkBit i &&
  (match cf, destFile i with
    | .none, _ => true
    | .v, .v => true
    | .x, .x => true
    | .t, .t => true
    | _, _ => false) &&
  (!zero || (match destFile i with
    | .v | .m | .t => true
    | _ => false))

/-! ## The encoder -/

/-- The three-register format (R71). -/
def enc3R (cls op d a b m : Nat) : Nat := cls * 2 ^ 28 + op * 2 ^ 22 + d * 2 ^ 17 + a * 2 ^ 12 + b * 2 ^ 7 + m
/-- The immediate-12 format. -/
def encI12 (cls op d a imm : Nat) : Nat := cls * 2 ^ 28 + op * 2 ^ 22 + d * 2 ^ 17 + a * 2 ^ 12 + imm
/-- The immediate-17 format. -/
def encI17 (cls op d imm : Nat) : Nat := cls * 2 ^ 28 + op * 2 ^ 22 + d * 2 ^ 17 + imm
/-- The branch and register-jump formats. -/
def encBR (op x y off : Nat) : Nat := 3 * 2 ^ 28 + op * 2 ^ 25 + x * 2 ^ 20 + y * 2 ^ 15 + off
/-- The jump format. -/
def encJ (op d off : Nat) : Nat := 3 * 2 ^ 28 + op * 2 ^ 25 + d * 2 ^ 20 + off
/-- The vector-memory format. -/
def encVM (op d base ix m : Nat) : Nat := 10 * 2 ^ 28 + op * 2 ^ 24 + d * 2 ^ 19 + base * 2 ^ 14 + ix * 2 ^ 9 + m
/-- The prefix format. -/
def encPfx (mreg sense zer cf creg : Nat) : Nat :=
  14 * 2 ^ 28 + mreg * 2 ^ 25 + sense * 2 ^ 24 + zer * 2 ^ 23 + cf * 2 ^ 21 + creg * 2 ^ 16
/-- The b field and var bits of a conversion source (R165). -/
def CvtSrc.bField : CvtSrc → Nat
  | .code c => c.toNat
  | .ctr x _ => x.toNat
/-- The sb and var bits of a conversion source, as mod bits 5:3. -/
def CvtSrc.modBits : CvtSrc → Nat
  | .code _ => 0
  | .ctr _ s => 32 + s.code * 8

/-- The word of an instruction as a number; device steps have none. -/
def encodeNat : Instr → Option Nat
  | .add d a b => some (enc3R 1 0 (d.toNat) (a.toNat) (b.toNat) (0))
  | .sub d a b => some (enc3R 1 1 (d.toNat) (a.toNat) (b.toNat) (0))
  | .mul d a b => some (enc3R 1 2 (d.toNat) (a.toNat) (b.toNat) (0))
  | .mulh d a b => some (enc3R 1 3 (d.toNat) (a.toNat) (b.toNat) (0))
  | .mulhu d a b => some (enc3R 1 4 (d.toNat) (a.toNat) (b.toNat) (0))
  | .div d a b => some (enc3R 1 5 (d.toNat) (a.toNat) (b.toNat) (0))
  | .divu d a b => some (enc3R 1 6 (d.toNat) (a.toNat) (b.toNat) (0))
  | .rem d a b => some (enc3R 1 7 (d.toNat) (a.toNat) (b.toNat) (0))
  | .remu d a b => some (enc3R 1 8 (d.toNat) (a.toNat) (b.toNat) (0))
  | .and d a b => some (enc3R 1 9 (d.toNat) (a.toNat) (b.toNat) (0))
  | .or d a b => some (enc3R 1 10 (d.toNat) (a.toNat) (b.toNat) (0))
  | .xor d a b => some (enc3R 1 11 (d.toNat) (a.toNat) (b.toNat) (0))
  | .sll d a b => some (enc3R 1 12 (d.toNat) (a.toNat) (b.toNat) (0))
  | .srl d a b => some (enc3R 1 13 (d.toNat) (a.toNat) (b.toNat) (0))
  | .sra d a b => some (enc3R 1 14 (d.toNat) (a.toNat) (b.toNat) (0))
  | .slt d a b => some (enc3R 1 15 (d.toNat) (a.toNat) (b.toNat) (0))
  | .sltu d a b => some (enc3R 1 16 (d.toNat) (a.toNat) (b.toNat) (0))
  | .min d a b => some (enc3R 1 17 (d.toNat) (a.toNat) (b.toNat) (0))
  | .max d a b => some (enc3R 1 18 (d.toNat) (a.toNat) (b.toNat) (0))
  | .minu d a b => some (enc3R 1 19 (d.toNat) (a.toNat) (b.toNat) (0))
  | .maxu d a b => some (enc3R 1 20 (d.toNat) (a.toNat) (b.toNat) (0))
  | .clz d a => some (enc3R 1 21 (d.toNat) (a.toNat) 0 (0))
  | .ctz d a => some (enc3R 1 22 (d.toNat) (a.toNat) 0 (0))
  | .popc d a => some (enc3R 1 23 (d.toNat) (a.toNat) 0 (0))
  | .rotl d a b => some (enc3R 1 24 (d.toNat) (a.toNat) (b.toNat) (0))
  | .rotr d a b => some (enc3R 1 25 (d.toNat) (a.toNat) (b.toNat) (0))
  | .ext d a b sgn len1 => some (enc3R 1 26 (d.toNat) (a.toNat) (b.toNat) (bcode sgn * 64 + len1.toNat))
  | .fadd d a b p rc => some (enc3R 1 32 (d.toNat) (a.toNat) (b.toNat) (p.code * 8 + rc.code))
  | .fsub d a b p rc => some (enc3R 1 33 (d.toNat) (a.toNat) (b.toNat) (p.code * 8 + rc.code))
  | .fmul d a b p rc => some (enc3R 1 34 (d.toNat) (a.toNat) (b.toNat) (p.code * 8 + rc.code))
  | .fdiv d a b p rc => some (enc3R 1 35 (d.toNat) (a.toNat) (b.toNat) (p.code * 8 + rc.code))
  | .fsqrt d a p rc => some (enc3R 1 36 (d.toNat) (a.toNat) 0 (p.code * 8 + rc.code))
  | .fmadd d a b negp negc p rc => some (enc3R 1 37 (d.toNat) (a.toNat) (b.toNat) (bcode negp * 64 + bcode negc * 32 + p.code * 8 + rc.code))
  | .fmin d a b p => some (enc3R 1 38 (d.toNat) (a.toNat) (b.toNat) (p.code * 8))
  | .fmax d a b p => some (enc3R 1 39 (d.toNat) (a.toNat) (b.toNat) (p.code * 8))
  | .fcmp d a b p c => some (enc3R 1 40 (d.toNat) (a.toNat) (b.toNat) (p.code * 8 + c.code))
  | .fcvt d a k p rc => some (enc3R 1 41 (d.toNat) (a.toNat) (k.code) (p.code * 8 + rc.code))
  | .fmv d a dir p => some (enc3R 1 42 (d.toNat) (a.toNat) (dir.code) (p.code * 8))
  | .fclass d a p => some (enc3R 1 43 (d.toNat) (a.toNat) 0 (p.code * 8))
  | .addi d a imm => some (encI12 2 0 (d.toNat) (a.toNat) (imm.toNat))
  | .andi d a imm => some (encI12 2 1 (d.toNat) (a.toNat) (imm.toNat))
  | .ori d a imm => some (encI12 2 2 (d.toNat) (a.toNat) (imm.toNat))
  | .xori d a imm => some (encI12 2 3 (d.toNat) (a.toNat) (imm.toNat))
  | .slli d a sh => some (encI12 2 4 (d.toNat) (a.toNat) (sh.toNat))
  | .srli d a sh => some (encI12 2 5 (d.toNat) (a.toNat) (sh.toNat))
  | .srai d a sh => some (encI12 2 6 (d.toNat) (a.toNat) (sh.toNat))
  | .slti d a imm => some (encI12 2 7 (d.toNat) (a.toNat) (imm.toNat))
  | .sltui d a imm => some (encI12 2 8 (d.toNat) (a.toNat) (imm.toNat))
  | .lih d imm => some (encI17 2 9 (d.toNat) (imm.toNat))
  | .pcadd d imm => some (encI17 2 10 (d.toNat) (imm.toNat))
  | .beq a b off => some (encBR 0 a.toNat b.toNat off.toNat)
  | .bne a b off => some (encBR 1 a.toNat b.toNat off.toNat)
  | .blt a b off => some (encBR 2 a.toNat b.toNat off.toNat)
  | .bge a b off => some (encBR 3 a.toNat b.toNat off.toNat)
  | .bltu a b off => some (encBR 4 a.toNat b.toNat off.toNat)
  | .bgeu a b off => some (encBR 5 a.toNat b.toNat off.toNat)
  | .jal d off => some (encJ 6 d.toNat off.toNat)
  | .jalr d a off => some (encBR 7 d.toNat a.toNat off.toNat)
  | .ldS8 d a imm => some (encI12 4 0 (d.toNat) (a.toNat) (imm.toNat))
  | .ldZ8 d a imm => some (encI12 4 1 (d.toNat) (a.toNat) (imm.toNat))
  | .ldS16 d a imm => some (encI12 4 2 (d.toNat) (a.toNat) (imm.toNat))
  | .ldZ16 d a imm => some (encI12 4 3 (d.toNat) (a.toNat) (imm.toNat))
  | .ldS32 d a imm => some (encI12 4 4 (d.toNat) (a.toNat) (imm.toNat))
  | .ldZ32 d a imm => some (encI12 4 5 (d.toNat) (a.toNat) (imm.toNat))
  | .ld64 d a imm => some (encI12 4 6 (d.toNat) (a.toNat) (imm.toNat))
  | .st8 d a imm => some (encI12 4 8 (d.toNat) (a.toNat) (imm.toNat))
  | .st16 d a imm => some (encI12 4 9 (d.toNat) (a.toNat) (imm.toNat))
  | .st32 d a imm => some (encI12 4 10 (d.toNat) (a.toNat) (imm.toNat))
  | .st64 d a imm => some (encI12 4 11 (d.toNat) (a.toNat) (imm.toNat))
  | .fld16 d a imm => some (encI12 4 12 (d.toNat) (a.toNat) (imm.toNat))
  | .fld32 d a imm => some (encI12 4 13 (d.toNat) (a.toNat) (imm.toNat))
  | .fld64 d a imm => some (encI12 4 14 (d.toNat) (a.toNat) (imm.toNat))
  | .fst16 d a imm => some (encI12 4 16 (d.toNat) (a.toNat) (imm.toNat))
  | .fst32 d a imm => some (encI12 4 17 (d.toNat) (a.toNat) (imm.toNat))
  | .fst64 d a imm => some (encI12 4 18 (d.toNat) (a.toNat) (imm.toNat))
  | .lda d a sc w => some (enc3R 4 24 (d.toNat) (a.toNat) 0 (sc.code * 4 + w.code))
  | .stl d a sc w => some (enc3R 4 25 (d.toNat) (a.toNat) 0 (sc.code * 4 + w.code))
  | .cas d a b o sc w => some (enc3R 4 26 (d.toNat) (a.toNat) (b.toNat) (o.code * 32 + sc.code * 4 + w.code))
  | .amoswap d a b o sc w => some (enc3R 4 27 (d.toNat) (a.toNat) (b.toNat) (o.code * 32 + sc.code * 4 + w.code))
  | .amoadd d a b o sc w => some (enc3R 4 28 (d.toNat) (a.toNat) (b.toNat) (o.code * 32 + sc.code * 4 + w.code))
  | .amoand d a b o sc w => some (enc3R 4 29 (d.toNat) (a.toNat) (b.toNat) (o.code * 32 + sc.code * 4 + w.code))
  | .amoor d a b o sc w => some (enc3R 4 30 (d.toNat) (a.toNat) (b.toNat) (o.code * 32 + sc.code * 4 + w.code))
  | .amoxor d a b o sc w => some (enc3R 4 31 (d.toNat) (a.toNat) (b.toNat) (o.code * 32 + sc.code * 4 + w.code))
  | .amomin d a b o sc w => some (enc3R 4 32 (d.toNat) (a.toNat) (b.toNat) (o.code * 32 + sc.code * 4 + w.code))
  | .amomax d a b o sc w => some (enc3R 4 33 (d.toNat) (a.toNat) (b.toNat) (o.code * 32 + sc.code * 4 + w.code))
  | .fence k sc => some (enc3R 4 40 0 0 0 (k.code * 32 + sc.code * 4))
  | .fenceSv => some (enc3R 4 41 0 0 0 (0))
  | .vdrain => some (enc3R 4 42 0 0 0 (0))
  | .lsync => some (enc3R 4 43 0 0 0 (0))
  | .csrr d n => some (encI12 5 0 (d.toNat) 0 (n.toNat))
  | .csrw d a n => some (encI12 5 1 (d.toNat) (a.toNat) (n.toNat))
  | .csrs d a n => some (encI12 5 2 (d.toNat) (a.toNat) (n.toNat))
  | .csrc d a n => some (encI12 5 3 (d.toNat) (a.toNat) (n.toNat))
  | .trap imm => some (encI17 5 8 0 (imm.toNat))
  | .tret => some (enc3R 5 9 0 0 0 (0))
  | .syscall d a => some (enc3R 5 10 (d.toNat) (a.toNat) 0 (0))
  | .park a => some (enc3R 5 11 0 (a.toNat) 0 (0))
  | .split n => some (encI17 5 16 0 (n.toNat))
  | .join => some (enc3R 5 17 0 0 0 (0))
  | .bar sc => some (encI17 5 18 0 (sc.code))
  | .launch d a => some (enc3R 5 19 (d.toNat) (a.toNat) 0 (0))
  | .exit => some (enc3R 5 20 0 0 0 (0))
  | .iopen a => some (enc3R 5 24 0 (a.toNat) 0 (0))
  | .icommit => some (enc3R 5 25 0 0 0 (0))
  | .iabort => some (enc3R 5 26 0 0 0 (0))
  | .waitge d a b => some (enc3R 5 27 (d.toNat) (a.toNat) (b.toNat) (0))
  | .ctxsave d a => some (enc3R 5 32 (d.toNat) (a.toNat) 0 (0))
  | .ctxload d a => some (enc3R 5 33 (d.toNat) (a.toNat) 0 (0))
  | .tlbinv a e => some (enc3R 5 34 0 (a.toNat) 0 (e.code))
  | .pfx m sense zero cf creg => some (encPfx m.toNat (bcode sense) (bcode zero) cf.code creg.toNat)
  | .setvl d a vt => some (encI12 6 0 (d.toNat) (a.toNat) (vt.toNat))
  | .setshape d a b => some (enc3R 6 1 (d.toNat) (a.toNat) (b.toNat) (0))
  | .vmand d a b mk => some (enc3R 6 8 (d.toNat) (a.toNat) (b.toNat) (bcode mk * 64))
  | .vmor d a b mk => some (enc3R 6 9 (d.toNat) (a.toNat) (b.toNat) (bcode mk * 64))
  | .vmxor d a b mk => some (enc3R 6 10 (d.toNat) (a.toNat) (b.toNat) (bcode mk * 64))
  | .vmnot d a mk => some (enc3R 6 11 (d.toNat) (a.toNat) 0 (bcode mk * 64))
  | .vpopc d a mk => some (enc3R 6 12 (d.toNat) (a.toNat) 0 (bcode mk * 64))
  | .vfirst d a mk => some (enc3R 6 13 (d.toNat) (a.toNat) 0 (bcode mk * 64))
  | .vmspan d a mk v => some (enc3R 6 14 (d.toNat) (a.toNat) 0 (bcode mk * 64 + v.code * 8))
  | .vmrank d a mk incl => some (enc3R 6 15 (d.toNat) (a.toNat) 0 (bcode mk * 64 + bcode incl * 8))
  | .vadd d a b mk sb => some (enc3R 7 0 (d.toNat) (a.toNat) (b.toNat) (bcode mk * 64 + bcode sb * 32))
  | .vsub d a b mk sb => some (enc3R 7 1 (d.toNat) (a.toNat) (b.toNat) (bcode mk * 64 + bcode sb * 32))
  | .vmul d a b mk sb => some (enc3R 7 2 (d.toNat) (a.toNat) (b.toNat) (bcode mk * 64 + bcode sb * 32))
  | .vmulh d a b mk sb v => some (enc3R 7 3 (d.toNat) (a.toNat) (b.toNat) (bcode mk * 64 + bcode sb * 32 + v.code * 8))
  | .vand d a b mk sb => some (enc3R 7 4 (d.toNat) (a.toNat) (b.toNat) (bcode mk * 64 + bcode sb * 32))
  | .vor d a b mk sb => some (enc3R 7 5 (d.toNat) (a.toNat) (b.toNat) (bcode mk * 64 + bcode sb * 32))
  | .vxor d a b mk sb => some (enc3R 7 6 (d.toNat) (a.toNat) (b.toNat) (bcode mk * 64 + bcode sb * 32))
  | .vsll d a b mk sb => some (enc3R 7 7 (d.toNat) (a.toNat) (b.toNat) (bcode mk * 64 + bcode sb * 32))
  | .vsrl d a b mk sb => some (enc3R 7 8 (d.toNat) (a.toNat) (b.toNat) (bcode mk * 64 + bcode sb * 32))
  | .vsra d a b mk sb => some (enc3R 7 9 (d.toNat) (a.toNat) (b.toNat) (bcode mk * 64 + bcode sb * 32))
  | .vmin d a b mk sb => some (enc3R 7 10 (d.toNat) (a.toNat) (b.toNat) (bcode mk * 64 + bcode sb * 32))
  | .vmax d a b mk sb => some (enc3R 7 11 (d.toNat) (a.toNat) (b.toNat) (bcode mk * 64 + bcode sb * 32))
  | .vminu d a b mk sb => some (enc3R 7 12 (d.toNat) (a.toNat) (b.toNat) (bcode mk * 64 + bcode sb * 32))
  | .vmaxu d a b mk sb => some (enc3R 7 13 (d.toNat) (a.toNat) (b.toNat) (bcode mk * 64 + bcode sb * 32))
  | .vsadd d a b mk sb uns => some (enc3R 7 14 (d.toNat) (a.toNat) (b.toNat) (bcode mk * 64 + bcode sb * 32 + bcode uns * 8))
  | .vssub d a b mk sb uns => some (enc3R 7 15 (d.toNat) (a.toNat) (b.toNat) (bcode mk * 64 + bcode sb * 32 + bcode uns * 8))
  | .vcmp d a b mk sb uns c => some (enc3R 7 16 (d.toNat) (a.toNat) (b.toNat) (bcode mk * 64 + bcode sb * 32 + bcode uns * 8 + c.code))
  | .vmerge d a b mk sb => some (enc3R 7 17 (d.toNat) (a.toNat) (b.toNat) (bcode mk * 64 + bcode sb * 32))
  | .vmv d b mk sb => some (enc3R 7 18 (d.toNat) 0 (b.toNat) (bcode mk * 64 + bcode sb * 32))
  | .vmvX d a b mk => some (enc3R 7 18 (d.toNat) (a.toNat) (b.toNat) (bcode mk * 64 + 8 + 32))
  | .vwadd d a b mk sb uns => some (enc3R 7 24 (d.toNat) (a.toNat) (b.toNat) (bcode mk * 64 + bcode sb * 32 + bcode uns * 8))
  | .vwmul d a b mk sb uns => some (enc3R 7 25 (d.toNat) (a.toNat) (b.toNat) (bcode mk * 64 + bcode sb * 32 + bcode uns * 8))
  | .vnarrow d a mk sat uns => some (enc3R 7 26 (d.toNat) (a.toNat) 0 (bcode mk * 64 + bcode sat * 16 + bcode uns * 8))
  | .vext d a mk f zero => some (enc3R 7 27 (d.toNat) (a.toNat) 0 (bcode mk * 64 + f.code * 8 + bcode zero))
  | .vfadd d a b mk sb rc => some (enc3R 8 0 (d.toNat) (a.toNat) (b.toNat) (bcode mk * 64 + bcode sb * 32 + rc.code))
  | .vfsub d a b mk sb rc => some (enc3R 8 1 (d.toNat) (a.toNat) (b.toNat) (bcode mk * 64 + bcode sb * 32 + rc.code))
  | .vfmul d a b mk sb rc => some (enc3R 8 2 (d.toNat) (a.toNat) (b.toNat) (bcode mk * 64 + bcode sb * 32 + rc.code))
  | .vfdiv d a b mk sb rc => some (enc3R 8 3 (d.toNat) (a.toNat) (b.toNat) (bcode mk * 64 + bcode sb * 32 + rc.code))
  | .vfsqrt d a mk rc => some (enc3R 8 4 (d.toNat) (a.toNat) 0 (bcode mk * 64 + rc.code))
  | .vfmadd d a b mk sb negp negc rc => some (enc3R 8 5 (d.toNat) (a.toNat) (b.toNat) (bcode mk * 64 + bcode sb * 32 + bcode negp * 16 + bcode negc * 8 + rc.code))
  | .vfmin d a b mk sb => some (enc3R 8 6 (d.toNat) (a.toNat) (b.toNat) (bcode mk * 64 + bcode sb * 32))
  | .vfmax d a b mk sb => some (enc3R 8 7 (d.toNat) (a.toNat) (b.toNat) (bcode mk * 64 + bcode sb * 32))
  | .vfcmp d a b mk sb c => some (enc3R 8 8 (d.toNat) (a.toNat) (b.toNat) (bcode mk * 64 + bcode sb * 32 + c.code))
  | .vfcvt d a mk src rc => some (enc3R 8 9 (d.toNat) (a.toNat) (src.bField) (bcode mk * 64 + src.modBits + rc.code))
  | .vfexp2 d a mk rc => some (enc3R 8 10 (d.toNat) (a.toNat) 0 (bcode mk * 64 + rc.code))
  | .vflog2 d a mk rc => some (enc3R 8 11 (d.toNat) (a.toNat) 0 (bcode mk * 64 + rc.code))
  | .vfrecip d a mk rc => some (enc3R 8 12 (d.toNat) (a.toNat) 0 (bcode mk * 64 + rc.code))
  | .vfscale d a b mk sb rc => some (enc3R 8 13 (d.toNat) (a.toNat) (b.toNat) (bcode mk * 64 + bcode sb * 32 + rc.code))
  | .vmxdot d a b mk scb sca => some (enc3R 8 16 (d.toNat) (a.toNat) (b.toNat) (bcode mk * 64 + bcode scb * 16 + bcode sca * 8))
  | .vquant d a mk src rc => some (enc3R 8 17 (d.toNat) (a.toNat) (src.bField) (bcode mk * 64 + src.modBits + rc.code))
  | .vredsum d a b mk sb v => some (enc3R 9 0 (d.toNat) (a.toNat) (b.toNat) (bcode mk * 64 + bcode sb * 32 + v.code * 8))
  | .vredmax d a b mk sb uns => some (enc3R 9 1 (d.toNat) (a.toNat) (b.toNat) (bcode mk * 64 + bcode sb * 32 + bcode uns * 8))
  | .vredmin d a b mk sb uns => some (enc3R 9 2 (d.toNat) (a.toNat) (b.toNat) (bcode mk * 64 + bcode sb * 32 + bcode uns * 8))
  | .vredbit d a b mk sb op => some (enc3R 9 3 (d.toNat) (a.toNat) (b.toNat) (bcode mk * 64 + bcode sb * 32 + op.code * 8))
  | .vfredsum d a b mk sb => some (enc3R 9 4 (d.toNat) (a.toNat) (b.toNat) (bcode mk * 64 + bcode sb * 32))
  | .vfredmax d a b mk sb => some (enc3R 9 5 (d.toNat) (a.toNat) (b.toNat) (bcode mk * 64 + bcode sb * 32))
  | .vargmax d a mk => some (enc3R 9 6 (d.toNat) (a.toNat) 0 (bcode mk * 64))
  | .vcompress d a mk => some (enc3R 9 8 (d.toNat) (a.toNat) 0 (bcode mk * 64))
  | .vexpand d a mk => some (enc3R 9 9 (d.toNat) (a.toNat) 0 (bcode mk * 64))
  | .vslideup d a b mk => some (enc3R 9 10 (d.toNat) (a.toNat) (b.toNat) (bcode mk * 64 + 32))
  | .vslidedn d a b mk => some (enc3R 9 11 (d.toNat) (a.toNat) (b.toNat) (bcode mk * 64 + 32))
  | .vperm d a b mk sb => some (enc3R 9 12 (d.toNat) (a.toNat) (b.toNat) (bcode mk * 64 + bcode sb * 32))
  | .vscan d a mk op => some (enc3R 9 13 (d.toNat) (a.toNat) 0 (bcode mk * 64 + op.code * 8))
  | .vrand d a b mk uni => some (enc3R 9 16 (d.toNat) (a.toNat) (b.toNat) (bcode mk * 64 + bcode uni * 8 + 32))
  | .vsample d a b mk sb => some (enc3R 9 17 (d.toNat) (a.toNat) (b.toNat) (bcode mk * 64 + bcode sb * 32))
  | .vgmax d a b mk => some (enc3R 9 18 (d.toNat) (a.toNat) (b.toNat) (bcode mk * 64 + 32))
  | .vld d base w o h pol mk x => some (encVM 0 (d.toNat) (base.toNat) (0) (w.code * 64 + bcode o * 32 + bcode h * 16 + pol.code * 4 + bcode mk * 2 + bcode x))
  | .vlds d base ix w o h pol mk x => some (encVM 1 (d.toNat) (base.toNat) (ix.toNat) (w.code * 64 + bcode o * 32 + bcode h * 16 + pol.code * 4 + bcode mk * 2 + bcode x))
  | .vldx d base ix w o h pol mk x => some (encVM 2 (d.toNat) (base.toNat) (ix.toNat) (w.code * 64 + bcode o * 32 + bcode h * 16 + pol.code * 4 + bcode mk * 2 + bcode x))
  | .vldff d base w o h pol mk x => some (encVM 3 (d.toNat) (base.toNat) (0) (w.code * 64 + bcode o * 32 + bcode h * 16 + pol.code * 4 + bcode mk * 2 + bcode x))
  | .vldxff d base ix w o h pol mk x => some (encVM 4 (d.toNat) (base.toNat) (ix.toNat) (w.code * 64 + bcode o * 32 + bcode h * 16 + pol.code * 4 + bcode mk * 2 + bcode x))
  | .vst d base w o h pol mk => some (encVM 5 (d.toNat) (base.toNat) (0) (w.code * 64 + bcode o * 32 + bcode h * 16 + pol.code * 4 + bcode mk * 2))
  | .vsts d base ix w o h pol mk => some (encVM 6 (d.toNat) (base.toNat) (ix.toNat) (w.code * 64 + bcode o * 32 + bcode h * 16 + pol.code * 4 + bcode mk * 2))
  | .vstx d base ix w o h pol mk => some (encVM 7 (d.toNat) (base.toNat) (ix.toNat) (w.code * 64 + bcode o * 32 + bcode h * 16 + pol.code * 4 + bcode mk * 2))
  | .vamo d base ix w o h op mk => some (encVM 8 (d.toNat) (base.toNat) (ix.toNat) (w.code * 64 + bcode o * 32 + bcode h * 16 + op.code / 2 * 4 + op.code % 2 + bcode mk * 2))
  | .vlock d base ix s h mk => some (encVM 9 (d.toNat) (base.toNat) (ix.toNat) (bcode s * 32 + bcode h * 16 + bcode mk * 2))
  | .vunlock d ix h mk => some (encVM 10 (d.toNat) (0) (ix.toNat) (bcode h * 16 + bcode mk * 2))
  | .vsave d base h pol => some (encVM 11 (d.toNat) (base.toNat) (0) (bcode h * 16 + pol.code * 4))
  | .vrestore d base h pol => some (encVM 12 (d.toNat) (base.toNat) (0) (bcode h * 16 + pol.code * 4))
  | .tset d a mk => some (enc3R 11 0 (d.toNat) (a.toNat) 0 (bcode mk * 64))
  | .tget d a mk => some (enc3R 11 1 (d.toNat) (a.toNat) 0 (bcode mk * 64))
  | .tup d a b mk op => some (enc3R 11 2 (d.toNat) (a.toNat) (b.toNat) (bcode mk * 64 + op.code * 8))
  | .tdown d a b mk op => some (enc3R 11 3 (d.toNat) (a.toNat) (b.toNat) (bcode mk * 64 + op.code * 8))
  | .tbcast d a b mk par => some (enc3R 11 4 (d.toNat) (a.toNat) (b.toNat) (bcode mk * 64 + bcode par * 8))
  | .tdepth d a mk => some (enc3R 11 5 (d.toNat) (a.toNat) 0 (bcode mk * 64))
  | .tanc d a b mk => some (enc3R 11 6 (d.toNat) (a.toNat) (b.toNat) (bcode mk * 64 + 32))
  | .tancUp d a b mk sb => some (enc3R 11 6 (d.toNat) (a.toNat) (b.toNat) (bcode mk * 64 + bcode sb * 32 + 8))
  | .troot d a mk => some (enc3R 11 7 (d.toNat) (a.toNat) 0 (bcode mk * 64))
  | .tcontract d a b mk => some (enc3R 11 8 (d.toNat) (a.toNat) (b.toNat) (bcode mk * 64 + 32))
  | .tcontractM d a b mk => some (enc3R 11 8 (d.toNat) (a.toNat) (b.toNat) (bcode mk * 64 + 8 + 32))
  | .tleaf d a mk => some (enc3R 11 9 (d.toNat) (a.toNat) 0 (bcode mk * 64))
  | .tcheck d a mk dng => some (enc3R 11 10 (d.toNat) (a.toNat) 0 (bcode mk * 64 + bcode dng * 8))
  | .torder d a mk => some (enc3R 11 11 (d.toNat) (a.toNat) 0 (bcode mk * 64))
  | .hcfg a b => some (enc3R 12 0 0 (a.toNat) (b.toNat) (0))
  | .hins d a b mk => some (enc3R 12 1 (d.toNat) (a.toNat) (b.toNat) (bcode mk * 64))
  | .hprb d a b mk => some (enc3R 12 2 (d.toNat) (a.toNat) (b.toNat) (bcode mk * 64))
  | .hdel d a mk => some (enc3R 12 3 (d.toNat) (a.toNat) 0 (bcode mk * 64))
  | .hacc d a b mk op => some (enc3R 12 4 (d.toNat) (a.toNat) (b.toNat) (bcode mk * 64 + op.code))
  | .hdrn d a => some (enc3R 12 5 (d.toNat) (a.toNat) 0 (0))
  | .strike a b => some (enc3R 12 16 0 (a.toNat) (b.toNat) (0))
  | .lde d a b mk => some (enc3R 12 17 (d.toNat) (a.toNat) (b.toNat) (bcode mk * 64))
  | .tsite d a => some (enc3R 12 18 (d.toNat) (a.toNat) 0 (0))
  | .ttag a b => some (enc3R 12 19 0 (a.toNat) (b.toNat) (0))
  | .tremap d a b => some (enc3R 12 20 (d.toNat) (a.toNat) (b.toNat) (0))
  | .tapDot d a b mk tap => some (enc3R 12 32 (d.toNat) (a.toNat) (b.toNat) (bcode mk * 64 + tap.toNat))
  | .tapFin d mk tap => some (enc3R 12 33 (d.toNat) 0 0 (bcode mk * 64 + tap.toNat))
  | .tapSteer d a b mk tap => some (enc3R 12 34 (d.toNat) (a.toNat) (b.toNat) (bcode mk * 64 + tap.toNat))
  | .mlds d a push pop late fmt => some (enc3R 13 0 (d.toNat) (a.toNat) 0 (bcode push * 64 + bcode pop * 32 + bcode late * 16 + fmt.code))
  | .mswap d push pop late => some (enc3R 13 1 (d.toNat) 0 0 (bcode push * 64 + bcode pop * 32 + bcode late * 16))
  | .mmac d a b push pop late op => some (enc3R 13 2 (d.toNat) (a.toNat) (b.toNat) (bcode push * 64 + bcode pop * 32 + bcode late * 16 + op.code))
  | .mfeed a push pop mk => some (enc3R 13 3 0 (a.toNat) 0 (bcode push * 64 + bcode pop * 32 + bcode mk * 16))
  | .mpull d push pop mk => some (enc3R 13 4 (d.toNat) 0 0 (bcode push * 64 + bcode pop * 32 + bcode mk * 16))
  | .vopacc d a b push pop mk n1 => some (enc3R 13 5 (d.toNat) (a.toNat) (b.toNat) (bcode push * 64 + bcode pop * 32 + bcode mk * 16 + n1.toNat))
  | .xcopy a push pop => some (enc3R 13 16 0 (a.toNat) 0 (bcode push * 64 + bcode pop * 32))
  | .xred a push pop => some (enc3R 13 17 0 (a.toNat) 0 (bcode push * 64 + bcode pop * 32))
  | .strcfg d a b push pop w => some (enc3R 13 24 (d.toNat) (a.toNat) (b.toNat) (bcode push * 64 + bcode pop * 32 + w.code))
  | .vldS d a push pop mk => some (enc3R 13 25 (d.toNat) (a.toNat) 0 (bcode push * 64 + bcode pop * 32 + bcode mk * 16))
  | .tokpush d => some (enc3R 13 32 (d.toNat) 0 0 (0))
  | .tokpop d => some (enc3R 13 33 (d.toNat) 0 0 (0))
  | _ => none

/-- The word of an instruction. -/
def encode (i : Instr) : Option (BitVec 32) := (encodeNat i).map (BitVec.ofNat 32)

/-- The instruction the decoder reads from a row of the opcode table: `nbits` is the row's width and `w` its bits, bit 0
the least significant bit of the one 32-bit word (R70). -/
def decodeTableWord (nbits w : Nat) : Option Instr :=
  match decodeWord (BitVec.ofNat 32 (w % 2 ^ nbits)) with
  | .ok i => some i
  | .error _ => none

end Sys2Proof
end

