-- ==== Sys2Proof/Config.lean ====
section
/-! DEFINITION. Config.lean: what the Belfy fixes (R6–R11, R210, R392), and the free values: opaque constants for what the
spec leaves open. A free value is applied to `State.free`, a counter of the model that the step advances, or to the
operands it depends on; nothing in Lean can evaluate one (log 6). -/

namespace Sys2Proof.Config

/-- Vector dies of the package (R6). -/
def dies : Nat := 16
/-- Clusters of the package (R6). -/
def clusters : Nat := 128
/-- Vector cores of the package (R6). -/
def cores : Nat := 512
/-- Scalar cores of the package (R6). -/
def scalarCores : Nat := 4096
/-- Lanes of a vector core (R6). -/
def lanes : Nat := 32
/-- Bits of a v or t register that one lane holds (R18). -/
def laneBits : Nat := 1024
/-- Bits of a mask register that one lane holds (R92). -/
def laneMaskBits : Nat := 512
/-- Bytes of one core's scratchpad, 3 MiB (R11). -/
def spmBytes : Nat := 3145728
/-- Bytes of device memory, 1,536 GiB (R12). -/
def devBytes : Nat := 1649267441664
/-- Bytes of one die's stack, 96 GiB (R12). -/
def stackBytes : Nat := 103079215104
/-- First byte of the canvas area (R392). -/
def canvasBase : Nat := 0x17FC0000000
/-- Where supervisor threads start: after the 256 KiB of engine-fault rings (R392 names the entry, not its place; log 4:
DESIGN CHOICE). -/
def canvasEntry : Nat := 0x17FC0040000
/-- Root of the page table of ASID 0xFFFF (R389, R392: registered by peg firmware, whose place for it the spec does not
give; log 4: DESIGN CHOICE, the last 16 KiB of the canvas area). -/
def canvasRoot : Nat := 0x17FFFFFC000
/-- The ASID of canvas firmware (R388). -/
def canvasAsid : Nat := 0xFFFF
/-- IMPL of KVAVER (R112). -/
def implCode : Nat := 0x0B01
/-- PROFILES (R112). -/
def profiles : Nat := 0x7F

/-- A free 64-bit value (log 6). -/
opaque freeWord : Nat → BitVec 64
/-- A free choice among the `k` outcomes that a rule allows: the chosen one is `pick n k % k` (log 6). -/
opaque pick : Nat → Nat → Nat
/-- Clock cycles between two reads of CYCLE, and events of a timing code between two reads of EVCNT (R320; log 7). -/
opaque elapsed : Nat → Nat
/-- The SM3 digest (R392, R393; log 8). -/
opaque sm3 : List Byte → BitVec 256
/-- Whether an image's SM2 signature verifies with the fused key (R392; log 8). -/
opaque imageVerifies : List Byte → Bool
/-- The SM2 signature of a digest with the per-package key, and its certificate (R393; log 8). -/
opaque sign : BitVec 256 → List Byte
/-- The fuse configuration that a quote covers (R393; log 8). -/
opaque fuseConfig : List Byte
/-- The peg firmware in the package's flash (R392; log 8). -/
opaque flashPeg : List Byte

/-- The package's link neighbours in its pod (R392; log 15). -/
opaque neighbours : List Nat

end Sys2Proof.Config
end

