-- ==== Sys2Proof/Machine/State.lean ====
section
/-! DEFINITION. State.lean: everything the spec gives the machine (INVENTORY.md, '## State'), as plain data; the faults and
refusals; and the machine after reset. A table keyed by a number is a list of pairs: an unlisted key has the table's default
value, which the accessors of Ops.lean supply. Fields marked MODEL'S OWN are not the spec's (log 1, log 2). -/

namespace Sys2Proof.Machine

/-- A sparse table: values by key, an unlisted key holding the table's default. -/
abbrev Tbl (α : Type) := List (Nat × α)

/-! ## Threads and what the scalar thread captures -/

/-- Who executes: the scalar half or the vector half of the hart on scalar core p, the supervisor thread of scalar core p
(R17, R32), or the MCC of cluster c (R283). -/
inductive Agent where
  | user (p : Nat)
  | vec (p : Nat)
  | sup (p : Nat)
  | mcc (c : Nat)
  deriving DecidableEq, Repr

/-- A prefix word's fields (R77). -/
structure Pfx where
  m : MReg
  sense : Bool
  zero : Bool
  cfile : CFile
  creg : Reg
  deriving DecidableEq, Repr

/-- The registers of one thread: x0–x31, f0–f31 and the pc (R92, R70). -/
structure Thread where
  x : Vector Word 32
  f : Vector Word 32
  pc : Word
  deriving DecidableEq, Repr

/-- A thread with every register zero, at an address. -/
def Thread.zeroAt (pc : Word) : Thread := ⟨Vector.replicate 32 0, Vector.replicate 32 0, pc⟩

/-- How far a VIQ entry has come (R356, offset +67). -/
inductive EntryState where
  /-- not begun -/
  | fresh
  /-- interrupted at VSTART -/
  | stopped
  /-- awaiting replay under FMASK -/
  | replay
  deriving DecidableEq, Repr

/-- MODEL'S OWN: what the instruction at the VIQ head has done in its steps so far (R251, R253, R290; log 1): their number,
the outcomes by element index, the flags, and the failures (index, cause, DETAIL, STVAL). -/
structure Partial where
  steps : Nat
  outs : List (Nat × Bool × Nat)
  fl : BitVec 8
  fails : List (Nat × Nat × Nat × Word)
  deriving DecidableEq, Repr

/-- Nothing done. -/
def Partial.zero : Partial := ⟨0, [], 0, []⟩

/-- A VIQ entry: one decoded instruction or prefix pair with what the scalar thread captured at the push (R266, R356). -/
structure VEntry where
  /-- the instruction -/
  instr : Instr
  /-- address of the word, or of the prefix of a pair -/
  addr : Word
  pfx : Option Pfx
  /-- captured operands: the a field, the b field, the b + 1 register of vgmax and strcfg -/
  a : Word
  b : Word
  b1 : Word
  rngkey : Word
  pntbase : Word
  /-- vld.s push position (R301) -/
  pushPos : Word
  frm : BitVec 2
  ovr : Bool
  /-- Reply Queue slot -/
  slot : Option Nat
  st : EntryState
  /-- the scalar stores with a lower stamp come before this entry's accesses (R228) -/
  needs : Nat
  /-- an lsync stands between this entry and those before it (R230) -/
  joined : Bool
  /-- a word of the entry holds an uncorrectable error (R218, R362) -/
  bad : Bool
  done : Partial
  deriving DecidableEq, Repr

/-- A Reply Queue slot (R267, R355 +992): the register it returns to, its copy register, and the reply once held. -/
structure Reply where
  /-- `true` for an f register -/
  toF : Bool
  reg : Reg
  copy : Option Reg
  value : Option Word
  deriving DecidableEq, Repr

/-- Where a byte of a store goes: a memory key, or an offset in a tile of a tent, whose frame is the one that the tile has
when the store is performed (R214, R220). -/
inductive Dest where
  | key (k : Nat)
  | tile (launch tent tile off : Nat)
  deriving DecidableEq, Repr

/-- What a store writes: bytes from its place on, or the bits of one byte under a mask (R47, R233). -/
inductive Datum where
  | bytes (bs : List Byte)
  | bits (mask v : Byte)
  deriving DecidableEq, Repr

/-- A store that waits in a store queue, checked and translated already (R307). -/
structure Pend where
  dest : Dest
  data : Datum
  /-- the `Hart.stamp` of its instruction, which the bytes of an unaligned store and the elements of a vector store share
  (R222, R233) -/
  acc : Nat
  /-- 128-byte line of its address (R268) -/
  line : Nat
  /-- sectors that its instruction's elements cover whole (R219) -/
  clears : List Nat
  /-- fences of stores at system scope executed since (R227) -/
  fences : Nat
  /-- its placement policy (R200) -/
  pol : Policy
  /-- its instruction carries O: its elements are performed in ascending index (R233, R341) -/
  ord : Bool
  deriving DecidableEq, Repr

/-- MODEL'S OWN: a scalar load that its thread has gone past and that is not performed yet (R94, R222, R328; log 2): its
register, extension and width, its place and address, the stamp of the first store after it, and the bytes read so far of an
unaligned one. -/
structure Late where
  /-- `true` for an f register -/
  toF : Bool
  reg : Reg
  sgnd : Bool
  n : Nat
  dest : Dest
  addr : Word
  acc : Nat
  got : List (Nat × Byte)
  deriving DecidableEq, Repr

/-- A line access of a later vector load, performed already (R328): the line of its address, the line of its memory key and
the 128 bytes read. -/
structure Early where
  va : Nat
  line : Nat
  bytes : List Byte
  deriving DecidableEq, Repr

/-- A stream slot (R273, R355 +800). -/
structure Stream where
  base : Word
  /-- remaining length -/
  len : Word
  stride : Word
  /-- strip position pr (R300) -/
  pr : Word
  /-- the scalar thread's push position (R301) -/
  pushPos : Word
  width : VWidth
  configured : Bool
  /-- the strip buffer: elements fetched, by index, with their bits (R273) -/
  strip : List (Nat × Nat)
  /-- elements whose fetch failed: index, cause and DETAIL (R301) -/
  failed : List (Nat × Nat × Nat)
  deriving DecidableEq, Repr

/-- A stream slot that no strcfg has configured. -/
def Stream.none : Stream := ⟨0, 0, 0, 0, 0, .e8, false, [], []⟩

/-- A cause to deliver (R347): the values of SCAUSE, SEPC, SCPC and STVAL. -/
structure Cause where
  code : Nat
  vec : Bool
  epc : Word
  cpc : Word
  tval : Word
  detail : Nat
  abandoned : Bool
  deferred : Bool
  deriving DecidableEq, Repr

/-- Why a thread is parked (R30, R134). -/
inductive Park where
  /-- waitge: the status register, the cell's address and the target (R135) -/
  | cell (d : Reg) (va target : Word)
  /-- park (R134) -/
  | line
  /-- bar at a scope (R31) -/
  | bar (sc : BarScope)
  /-- join, waiting for its siblings (R23) -/
  | join
  /-- syscall with the ring full (R133, R275): its operands -/
  | ring (d a : Reg)
  deriving DecidableEq, Repr

/-- One thing awaiting page-request responses (R353): batches outstanding, whether one has failed with its lowest granule,
and the cause to deliver again as ACCESS. -/
structure PageWait where
  /-- granules of each outstanding batch -/
  batches : List (List Nat)
  /-- lowest granule of the lowest failed batch -/
  failed : Option Nat
  /-- every granule requested, whose translations are removed on success -/
  granules : List Nat
  cause : Cause
  /-- batches that the waiting tret has still to send (R276, R353) -/
  unsent : List (List Nat)
  deriving DecidableEq, Repr

/-- How far a class 0xD word at the VIQ head has come (R285): not issued, or executed with its .push's token still to add. -/
inductive HeadStage where
  | start
  | ran
  deriving DecidableEq, Repr

/-- A hart: its scalar half, its user CSRs, its queues and its split and region membership (R17, R92, R355). -/
structure Hart where
  /-- launch number -/
  launch : Nat
  thr : Thread
  /-- launch cluster (R25) -/
  cluster : Nat
  /-- core within the launch cluster (R25) -/
  core : Nat
  /-- R107 -/
  vl : BitVec 16
  vstart : BitVec 16
  rows : BitVec 4
  vcap : BitVec 18
  /-- R105 -/
  vtype : BitVec 9
  /-- R100 -/
  vdirty : BitVec 50
  /-- R108 -/
  fstat : BitVec 40
  fmask : BitVec 16384
  /-- index, cause and address of each element awaiting replay (R236, R353) -/
  elemFaults : List (Nat × Nat × Word)
  /-- R58 -/
  fflags : BitVec 8
  /-- R49 -/
  frm : BitVec 2
  /-- R109 -/
  rngkey : Word
  /-- R80 -/
  pfxs : BitVec 13
  /-- R33: WITHHELD, SEQ and LAST; OPENER and OPEN follow from `region` -/
  withheld : BitVec 8
  seq : BitVec 3
  last : BitVec 2
  /-- R110 -/
  pntstat : BitVec 29
  /-- R111 -/
  shtcur : BitVec 52
  /-- MEMCFG (R109) -/
  ovr : Bool
  retired : Word
  evsel : Word
  evcnt : Vector Word 4
  /-- R98 -/
  pa : Vector (BitVec 4096) 2
  /-- split offset B (R181) -/
  splitB : BitVec 16
  isChild : Bool
  /-- sibling count of the split this child came from -/
  siblings : Nat
  /-- the region open for this hart, named by its opener's scalar core (R34) -/
  region : Option Nat
  viq : List VEntry
  /-- Reply Queue, 16 slots (R267) -/
  replies : Vector (Option Reply) 16
  /-- SSQ0–SSQ7 (R268) -/
  ssq : Vector (List Pend) 8
  /-- scalar store queue (R327) -/
  sbuf : List Pend
  /-- token counts, toward the hart and toward the MCC (R269) -/
  tokIn : Nat
  tokOut : Nat
  streams : Vector Stream 4
  /-- VL, VTYPE and ROWS as the scalar thread knows them at the push (R149, R20) -/
  pushVl : BitVec 16
  pushVtype : BitVec 9
  /-- a decoded prefix and its address (R79) -/
  latch : Option (Pfx × Word)
  park : Option Park
  /-- a vector-stream cause held while a scalar cause is in service (R350) -/
  heldVec : Option Cause
  /-- a cause that could not be delivered because the supervisor thread is halted (R361) -/
  undelivered : Option Cause
  /-- a held pre-emption request and its DETAIL (R350, R354) -/
  preempt : Option Nat
  pageWait : Option PageWait
  /-- a pre-emption is being taken: the element groups that the VIQ head may still complete before it stops (R354) -/
  stopAt : Option Nat
  /-- MODEL'S OWN: the VIQ head performs only so many element groups at its next execution and goes on later (R237, R39; log
  1) -/
  pause : Option Nat
  /-- how far the class 0xD word at the VIQ head has come (R285) -/
  stage : HeadStage
  /-- requests granted to the VIQ head at each shared unit, and not used yet (R369) -/
  served : Vector Nat 3
  /-- the vector half is stopped at the VIQ head by a fault (R236) or a pre-emption -/
  vecStopped : Bool
  /-- a restored child whose siblings have to be restored before its tret (R358) -/
  needSiblings : Bool
  /-- the pc was set by a tret and no control instruction since: an address of another tag takes ACCESS (R129) -/
  viaTret : Bool
  /-- granules that an abandoned PAGE cause keeps for tret (R359) -/
  keptGranules : List Nat
  /-- MODEL'S OWN: the number of the hart's next store instruction (log 2) -/
  stamp : Nat
  /-- the scalar stores with a lower stamp come before later vector accesses (R228) -/
  svNeed : Nat
  /-- the scalar stores with a lower stamp are performed before a later class 0xD word is pushed: those of the device's own
  memory, and all (R227) -/
  dNeed : Nat
  dNeedFar : Nat
  /-- MODEL'S OWN: line accesses of later vector loads performed already (R328; log 2) -/
  early : List Early
  /-- an lsync was executed since the last push (R230) -/
  svJoin : Bool
  /-- VIQ entries whose completion an H bit or an lsync puts before later scalar accesses (R230, R234) -/
  hold : Nat
  /-- MODEL'S OWN: scalar loads not performed yet, oldest first (R328; log 2) -/
  late : List Late
  /-- MODEL'S OWN: whether scalar and vector stores wait in their queues, and whether scalar loads are performed late (log
  2) -/
  lazyS : Bool
  lazyV : Bool
  lazyL : Bool
  deriving DecidableEq, Repr

/-- A supervisor thread and its CSRs (R113), with the floating-point status of its own registers (log 3). -/
structure Sup where
  thr : Thread
  scause : BitVec 32
  sepc : Word
  scpc : Word
  stval : Word
  /-- SSTATUS.SVC -/
  svc : Bool
  sscratch : Word
  fflags : BitVec 8
  frm : BitVec 2
  /-- PNTBASE as this thread holds it (R113) -/
  pntbase : Word
  sbuf : List Pend
  park : Option Park
  /-- R361 -/
  halted : Bool
  /-- MODEL'S OWN: scalar loads not performed yet, oldest first (R222; log 2) -/
  late : List Late
  /-- MODEL'S OWN: whether its scalar stores wait in their queue, and its scalar loads are performed late (log 2) -/
  lazyS : Bool
  lazyL : Bool
  deriving DecidableEq, Repr

/-- A supervisor thread at the canvas entry (R392). -/
def Sup.reset : Sup where
  thr := Thread.zeroAt (BitVec.ofNat 64 Config.canvasEntry)
  scause := 0
  sepc := 0
  scpc := 0
  stval := 0
  svc := false
  sscratch := 0
  fflags := 0
  frm := 0
  pntbase := 0
  sbuf := []
  park := none
  halted := false
  late := []
  lazyS := false
  lazyL := false

/-! ## Cores -/

/-- A launch's claim on a core (R201, R364): a contiguous range of the scratchpad, its top part for hash tables. -/
structure Claim where
  launch : Nat
  start : Nat
  size : Nat
  hash : Nat
  deriving DecidableEq, Repr

/-- The hash unit's table of one launch on a core (R111, R247): SHTCFG, SHTOVF and the spilled bits, bit k for bucket k. -/
structure HashTbl where
  launch : Nat
  cfg : Word
  ovf : Word
  spilled : BitVec 8192
  /-- CAP of the overflow area, read at the claim -/
  cap : Nat
  deriving DecidableEq, Repr

/-- What a split keeps for its join (R20–R23): the parent's slot, partition and the values restored to it. -/
structure SplitRec where
  parentSlot : Nat
  parentPart : Nat
  n : Nat
  vl : BitVec 16
  rows : BitVec 4
  vcap : BitVec 18
  seq : BitVec 3
  /-- the launch, and the core on which the split was executed: its slots stay reserved until the join (R21) -/
  launch : Nat
  home : Nat
  deriving DecidableEq, Repr

/-- An open region (R34–R36): its opener, the iopen's address, the snapshot, the partition, the budget left, and the
deferred pennant word (R261). -/
structure Region where
  opener : Nat
  openPc : Word
  x : Vector Word 32
  f : Vector Word 32
  vl : BitVec 16
  vtype : BitVec 9
  rows : BitVec 4
  rngkey : Word
  part : Nat
  /-- MODEL'S OWN: the core's split record when the region opened (the recorded partition's siblings, R34) -/
  split : Option SplitRec
  budget : BitVec 32
  /-- the instruction and HART that brought the budget to zero (R36) -/
  spent : Option (Nat × Word)
  pennant : BitVec 27
  deriving DecidableEq, Repr

/-- A journalled birth (R315), oldest first in its list. -/
structure Birth where
  region : Nat
  launch : Nat
  tent : Nat
  tile : Nat
  seq : BitVec 3
  deriving DecidableEq, Repr

/-- A deferred strike or launch (R315). -/
inductive Deferred where
  | strike (region launch tent tile : Nat)
  | launch (region : Nat) (desc : List Byte) (asid cell by_ : Nat)
  deriving DecidableEq, Repr

/-- A line in an L1D (R204): its number, the 64-byte sectors held, and whether the keep policy holds it (R200). -/
structure L1Line where
  line : Nat
  sectors : BitVec 2
  keep : Bool
  deriving DecidableEq, Repr

/-- A cached translation (R308): its ASID, 64 KiB granule, and the leaf that the walk read, whose page the translation
covers. -/
structure TlbEntry where
  asid : Nat
  granule : Nat
  leaf : Word
  /-- `true` for a level-1 leaf (a 1 GiB page) -/
  large : Bool
  deriving DecidableEq, Repr

/-- A vector core (R8, R18, R92): the register files built beside its lanes and what its units hold. -/
structure VCore where
  part : Nat
  v : Vector (BitVec 32768) 32
  m : Vector (BitVec 16384) 8
  t : Vector (BitVec 32768) 8
  claims : List Claim
  hash : List HashTbl
  split : Option SplitRec
  regions : List Region
  journal : List Birth
  deferred : List Deferred
  /-- gather TLB: the entries of bank k have a granule whose low 3 bits are k, at most 64 of them (R308) -/
  tlb : List TlbEntry
  /-- unit-stride translation register of each slot (R308) -/
  unitTlb : Vector (Option TlbEntry) 8
  cycle : Word
  /-- the PNTBASE in force in the core's harts: the one written last by any of its supervisor threads (R113) -/
  pntbase : Word
  /-- engine-fault ring: next position and records dropped since the last (R277) -/
  efqPos : Nat
  efqDrop : BitVec 32
  /-- round-robin deficits of the three shared units, by slot (R369) -/
  deficit : Vector (Vector Nat 8) 3
  /-- the slot whose turn it is at each shared unit (R369) -/
  turn : Vector Nat 3
  deriving DecidableEq, Repr

/-- A core after package reset: no claims, partition 1 (log 3). -/
def VCore.reset : VCore where
  part := 1
  v := Vector.replicate 32 0
  m := Vector.replicate 8 0
  t := Vector.replicate 8 0
  claims := []
  hash := []
  split := none
  regions := []
  journal := []
  deferred := []
  tlb := []
  unitTlb := Vector.replicate 8 none
  cycle := 0
  pntbase := 0
  efqPos := 0
  efqDrop := 0
  deficit := Vector.replicate 3 (Vector.replicate 8 0)
  turn := Vector.replicate 3 7

/-! ## Engines -/

/-- Who is told when an engine command fails (R277, R284). -/
structure Issuer where
  pscore : Nat
  hart : Nat
  launch : Nat
  deriving DecidableEq, Repr

/-- A copy command's captured parameter block (R294), with the scratchpad claims it resolves tags 0x1 and 0x2 by. -/
structure CopyBlk where
  src : Word
  dst : Word
  e : Vector (BitVec 32) 4
  ss : Vector Word 3
  ds : Vector Word 3
  sfmt : BitVec 8
  dfmt : BitVec 8
  op : BitVec 16
  flags : BitVec 16
  rel : Word
  vis : Word
  incr : Word
  /-- every resv byte of the block is zero -/
  resvOk : Bool
  /-- `true` for xred -/
  isRed : Bool
  deriving DecidableEq, Repr

/-- A command of the MXA (R287–R289). -/
inductive MxaOp where
  | lds (ptr : Word) (f : WFmt)
  | swap
  | mac (op : MmacOp) (ctl ptr : Word)
  deriving DecidableEq, Repr

/-- The pages of a copy's destination as the engine translated them at issue (R298): the translations, and the granules that have
none, each with its cause. -/
structure DstTrans where
  ok : List TlbEntry
  bad : List (Nat × Nat)
  deriving DecidableEq, Repr

/-- How far a copy command has come (R298). -/
inductive CopyPhase where
  /-- in a queue -/
  | queued
  /-- issued: the destination's translations, the destination lines that the engine holds (R206), and the source bytes read so
  far, by item and place in the item -/
  | issued (trans : DstTrans) (lines : List Nat) (got : Tbl (List (Nat × Byte)))
  /-- every source byte read: the translations, the lines still held, the elements read, by item, and the items written -/
  | read (trans : DstTrans) (lines : List Nat) (vals : List (List Nat)) (item : Nat)
  deriving DecidableEq, Repr

/-- A command in a cluster engine command queue, a copy-engine queue or in execution (R270, R271, R288): a copy with the
memory keys of its two cells, or an MXA command with the address of its word, its .late partner, the rows it has done (an
mlds or mswap counts as one row) and the bytes of its tile that an mlds has read so far, by offset. -/
inductive CmdKind where
  | copy (blk : CopyBlk) (blkAddr : Word) (phase : CopyPhase) (relKey visKey : Option Nat)
  | mxa (op : MxaOp) (addr : Word) (late : Option Nat) (rows : Nat) (got : List (Nat × Byte))
  deriving DecidableEq, Repr

/-- A command with its issuer, its place in entry order and the scratchpad byte ranges (first key, length) it reads or
writes (R270). -/
structure Cmd where
  id : Nat
  cluster : Nat
  by_ : Issuer
  ranges : List (Nat × Nat)
  kind : CmdKind
  deriving DecidableEq, Repr

/-- A copy engine (R271): its queue, its commands in execution, and whose turn it is. -/
structure CopyEngine where
  queue : List Cmd
  exec : List Cmd
  turn : Bool
  deriving DecidableEq, Repr

/-- The run state of an MCC (R283, R284). -/
inductive MccRun where
  | stopped
  | running
  | halted
  deriving DecidableEq, Repr

/-- A weight plane: its bytes, little-endian, and the format that an mlds recorded (R287, R288). -/
structure Plane where
  bits : BitVec 294912
  fmt : Option WFmt
  deriving DecidableEq, Repr

/-- A cluster (R9): its MCC, MXA, FIFOs and engine command queue. -/
structure Cluster where
  holder : Option Nat
  mcc : Thread
  mccRun : MccRun
  shadow : Plane
  active : Plane
  /-- accumulator tiles 0 and 1: row r column n at bit 32 × (128 r + n) (R289) -/
  acc : Vector (BitVec 524288) 2
  feed : List (BitVec 2048)
  drain : List (BitVec 4096)
  queue : List Cmd
  /-- the MXA commands in execution: one, or an mlds beside an mmac (R288) -/
  mxa : List Cmd
  /-- the MCC's current word has taken the token of its .pop and not yet executed (R285) -/
  popped : Bool
  deriving DecidableEq, Repr

/-- A cluster after package reset. -/
def Cluster.reset : Cluster where
  holder := none
  mcc := Thread.zeroAt 0
  mccRun := .stopped
  shadow := ⟨0, none⟩
  active := ⟨0, none⟩
  acc := Vector.replicate 2 0
  feed := []
  drain := []
  queue := []
  mxa := []
  popped := false

/-! ## Launches and code objects -/

/-- A launch descriptor's fields (R309). -/
structure Desc where
  entry : Word
  handle : Word
  c : Nat
  k : Nat
  p : Nat
  s : Nat
  prio : Nat
  weight : Nat
  fuse : Bool
  lar : Bool
  q : Nat
  vcap : Nat
  param : Word
  claim : Nat
  hash : Nat
  budget : BitVec 32
  asid : Nat
  tentN : Nat
  tentList : Word
  rngkey : Word
  cell : Word
  deriving DecidableEq, Repr

/-- A tent region of a running launch (R211): pool and site-map pages by their physical bases, pinned at placement. -/
structure Tent where
  base : Nat
  tiles : Nat
  /-- tile size S in bytes -/
  size : Nat
  dflt : Word
  poolOff : Nat
  poolPages : List Nat
  cap : Nat
  mapOff : Nat
  mapPages : List Nat
  deriving DecidableEq, Repr

/-- The states of a launch (R27). -/
inductive LState where
  | queued
  | placing
  | running
  | completed
  | failed
  deriving DecidableEq, Repr

/-- Where a submission came from, and where its residency report goes (R363): for the owner, the report buffer and the
command's completion (R388). -/
inductive Submitter where
  | hart (p : Nat)
  | owner (report cpl : Word)
  | rack (seq : Word)
  deriving DecidableEq, Repr

/-- A suspended hart (R367): the scalar core it was saved from, whether the owner has to resume it (R368), and, for a child,
what its join needs of the split (R23, R358). -/
structure Susp where
  p : Nat
  /-- its PART (R368) -/
  part : Nat
  byOwner : Bool
  split : Option SplitRec
  deriving DecidableEq, Repr

/-- A launch (R26, R27). -/
structure Launch where
  n : Nat
  desc : Desc
  state : LState
  asid : Nat
  /-- the memory key of the completion cell, translated at acceptance (R28) -/
  cell : Nat
  by_ : Submitter
  /-- physical clusters by launch cluster, each with its physical cores (0–3) -/
  place : List (Nat × List Nat)
  tents : List Tent
  suspended : List Susp
  /-- the owner holds the harts that it pre-empts: from its SUSPEND until its RESUME (R368) -/
  held : Bool
  /-- order in which launches entered Running (R367) -/
  order : Nat
  deriving DecidableEq, Repr

/-- A placed section of a code object (R381): its index, virtual address, size and whether it is code. -/
structure Section where
  index : Nat
  va : Word
  size : Nat
  code : Bool
  deriving DecidableEq, Repr

/-- A loaded object (R381): its handle, sections, and finished launch descriptors by name (R374). -/
structure Object where
  handle : Word
  sections : List Section
  descs : List (BitVec 192 × List Byte)
  deriving DecidableEq, Repr

/-! ## Memory -/

/-- Memory: bytes by key, addresses strictly rising, no listed byte zero; an unlisted key reads 0 (R210; log 5). Keys:
device memory at its physical address; scratchpad byte o of core c at 2^60 + 2^22 c + o; host memory at 2^61 + address;
device memory of peer package k at 2^62 + 2^57 k + address. -/
structure Memory where
  cells : List Host.Cell
  deriving DecidableEq, Repr

/-- What a key that no cell lists reads as (R210; log 5). -/
def Memory.unlisted : Byte := 0

/-- The canonical form: keys strictly rising, no listed byte equal to what an unlisted key reads as. -/
def Memory.wfFrom : Option Nat → List Host.Cell → Bool
  | _, [] => true
  | lo, (a, b) :: rest =>
    (match lo with
     | none => true
     | some l => decide (l < a)) && decide (b ≠ Memory.unlisted) && Memory.wfFrom (some a) rest

/-- The canonical form of a memory. -/
def Memory.wf (m : Memory) : Bool := Memory.wfFrom none m.cells

/-! ## The host, the peg core and the pod -/

/-- A thread that watches a memory line (R134, R135): a performed write to the line sets `hit`. -/
structure Watch where
  /-- `true` for the supervisor thread of scalar core p -/
  sup : Bool
  p : Nat
  /-- memory key of the line, divided by 128 -/
  line : Nat
  /-- for a tag-0x3 address: launch, tent region and tile (R134) -/
  tile : Option (Nat × Nat × Nat)
  /-- the translation made, if one was (R134, R135) -/
  trans : Option TlbEntry
  hit : Bool
  deriving DecidableEq, Repr

/-- OWNER.STATE (R386). -/
inductive OwnState where
  | unowned
  | owned
  | handOver
  deriving DecidableEq, Repr

/-- The host register block (R386) and the peg core's registrations (R389). -/
structure Peg where
  state : OwnState
  owner : BitVec 32
  nominee : BitVec 32
  /-- OWNER bits 63:34, a boot failure (R392) -/
  bootFail : BitVec 30
  cmdBase : Word
  cmdProd : Word
  cmdCons : Word
  ringBase : Word
  ringCons : Word
  ringProd : Word
  eventBase : Word
  /-- recorded master IDs, two per port (R386) -/
  masters : List (BitVec 32)
  /-- next event-ring record and the events held for it (R390), each of 32 bytes -/
  eventPos : Nat
  events : List (List Byte)
  /-- MSI-X vector 0 signals made (R390) -/
  msi : Nat
  roots : Tbl Word
  defaultAsid : Option Nat
  mask : BitVec 128
  objects : List Object
  nextHandle : Nat
  launches : List Launch
  nextLaunch : Nat
  /-- launch queue: launch numbers at each of 8 levels, oldest first (R274) -/
  levels : Vector (List Nat) 8
  /-- callers parked on a full system-call ring, in order (R275) -/
  ringWait : List Nat
  /-- page-request batches outstanding, by die (R276): hart's scalar core and granules -/
  pageReqs : Tbl (List (Nat × List Nat))
  /-- launches are no longer accepted (R219) -/
  machineCheck : Bool
  /-- corrected-error counts by structure class and die or stack (R321) -/
  corrected : Tbl (BitVec 32)
  pegDigest : BitVec 256
  canvasDigest : BitVec 256
  /-- the running verified canvas image (R392, R394) -/
  canvas : List Byte
  staged : Option (List Byte)
  /-- the package waits for a parent's offer (R392) -/
  waiting : Bool
  parent : Option Nat
  /-- neighbours whose offers failed (R392) -/
  offersFailed : List Nat
  /-- residency reports sent to rack nodes, newest first (R363) -/
  rackOut : List (List Byte)
  deriving DecidableEq, Repr

/-- Where an uncorrectable error appears (R218): a 64-byte sector, a register of a scalar core (file and number as in
`State.badRegs`), or the newest entry of a hart's VIQ. -/
inductive Upset where
  | sector (k : Nat)
  | reg (p file n : Nat)
  | entry (p : Nat)
  deriving DecidableEq, Repr

/-- One choice of the environment (log 1): which agent goes on, or which device step comes next; a vector half goes on with
only `n` element groups of its head (R237, R251); a line access of a later vector load of hart p at an address is performed
(R328); the oldest load of a thread that is not performed yet is performed, or one byte of it (R222, R328); an error is
corrected in a structure class of a die or stack, in a core's share or not (R218, R321), or an uncorrectable one appears. -/
inductive Choice where
  | run (a : Agent)
  | ev (i : Instr)
  | groups (p n : Nat)
  | early (p : Nat) (va : Word)
  | late (a : Agent) (j : Nat)
  | corrected (cls unit : Nat) (core : Option Nat)
  | upset (u : Upset)
  deriving DecidableEq, Repr

/-! ## The state -/

/-- The machine's state: the whole package (R6). -/
structure State where
  /-- MODEL'S OWN: who executes next (log 1) -/
  agent : Agent
  /-- MODEL'S OWN: the environment's choices still to come (log 1) -/
  sched : List Choice
  /-- MODEL'S OWN: index of the next free value (log 6) -/
  free : Nat
  /-- the package halted at boot (R392) -/
  halted : Bool
  mem : Memory
  /-- harts by scalar core; a scalar core without an entry holds no hart (R8) -/
  harts : Tbl Hart
  /-- what the hart last in a slot that holds none left in its user thread's registers (R103) -/
  ended : Tbl Hart
  /-- supervisor threads that differ from `Sup.reset` (R32) -/
  sups : Tbl Sup
  /-- vector cores that differ from `VCore.reset` -/
  cores : Tbl VCore
  /-- clusters that differ from `Cluster.reset` -/
  clusters : Tbl Cluster
  /-- copy engines that have held a command (R271) -/
  ces : Tbl CopyEngine
  peg : Peg
  watches : List Watch
  /-- 64-byte sectors holding an uncorrectable error, by memory key divided by 64 (R219) -/
  badSectors : List Nat
  /-- sectors the home directories have recorded as lost (R219) -/
  lostSectors : List Nat
  /-- registers with an uncorrectable word (R219): scalar core, file (0 x, 1 f, 2 v, 3 m, 4 t, 5 pa, 6 and
  7 the supervisor thread's x and f) and number -/
  badRegs : List (Nat × Nat × Nat)
  /-- lines whose miss register is busy, by die (R207) -/
  misses : Tbl (List Nat)
  /-- lines of device memory that L2 slices hold, by line: the dies holding it and whether it is modified (R206) -/
  l2 : Tbl (BitVec 16 × Bool)
  /-- the lines in the L1D of each vector core, those that a fused L1D keeps there included (R204, R205) -/
  l1 : Tbl (List L1Line)
  /-- copies of tag-0x4 lines in L2, by die and line key: the bytes they hold (R208) -/
  peerCopies : List (Nat × Nat × List Byte)
  /-- element trains sent to peer packages and the host, and not acknowledged, oldest first (R341, R342): the hart's scalar core,
  the package (256 for the host), and the elements still carried -/
  trains : List (Nat × Nat × List Pend)
  /-- host pages whose ATS translation fails (R209, R391) -/
  atsFail : List Nat
  /-- next command's place in entry order (R270) -/
  nextCmd : Nat
  /-- die clocks in MHz (R395) -/
  clock : Tbl Nat
  /-- dies whose clocks a thermal trip stopped (R396) -/
  tripped : List Nat
  deriving DecidableEq, Repr

/-- Why the machine stops. -/
inductive Fault where
  /-- Raised by `step` when the package has halted because firmware fails verification (R392: "A failure halts the package") and
  no package reset comes. Safe: nothing runs afterwards. -/
  | bootFailure
  deriving DecidableEq, Repr

/-- Why an instruction has no meaning. -/
inductive Refusal where
  /-- Raised by an arm of `exec` whose instruction has not been written yet. Safe: no claim is made of it. -/
  | notModelled (mnemonic : String)
  deriving DecidableEq, Repr

/-- The peg core after package reset (R386, R389, R392). -/
def Peg.reset : Peg where
  state := .unowned
  owner := 0
  nominee := 0
  bootFail := 0
  cmdBase := 0
  cmdProd := 0
  cmdCons := 0
  ringBase := 0
  ringCons := 0
  ringProd := 0
  eventBase := 0
  masters := []
  eventPos := 0
  events := []
  msi := 0
  roots := [(Config.canvasAsid, BitVec.ofNat 64 Config.canvasRoot)]
  defaultAsid := none
  mask := BitVec.allOnes 128
  objects := []
  nextHandle := 1
  launches := []
  nextLaunch := 1
  levels := Vector.replicate 8 []
  ringWait := []
  pageReqs := []
  machineCheck := false
  corrected := []
  pegDigest := Config.sm3 Config.flashPeg
  canvasDigest := Config.sm3 []
  canvas := []
  staged := none
  waiting := false
  parent := none
  offersFailed := []
  rackOut := []

/-- The machine right after package reset (R392): memory zero, every supervisor thread at the canvas entry, no hart, no
launch, unowned. Nothing of a program is in it: canvas firmware is an image that PACKAGE_RESET places (log 9). -/
def State.reset : State where
  agent := .sup 0
  sched := []
  free := 0
  halted := false
  mem := ⟨[]⟩
  harts := []
  ended := []
  sups := []
  cores := []
  clusters := []
  ces := []
  peg := Peg.reset
  watches := []
  badSectors := []
  lostSectors := []
  badRegs := []
  misses := []
  l2 := []
  l1 := []
  peerCopies := []
  trains := []
  atsFail := []
  nextCmd := 0
  clock := []
  tripped := []

end Sys2Proof.Machine
end

