-- ==== Sys2Proof/Machine/Tables.lean ====
section
/-! DEFINITION. Machine/Tables.lean: reading and writing the state's tables (a key without an entry has the table's default),
bit fields of numbers and words, and the arithmetic helpers of R4. -/

namespace Sys2Proof.Machine

/-! ## Tables -/

/-- The value listed for a key, if any. -/
def Tbl.find {α : Type} (t : Tbl α) (k : Nat) : Option α :=
  match t with
  | [] => none
  | (j, a) :: rest => if j = k then some a else Tbl.find rest k

/-- The value of a key, `d` when none is listed. -/
def Tbl.get {α : Type} (d : α) (t : Tbl α) (k : Nat) : α := (Tbl.find t k).getD d

/-- The table with `k` holding `a`. -/
def Tbl.set {α : Type} (t : Tbl α) (k : Nat) (a : α) : Tbl α :=
  match t with
  | [] => [(k, a)]
  | (j, b) :: rest => if j = k then (k, a) :: rest else (j, b) :: Tbl.set rest k a

/-- The table without an entry for `k`. -/
def Tbl.del {α : Type} (t : Tbl α) (k : Nat) : Tbl α := t.filter (fun e => e.1 ≠ k)

/-! ## Bit fields of natural numbers -/

/-- Bits `lo + n - 1` to `lo`. -/
def getBits (x lo n : Nat) : Nat := (x >>> lo) % 2 ^ n

/-- `x` with bits `lo + n - 1` to `lo` replaced by the low `n` bits of `v`. -/
def putBits (x lo n v : Nat) : Nat := x ^^^ ((getBits x lo n ^^^ (v % 2 ^ n)) <<< lo)

/-- The signed value of the low `n` bits. -/
def sgn (n x : Nat) : Int :=
  let u := x % 2 ^ n
  if 2 * u < 2 ^ n then (u : Int) else (u : Int) - (2 : Int) ^ n

/-- The `n`-bit two's complement code of an integer, modulo 2^n. -/
def enc (n : Nat) (z : Int) : Nat := (z % ((2 : Int) ^ n)).toNat

/-- A field of a word. -/
def Word.field (w : Word) (lo n : Nat) : Nat := getBits w.toNat lo n

/-- The bytes of a number, little-endian, `n` of them (R2). -/
def toBytes : Nat → Nat → List Byte
  | 0, _ => []
  | n + 1, x => BitVec.ofNat 8 x :: toBytes n (x / 256)

/-- The number that bytes spell, little-endian (R2). -/
def ofBytes : List Byte → Nat
  | [] => 0
  | b :: rest => b.toNat + 256 * ofBytes rest

/-- A field of `n` bytes at byte offset `off` of a byte list. -/
def bytesField (bs : List Byte) (off n : Nat) : Nat := ofBytes ((bs.drop off).take n)

/-- Every byte from `off`, `n` of them, is zero. -/
def bytesZero (bs : List Byte) (off n : Nat) : Bool := ((bs.drop off).take n).all (· == 0)

/-- Insert into an ascending list without repeats. -/
def insertSet (n : Nat) : List Nat → List Nat
  | [] => [n]
  | a :: rest => if n < a then n :: a :: rest else if n = a then a :: rest else a :: insertSet n rest

/-- The distinct members of a list, ascending. -/
def sortSet (l : List Nat) : List Nat := l.foldr insertSet []

/-- floor(log2 x), 0 for 0. -/
def lg (x : Nat) : Nat := Nat.log2 x

/-- mix64 (R4). -/
def mix64 (z : Word) : Word :=
  let z := z ^^^ (z >>> 30)
  let z := z * 0xBF58476D1CE4E5B9#64
  let z := z ^^^ (z >>> 27)
  let z := z * 0x94D049BB133111EB#64
  z ^^^ (z >>> 31)

/-- slice_of (R4): the L1D slice of a byte address. -/
def sliceOf (a : Nat) : Nat := a / 128 % 8

/-- A vector's member at an index that may lie outside it. -/
def vget {α : Type} {n : Nat} (d : α) (v : Vector α n) (i : Nat) : α := v.toList.getD i d

/-- A vector with member `i` replaced, when there is one. -/
def vset {α : Type} {n : Nat} (v : Vector α n) (i : Nat) (a : α) : Vector α n := v.setIfInBounds i a

/-! ## Physical numbering (R7, R8) -/

/-- The vector core of a scalar core. -/
def coreOf (p : Nat) : Nat := p / 8
/-- The slot of a scalar core in its vector core. -/
def slotOf (p : Nat) : Nat := p % 8
/-- The physical cluster of a vector core. -/
def clusterOf (core : Nat) : Nat := core / 4
/-- The die of a vector core. -/
def dieOf (core : Nat) : Nat := core / 32

/-! ## Accessors of the state -/

namespace State

/-- A slot with no hart, read as a hart: every field zero. -/
def noHart : Hart where
  launch := 0
  thr := Thread.zeroAt 0
  cluster := 0
  core := 0
  vl := 0
  vstart := 0
  rows := 1
  vcap := 0
  vtype := 5
  vdirty := 0
  fstat := 0
  fmask := 0
  elemFaults := []
  fflags := 0
  frm := 0
  rngkey := 0
  pfxs := 0
  withheld := 0
  seq := 0
  last := 0
  pntstat := 0
  shtcur := 0
  ovr := true
  retired := 0
  evsel := 0
  evcnt := Vector.replicate 4 0
  pa := Vector.replicate 2 0
  splitB := 0
  isChild := false
  siblings := 0
  region := none
  viq := []
  replies := Vector.replicate 16 none
  ssq := Vector.replicate 8 []
  sbuf := []
  tokIn := 0
  tokOut := 0
  streams := Vector.replicate 4 Stream.none
  pushVl := 0
  pushVtype := 5
  latch := none
  park := none
  heldVec := none
  undelivered := none
  preempt := none
  pageWait := none
  stopAt := none
  pause := none
  stage := .start
  served := Vector.replicate 3 0
  vecStopped := false
  needSiblings := false
  viaTret := false
  keptGranules := []
  stamp := 0
  svNeed := 0
  dNeed := 0
  dNeedFar := 0
  early := []
  svJoin := false
  hold := 0
  late := []
  lazyS := false
  lazyV := false
  lazyL := false

/-- The hart on scalar core p, if one is resident. -/
def hart? (s : State) (p : Nat) : Option Hart := Tbl.find s.harts p
/-- The hart on scalar core p. -/
def hart (s : State) (p : Nat) : Hart := Tbl.get noHart s.harts p
/-- Put a hart on scalar core p. -/
def setHart (s : State) (p : Nat) (h : Hart) : State := { s with harts := Tbl.set s.harts p h }
/-- Vacate scalar core p's slot. -/
def dropHart (s : State) (p : Nat) : State := { s with harts := Tbl.del s.harts p }
/-- The hart on scalar core p leaves its slot; its user thread's registers keep their values (R103). -/
def leave (s : State) (p : Nat) : State := { s.dropHart p with ended := Tbl.set s.ended p { s.hart p with region := none } }
/-- With the registers of a user thread that no hart holds read as a hart's (R103). -/
def withLast (s : State) (p : Nat) : State :=
  match s.hart? p with
  | some _ => s
  | none => s.setHart p (Tbl.get noHart s.ended p)
/-- Change the hart on scalar core p. -/
def updHart (s : State) (p : Nat) (f : Hart → Hart) : State := s.setHart p (f (s.hart p))
/-- The supervisor thread of scalar core p. -/
def sup (s : State) (p : Nat) : Sup := Tbl.get Sup.reset s.sups p
def setSup (s : State) (p : Nat) (u : Sup) : State := { s with sups := Tbl.set s.sups p u }
def updSup (s : State) (p : Nat) (f : Sup → Sup) : State := s.setSup p (f (s.sup p))
/-- Vector core k. -/
def vcore (s : State) (k : Nat) : VCore := Tbl.get VCore.reset s.cores k
def setVcore (s : State) (k : Nat) (c : VCore) : State := { s with cores := Tbl.set s.cores k c }
def updVcore (s : State) (k : Nat) (f : VCore → VCore) : State := s.setVcore k (f (s.vcore k))
/-- Cluster c. -/
def cluster (s : State) (c : Nat) : Cluster := Tbl.get Cluster.reset s.clusters c
def setCluster (s : State) (c : Nat) (k : Cluster) : State := { s with clusters := Tbl.set s.clusters c k }
def updCluster (s : State) (c : Nat) (f : Cluster → Cluster) : State := s.setCluster c (f (s.cluster c))
/-- Copy engine e. -/
def ce (s : State) (e : Nat) : CopyEngine := Tbl.get ⟨[], [], false⟩ s.ces e
def setCe (s : State) (e : Nat) (c : CopyEngine) : State := { s with ces := Tbl.set s.ces e c }
/-- Change the peg core's state. -/
def updPeg (s : State) (f : Peg → Peg) : State := { s with peg := f s.peg }

/-- The launch with a number (R27). -/
def launch? (s : State) (n : Nat) : Option Launch := s.peg.launches.find? (fun l => l.n == n)
/-- Change the launch with a number. -/
def updLaunch (s : State) (n : Nat) (f : Launch → Launch) : State :=
  s.updPeg (fun g => { g with launches := g.launches.map (fun l => if l.n = n then f l else l) })

/-- The harts resident on a core, with their scalar cores. -/
def hartsOf (s : State) (core : Nat) : List (Nat × Hart) := s.harts.filter (fun e => coreOf e.1 == core)

/-- Take the next free value's index. -/
def tick (s : State) : State := { s with free := s.free + 1 }

/-- One of `k` outcomes that a rule allows (log 6). -/
def choose (s : State) (k : Nat) : Nat := if k ≤ 1 then 0 else Config.pick s.free k % k
/-- A choice among `k` outcomes, made for each number `x` on its own (log 6). -/
def chooseAt (s : State) (x k : Nat) : Nat := if k ≤ 1 then 0 else Config.pick (s.free * 2 ^ 80 + x) k % k

/-! ## The registers of the thread that executes -/

/-- The registers of an agent's thread; the vector half has its hart's. -/
def thread (s : State) (a : Agent) : Thread :=
  match a with
  | .user p | .vec p => (s.hart p).thr
  | .sup p => (s.sup p).thr
  | .mcc c => (s.cluster c).mcc

def setThread (s : State) (a : Agent) (t : Thread) : State :=
  match a with
  | .user p | .vec p => s.updHart p (fun h => { h with thr := t })
  | .sup p => s.updSup p (fun u => { u with thr := t })
  | .mcc c => s.updCluster c (fun k => { k with mcc := t })

/-- The pc of the executing thread. -/
def pc (s : State) : Word := (s.thread s.agent).pc
/-- x[r]; x0 reads zero (R93). -/
def rx (s : State) (r : Reg) : Word := if r = 0 then 0 else (s.thread s.agent).x[r.toFin]
/-- f[r]. -/
def rf (s : State) (r : Reg) : Word := (s.thread s.agent).f[r.toFin]

end State

/-- x[r] of a thread (R93). -/
def Thread.rx (t : Thread) (r : Reg) : Word := if r = 0 then 0 else t.x[r.toFin]
/-- Write x[r]; a write to x0 is discarded (R93). -/
def Thread.wx (t : Thread) (r : Reg) (v : Word) : Thread := if r = 0 then t else { t with x := t.x.set r.toFin v }
/-- Write f[r]. -/
def Thread.wf (t : Thread) (r : Reg) (v : Word) : Thread := { t with f := t.f.set r.toFin v }

namespace State

/-- A register that is written holds no uncorrectable word (R219; log 66): scalar core, file and number as in `badRegs`. -/
def clean (s : State) (p file r : Nat) : State :=
  if s.badRegs = [] then s else { s with badRegs := s.badRegs.filter (· != (p, file, r)) }

/-- A written x or f register of an agent's thread holds no uncorrectable word; MCC registers carry no record. -/
def cleanReg (s : State) (a : Agent) (toF : Bool) (r : Reg) : State :=
  match a with
  | .user p | .vec p => s.clean p (if toF then 1 else 0) r.toNat
  | .sup p => s.clean p (if toF then 7 else 6) r.toNat
  | .mcc _ => s

/-- Write x[r] of the executing thread. -/
def wx (s : State) (r : Reg) (v : Word) : State :=
  (s.setThread s.agent ((s.thread s.agent).wx r v)).cleanReg s.agent false r
/-- Write f[r] of the executing thread. -/
def wf (s : State) (r : Reg) (v : Word) : State :=
  (s.setThread s.agent ((s.thread s.agent).wf r v)).cleanReg s.agent true r
/-- Set the pc of the executing thread. -/
def setPc (s : State) (a : Word) : State := s.setThread s.agent { s.thread s.agent with pc := a }

end State

end Sys2Proof.Machine
end

