-- ==== Sys2Proof/Machine/Mem.lean ====
section
/-! DEFINITION. Machine/Mem.lean: memory by bytes in its canonical form, the address checks of R199, the page-table walk
(R303–R306), tents (R211–R215), scratchpad claims (R201–R203), and one access as the hardware performs it: what the
directory, the translation caches and the watchers see of it. -/

namespace Sys2Proof.Machine

/-! ## Bytes by key -/

/-- The byte at a key. -/
def findCell : List Host.Cell → Nat → Byte
  | [], _ => Memory.unlisted
  | (a, b) :: rest, k => if a = k then b else findCell rest k

/-- The cells with byte `b` at key `k`, in canonical form. -/
def putCell : List Host.Cell → Nat → Byte → List Host.Cell
  | [], k, b => if b = Memory.unlisted then [] else [(k, b)]
  | (a, c) :: rest, k, b =>
    if k < a then (if b = Memory.unlisted then (a, c) :: rest else (k, b) :: (a, c) :: rest)
    else if k = a then (if b = Memory.unlisted then rest else (k, b) :: rest)
    else (a, c) :: putCell rest k b

/-- The byte at a key. -/
def Memory.get (m : Memory) (k : Nat) : Byte := findCell m.cells k
/-- Memory with byte `b` at key `k`. -/
def Memory.put (m : Memory) (k : Nat) (b : Byte) : Memory := ⟨putCell m.cells k b⟩
/-- Memory after a list of byte writes, in order. -/
def Memory.puts (m : Memory) : List Host.Cell → Memory
  | [] => m
  | (k, b) :: rest => (m.put k b).puts rest
/-- `n` bytes from a key. -/
def Memory.gets (m : Memory) (k : Nat) : Nat → List Byte
  | 0 => []
  | n + 1 => m.get k :: m.gets (k + 1) n
/-- The little-endian number at a key. -/
def Memory.num (m : Memory) (k n : Nat) : Nat := ofBytes (m.gets k n)

/-- Bytes at consecutive keys. -/
def cellsAt : Nat → List Byte → List Host.Cell
  | _, [] => []
  | k, b :: rest => (k, b) :: cellsAt (k + 1) rest

/-! ## Event counters (R320) -/

/-- Add one to every EVCNT whose selected code is `code` (R320). -/
def State.countEv (h : Hart) (code : Nat) : Hart :=
  let one (k : Nat) (c : Vector Word 4) : Vector Word 4 :=
    if Word.field h.evsel (16 * k) 16 = code then vset c k (vget 0 c k + 1) else c
  { h with evcnt := one 3 (one 2 (one 1 (one 0 h.evcnt))) }

/-- An event of the executing thread's hart (R320). -/
def countHere (s : State) (code : Nat) : State :=
  match s.agent with
  | .user p | .vec p => if (s.hart p).evsel = 0 then s else s.updHart p (fun h => State.countEv h code)
  | _ => s

/-- What an agent does in another's stead: its events count for the agent. -/
def State.as (s : State) (a : Agent) (f : State → State) : State := { f { s with agent := a } with agent := s.agent }

/-! ## Keys -/

/-- Key of device memory byte `a`. -/
def devKey (a : Nat) : Nat := a
/-- Key of scratchpad byte `o` of core `k`. -/
def spmKey (k o : Nat) : Nat := 2 ^ 60 + k * 2 ^ 22 + o
/-- Key of host memory byte `a`. -/
def hostKey (a : Nat) : Nat := 2 ^ 61 + a
/-- Key of byte `a` of peer package `g`. -/
def peerKey (g a : Nat) : Nat := 2 ^ 62 + g * 2 ^ 57 + a
/-- Key of a 128-byte line. -/
def lineOf (k : Nat) : Nat := k / 128
/-- Key of a 64-byte sector. -/
def sectorOf (k : Nat) : Nat := k / 64

/-! ## Who accesses, and how -/

/-- What an access is made with: an address space, user rights or a supervisor's, the launch whose claims and tents it
reaches, the core it is made on, the harts of a region, and the die. -/
structure ACtx where
  asid : Nat
  user : Bool
  launch : Option Nat
  core : Nat
  deriving DecidableEq, Repr

/-- The kind of an access (R347's DETAIL). -/
inductive AKind where
  | load
  | store
  | atomic
  | fetch
  deriving DecidableEq, Repr

/-- DETAIL of an access (R347). -/
def AKind.detail : AKind → Nat
  | .load => 0
  | .store => 1
  | .atomic => 2
  | .fetch => 3

/-- Why an access is not performed: its cause (R114), and whether a read made by the device failed (R347 DETAIL 4); or it
waits (R206). -/
inductive AFail where
  | cause (code : Nat) (byDevice : Bool)
  | wait
  deriving DecidableEq, Repr

/-- Where a byte lies (R198). -/
inductive Loc where
  | dev
  | spm
  | peer (pkg : Nat)
  | host
  deriving DecidableEq, Repr

/-- A checked and translated place: bytes from a memory key, or an absent tent tile (R213). -/
inductive Place where
  | at_ (key : Nat) (loc : Loc)
  | absent (launch tent tile off : Nat) (dflt : Word)
  deriving DecidableEq, Repr

/-- Cause codes (R114). -/
def causeIllegal : Nat := 1
def causePriv : Nat := 2
def causePrefix : Nat := 3
def causeSplit : Nat := 4
def causeNoncanon : Nat := 5
def causeStraddle : Nat := 6
def causeMisalign : Nat := 7
def causePage : Nat := 8
def causeAccess : Nat := 9
def causeTent : Nat := 10
def causeJournal : Nat := 11
def causeHashFull : Nat := 12
def causeReservedKey : Nat := 13
def causeTopoCycle : Nat := 14
def causePennant : Nat := 15
def causeEngine : Nat := 16
def causeUncorrectable : Nat := 17
def causeImage : Nat := 18
def causeSyscall : Nat := 19
def causeBreak : Nat := 20
def causePreempt : Nat := 21

/-- A failure of the access itself. -/
def AFail.of (code : Nat) : AFail := .cause code false

/-! ## Page tables (R303–R307) -/

/-- The root of an address space, if registered (R388, R389). -/
def rootOf (s : State) (asid : Nat) : Option Nat := (Tbl.find s.peg.roots asid).map (·.toNat)

/-- A page-table entry's fields (R304). -/
structure Pte where
  w : Nat
  deriving DecidableEq, Repr

def Pte.v (e : Pte) : Bool := e.w.testBit 0
def Pte.r (e : Pte) : Bool := e.w.testBit 1
def Pte.wr (e : Pte) : Bool := e.w.testBit 2
def Pte.x (e : Pte) : Bool := e.w.testBit 3
def Pte.u (e : Pte) : Bool := e.w.testBit 4
def Pte.loc (e : Pte) : Nat := getBits e.w 5 2
def Pte.size (e : Pte) : Nat := getBits e.w 7 2
def Pte.pkg (e : Pte) : Nat := getBits e.w 56 8
/-- Page base of a leaf. -/
def Pte.frame (e : Pte) : Nat := getBits e.w 16 36 * 2 ^ 16
/-- Next table of a non-leaf. -/
def Pte.next (e : Pte) : Nat := getBits e.w 14 38 * 2 ^ 14
/-- A non-leaf: valid with no rights (R304). -/
def Pte.nonLeaf (e : Pte) : Bool := !e.r && !e.wr && !e.x
/-- Bytes of a leaf's page. -/
def Pte.bytes (e : Pte) : Nat :=
  match e.size with
  | 0 => 2 ^ 16
  | 1 => 2 ^ 21
  | _ => 2 ^ 30

/-- A leaf at a level is well formed (R304, R305). -/
def Pte.leafOk (e : Pte) (level : Nat) : Bool :=
  getBits e.w 9 5 == 0 && getBits e.w 14 2 == 0 && getBits e.w 52 4 == 0 && e.size != 3 && e.loc != 3 &&
  (e.loc == 1 || e.pkg == 0) && !(e.wr && !e.r) &&
  ((level == 0 && e.size != 2) || (level == 1 && e.size == 2)) && e.frame % e.bytes == 0

/-- A non-leaf is well formed (R304): bits 13:1 and 63:52 zero. -/
def Pte.nodeOk (e : Pte) : Bool := getBits e.w 1 13 == 0 && getBits e.w 52 12 == 0

/-- What a walk finds: a leaf, or a cause (R305). -/
inductive Walk where
  | leaf (e : Pte) (large : Bool)
  | fails (code : Nat) (byDevice : Bool)
  deriving DecidableEq, Repr

/-- A word that the device reads for itself: `none` when its sector holds an uncorrectable error (R219). -/
def devRead (s : State) (key n : Nat) : Option Nat :=
  if s.badSectors.contains (sectorOf key) || s.lostSectors.contains (sectorOf key) then none else some (s.mem.num key n)

/-- The walk below a table at a level (R303, R305), at most `level + 1` reads. DESIGN CHOICE (log 60): a table that does not lie
below 1,536 GiB (R12) fails as a device read with ACCESS; R305 names no outcome. -/
def walkFrom (s : State) (va : Nat) : Nat → Nat → Walk
  | level, table =>
    let idx := va / 2 ^ (16 + 11 * level) % (if level = 3 then 256 else 2048)
    if Config.devBytes < table + 16384 then .fails causeAccess true
    else match devRead s (devKey (table + 8 * idx)) 8 with
      | none => .fails causeUncorrectable true
      | some w =>
        let e : Pte := ⟨w⟩
        if !e.v then .fails causePage false
        else if e.nonLeaf then
          match level with
          | 0 => .fails causeAccess false
          | level + 1 => if e.nodeOk then walkFrom s va level e.next else .fails causeAccess false
        else if e.leafOk level then .leaf e (level == 1)
        else .fails causeAccess false

/-- The canvas area's built-in leaf in ASID 0xFFFF: readable, writable, executable, not for users (R277, R392). -/
def canvasLeaf (va : Nat) : Pte := ⟨va / 2 ^ 16 * 2 ^ 16 + 0xF⟩

/-- The walk of a virtual offset in a space (R303; R392 for the canvas area of ASID 0xFFFF). -/
def walk (s : State) (asid va : Nat) : Walk :=
  if asid = Config.canvasAsid ∧ Config.canvasBase ≤ va ∧ va < Config.devBytes then .leaf (canvasLeaf va) false
  else match rootOf s asid with
    | none => .fails causePage false
    | some root => walkFrom s va 3 (root / 16384 * 16384)

/-- Whether a cached leaf covers a granule of a space (R306, R308). -/
def TlbEntry.covers (t : TlbEntry) (asid granule : Nat) : Bool :=
  t.asid == asid &&
  (let e : Pte := ⟨t.leaf.toNat⟩
   match e.size with
   | 0 => t.granule == granule
   | 1 => t.granule / 32 == granule / 32
   | _ => t.granule / 2 ^ 14 == granule / 2 ^ 14)

/-- The translations that a core's caches hold (R308). -/
def VCore.cached (k : VCore) : List TlbEntry := k.tlb ++ k.unitTlb.toList.filterMap id

/-- A core's caches without the translations that a test names (R142). -/
def VCore.forget (k : VCore) (f : TlbEntry → Bool) : VCore :=
  { k with tlb := k.tlb.filter (fun t => !f t), unitTlb := k.unitTlb.map (Option.filter (fun t => !f t)) }

/-- The translations an access may use: those its core's caches hold of the page, and the walk's (R306–R308). -/
def candidates (s : State) (core asid va : Nat) : List Walk :=
  let w := walk s asid va
  let old := ((s.vcore core).cached.filter (fun t => t.covers asid (va / 65536))).map
    (fun t => Walk.leaf ⟨t.leaf.toNat⟩ t.large)
  if old.all (· == w) then [w] else old ++ [w]

/-- The translation an access uses: one of those that R307 allows. -/
def translate (s : State) (core asid va : Nat) : Walk :=
  let cs := candidates s core asid va
  cs.getD (s.chooseAt (va / 65536) cs.length) (walk s asid va)

/-- The class of mapping of R199 step 2. -/
def Walk.cls : Walk → Option Nat
  | .leaf e _ => some e.loc
  | .fails _ _ => none

/-! ## Tents (R211–R214) -/

/-- Key of offset `o` of a pinned area. -/
def pinnedKey (off : Nat) (pages : List Nat) (o : Nat) : Nat :=
  pages.getD ((off + o) / 65536) 0 + (off + o) % 65536

/-- Key of a tile's site-map entry (R212). -/
def Tent.entryKey (t : Tent) (tile : Nat) : Nat := pinnedKey t.mapOff t.mapPages (8 * tile)
/-- Key of a pool's TOP (R312). -/
def Tent.topKey (t : Tent) : Nat := pinnedKey t.poolOff t.poolPages 0
/-- Key of a pool's frame slot j (R312). -/
def Tent.slotKey (t : Tent) (j : Nat) : Nat := pinnedKey t.poolOff t.poolPages (64 + 8 * j)

/-- The tents of a launch. -/
def tentsOf (s : State) (launch : Option Nat) : List Tent :=
  match launch.bind s.launch? with
  | some l => l.tents
  | none => []

/-- The tent region of a tag-0x3 offset, with its number (R211). -/
def tentAt (ts : List Tent) (o : Nat) : Option (Nat × Tent) :=
  (ts.zipIdx.find? (fun e => e.1.base ≤ o && o < e.1.base + e.1.tiles * e.1.size)).map (fun e => (e.2, e.1))

/-- A site-map entry's fields (R212). -/
def entPresent (w : Nat) : Bool := w.testBit 63
def entTag (w : Nat) : Nat := getBits w 59 4
def entFrame (w : Nat) : Nat := getBits w 12 40 * 4096
def entGen (w : Nat) : Nat := getBits w 0 12
/-- A present entry is valid (R212). -/
def entOk (size w : Nat) : Bool := getBits w 52 7 == 0 && entFrame w % size == 0 && entFrame w + size ≤ Config.devBytes
/-- An entry's word (R212). -/
def entWord (present : Bool) (tag frame gen : Nat) : Nat :=
  (if present then 2 ^ 63 else 0) + tag % 16 * 2 ^ 59 + frame / 4096 % 2 ^ 40 * 4096 + gen % 4096

/-! ## Claims (R201–R203) -/

/-- The claim of a launch on a core. -/
def claimOf (s : State) (launch : Option Nat) (core : Nat) : Option Claim :=
  match launch with
  | none => none
  | some n => (s.vcore core).claims.find? (fun c => c.launch == n)

/-- The table that the hash unit holds for a launch on a core (R247). -/
def hashOf (s : State) (launch : Option Nat) (core : Nat) : Option HashTbl :=
  match launch with
  | none => none
  | some n => (s.vcore core).hash.find? (fun t => t.launch == n)

/-- SHTCFG's fields (R111). -/
def shtEn (w : Word) : Bool := w.getLsbD 31
def shtB (w : Word) : Nat := Word.field w 26 4
def shtBase (w : Word) : Nat := Word.field w 0 22
def shtSeed (w : Word) : Nat := Word.field w 32 32

/-- Whether a claim's bytes touch the launch's claimed hash table (R203). -/
def touchesTable (s : State) (launch : Option Nat) (core off n : Nat) : Bool :=
  match hashOf s launch core with
  | none => false
  | some t => shtEn t.cfg && decide (off < shtBase t.cfg + 128 * 2 ^ shtB t.cfg) && decide (shtBase t.cfg < off + n)

/-- A scratchpad access of a launch at a claim offset (R201, R203). -/
def claimPlace (s : State) (launch : Option Nat) (core off n : Nat) : Except AFail Place :=
  match claimOf s launch core with
  | none => .error (.of causeAccess)
  | some c =>
    if c.size < off + n then .error (.of causeAccess)
    else if touchesTable s launch core off n then .error (.of causeAccess)
    else .ok (.at_ (spmKey core (c.start + off)) .spm)

/-- The physical core holding the team of CORE coordinate k in a core's cluster (R202). -/
def windowCore (s : State) (launch : Option Nat) (core k : Nat) : Option Nat :=
  match launch.bind s.launch? with
  | none => none
  | some l => match l.place.find? (fun e => e.1 == clusterOf core) with
    | none => none
    | some e => (e.2[k]?).map (fun j => clusterOf core * 4 + j)

/-! ## The checks of R199 -/

/-- Offsets below this bound are valid in a tag's space (R197). -/
def offsetBound : Nat → Nat
  | 1 => Config.spmBytes
  | 2 => 4 * Config.spmBytes
  | _ => 2 ^ 57

/-- Alignment that step 3 asks for: none, a scalar access inside a 4 KiB window, natural, or a multiple of `k` bytes. -/
inductive Align where
  | none
  | window
  | natural
  | multiple (k : Nat)
  deriving DecidableEq, Repr

/-- Step 3 of R199. -/
def alignOk (al : Align) (a n : Nat) : Bool :=
  match al with
  | .none => true
  | .window => a / 4096 == (a + n - 1) / 4096
  | .natural => a % n == 0
  | .multiple k => a % k == 0

/-- Step 4 for a page-translated tag: rights, location and place (R198, R305, R392). DESIGN CHOICE (log 60): a local leaf whose
physical address is 1,536 GiB or more (R12) takes ACCESS; R305 names no outcome. -/
def pagePlace (s : State) (c : ACtx) (k : AKind) (tag off : Nat) (w : Walk) : Except AFail Place :=
  match w with
  | .fails code d => .error (.cause code d)
  | .leaf e _ =>
    let ok := (match k with
      | .load => e.r
      | .store => e.wr
      | .atomic => e.r && e.wr
      | .fetch => e.x) && (!c.user || e.u)
    let pa := e.frame + off % e.bytes
    if !ok then .error (.of causeAccess)
    else match e.loc with
      | 0 =>
        if tag ≠ 0 then .error (.of causeAccess)
        else if Config.devBytes ≤ pa then .error (.of causeAccess)
        else if Config.canvasBase ≤ pa ∧ c.asid ≠ Config.canvasAsid then .error (.of causeAccess)
        else .ok (.at_ (devKey pa) .dev)
      | 1 => if tag = 5 then .error (.of causeAccess) else .ok (.at_ (peerKey e.pkg pa) (.peer e.pkg))
      | _ =>
        if tag = 4 then .error (.of causeAccess)
        else if s.atsFail.contains (pa / 65536) then .error (.of causePage)
        else .ok (.at_ (hostKey pa) .host)

/-- Step 4 for tag 0x3 (R211–R213). -/
def tentPlace (s : State) (c : ACtx) (o : Nat) : Except AFail Place :=
  match c.launch, tentAt (tentsOf s c.launch) o with
  | some n, some (j, t) =>
    let tile := (o - t.base) / t.size
    let io := (o - t.base) % t.size
    match devRead s (t.entryKey tile) 8 with
    | none => .error (.cause causeUncorrectable true)
    | some w =>
      if !entPresent w then .ok (.absent n j tile io t.dflt)
      else if entOk t.size w then .ok (.at_ (devKey (entFrame w + io)) .dev)
      else .error (.of causeAccess)
  | _, _ => .error (.of causeAccess)

/-- The checks of R199, in order, on an exactly computed address, with the base pointer's tag; `n` bytes, an offset's page
translated by `tr`. -/
def checkBy (tr : Nat → Walk) (s : State) (c : ACtx) (k : AKind) (al : Align) (baseTag : Nat) (addr : Int) (n : Nat) :
    Except AFail Place :=
  if addr < 0 ∨ 2 ^ 64 ≤ addr then .error (.of causeNoncanon)
  else
    let a := addr.toNat
    let tag := a / 2 ^ 60
    let o := a % 2 ^ 60
    let e := o + n - 1
    if tag ≠ baseTag ∨ 5 < tag ∨ offsetBound tag ≤ o then .error (.of causeNoncanon)
    else if offsetBound tag ≤ e then .error (.of causeStraddle)
    else
      match tag with
      | 1 =>
        if !alignOk al a n then .error (.of causeMisalign)
        else if k = .fetch then .error (.of causeAccess)
        else claimPlace s c.launch c.core o n
      | 2 =>
        if o / Config.spmBytes ≠ e / Config.spmBytes then .error (.of causeStraddle)
        else if !alignOk al a n then .error (.of causeMisalign)
        else if k = .fetch then .error (.of causeAccess)
        else match windowCore s c.launch c.core (o / Config.spmBytes) with
          | none => .error (.of causeAccess)
          | some core => claimPlace s c.launch core (o % Config.spmBytes) n
      | 3 =>
        if (tentAt (tentsOf s c.launch) o).map (·.1) ≠ (tentAt (tentsOf s c.launch) e).map (·.1) then
          .error (.of causeStraddle)
        else if !alignOk al a n then .error (.of causeMisalign)
        else if k = .fetch then .error (.of causeAccess)
        else tentPlace s c o
      | _ =>
        let w := tr o
        let w' := if o / 65536 = e / 65536 then w else tr e
        if w.cls ≠ w'.cls then .error (.of causeStraddle)
        else if !alignOk al a n then .error (.of causeMisalign)
        else pagePlace s c k tag o w

/-- The checks of R199 with the translations that are in force (R307). -/
def checkAddr (s : State) (c : ACtx) (k : AKind) (al : Align) (baseTag : Nat) (addr : Int) (n : Nat) :
    Except AFail Place := checkBy (translate s c.core c.asid) s c k al baseTag addr n

/-- A pointer's tag (R197). -/
def tagOf (w : Word) : Nat := w.toNat / 2 ^ 60

/-- The checks on a pointer itself. -/
def checkPtr (s : State) (c : ACtx) (k : AKind) (al : Align) (ptr : Word) (n : Nat) : Except AFail Place :=
  checkAddr s c k al (tagOf ptr) (ptr.toNat : Int) n

/-- Step 1 of R199 alone: an exactly computed address has its base pointer's tag, 0x0 to 0x5, and a valid offset. -/
def canonical (baseTag : Nat) (addr : Int) : Bool :=
  decide (0 ≤ addr ∧ addr < 2 ^ 64) && addr.toNat / 2 ^ 60 == baseTag && decide (baseTag ≤ 5) &&
  decide (addr.toNat % 2 ^ 60 < offsetBound baseTag)

/-- An access that its instruction's own rule refuses with ACCESS: the failures of steps 1 to 3 come first (R199). -/
def refused (r : Except AFail Place) : Except AFail Place :=
  match r with
  | .error (.cause code dev) => if code < causePage then .error (.cause code dev) else .error (.of causeAccess)
  | _ => .error (.of causeAccess)

/-! ## Performing accesses -/

/-- The copy command holding a line of device memory (R206, R298), if any. -/
def Cmd.holds (c : Cmd) (line : Nat) : Bool :=
  match c.kind with
  | .copy _ _ (.issued _ ls _) _ _ => ls.contains line
  | .copy _ _ (.read _ ls _ _) _ _ => ls.contains line
  | _ => false

/-- The clocks of a device line's home die have stopped (R12, R396). DESIGN CHOICE (log 63): a request waits only for its home die;
one whose route passes through a stopped die (R14) goes on. -/
def homeStopped (s : State) (line : Nat) : Bool :=
  !s.tripped.isEmpty && decide (128 * line < Config.devBytes) && s.tripped.contains (128 * line / Config.stackBytes)

/-- An access of a line waits at its home directory: it is Engine-held (R206), or the directory's clocks have stopped
(R396). -/
def engineHeld (s : State) (line : Nat) : Bool := s.ces.any (fun e => e.2.exec.any (fun c => c.holds line)) || homeStopped s line

/-- The bytes of a tile that is absent (R213). -/
def dfltBytes (d : Word) (off : Nat) : Nat → List Byte
  | 0 => []
  | n + 1 => BitVec.ofNat 8 (d.toNat >>> (8 * (off % 8))) :: dfltBytes d (off + 1) n

/-- A copy of a peer line in a die's L2 (R208). -/
def peerCopy (s : State) (die line : Nat) : Option (List Byte) :=
  (s.peerCopies.find? (fun e => e.1 == die && e.2.1 == line)).map (·.2.2)

/-- Forget a die's copy of a peer line. -/
def dropPeerCopy (s : State) (die line : Nat) : State :=
  { s with peerCopies := s.peerCopies.filter (fun e => !(e.1 == die && e.2.1 == line)) }

/-- Whether a load of a peer line is served by the copy its die holds: a choice R208 allows, for each line on its own. -/
def peerHit (s : State) (die line : Nat) : Option (List Byte) :=
  match peerCopy s die line with
  | none => none
  | some bs => if s.chooseAt line 2 = 0 then some bs else none

/-- A byte as an access of a die reads it (R208, R336). -/
def readByte (s : State) (die : Nat) (loc : Loc) (key : Nat) : Byte :=
  match loc with
  | .peer _ =>
    match peerHit s die (lineOf key) with
    | some bs => bs.getD (key % 128) 0
    | none => s.mem.get key
  | _ => s.mem.get key

/-- `n` bytes as an access of a die reads them. -/
def readBytes (s : State) (die : Nat) (loc : Loc) (key : Nat) : Nat → List Byte
  | 0 => []
  | n + 1 => readByte s die loc key :: readBytes s die loc (key + 1) n

/-- The bytes a place holds for a load. -/
def placeBytes (s : State) (die : Nat) (pl : Place) (n : Nat) : List Byte :=
  match pl with
  | .at_ key loc => readBytes s die loc key n
  | .absent _ _ _ off d => dfltBytes d off n

/-- A sector that an access of `n` bytes from a key touches holds an uncorrectable error (R219). -/
def badAt (s : State) (key n : Nat) : Bool :=
  (s.badSectors ++ s.lostSectors).any (fun b => sectorOf key ≤ b && b ≤ sectorOf (key + n - 1))

/-- Watchers of the lines written are hit (R134, R135). -/
def hitWatches (ws : List Watch) (lines : List Nat) : List Watch :=
  ws.map (fun w => if lines.contains w.line then { w with hit := true } else w)

/-- Bytes change at keys: memory, and the watchers of their lines (R134, R317). -/
def State.put (s : State) (cells : List Host.Cell) : State :=
  { s with mem := s.mem.puts cells, watches := hitWatches s.watches (cells.map (fun c => lineOf c.1)) }

/-- L1Ds without the lines that a test names. -/
def l1Without (ls : Tbl (List L1Line)) (f : Nat → Nat → Bool) : Tbl (List L1Line) :=
  ls.map (fun e => (e.1, e.2.filter (fun l => !f e.1 l.line)))

/-- No L2 and no L1D holds the lines that a test names. -/
def uncache (s : State) (f : Nat → Bool) : State :=
  { s with l2 := s.l2.filter (fun e => !f e.1), l1 := l1Without s.l1 (fun _ l => f l) }

/-- The device writes bytes at keys for itself: every cache's copy of their lines is invalidated first (R206). -/
def State.poke (s : State) (cells : List Host.Cell) : State :=
  (uncache s (fun l => cells.any (fun c => lineOf c.1 == l))).put cells

/-- The L2 slice of a line in a die (R12): its miss registers, at most 256 (R207). -/
def sliceMisses (lines : List Nat) (line : Nat) : Nat := (lines.filter (fun l => l % 16 == line % 16)).length

/-- A die's L2 holds a line. -/
def inL2 (s : State) (die line : Nat) : Bool := (Tbl.get (0, false) s.l2 line).1.getLsbD die

/-- The lines that a die's L2 holds in the set of a line's slice, the line itself left out (R206: slice (P >> 7) & 0xF, set
(P >> 11) & 0xFFF). -/
def setMates (s : State) (die line : Nat) : List Nat :=
  ((s.l2.filter (fun e => e.2.1.getLsbD die)).map (·.1) ++ (s.peerCopies.filter (fun e => e.1 == die)).map (·.2.1)).filter
    (fun l => l % 65536 == line % 65536 && l != line)

/-- A line leaves a die's L2, and its L1Ds (R204): a dirty one is written back, a line that no die holds is Uncached (R206). -/
def leaveL2 (s : State) (die line : Nat) : State :=
  let ds := (Tbl.get (0, false) s.l2 line).1 &&& ~~~(1#16 <<< die)
  { s with
    l2 := if ds = 0 then Tbl.del s.l2 line else Tbl.set s.l2 line (ds, (Tbl.get (0, false) s.l2 line).2 && !inL2 s die line)
    l1 := l1Without s.l1 (fun core l => dieOf core == die && l == line)
    peerCopies := s.peerCopies.filter (fun e => !(e.1 == die && e.2.1 == line)) }

/-- Before a line comes into a set whose 12 ways are taken, one of the set's lines leaves, whichever (R11, R206). -/
def makeWay (s : State) (die line : Nat) : State :=
  let ms := setMates s die line
  if ms.length < 12 then s
  else match ms[s.chooseAt line ms.length]? with
    | some l => leaveL2 s die l
    | none => s

/-- A reply fills the die's L2 and frees the miss register (R207): the directory records the die as a holder (R206). -/
def fillL2 (s : State) (die line : Nat) : State :=
  let s := makeWay s die line
  let ds := (Tbl.get (0, false) s.l2 line).1
  { s with
    l2 := Tbl.set s.l2 line (ds ||| (1#16 <<< die), false)
    misses := Tbl.set s.misses die ((Tbl.get [] s.misses die).filter (· ≠ line)) }

/-- A miss of a line finds a miss register: its own, a free one, or the one that the oldest reply of the slice frees (R207). -/
def missRoom (s : State) (die line : Nat) : State :=
  let ms := Tbl.get [] s.misses die
  if ms.contains line || decide (sliceMisses ms line < 256) then s
  else match ms.find? (fun l => l % 16 == line % 16) with
    | some l => fillL2 s die l
    | none => s

/-- A miss of a line in a die's L2 is an event, and so is its merging into a busy register (R207, R320). -/
def missed (s : State) (die line : Nat) : State :=
  let s := countHere s 0x22
  if (Tbl.get [] s.misses die).contains line then countHere s 0x31 else missRoom s die line

/-! ### L1D (R204, R205) -/

/-- The core whose threads access memory through its L1D (R204): a hart's or a supervisor thread's; engines have none. -/
def threadCore (a : Agent) : Option Nat :=
  match a with
  | .user p | .vec p | .sup p => some (coreOf p)
  | .mcc _ => none

/-- The L1Ds of a core's cluster are one: the launch that holds the core has the fusion flag (R205). -/
def l1Fused (s : State) (core : Nat) : Bool :=
  (s.vcore core).claims.any (fun c => match s.launch? c.launch with
    | some l => l.desc.fuse
    | none => false)

/-- The core where a line lies that a core's threads access: their own, or in a fused L1D (P >> 10) & 3 of the cluster. -/
def l1Core (s : State) (core line : Nat) : Nat := if l1Fused s core then clusterOf core * 4 + line / 8 % 4 else core

/-- The other lines of a line's set in the L1D of a core: slice (P >> 7) & 7, set (P >> 10) & 0x1F, or (P >> 12) & 0x1F when
fused. -/
def l1Mates (fused : Bool) (line : Nat) (ls : List L1Line) : List L1Line :=
  ls.filter (fun l => l.line % 8 == line % 8 && l.line / (if fused then 32 else 8) % 32 == line / (if fused then 32 else 8) % 32 &&
    l.line != line)

/-- A sector comes into the L1D that holds a list of lines: into its line, or with a new one, for which a full set of ten gives
up a line that the keep policy does not hold, whichever; at most five of a set are kept (R200, R204). -/
def l1Fill (s : State) (fused : Bool) (k : Nat) (keep : Bool) (ls : List L1Line) : List L1Line :=
  let mates := l1Mates fused (k / 2) ls
  let keep := keep && decide ((mates.filter (·.keep)).length < 5)
  let bit : BitVec 2 := 1#2 <<< (k % 2)
  if ls.any (fun l => l.line == k / 2) then
    ls.map (fun l => if l.line = k / 2 then { l with sectors := l.sectors ||| bit, keep := l.keep || keep } else l)
  else
    let loose := mates.filter (fun l => !l.keep)
    (if mates.length < 10 then ls else ls.filter (fun l => some l != loose[s.chooseAt k loose.length]?)) ++ [⟨k / 2, bit, keep⟩]

/-- A sector is in the L1D of a core's threads; a line whose reply has not come to its die's L2 is not there yet (R204, R207). -/
def l1Hit (s : State) (core k : Nat) : Bool :=
  inL2 s (dieOf core) (k / 2) && (Tbl.get [] s.l1 (l1Core s core (k / 2))).any (fun l => l.line == k / 2 && l.sectors.getLsbD (k % 2))

/-- The policy in force: the pointer's default, unless MEMCFG lets the instruction override it (R76, R200). -/
def Policy.inForce (p : Policy) (ovr : Bool) : Policy := if ovr then p else .dflt
/-- A miss allocates its line in L1D; in L2 (R200). -/
def Policy.inL1 (p : Policy) : Bool := p == .dflt || p == .keep
def Policy.inL2 (p : Policy) : Bool := p != .stream

/-- A thread's access of a 64-byte sector of device memory hits or misses in L1D, and a miss allocates it there (R200, R204,
R320). -/
def noteSector (s : State) (pol : Policy) (k : Nat) : State :=
  match threadCore s.agent with
  | none => s
  | some core =>
    let s := countHere s (if l1Hit s core k then 0x20 else 0x21)
    if Policy.inL1 pol then
      let home := l1Core s core (k / 2)
      { s with l1 := Tbl.set s.l1 home (l1Fill s (l1Fused s core) k (pol == .keep) (Tbl.get [] s.l1 home)) }
    else s

/-- A line in no L1D but, after a thread's own store, the one that the thread's core uses (R204). -/
def l1Only (s : State) (line : Nat) : Tbl (List L1Line) :=
  let own := (threadCore s.agent).map (fun core => l1Core s core line)
  l1Without s.l1 (fun core l => l == line && own != some core)

/-! ### The directory and the miss registers (R206, R207) -/

/-- A store's device line in the directory and the miss registers (R206, R207): every other die's copy is invalidated, and every
other L1D's (R204). A miss takes a register or merges, and the die holds the line, modified, once the reply has come; under the
stream policy a miss allocates nothing (R200). -/
def noteStore (s : State) (die line : Nat) (alloc : Bool) : State :=
  let hit := inL2 s die line
  let s := if hit then s else missed s die line
  let s := if alloc && !hit then makeWay s die line else s
  { s with
    l2 := if alloc || hit then Tbl.set s.l2 line (1#16 <<< die, true) else Tbl.del s.l2 line
    l1 := l1Only s line
    misses := Tbl.set s.misses die ((Tbl.get [] s.misses die).filter (· ≠ line)) }

/-- A load's device line (R206, R207): a miss takes a register or merges, and takes a Modified line from its holder, which
keeps a clean copy (log 65); under the stream policy it allocates nothing (R200). -/
def noteLine (s : State) (die line : Nat) (alloc : Bool) : State :=
  if inL2 s die line then s
  else
    let s := missed s die line
    let e := Tbl.get (0, false) s.l2 line
    let s := if e.2 then { s with l2 := Tbl.set s.l2 line (e.1, false) } else s
    if alloc && !(Tbl.get [] s.misses die).contains line then
      { s with misses := Tbl.set s.misses die (Tbl.get [] s.misses die ++ [line]) }
    else s

/-- A peer line that a load brings into its die's L2, or, under the stream policy, reads past it (R200, R208). -/
def notePeer (s : State) (die line : Nat) (alloc : Bool) : State :=
  match peerHit s die line with
  | some _ => s
  | none =>
    let s := countHere s 0x22
    let s' := dropPeerCopy s die line
    if alloc then
      let s' := makeWay s' die line
      { s' with peerCopies := (die, line, s.mem.gets (line * 128) 128) :: s'.peerCopies }
    else s'

/-- The lines that `n` bytes from a key touch. -/
def linesOf (key n : Nat) : List Nat := (List.range (lineOf (key + n - 1) + 1 - lineOf key)).map (lineOf key + ·)

/-- What the directory, the miss registers and L2 keep of a read of `n` bytes at a place. -/
def noteRead (s : State) (die : Nat) (pl : Place) (n : Nat) (alloc : Bool) : State :=
  match pl with
  | .at_ key .dev => (linesOf key n).foldl (fun s l => noteLine s die l alloc) s
  | .at_ key (.peer _) => (linesOf key n).foldl (fun s l => notePeer s die l alloc) s
  | _ => s

/-- The sectors of device memory that `n` bytes at a place touch. -/
def Place.sectors (pl : Place) (n : Nat) : List Nat :=
  match pl with
  | .at_ key .dev => (List.range (sectorOf (key + n - 1) + 1 - sectorOf key)).map (sectorOf key + ·)
  | _ => []

/-- What the memory system keeps of a performed load of `n` bytes at a place. -/
def noteLoad (s : State) (die : Nat) (pl : Place) (n : Nat) (pol : Policy) : State :=
  noteRead ((pl.sectors n).foldl (fun s k => noteSector s pol k) s) die pl n (Policy.inL2 pol)

/-- The lines that a walk below a table at a level reads (R303). -/
def walkLines (s : State) (va : Nat) : Nat → Nat → List Nat
  | level, table =>
    let idx := va / 2 ^ (16 + 11 * level) % (if level = 3 then 256 else 2048)
    if Config.devBytes < table + 16384 then []
    else lineOf (devKey (table + 8 * idx)) :: (match level, devRead s (devKey (table + 8 * idx)) 8 with
      | level + 1, some w =>
        if (⟨w⟩ : Pte).v && (⟨w⟩ : Pte).nonLeaf && (⟨w⟩ : Pte).nodeOk then walkLines s va level (⟨w⟩ : Pte).next else []
      | _, _ => [])

/-- A walk reads page-table words from memory: its misses are like any other (R206, R207). -/
def noteWalk (s : State) (die asid va : Nat) : State :=
  if asid = Config.canvasAsid ∧ Config.canvasBase ≤ va ∧ va < Config.devBytes then s
  else match rootOf s asid with
    | none => s
    | some root => (walkLines s va 3 (root / 16384 * 16384)).foldl (fun s l => noteLine s die l true) s

/-- The translation that an access of an offset uses, if there is one. -/
def usedTlb (s : State) (c : ACtx) (va : Nat) : Option TlbEntry :=
  match translate s c.core c.asid va with
  | .fails _ _ => none
  | .leaf e large => some ⟨c.asid, va / 65536, BitVec.ofNat 64 e.w, large⟩

/-- An entry joins its bank of the gather TLB (R308); in a full bank it replaces one, any of the 64. -/
def intoBank (x : Nat) (s : State) (ts : List TlbEntry) (t : TlbEntry) : List TlbEntry :=
  let bank := ts.filter (fun u => u.granule % 8 == t.granule % 8)
  if ts.contains t then ts
  else if bank.length < 64 then ts ++ [t]
  else ts.filter (fun u => some u != bank[s.chooseAt x bank.length]?) ++ [t]

/-- The structure that an access looks in holds a translation of a page (R308). -/
def tlbHit (s : State) (c : ACtx) (slot : Option Nat) (va : Nat) : Bool :=
  let k := s.vcore c.core
  match slot with
  | some j => (vget none k.unitTlb j).any (fun t => t.covers c.asid (va / 65536))
  | none => k.tlb.any (fun t => t.covers c.asid (va / 65536))

/-- A lookup that misses is an event, and the page is walked (R303, R320). -/
def lookTlb (s : State) (c : ACtx) (slot : Option Nat) (va : Nat) : State :=
  if tlbHit s c slot va then s
  else noteWalk (countHere s (if slot.isSome then 0x24 else 0x23)) (dieOf c.core) c.asid va

/-- The translation that an access used is cached (R308): in a slot's unit-stride register, or in the gather TLB. -/
def cacheTlb (s : State) (c : ACtx) (slot : Option Nat) (va : Nat) : State :=
  match usedTlb s c va with
  | none => s
  | some t =>
    let s := lookTlb s c slot va
    match slot with
    | some j => s.updVcore c.core (fun k => { k with unitTlb := vset k.unitTlb j (some t) })
    | none => s.updVcore c.core (fun k => { k with tlb := intoBank (va / 65536) s k.tlb t })

/-- Whether an access's address has a translation that allows it, which the caches may hold (R305, R308). -/
def walkOk (s : State) (c : ACtx) (k : AKind) (addr : Int) : Bool :=
  let tag := addr.toNat / 2 ^ 60
  let o := addr.toNat % 2 ^ 60
  (tag == 0 || tag == 4 || tag == 5) && (match pagePlace s c k tag o (translate s c.core c.asid o) with
    | .ok _ => true
    | .error _ => false)

/-- What an access at an address leaves in the translation caches; the next free value is taken. A scalar thread's goes
through the gather TLB (log 57). -/
def noteTrans (s : State) (c : ACtx) (k : AKind) (addr : Int) : State :=
  (if walkOk s c k addr then cacheTlb s c none (addr.toNat % 2 ^ 60) else s).tick

/-- The class of a key: device memory, or a peer package's. -/
def isDevKey (k : Nat) : Bool := decide (k < Config.devBytes)
def isPeerKey (k : Nat) : Bool := decide (2 ^ 62 ≤ k)

/-- A die's copies of peer lines after it has written bytes through (R208). -/
def updateCopies (cs : List (Nat × Nat × List Byte)) (die : Nat) (cells : List Host.Cell) : List (Nat × Nat × List Byte) :=
  cs.map (fun e =>
    if e.1 = die then
      (e.1, e.2.1, cells.foldl (fun bs c => if lineOf c.1 = e.2.1 then bs.set (c.1 % 128) c.2 else bs) e.2.2)
    else e)

/-- The sectors that a list of byte writes covers whole (R219). -/
def wholeSectors (cells : List Host.Cell) : List Nat :=
  (sortSet (cells.map (fun c => sectorOf c.1))).filter (fun k =>
    (List.range 64).all (fun j => cells.any (fun c => c.1 == 64 * k + j)))

/-- A store whose elements cover sectors whole replaces the errors there (R219). -/
def State.heal (s : State) (sectors : List Nat) : State :=
  if sectors = [] then s
  else { s with
    badSectors := s.badSectors.filter (fun k => !sectors.contains k)
    lostSectors := s.lostSectors.filter (fun k => !sectors.contains k) }

/-- A thread's or a vector half's store is performed by a die: the directory and the die's peer copies see it (R206, R208), with
its policy (R200); whole sectors clear their error (R219), then the bytes change. -/
def State.writeBy (s : State) (pol : Policy) (die : Nat) (cells : List Host.Cell) : State :=
  let s := (sortSet ((cells.filter (fun c => isDevKey c.1)).map (fun c => sectorOf c.1))).foldl (fun s k => noteSector s pol k) s
  let s := (sortSet ((cells.filter (fun c => isDevKey c.1)).map (fun c => lineOf c.1))).foldl
    (fun s l => noteStore s die l (Policy.inL2 pol)) s
  let s := if cells.any (fun c => isPeerKey c.1) then { s with peerCopies := updateCopies s.peerCopies die cells } else s
  (if s.badSectors = [] ∧ s.lostSectors = [] then s else s.heal (wholeSectors cells)).put cells

/-- A store performed under the tag's own policy. -/
def State.write (s : State) (die : Nat) (cells : List Host.Cell) : State := s.writeBy .dflt die cells

/-- A system-scope acquire of a die forgets its copies of peer lines (R340). -/
def dropPeerCopies (s : State) (die : Nat) : State :=
  { s with peerCopies := s.peerCopies.filter (fun e => e.1 != die) }

/-! ## What waits in the store queues (R268, R327, R341) -/

/-- The queue that a key's stores are performed in program order with: the device's own memory, the host (R342), or one peer
package (R341). -/
def chanOf (k : Nat) : Nat := if k < 2 ^ 61 then 0 else if k < 2 ^ 62 then 1 else 2 + (k - 2 ^ 62) / 2 ^ 57

def Dest.chan : Dest → Nat
  | .key k => chanOf k
  | .tile _ _ _ _ => 0
def Pend.chan (p : Pend) : Nat := p.dest.chan

/-- The key of a tile's byte while the tile is present (R212, R213). -/
def tileKey (s : State) (launch tent tile off : Nat) : Option Nat :=
  match (tentsOf s (some launch))[tent]? with
  | none => none
  | some t => match devRead s (t.entryKey tile) 8 with
    | none => none
    | some w => if entPresent w && entOk t.size w then some (devKey (entFrame w + off)) else none

/-- A tile is absent (R212). -/
def tileAbsent (s : State) (launch tent tile : Nat) : Bool :=
  match (tentsOf s (some launch))[tent]? with
  | none => false
  | some t => match devRead s (t.entryKey tile) 8 with
    | none => false
    | some w => !entPresent w

/-- Where a destination lies now: at its key, or in an absent tile. -/
def Dest.now (s : State) : Dest → Dest
  | .key k => .key k
  | .tile l t i o => match tileKey s l t i o with
    | some k => .key k
    | none => .tile l t i o

/-- How far a byte lies above the first of a destination. -/
def Dest.above : Dest → Dest → Option Nat
  | .key a, .key b => if a ≤ b then some (b - a) else none
  | .tile l t i a, .tile l' t' i' b => if l = l' ∧ t = t' ∧ i = i' ∧ a ≤ b then some (b - a) else none
  | _, _ => none

/-- The destination `j` bytes above one. -/
def Dest.plus : Dest → Nat → Dest
  | .key a, j => .key (a + j)
  | .tile l t i a, j => .tile l t i (a + j)

/-- The channel of a place. -/
def Place.chan : Place → Nat
  | .at_ key _ => chanOf key
  | .absent _ _ _ _ _ => 0

/-- Byte `j` of a place. -/
def Place.byte (pl : Place) (j : Nat) : Dest :=
  match pl with
  | .at_ key _ => .key (key + j)
  | .absent l t i o _ => .tile l t i (o + j)

/-- A byte whose bits under a mask are replaced (R47). -/
def maskByte (mask v b : Byte) : Byte := (b &&& ~~~mask) ||| (v &&& mask)

/-- A byte after a store is performed over it, `j` bytes above the store's place. -/
def Datum.over (d : Datum) (j : Nat) (b : Byte) : Byte :=
  match d with
  | .bytes bs => bs.getD j b
  | .bits m v => if j = 0 then maskByte m v b else b

/-- A byte as a waiting store leaves it. -/
def Pend.over (s : State) (p : Pend) (d : Dest) (b : Byte) : Byte :=
  match (p.dest.now s).above d with
  | some j => p.data.over j b
  | none => b

/-- Bytes of a place with waiting stores performed over them, in order (R327). -/
def overlay (s : State) (ps : List Pend) (pl : Place) (bs : List Byte) : List Byte :=
  bs.zipIdx.map (fun e => ps.foldl (fun b p => p.over s (pl.byte e.2) b) e.1)

/-- The byte writes of a store at a key. -/
def Datum.cells (d : Datum) (m : Memory) (key : Nat) : List Host.Cell :=
  match d with
  | .bytes bs => cellsAt key bs
  | .bits k v => [(key, maskByte k v (m.get key))]

/-- How many bytes a store writes. -/
def Datum.size : Datum → Nat
  | .bytes bs => bs.length
  | .bits _ _ => 1

/-- Two waiting stores write one byte. -/
def Pend.meets (p q : Pend) : Bool :=
  match p.dest, q.dest with
  | .key a, .key b => decide (a < b + q.data.size) && decide (b < a + p.data.size)
  | _, _ => false

/-- Two elements belong to one line access: one instruction and one line (R233, R268). -/
def Pend.joins (p q : Pend) : Bool := p.acc == q.acc && p.line == q.line

/-- The first line access of a queue: its elements, and how many follow it. -/
def firstLine : List Pend → List Pend × List Pend
  | [] => ([], [])
  | p :: rest => (p :: rest.takeWhile p.joins, rest.dropWhile p.joins)

/-- The line accesses in a queue (R268). -/
def lineCount : List Pend → Nat
  | [] => 0
  | [_] => 1
  | p :: q :: rest => (if p.joins q then 0 else 1) + lineCount (q :: rest)

/-! ## Births and strikes (R214, R215, R312) -/

/-- Watchers of a tile are hit by its birth, strike or remap (R134). -/
def hitTile (s : State) (launch tent tile : Nat) : State :=
  { s with watches := s.watches.map (fun w => if w.tile = some (launch, tent, tile) then { w with hit := true } else w) }

/-- A tent of a launch. -/
def tentOf (s : State) (launch tent : Nat) : Option Tent := (tentsOf s (some launch))[tent]?

/-- The default written across a frame (R214). -/
def frameFill (t : Tent) (frame : Nat) : List Host.Cell := cellsAt (devKey frame) (dfltBytes t.dflt 0 t.size)

/-- Write a site-map entry in one write. -/
def writeEntry (s : State) (t : Tent) (tile w : Nat) : State := s.poke (cellsAt (t.entryKey tile) (toBytes 8 w))

/-- Room in the core's journal for a birth of a region (R35): 4,096 births. -/
def journalFull (s : State) (core : Nat) (region : Option Nat) : Bool :=
  region.isSome && decide (4096 ≤ (s.vcore core).journal.length)

/-- The resv bytes of a pool's header are zero (R3, R312). -/
def poolOk (s : State) (t : Tent) : Bool := s.mem.num (t.topKey + 8) 56 == 0

/-- A birth (R214, R312): a journal entry first in a region, then the frame, the Tent Unit's fill, which passes no L1D, and the entry. The physical frame's
base is returned. DETAIL and STVAL are the pitching access's. A frame that does not fit leaves TOP decremented (R312), so
the failure carries the state. A header whose resv bytes are not zero is invalid (R3, R312): ACCESS, as for a TOP above CAP
(log 59). -/
def pitch (s : State) (core : Nat) (region : Option Nat) (seq : BitVec 3) (launch tent tile : Nat) :
    Except (Nat × State) (State × Nat) :=
  match tentOf s launch tent with
  | none => .error (causeAccess, s)
  | some t =>
    if journalFull s core region then .error (causeJournal, s)
    else match devRead s t.topKey 8, devRead s (t.entryKey tile) 8 with
      | some top, some w =>
        if !poolOk s t then .error (causeAccess, s)
        else if top = 0 then .error (causeTent, s)
        else if t.cap < top then .error (causeAccess, s)
        else match devRead s (t.slotKey (top - 1)) 8 with
          | none => .error (causeUncorrectable, s)
          | some frame =>
            let s := s.poke (cellsAt t.topKey (toBytes 8 (top - 1)))
            if frame % t.size ≠ 0 ∨ Config.devBytes < frame + t.size then .error (causeAccess, s)
            else
              let s := s.as (.mcc (clusterOf core)) (fun s => s.write (dieOf core) (frameFill t frame))
              let s := writeEntry s t tile (entWord true 0 frame (entGen w))
              let s := hitTile s launch tent tile
              let s := match region with
                | none => s
                | some r => s.updVcore core (fun k => { k with journal := k.journal ++ [⟨r, launch, tent, tile, seq⟩] })
              .ok (s, frame)
      | _, _ => .error (causeUncorrectable, s)

/-- A frame returns to its pool's top; beyond CAP, or with an invalid header, it is lost (R254, R312; log 59). `none`: TOP or its slot holds an uncorrectable
error (R219). -/
def returnFrame (s : State) (t : Tent) (frame : Nat) : Option State :=
  match devRead s t.topKey 8 with
  | none => none
  | some top =>
    if t.cap ≤ top ∨ poolOk s t = false then some s
    else match devRead s (t.slotKey top) 8 with
      | none => none
      | some _ => some ((s.poke (cellsAt (t.slotKey top) (toBytes 8 frame))).poke (cellsAt t.topKey (toBytes 8 (top + 1))))

/-- A strike of one tile (R215, R253). `none`: its entry or its pool holds an uncorrectable error, and nothing is struck
(R219). -/
def strike? (s : State) (launch tent tile : Nat) : Option State :=
  match tentOf s launch tent with
  | none => some s
  | some t => match devRead s (t.entryKey tile) 8 with
    | none => none
    | some w =>
      if !entPresent w then some s
      else (returnFrame s t (entFrame w)).map (fun s =>
        hitTile (writeEntry s t tile (entWord false 0 0 (entGen w + 1))) launch tent tile)

/-- A strike that no instruction waits for (R37, R39): one that meets an uncorrectable error leaves its tile (log 55). -/
def strikeTile (s : State) (launch tent tile : Nat) : State := (strike? s launch tent tile).getD s

end Sys2Proof.Machine
end

