-- ==== Sys2Proof/Machine/Ops.lean ====
section
/-! DEFINITION. Machine/Ops.lean: the named operations over the state that the meanings share: outcomes, retirement, the
store queues, taking an exception and returning from one (R347–R352), abandoning a region (R39), joining (R23), engine-fault
records (R277), peg events (R390), and who runs next. -/

namespace Sys2Proof.Machine

/-- The outcome of one step of this machine. -/
abbrev Out := Host.Outcome State Fault Refusal

/-! ## Token pops (R30, R269, R285) -/

/-- The .pop of a class 0xD word (R285). -/
def popFlag : Instr → Bool
  | .mfeed _ _ pop _ => pop
  | .mpull _ _ pop _ => pop
  | .vopacc _ _ _ _ pop _ _ => pop
  | .xcopy _ _ pop => pop
  | .xred _ _ pop => pop
  | .strcfg _ _ _ _ pop _ => pop
  | .vldS _ _ _ pop _ => pop
  | .tokpop _ => true
  | _ => false

/-- A hart's vector half is parked at a token pop (R30, R269). -/
def vectorParked (h : Hart) : Bool :=
  match h.viq with
  | e :: _ => popFlag e.instr && h.tokIn == 0 && h.stage == .start
  | [] => false

namespace State

/-! ## Contexts and ownership -/

/-- The space and claims an agent's accesses use (R303, R310; canvas firmware runs in ASID 0xFFFF, R392). -/
def actx (s : State) (a : Agent) : ACtx :=
  match a with
  | .user p | .vec p =>
    let n := (s.hart p).launch
    ⟨((s.launch? n).map (·.asid)).getD 0, true, some n, coreOf p⟩
  | .sup p => ⟨Config.canvasAsid, false, none, coreOf p⟩
  | .mcc c =>
    let n := (s.cluster c).holder
    ⟨((n.bind s.launch?).map (·.asid)).getD 0, true, n, c * 4⟩

/-- The core an agent acts on. -/
def coreFor (a : Agent) : Nat :=
  match a with
  | .user p | .vec p | .sup p => coreOf p
  | .mcc c => c * 4

/-- The open region a hart is in. -/
def regionOf (s : State) (p : Nat) : Option Region :=
  (s.hart p).region.bind (fun r => (s.vcore (coreOf p)).regions.find? (fun g => g.opener == r))

/-- Change the open region with an opener on a core. -/
def updRegion (s : State) (core opener : Nat) (f : Region → Region) : State :=
  s.updVcore core (fun k => { k with regions := k.regions.map (fun g => if g.opener = opener then f g else g) })

/-! ## Counting (R36, R320) -/

/-- One instruction off the budget of the region open for a hart; the one that brings it to zero is named (R36). -/
def spend (s : State) (p : Nat) (addr : Word) : State :=
  match (s.hart p).region with
  | none => s
  | some r => s.updRegion (coreOf p) r (fun g =>
      if g.budget = 0 then g
      else { g with
        budget := g.budget - 1
        spent := if g.budget = 1 then some (slotOf p, addr) else g.spent })

/-- The instruction at `addr` of a hart's scalar thread retires (R36, R320). -/
def retireOf (s : State) (p : Nat) (addr : Word) : State :=
  (s.updHart p (fun h => { h with retired := h.retired + 1 })).spend p addr

/-- The scalar thread retires the instruction at `addr` (R36, R320): RETIRED and the region's budget. Only a user thread
counts. -/
def retireAt (s : State) (addr : Word) : State :=
  match s.agent with
  | .user p => s.retireOf p addr
  | _ => s

/-- Go on to the next word: the pc advances and the instruction retires. -/
def advance (s : State) : State := (s.setPc (s.pc + 4)).retireAt s.pc

/-- A control instruction of a user thread has set the pc (R129). -/
def viaJump (s : State) : State :=
  match s.agent with
  | .user p => s.updHart p (fun h => { h with viaTret := false })
  | _ => s

/-- Go on at a target: the pc changes and the instruction retires (R128). -/
def jumpTo (s : State) (target : Word) : State := ((s.setPc target).retireAt s.pc).viaJump

/-! ## Store queues (R268, R327) -/

/-- The scalar store queue of an agent's thread. -/
def sbufOf (s : State) (a : Agent) : List Pend :=
  match a with
  | .user p | .vec p => (s.hart p).sbuf
  | .sup p => (s.sup p).sbuf
  | .mcc _ => []

/-- A waiting store's bytes reach a key: the sectors that its instruction covers whole are good again (R219). -/
def stored (s : State) (a : Agent) (p : Pend) (key : Nat) : State :=
  (s.heal p.clears).as a (fun s => s.writeBy p.pol (dieOf (coreFor a)) (p.data.cells s.mem key))

/-- Count a birth that an agent's hart caused (R320). -/
def countBirth (s : State) (a : Agent) : State :=
  match a with
  | .user p | .vec p => s.updHart p (fun h => countEv h 0x41)
  | _ => s

/-- Whether a birth by an agent belongs to an open region (R35). -/
def inRegion (s : State) (a : Agent) : Bool :=
  match a with
  | .user p | .vec p => (s.hart p).region.isSome
  | _ => false

/-- A waiting store is performed: in its tile's present frame, or with the tile's birth (R214). The store to a tile that was
struck meanwhile, and cannot be born again, came before the strike (R220; log 56); what the failing pitch did to the pool stays
(R312). -/
def perform (s : State) (a : Agent) (p : Pend) : State :=
  match p.dest with
  | .key k => s.stored a p k
  | .tile l t i o =>
    match tileKey s l t i o with
    | some k => s.stored a p k
    | none =>
      if s.inRegion a || !tileAbsent s l t i then s
      else match pitch s (coreFor a) none 0 l t i with
        | .ok (s, frame) => (s.countBirth a).stored a p (devKey (frame + o))
        | .error (_, s) => s

/-- Waiting stores are performed in order. -/
def performs (s : State) (a : Agent) (ps : List Pend) : State := ps.foldl (fun s p => s.perform a p) s

/-- A store of a scalar thread is performed before a later one: both go to one place (R327, R341, R342), or a fence at system
scope stands between them (R227). -/
def before (p q : Pend) : Bool := p.chan == q.chan || decide (q.fences < p.fences)

/-- The stores that have to be performed for those selected, and those that go on waiting. -/
def chosen (sel : Pend → Bool) (ps : List Pend) : List Pend × List Pend :=
  ps.foldr (fun p r => if sel p || r.1.any (before p) then (p :: r.1, r.2) else (r.1, p :: r.2)) ([], [])

/-- A thread's store queue, replaced. -/
def setSbuf (s : State) (a : Agent) (ps : List Pend) : State :=
  match a with
  | .user p | .vec p => s.updHart p (fun h => { h with sbuf := ps })
  | .sup p => s.updSup p (fun u => { u with sbuf := ps })
  | .mcc _ => s

/-! ## Loads performed late (R222, R327, R328; log 2) -/

/-- The loads of a thread that are not performed yet, oldest first. -/
def latesOf (s : State) (a : Agent) : List Late :=
  match a with
  | .user p | .vec p => (s.hart p).late
  | .sup p => (s.sup p).late
  | .mcc _ => []

/-- A thread's loads that are not performed yet, replaced. -/
def setLates (s : State) (a : Agent) (ls : List Late) : State :=
  match a with
  | .user p | .vec p => s.updHart p (fun h => { h with late := ls })
  | .sup p => s.updSup p (fun u => { u with late := ls })
  | .mcc _ => s

/-- The location of a memory key (R198). -/
def locOf (k : Nat) : Loc :=
  if k < 2 ^ 60 then .dev else if k < 2 ^ 61 then .spm else if k < 2 ^ 62 then .host else .peer ((k - 2 ^ 62) / 2 ^ 57)

/-- The place that a destination has now. -/
def placeOf (s : State) (d : Dest) : Place :=
  match d.now s with
  | .key k => .at_ k (locOf k)
  | .tile l t i o => .absent l t i o (((tentOf s l t).map (·.dflt)).getD 0)

/-- The bytes that a load of a thread returns now: those read already, and of the others those in memory with the thread's own
earlier stores over them (R327). -/
def lateBytes (s : State) (a : Agent) (l : Late) : List Byte :=
  let pl := s.placeOf l.dest
  let bs := overlay s ((s.sbufOf a).filter (fun p => decide (p.acc < l.acc))) pl (placeBytes s (dieOf (coreFor a)) pl l.n)
  bs.zipIdx.map (fun e => ((l.got.find? (fun g => g.1 == e.2)).map (·.2)).getD e.1)

/-- The value of a load from its bytes: sign- or zero-extended (R221). -/
def loadVal (sgnd : Bool) (bs : List Byte) : Word :=
  if sgnd then BitVec.ofInt 64 (sgn (8 * bs.length) (ofBytes bs)) else BitVec.ofNat 64 (ofBytes bs)

/-- A register of a thread := a value. -/
def putReg (s : State) (a : Agent) (toF : Bool) (r : Reg) (v : Word) : State :=
  (s.setThread a (if toF then (s.thread a).wf r v else (s.thread a).wx r v)).cleanReg a toF r

/-- The oldest load of a thread that is not performed yet is performed: it gives its register what memory holds now. -/
def finishLate (s : State) (a : Agent) : State :=
  match s.latesOf a with
  | [] => s
  | l :: rest =>
    let n := s.as a (fun s => noteLoad s (dieOf (coreFor a)) (s.placeOf l.dest) l.n .dflt)
    ((n.setLates a rest).putReg a l.toF l.reg (loadVal l.sgnd (s.lateBytes a l))).tick

/-- Byte `j` of the oldest load is read, if it is not naturally aligned (R222); an aligned one is performed whole. -/
def readLate (s : State) (a : Agent) (j : Nat) : State :=
  match s.latesOf a with
  | [] => s
  | l :: rest =>
    if l.addr.toNat % l.n = 0 ∨ l.n ≤ j then s.finishLate a
    else match (s.lateBytes a l)[j]? with
      | some b => (s.setLates a ({ l with got := l.got ++ [(j, b)] } :: rest)).tick
      | none => s

/-- Every load of a thread is performed, in order. -/
def settleLate (s : State) (a : Agent) : State := (s.latesOf a).foldl (fun s _ => s.finishLate a) s

/-- The threads with a load that is not performed yet. -/
def lateThreads (s : State) : List Agent :=
  (s.harts.filter (fun e => !e.2.late.isEmpty)).map (fun e => Agent.user e.1) ++
  (s.sups.filter (fun e => !e.2.late.isEmpty)).map (fun e => Agent.sup e.1)

/-- Every load of every thread is performed. -/
def settleLates (s : State) : State := s.lateThreads.foldl settleLate s

/-! ## Performing waiting stores -/

/-- Perform the selected scalar stores of an agent's queue, with those that come before them and the thread's loads (R327). -/
def drainSel (s : State) (a : Agent) (sel : Pend → Bool) : State :=
  let r := chosen sel (s.sbufOf a)
  if r.1 = [] then s else ((s.settleLate a).performs a r.1).setSbuf a r.2

/-- Perform every scalar store that waits in an agent's queue (R327). -/
def drainS (s : State) (a : Agent) : State := s.drainSel a (fun _ => true)

/-- What an ordering instruction at a scope performs of a thread's stores: at system scope all, at a narrower one those of
the device's own memory (R336) and those of one more channel. -/
def drainAt (s : State) (a : Agent) (sc : Scope) (chan : Nat) : State :=
  s.drainSel a (fun p => sc == .system || p.chan == 0 || p.chan == chan)

/-- What an order at core, cluster or package scope performs of a thread's stores: those of the device's own memory (R336). -/
def drainL (s : State) (a : Agent) : State := s.drainSel a (fun p => p.chan == 0)

/-- Perform a hart's scalar stores of the device's own memory with a stamp below `n` (R228). -/
def drainBelow (s : State) (p n : Nat) : State :=
  s.drainSel (.user p) (fun q => decide (q.acc < n) && q.chan == 0)

/-- An element train of a hart carries an element that passes through a slice (R4, R268). -/
def inTrain (p k : Nat) (t : Nat × Nat × List Pend) : Bool := t.1 == p && t.2.2.any (fun q => q.line % 8 == k)

/-- Trains that a predicate selects are acknowledged, in order (R235, R341). -/
def ackTrains (s : State) (sel : Nat × Nat × List Pend → Bool) : State :=
  match s.trains.filter sel with
  | [] => s
  | ts => { ts.foldl (fun s t => s.performs (.vec t.1) t.2.2) s with trains := s.trains.filter (fun t => !sel t) }

/-- Perform every line access waiting in one slice's store queue of a hart (R268). -/
def drainQueue (s : State) (p k : Nat) : State :=
  match vget [] (s.hart p).ssq k with
  | [] => s
  | ps => (s.performs (.vec p) ps).updHart p (fun h => { h with ssq := vset h.ssq k [] })

/-- Perform every line access of a hart that passes through one slice, element trains included (R268). -/
def drainSlice (s : State) (p k : Nat) : State := (s.ackTrains (inTrain p k)).drainQueue p k

/-- The absent tiles that a hart's waiting line accesses in some slices will pitch, each once. -/
def birthsIn (s : State) (p : Nat) (ks : List Nat) : List (Nat × Nat × Nat) :=
  let tile (q : Pend) : Option (Nat × Nat × Nat) := match q.dest with
    | .tile l t i _ => if tileAbsent s l t i then some (l, t, i) else none
    | .key _ => none
  (ks.flatMap (fun k => (vget [] (s.hart p).ssq k).filterMap tile)).eraseDups

/-- A list in an order that free values pick. -/
def shuffled (s : State) (ts : List (Nat × Nat × Nat)) : List (Nat × Nat × Nat) :=
  ts.foldl (fun us t =>
    let j := s.chooseAt us.length (us.length + 1)
    us.take j ++ t :: us.drop j) []

/-- One birth for a waiting store of an agent. -/
def bear (s : State) (a : Agent) (t : Nat × Nat × Nat) : State :=
  match pitch s (coreFor a) none 0 t.1 t.2.1 t.2.2 with
  | .ok (s, _) => s.countBirth a
  | .error (_, s) => s

/-- Line accesses of a hart in some slices that are performed at one moment: the births they bring take the pool's top frames in
an unspecified order among themselves (R254, R408; log 56). -/
def bornTogether (s : State) (p : Nat) (ks : List Nat) : State :=
  let ts := s.birthsIn p ks
  if ts.length ≤ 1 ∨ s.inRegion (.vec p) = true then s
  else ((s.shuffled ts).foldl (fun s t => s.bear (.vec p) t) s).tick

/-- Perform every line access in a hart's eight slice store queues. -/
def drainV (s : State) (p : Nat) : State :=
  ((((((((s.bornTogether p (List.range 8)).drainSlice p 0).drainSlice p 1).drainSlice p 2).drainSlice p 3).drainSlice p 4).drainSlice p 5).drainSlice
    p 6).drainSlice p 7

/-- Perform every line access in a hart's eight slice store queues that is not at a peer or the host (R235, R336). -/
def drainQueues (s : State) (p : Nat) : State :=
  ((((((((s.bornTogether p (List.range 8)).drainQueue p 0).drainQueue p 1).drainQueue p 2).drainQueue p 3).drainQueue p 4).drainQueue p 5).drainQueue
    p 6).drainQueue p 7

/-! ## Births that wait -/

/-- The tiles of a tent that waiting stores of its launch's harts will pitch. -/
def awaited (s : State) (launch tent : Nat) : List Nat :=
  let tile (p : Pend) : Option Nat := match p.dest with
    | .tile l t i _ => if l = launch ∧ t = tent ∧ tileAbsent s l t i = true then some i else none
    | .key _ => none
  sortSet ((s.harts.filter (fun e => e.2.launch == launch)).flatMap (fun e =>
    (e.2.sbuf ++ e.2.ssq.toList.flatten).filterMap tile))

/-- A store to an absent tile can wait: outside a region, with valid frames in the pool for every tile that waiting stores
will pitch, this one included (log 56). -/
def canReserve (s : State) (a : Agent) (launch tent tile : Nat) : Bool :=
  match tentOf s launch tent with
  | none => false
  | some t =>
    let n := (insertSet tile (s.awaited launch tent)).length
    !s.inRegion a && poolOk s t && (match devRead s t.topKey 8 with
    | none => false
    | some top => decide (top ≤ t.cap) && decide (n ≤ top) && (List.range n).all (fun j =>
        match devRead s (t.slotKey (top - 1 - j)) 8 with
        | none => false
        | some frame => frame % t.size == 0 && decide (frame + t.size ≤ Config.devBytes)))

/-- Before a birth for which the pool has no frame to spare, the waiting stores that will pitch tiles of the tent are
performed: their births come first (log 56). -/
def settleTent (s : State) (launch tent : Nat) : State :=
  match tentOf s launch tent with
  | none => s
  | some t =>
    if (s.awaited launch tent).length < s.mem.num t.topKey 8 ∨ s.awaited launch tent = [] then s
    else (s.harts.filter (fun e => e.2.launch == launch)).foldl (fun s e => (s.drainS (.user e.1)).drainV e.1) s

/-! ## Peg events and engine-fault records -/

/-- An event for the host's event ring (R390): 32 bytes, the type at +0 and three words from +8. -/
def addEvent (s : State) (type d0 d1 d2 : Nat) : State :=
  s.updPeg (fun g => { g with events := g.events ++ [toBytes 8 type ++ toBytes 8 d0 ++ toBytes 8 d1 ++ toBytes 8 d2] })

/-- Key of an engine-fault record of a core (R277). -/
def efqKey (core pos : Nat) : Nat := devKey (Config.canvasBase + 512 * core + 32 * pos)

/-- A core's engine-fault queue is not empty (R113, R277). -/
def efq (s : State) (core : Nat) : Bool := (List.range 16).any (fun j => s.mem.num (efqKey core j) 8 != 0)

/-- End a thread's `park` and go on at the following word (R134, R348). -/
def endLinePark (u : Sup) : Sup :=
  match u.park with
  | some .line => { u with park := none, thr := { u.thr with pc := u.thr.pc + 4 } }
  | _ => u

/-- Forget what a thread watches. -/
def dropWatch (s : State) (sup : Bool) (p : Nat) : State :=
  { s with watches := s.watches.filter (fun w => !(w.sup == sup && w.p == p)) }

/-- An engine's failure: a record in a core's ring if its next position is free, else a dropped record is counted; the
supervisor thread named by `wake` is raised (R277, R360). -/
def engineFault (s : State) (core : Nat) (status cmdAddr cell : Nat) (pscore hart wake : Nat) : State :=
  let k := s.vcore core
  if s.mem.num (efqKey core k.efqPos) 8 = 0 then
    let rec_ := toBytes 8 status ++ toBytes 8 cmdAddr ++ toBytes 8 cell ++ toBytes 2 pscore ++ toBytes 2 hart ++
      toBytes 4 k.efqDrop.toNat
    let s := s.poke (cellsAt (efqKey core k.efqPos) rec_)
    let s := s.updVcore core (fun k => { k with efqPos := (k.efqPos + 1) % 16, efqDrop := 0 })
    if (s.sup wake).park = some .line then (s.dropWatch true wake).updSup wake endLinePark else s
  else s.updVcore core (fun k => { k with efqDrop := k.efqDrop + 1 })

/-! ## Prefix state (R80) -/

/-- PFXS for a pending prefix. -/
def pfxsOf (x : Pfx) : BitVec 13 :=
  BitVec.ofNat 13 (4096 + x.m.toNat * 512 + bcode x.sense * 256 + bcode x.zero * 128 + x.cfile.code * 32 + x.creg.toNat)

/-- The prefix that PFXS records, when V = 1. -/
def pfxOf (w : BitVec 13) : Option Pfx :=
  let n := w.toNat
  if n < 4096 then none
  else some ⟨BitVec.ofNat 3 (n / 512), n.testBit 8, n.testBit 7, (CFile.ofCode (n / 32 % 4)).getD .none,
    BitVec.ofNat 5 n⟩

/-! ## Taking an exception (R347–R351) -/

/-- SCAUSE (R113). -/
def scauseOf (c : Cause) : BitVec 32 :=
  BitVec.ofNat 32 (c.detail % 65536 * 65536 + bcode c.deferred * 1024 + bcode c.abandoned * 512 + bcode c.vec * 256 +
    c.code % 256)

/-- Bits 1:0 of SEPC and SCPC read zero (R113). -/
def pcBits (w : Word) : Word := w &&& ~~~3#64

/-- The user thread of a hart stops where it is: it is no longer parked or waiting, and a pending prefix is recorded in
PFXS (R80, R351). DESIGN CHOICE (log 63): with no prefix pending the fields beside V are zero; R80 states V alone. -/
def stopUser (s : State) (p : Nat) : State :=
  ((s.updHart p (fun h => { h with
      park := none
      latch := none
      pfxs := match h.latch with
        | some (x, _) => pfxsOf x
        | none => 0 })).dropWatch false p).updPeg (fun g => { g with ringWait := g.ringWait.filter (· ≠ p) })

/-- Deliver a cause to the supervisor thread of a scalar core (R348): the saved registers, SVC, the end of its park, and
every issue slot. A halted supervisor thread leaves the user thread parked with SVC = 1 and nothing delivered (R361). -/
def deliver (s : State) (p : Nat) (c : Cause) : State :=
  let s := if c.vec then (s.drainL (.user p)).drainV p else s.drainL (.user p)
  if (s.sup p).halted then
    (s.updHart p (fun h => { h with undelivered := some c })).updSup p (fun u => { u with svc := true })
  else
    let s := if (s.sup p).park = some .line then s.dropWatch true p else s
    { s.updSup p (fun u =>
        { endLinePark u with
          scause := scauseOf c
          sepc := pcBits c.epc
          scpc := pcBits c.cpc
          stval := c.tval
          svc := true }) with
      agent := .sup p }

/-- What a hart holds after its region ended or was abandoned: empty queues, no prefix. -/
def clearQueues (h : Hart) : Hart :=
  { h with
    viq := []
    replies := Vector.replicate 16 none
    latch := none
    park := none
    heldVec := none
    stopAt := none
    pause := none
    stage := .start
    served := Vector.replicate 3 0
    vecStopped := false
    hold := 0
    svNeed := 0
    early := []
    late := []
    svJoin := false }

/-- The parent that the children of a split leave when they cease to exist (R23, R102, R110, R269); `endRegion` uses it for the CSRs
outside the snapshot (log 61). -/
def joinedHart (r : SplitRec) (h0 : Hart) (hs : List Hart) : Hart :=
  let lanesMask : BitVec 50 := 0x0FFFFFFFFFFFF#50
  { h0 with
    vl := r.vl
    rows := r.rows
    vcap := r.vcap
    seq := r.seq
    vstart := 0
    fflags := hs.foldl (fun a h => a ||| h.fflags) 0
    pntstat := hs.foldl (fun a h => a ||| h.pntstat) 0
    vdirty := (hs.foldl (fun a h => a ||| h.vdirty) 0 &&& lanesMask) ||| (h0.vdirty &&& ~~~lanesMask)
    splitB := 0
    isChild := false
    siblings := 0
    pushVl := r.vl
    pushVtype := h0.vtype
    park := none }

/-- The scalar cores of a split's children. -/
def childCores (core : Nat) (r : SplitRec) : List Nat :=
  (List.range r.n).map (fun j => core * 8 + r.parentSlot * r.n + j)

/-- At a join on another core than the split's, the slots that the split's children vacated there are free again (R21,
R358). -/
def freeHome (s : State) (core : Nat) (r : SplitRec) : State :=
  if r.home ≠ core ∧ (s.hartsOf r.home) = [] ∧ (s.vcore r.home).split = some r then
    s.updVcore r.home (fun k => { k with part := r.parentPart, split := none })
  else s

/-- The children of a core's split cease to exist and the parent resumes in its slot (R23). -/
def rejoin (s : State) (core : Nat) (r : SplitRec) : State :=
  let ps := childCores core r
  let hs := ps.map s.hart
  let parent := joinedHart r (s.hart (ps.headD 0)) hs
  let s := { s with
    harts := s.harts.filter (fun e => !ps.contains e.1)
    watches := s.watches.filter (fun w => w.sup || !ps.contains w.p) }
  let s := freeHome s core r
  (s.updVcore core (fun k => { k with
    part := r.parentPart, split := none, unitTlb := Vector.replicate 8 none, deficit := VCore.reset.deficit })).setHart (core * 8 + r.parentSlot) parent

/-- Strike a region's journalled births, newest first (R39). -/
def strikeBirths (s : State) (bs : List Birth) : State :=
  bs.foldr (fun b s => strikeTile s b.launch b.tent b.tile) s

/-- The harts of a region. -/
def regionHarts (s : State) (core opener : Nat) : List Nat :=
  ((s.hartsOf core).filter (fun e => e.2.region == some opener)).map (·.1)

/-- A slot that no hart holds, whose hart's vector half stops, or whose queue has been emptied, has no credit at the shared
units (R369, R372). -/
def dropCredit (s : State) (p : Nat) : State :=
  if (s.vcore (coreOf p)).deficit.toList.all (fun d => vget 0 d (slotOf p) == 0) then s
  else s.updVcore (coreOf p) (fun k => { k with deficit := k.deficit.map (fun d => vset d (slotOf p) 0) })

/-- Every region hart stops (R39 step 1): its line accesses are performed and its queues emptied. -/
def stopHarts (s : State) (ps : List Nat) : State :=
  ps.foldl (fun s p => (((((s.drainS (.user p)).drainV p).updHart p clearQueues).dropCredit p).dropWatch false p)) s

/-- A region ends without committing (R38, R39 steps 1 to 4): births struck in reverse order, deferred work discarded,
children terminated, partition and snapshot restored, `last` recorded, IBUDGET zero. DESIGN CHOICE (log 61): the opener's own queued
entries and pending replies are dropped too, and of a region that has split the CSRs outside the snapshot are the children's, by
join's rules (`joinedHart`). -/
def endRegion (s : State) (core : Nat) (r : Region) (last : BitVec 2) : State :=
  let s := stopHarts s (s.regionHarts core r.opener)
  let k := s.vcore core
  let s := strikeBirths s (k.journal.filter (fun b => b.region == r.opener))
  let s := s.updVcore core (fun k => { k with
    journal := k.journal.filter (fun b => b.region != r.opener)
    deferred := k.deferred.filter (fun d => match d with
      | .strike g _ _ _ => g != r.opener
      | .launch g _ _ _ _ => g != r.opener)
    regions := k.regions.filter (fun g => g.opener != r.opener) })
  let s := match r.split, k.split with
    | none, some sp => rejoin s core sp
    | _, _ => s
  s.updHart r.opener (fun h => { (if last = 3 then countEv h 0x42 else h) with
    thr := { h.thr with x := r.x, f := r.f }
    vl := r.vl
    vtype := r.vtype
    rows := r.rows
    rngkey := r.rngkey
    vstart := 0
    pushVl := r.vl
    pushVtype := r.vtype
    region := none
    withheld := 0
    last := last
    pntstat := h.pntstat &&& 0xFFFFFFF#29 })

/-- The VIQ head has taken an element fault and awaits its replay (R236). -/
def awaitsReplay (h : Hart) : Bool :=
  match h.viq with
  | e :: _ => e.st == EntryState.replay
  | [] => false

/-- Granules of an abandoning PAGE cause (R359): of an element fault the 32 lowest of its PAGE elements, of any other cause
the granule of STVAL. -/
def keptFor (h : Hart) (c : Cause) : List Nat :=
  let gs := if c.vec && awaitsReplay h then (h.elemFaults.filter (fun e => e.2.1 == causePage)).map (fun e => e.2.2.toNat % 2 ^ 60 / 65536)
    else [c.tval.toNat % 2 ^ 60 / 65536]
  if c.code = causePage then (sortSet gs).take 32 else []

/-- Abandon the region of hart p for a cause (R39, R359). -/
def abandon (s : State) (p opener : Nat) (c : Cause) : State :=
  let core := coreOf p
  match (s.vcore core).regions.find? (fun g => g.opener == opener) with
  | none => s.deliver p c
  | some r =>
    let h := s.hart p
    let s := endRegion s core r 3
    let s := s.updHart opener (fun o => { o with
      pfxs := 0
      fmask := 0
      elemFaults := []
      fstat := (if c.vec then h.fstat else o.fstat) &&& ~~~(1#40 <<< 17)
      keptGranules := keptFor h c
      thr := { o.thr with pc := r.openPc } })
    s.deliver opener { c with epc := r.openPc, abandoned := true, detail := slotOf p * 8192 + c.detail % 8192 }

/-- Taking an exception on the hart of scalar core p: in an open region the region is abandoned (R39); a vector cause that
arises while a trap is in service, or while the thread waits for page responses, is held (R350); otherwise the cause is delivered (R348). -/
def takeTrap (s : State) (p : Nat) (c : Cause) : State :=
  let s := if c.vec then (s.updHart p (fun h => { h with vecStopped := true })).dropCredit p else s
  match (s.hart p).region with
  | some r => s.abandon p r c
  | none =>
    if (s.sup p).svc || (s.hart p).pageWait.isSome then
      s.updHart p (fun h => { h with heldVec := if c.vec then some c else h.heldVec })
    else (s.stopUser p).deliver p c

/-- A supervisor thread that takes a cause halts, and a service fault is reported (R361). -/
def haltSup (s : State) (p code : Nat) (addr : Word) : State :=
  (s.updSup p (fun u => { u with halted := true })).addEvent 1 code p addr.toNat

/-- Cores of a cluster holding a claim of a launch, lowest first (R284). -/
def claimCores (s : State) (c : Nat) (launch : Option Nat) : List Nat :=
  (List.range 4).map (c * 4 + ·) |>.filter (fun k => (claimOf s launch k).isSome)

/-- A fault in an MCC's stream or a failed MXA command halts the MCC and writes an engine-fault record (R284). -/
def haltMcc (s : State) (c code : Nat) (addr : Word) : State :=
  let core := (s.claimCores c (s.cluster c).holder).headD (c * 4)
  let status := code + (0x100 + c) * 65536 + addr.toNat % 2 ^ 32 * 2 ^ 32
  (s.updCluster c (fun k => { k with mccRun := .halted })).engineFault core status addr.toNat 0 0xFFFF c (core * 8)

/-- A command of the MXA. -/
def isMxa (d : Cmd) : Bool :=
  match d.kind with
  | .mxa _ _ _ _ _ => true
  | .copy _ _ _ _ _ => false

/-- A failed MXA command: the MCC halts, and every later MXA command in the cluster's queue is discarded (R284). -/
def failMxa (s : State) (c id code : Nat) (addr : Word) : State :=
  (s.updCluster c (fun k => { k with
    mxa := k.mxa.filter (fun d => d.id != id)
    queue := k.queue.filter (fun d => !(isMxa d && decide (id < d.id))) })).haltMcc c code addr

/-- A cause raised by the executing thread at its current word: SEPC `epc`, SCPC `cpc`. A user thread or vector half hands
it over (`takeTrap`), a supervisor thread halts (R361), an MCC halts (R284). -/
def raise (s : State) (code detail : Nat) (epc cpc tval : Word) : State :=
  match s.agent with
  | .user p => s.takeTrap p ⟨code, false, epc, cpc, tval, detail, false, false⟩
  | .vec p => s.takeTrap p ⟨code, true, (s.hart p).thr.pc, cpc, tval, detail, false, false⟩
  | .sup p => s.haltSup p code cpc
  | .mcc c => s.haltMcc c code cpc

/-- A cause at the executing word itself. -/
def trapHere (s : State) (code detail : Nat) (tval : Word) : State := s.raise code detail s.pc s.pc tval

/-! ## Who runs next -/

/-- The clocks of a scalar core's die run (R396). -/
def clocked (s : State) (core : Nat) : Bool := !s.tripped.contains (dieOf core)

/-- The budget of a hart's region is spent: no later instruction of its harts executes (R36). -/
def budgetSpent (s : State) (p : Nat) : Bool :=
  match s.regionOf p with
  | some g => g.spent.isSome
  | none => false

/-- Every hart of an open region is parked. -/
def regionParked (s : State) (core opener : Nat) : Bool :=
  ((s.hartsOf core).filter (fun e => e.2.region == some opener)).all (fun e => e.2.park.isSome || vectorParked e.2)

/-- A pre-emption request held for the region of a hart abandons it now: every hart of the region is parked (R36). -/
def stopsHere (s : State) (p : Nat) : Bool :=
  match (s.hart p).region with
  | some r => s.regionParked (coreOf p) r && (s.hartsOf (coreOf p)).any (fun e => e.2.region == some r && e.2.preempt.isSome &&
      e.2.stopAt.isNone && e.2.pageWait.isNone && !(s.sup e.1).svc)
  | none => false

/-- No later instruction of a hart's region is executed: its budget is spent, or a held request abandons it (R36). -/
def regionOver (s : State) (p : Nat) : Bool := s.budgetSpent p || s.stopsHere p

/-- The threads and parts that the package has (R6): 4,096 scalar cores and 128 clusters. -/
def existing (a : Agent) : Bool :=
  match a with
  | .user p | .vec p | .sup p => decide (p < Config.scalarCores)
  | .mcc c => decide (c < Config.clusters)

/-- A thread can execute its next word. -/
def runnable (s : State) (a : Agent) : Bool :=
  existing a && s.clocked (coreFor a) && !s.peg.waiting &&
  match a with
  | .user p =>
    (match s.hart? p with
     | some h => h.park.isNone && h.pageWait.isNone && !(s.sup p).svc && !h.needSiblings && h.stopAt.isNone &&
        !s.regionOver p
     | none => false)
  | .vec p =>
    (match s.hart? p with
     | some h => !h.viq.isEmpty && !h.vecStopped && !s.regionOver p
     | none => false)
  | .sup p => (s.sup p).park.isNone && !(s.sup p).halted
  | .mcc c => (s.cluster c).mccRun == .running

/-- The agents that may have something to do: the harts' two halves, the supervisor threads that differ from their reset
state, and the MCCs. -/
def agents (s : State) : List Agent :=
  s.harts.map (fun e => Agent.user e.1) ++ s.harts.map (fun e => Agent.vec e.1) ++
  s.clusters.map (fun e => Agent.mcc e.1) ++ s.sups.map (fun e => Agent.sup e.1)

/-- The next runnable agent after one, in a fixed cyclic order; the agent itself when there is none (log 1). -/
def rotate (s : State) : Agent :=
  let as := s.agents.filter (fun a => s.runnable a && a != s.agent)
  let after := (s.agents.dropWhile (· != s.agent)).filter (fun a => s.runnable a && a != s.agent)
  after.headD (as.headD s.agent)

/-- The executing thread waits at its word: a scalar thread lets its vector half go on, any thread lets another run. -/
def yield_ (s : State) : State :=
  match s.agent with
  | .user p => if s.runnable (.vec p) then { s with agent := .vec p } else { s with agent := s.rotate }
  | _ => { s with agent := s.rotate }

/-- The loads and stores of an agent's thread, and its vector half's stores, are performed. -/
def settleStores (s : State) (a : Agent) : State :=
  match a with
  | .user p => ((s.settleLate a).drainS a).drainV p
  | .vec p => ((s.settleLate (.user p)).drainS (.user p)).drainV p
  | _ => (s.settleLate a).drainS a

/-- In the step from `s` to `t` the executing agent has not got further: a scalar thread is at its word or before it, as one
that waits or loops is, and a vector half has the same head, as far as it was. -/
def noFurther (s t : State) : Bool :=
  match s.agent with
  | .vec p => decide ((t.hart p).viq = (s.hart p).viq)
  | a => decide ((t.thread a).pc.toNat ≤ s.pc.toNat)

/-- An agent that can go on and has not got further, as one that waits for another agent, lets another run; its hart's stores are
performed in finite time (R40; log 1). -/
def turn (s : State) (o : Out) : Out :=
  match o with
  | .next t =>
    if t.runnable s.agent && s.noFurther t then
      .next { t.settleStores s.agent with agent := if t.agent = s.agent then t.rotate else t.agent }
    else .next t
  | o => o

end State

/-! ## Returning from an exception (R132, R350–R353) -/

namespace State

/-- Split ascending granules into batches of at most 32 (R276); `fuel` bounds the number of batches. -/
def batchesOf (fuel : Nat) (gs : List Nat) : List (List Nat) :=
  match fuel, gs with
  | _, [] => []
  | 0, _ => []
  | fuel + 1, gs => gs.take 32 :: batchesOf fuel (gs.drop 32)

/-- Page-request batches outstanding on a die (R276). -/
def outstanding (s : State) (die : Nat) : List (Nat × List Nat) := Tbl.get [] s.peg.pageReqs die

/-- The granules that a tret for PAGE requests (R353): of an abandonment, those kept; of an element fault, those of the
PAGE elements whose FMASK bits are set; otherwise the granule of STVAL. -/
def pageGranules (h : Hart) (u : Sup) : List Nat :=
  if u.scause.getLsbD 9 then h.keptGranules
  else if u.scause.getLsbD 8 && awaitsReplay h then
    sortSet ((h.elemFaults.filter (fun e => h.fmask.getLsbD e.1 && e.2.1 == causePage)).map
      (fun e => e.2.2.toNat % 2 ^ 60 / 65536))
  else [u.stval.toNat % 2 ^ 60 / 65536]

/-- A first-fault load, which is executed again in full after a fault (R238, R352). -/
def firstFault (i : Instr) : Bool :=
  match i with
  | .vldff _ _ _ _ _ _ _ _ | .vldxff _ _ _ _ _ _ _ _ _ => true
  | _ => false

/-- The VIQ without its head, which has retired or is dropped: later scalar accesses held by it are counted down. -/
def popViq (h : Hart) : Hart :=
  { h with viq := h.viq.drop 1, hold := h.hold - 1, served := Vector.replicate 3 0 }

/-- A class 0xD word flagged .push that can take an element fault (R285, R301). -/
def pushes (i : Instr) : Bool :=
  match i with
  | .vldS _ _ push _ _ => push
  | _ => false

/-- The VIQ head, an element fault's entry, retires with its performed elements alone (R352); a .push still adds its token. -/
def dropHead (h : Hart) (e : VEntry) : Hart :=
  if pushes e.instr then { h with stage := .ran } else { popViq (countEv h 0x0003) with vstart := 0 }

/-- At a tret with FSTAT.PEND = 0 an element fault's entry that awaits replay retires, whatever the trap in service (R352). -/
def dropUnpended (s : State) (p : Nat) : State :=
  if !(s.hart p).fstat.getLsbD 17 then
    s.updHart p (fun h => match h.viq with
      | e :: _ => if e.st == EntryState.replay && !firstFault e.instr then dropHead h e else h
      | [] => h)
  else s

/-- The user thread goes on at SEPC with the recorded prefix, and the vector half restarts (R352, R80). -/
def resumeUser (s : State) (p : Nat) : State :=
  let u := s.sup p
  { (s.updHart p (fun h =>
      { h with
        thr := { h.thr with pc := u.sepc }
        latch := (pfxOf h.pfxs).map (fun x => (x, u.sepc))
        pfxs := h.pfxs &&& 0xFFF#13
        keptGranules := []
        needSiblings := false
        viaTret := true
        vecStopped := false })).updSup p (fun u => { u with svc := false }) with
    agent := .user p }

/-- Deliver a further cause in place of a resume, SVC left at 1 and SEPC as the supervisor left it (R350). -/
def redeliver (s : State) (p : Nat) (c : Cause) : State :=
  s.updSup p (fun u => { u with scause := scauseOf c, scpc := pcBits c.cpc, stval := c.tval })

/-- Siblings of a restored child that are not resident yet (R358). -/
def missingSiblings (s : State) (p : Nat) : Bool :=
  (s.hart p).needSiblings && (match (s.vcore (coreOf p)).split with
    | some r => (childCores (coreOf p) r).any (fun q => (s.hart? q).isNone)
    | none => false)

/-- What a tret does: it is over, or it waits, with the page requests of R353 that it could send sent. -/
inductive Return where
  | done (s : State)
  | wait (s : State)

/-- The cause that a failed page request delivers again (R353 step 4), but for its STVAL. -/
def accessAgain (u : Sup) : Cause :=
  ⟨causeAccess, u.scause.getLsbD 8, u.sepc, u.scpc, 0, u.scause.toNat / 65536, u.scause.getLsbD 9, false⟩

/-- The page requests that a tret has to send: those left from its earlier tries, else the granules' batches (R353). -/
def pagesToSend (s : State) (p : Nat) : PageWait :=
  let h := s.hart p
  let u := s.sup p
  match h.pageWait with
  | some w => w
  | none =>
    let gs := if u.scause.toNat % 256 = causePage then pageGranules h u else []
    ⟨[], none, gs, accessAgain u, batchesOf gs.length gs⟩

/-- Batches are sent while fewer than 64 are outstanding on the die; the tret waits with the rest (R276, R353). -/
def sendPages (s : State) (p : Nat) (w : PageWait) : Return :=
  let die := dieOf (coreOf p)
  let out := s.outstanding die
  let now := w.unsent.take (64 - out.length)
  let later := w.unsent.drop (64 - out.length)
  let s := s.updHart p (fun h => { h with pageWait := some { w with batches := w.batches ++ now, unsent := later } })
  let s := s.updPeg (fun g => { g with pageReqs := Tbl.set g.pageReqs die (out ++ now.map (fun b => (p, b))) })
  if later = [] then .done (s.updSup p (fun u => { u with svc := false })) else .wait s

/-- The VIQ head has done some of its steps and is not interrupted there (R246), or has executed with its .push's token still to
add (R285): it goes on before a pre-emption. -/
def midway (h : Hart) : Bool :=
  match h.viq with
  | e :: _ => decide (0 < e.done.steps) || h.stage == .ran
  | [] => false

/-- The return from an exception on the supervisor thread of scalar core p (R132), its own pc not moved (R276, R350–R353,
R358). A held vector cause comes first; a held pre-emption request next, behind a VIQ head that is not interrupted (R246,
R350). -/
def returnTrap (s : State) (p : Nat) : Return :=
  let u := s.sup p
  if !u.svc then .done s
  else if (s.hart? p).isNone then .done (s.updSup p (fun u => { u with svc := false }))
  else if s.missingSiblings p then .wait s
  else
    let s := s.drainS (.sup p)
    let h := s.hart p
    match h.heldVec, h.preempt with
    | some c, _ => .done ((s.drainV p).updHart p (fun h => { h with heldVec := none, pageWait := none }) |>.redeliver p c)
    | none, some d =>
      if h.region.isSome then .done ((dropUnpended s p).resumeUser p)
      else if midway h then .done ((s.resumeUser p).updHart p (fun h => { h with stopAt := some 0 }))
      else .done ((((s.drainV p).updHart p (fun h => { h with preempt := none, vecStopped := true })).dropCredit p).redeliver p
        ⟨causePreempt, false, u.sepc, u.sepc, 0, d, false, false⟩)
    | none, none =>
      let w := s.pagesToSend p
      let s := dropUnpended s p
      if w.granules = [] then .done (s.resumeUser p) else s.sendPages p w

end State

/-! ## Outcomes -/

/-- Go on to the next word. -/
def done (s : State) : Out := .next s.advance

/-- The executing word waits. -/
def waits (s : State) : Out := .next s.yield_

/-! ## Pending and bad registers (R94, R219) -/

/-- A reply is owed to an x register (R94). -/
def Reply.owesX (r : Reply) (x : Reg) : Bool := x != 0 && ((!r.toF && r.reg == x) || r.copy == some x)
/-- A reply is owed to an f register. -/
def Reply.owesF (r : Reply) (f : Reg) : Bool := r.toF && r.reg == f

namespace State

/-- The Reply Queue of the executing scalar thread. -/
def owed (s : State) : List Reply :=
  match s.agent with
  | .user p => (s.hart p).replies.toList.filterMap id
  | _ => []

/-- Some of these registers are pending: a reply is owed to one (R94), or a load that is not performed yet. -/
def pendingX (s : State) (rs : List Reg) : Bool :=
  s.owed.any (fun r => rs.any r.owesX) || (s.latesOf s.agent).any (fun l => !l.toF && l.reg != 0 && rs.contains l.reg)
def pendingF (s : State) (rs : List Reg) : Bool :=
  s.owed.any (fun r => rs.any r.owesF) || (s.latesOf s.agent).any (fun l => l.toF && rs.contains l.reg)

/-- An x or f register that holds an uncorrectable word (R219); MCC registers carry no record of their own. -/
def badX (s : State) (rs : List Reg) : Bool :=
  match s.agent with
  | .user p => rs.any (fun r => r != 0 && s.badRegs.contains (p, 0, r.toNat))
  | .sup p => rs.any (fun r => r != 0 && s.badRegs.contains (p, 6, r.toNat))
  | _ => false
def badF (s : State) (rs : List Reg) : Bool :=
  match s.agent with
  | .user p => rs.any (fun r => s.badRegs.contains (p, 1, r.toNat))
  | .sup p => rs.any (fun r => s.badRegs.contains (p, 7, r.toNat))
  | _ => false

end State

/-- Which registers a scalar instruction reads and writes, for R94 and R219. -/
structure Uses where
  rx : List Reg := []
  wx : List Reg := []
  rf : List Reg := []
  wf : List Reg := []

/-- A scalar instruction runs when none of its registers is pending (R94) and no word it reads is bad (R219). -/
def withRegs (s : State) (u : Uses) (k : Out) : Out :=
  if s.pendingX (u.rx ++ u.wx) || s.pendingF (u.rf ++ u.wf) then waits s
  else if s.badX u.rx || s.badF u.rf then .next (s.trapHere causeUncorrectable 1 0)
  else k

end Sys2Proof.Machine
end

