-- ==== Sys2Proof/Machine/Sched.lean ====
section
/-! DEFINITION. Machine/Sched.lean: what a step executes: fetching and decoding the word at the pc (R70, R84, R129), a region
whose budget is spent (R36), and the placing of one word where the next step fetches it (log 9). -/

namespace Sys2Proof.Machine

namespace State

/-- The cause of a failing fetch: the record of an MCC's fault has PAGE or ACCESS for one (R284). -/
def fetchCause (a : Agent) (code : Nat) : Nat :=
  match a with
  | .mcc _ => if code = causeNoncanon then causeAccess else code
  | _ => code

/-- Why a fetch fails at an address (R129): its cause, and whether a read made by the device failed. -/
def fetchFail (s : State) (a : Agent) (addr : Word) : Option (Nat × Bool) :=
  let tag := tagOf addr
  if tag ≠ 0 then
    let ret := match a with
      | .user p => (s.hart p).viaTret
      | _ => false
    some (fetchCause a (if ret && decide (tag ≤ 5) then causeAccess else causeNoncanon), false)
  else match checkPtr s (s.actx a) .fetch .natural addr 4 with
    | .error (.cause code dev) => some (fetchCause a code, dev)
    | .error .wait => none
    | .ok (.at_ key _) => if badAt s key 4 then some (causeUncorrectable, false) else none
    | .ok (.absent _ _ _ _ _) => some (causeAccess, false)

/-- The executing thread's next fetch waits at the directory for a line that a copy engine holds (R206). -/
def fetchWaits (s : State) : Bool :=
  match checkPtr s (s.actx s.agent) .fetch .natural s.pc 4 with
  | .ok (.at_ key _) => engineHeld s (lineOf key)
  | _ => false

/-- What the memory system sees of the executing thread's fetch: the page walk, if the core's caches hold no translation, and a
miss of its word's line in the die's L2 (R207). -/
def noteFetch (s : State) : State :=
  let c := s.actx s.agent
  match checkPtr s c .fetch .natural s.pc 4 with
  | .ok pl =>
    let va := s.pc.toNat % 2 ^ 60
    noteRead (if tlbHit s c none va then s else noteWalk s (dieOf c.core) c.asid va) (dieOf c.core) pl 4 true
  | .error _ => s

/-- The word at an address that can be fetched. -/
def fetchWord (s : State) (a : Agent) (addr : Word) : BitVec 32 :=
  match checkPtr s (s.actx a) .fetch .natural addr 4 with
  | .ok pl => BitVec.ofNat 32 (ofBytes (placeBytes s (dieOf (s.actx a).core) pl 4))
  | .error _ => 0

/-- The kind of an agent's thread (R116). -/
def kindOf : Agent → ThreadKind
  | .user _ | .vec _ => .user
  | .sup _ => .sup
  | .mcc _ => .mcc

/-- The prefix that waits for the executing thread's next word (R79). -/
def latched (s : State) : Option (Pfx × Word) :=
  match s.agent with
  | .user p => (s.hart p).latch
  | _ => none

/-- The instruction a word is for the executing thread, or the cause it takes at decode: ILLEGAL before PRIV before PREFIX
(R84, R85, R78). -/
def decodeFor (s : State) (w : BitVec 32) : Except Nat Instr :=
  match decodeWord w with
  | .error _ => .error causeIllegal
  | .ok i =>
    match denied (kindOf s.agent) i with
    | some .illegal => .error causeIllegal
    | some .priv => .error causePriv
    | none =>
      match s.latched with
      | some (x, _) => if pfxOk x.zero x.cfile i then .ok i else .error causePrefix
      | none => .ok i

/-- What the executing thread does next: the row of its word, of its fetch fault, or of its decode trap. -/
def nextInstr (s : State) : Instr :=
  match s.fetchFail s.agent s.pc with
  | some (code, _) => .fetchFault s.pc code
  | none =>
    let w := s.fetchWord s.agent s.pc
    match s.decodeFor w with
    | .ok i => i
    | .error code => .illegalWord w code

/-- A region whose budget is spent (R36), by a scalar core of its opener. -/
def spentRegion (s : State) : Option Nat :=
  s.cores.findSome? (fun e => (e.2.regions.find? (fun g => g.spent.isSome)).map (·.opener))

end State

/-- A vector, tree, structure or engine word (classes 0x6–0xD) that a chosen scalar thread pushes into the VIQ instead of
handing it to its vector half at once (R17, R266). -/
def pushForm (i : Instr) : Instr :=
  match encode i with
  | some w => if 6 ≤ w.toNat / 2 ^ 28 ∧ w.toNat / 2 ^ 28 ≤ 13 then .viqPush w else i
  | none => i

/-! ## Placing one word (log 9) -/

/-- The launch that stands for a program loaded from outside: address space 1, one cluster, one core, partition 1. -/
def placedLaunch : Launch where
  n := 1
  desc := {
    entry := 0x10000, handle := 1, c := 1, k := 1, p := 1, s := 1, prio := 0, weight := 0, fuse := false, lar := false,
    q := 256, vcap := 32768, param := 0, claim := 0, hash := 0, budget := 0xFFFFFFFF, asid := 1, tentN := 0,
    tentList := 0, rngkey := 0, cell := 0 }
  state := .running
  asid := 1
  cell := 0
  by_ := .rack 0
  place := [(0, [0])]
  tents := []
  suspended := []
  held := false
  order := 0

/-- The page tables that map virtual 0x1_0000 to physical 0x10_0000: four tables, one entry each. -/
def placedTables : List Host.Cell :=
  cellsAt 0x20000 (toBytes 8 (0x24000 + 1)) ++ cellsAt 0x24000 (toBytes 8 (0x28000 + 1)) ++
  cellsAt 0x28000 (toBytes 8 (0x2C000 + 1)) ++ cellsAt 0x2C008 (toBytes 8 (0x100000 + 0x1F))

/-- The thread kind that a word is placed for: a user thread, unless only a supervisor thread or an MCC runs it. -/
def placeKind (i : Option Instr) : ThreadKind :=
  match i with
  | none => .user
  | some i =>
    match denied .user i with
    | none => .user
    | some _ => match denied .sup i with
      | none => .sup
      | some _ => match denied .mcc i with
        | none => .mcc
        | some _ => .user

/-- A running launch with its address space, code page, claim, cluster and one hart, for a word placed for a hart or an
MCC. -/
def placeSpace (s : State) : State :=
  { s with
    mem := s.mem.puts placedTables
    peg := { s.peg with roots := Tbl.set s.peg.roots 1 0x20000, launches := placedLaunch :: s.peg.launches }
    cores := Tbl.set s.cores 0 { VCore.reset with claims := [⟨1, 0, 0, 0⟩] }
    clusters := Tbl.set s.clusters 0 { Cluster.reset with holder := some 1 }
    harts := Tbl.set s.harts 0 { State.noHart with launch := 1, thr := Thread.zeroAt 0x10000, vcap := 0x8000 } }

/-- `s` with the thread that a word is placed for, about to fetch it, and the key it fetches from. -/
def placeThread (s : State) (k : ThreadKind) : State × Nat :=
  match k with
  | .user =>
    ({ placeSpace s with agent := .user 0 }, devKey 0x100000)
  | .sup =>
    let s := s.setSup 0 { Sup.reset with thr := Thread.zeroAt (BitVec.ofNat 64 Config.canvasEntry) }
    ({ s with agent := .sup 0 }, devKey Config.canvasEntry)
  | .mcc =>
    let s := (placeSpace s).setCluster 0 { Cluster.reset with
      holder := some 1, mcc := Thread.zeroAt 0x10000, mccRun := .running }
    ({ s with agent := .mcc 0 }, devKey 0x100000)

/-- `s` with a word placed where the next step fetches it, its line held by the die's L2, so that the fetch hits (R207). -/
def placeWord (s : State) (w : Nat) : State :=
  let (s, key) := placeThread { s with sched := [] } (placeKind (decodeTableWord 32 w))
  { s with mem := s.mem.puts (cellsAt key (toBytes 4 w)), l2 := Tbl.set s.l2 (lineOf key) (1, false) }

end Sys2Proof.Machine
end

