-- ==== Sys2Proof/Machine/Csr.lean ====
section
/-! DEFINITION. Machine/Csr.lean: the control and status registers (R103–R115): their values, the fields that each thread
writes, and the csr instructions (R130). -/

namespace Sys2Proof.Machine

/-! ## Lengths (R18, R19) -/

/-- Lanes of a hart on a core of partition P (R18). -/
def lanesOf (part : Nat) : Nat := 32 / part
/-- Bits of a register of a hart on scalar core p (R18). -/
def vlenOf (s : State) (p : Nat) : Nat := 1024 * lanesOf (s.vcore (coreOf p)).part
/-- VLEN_eff (R19). -/
def vlenEff (s : State) (p : Nat) : Nat := Nat.min (vlenOf s p) (s.hart p).vcap.toNat
/-- Element width of a VTYPE value, in bits (R105). -/
def sewBits (vt : BitVec 9) : Nat := 2 ^ (vt.toNat % 8 + 1)
/-- Format code of a VTYPE value (R105). -/
def fmtOf (vt : BitVec 9) : Nat := vt.toNat / 8 % 16
/-- VLMAX at a VTYPE (R19). -/
def vlmaxOf (s : State) (p : Nat) (vt : BitVec 9) : Nat := vlenEff s p / sewBits vt

/-! ## Event counters (R320) -/

/-- Codes that count clock cycles, whose number the spec leaves to the machine (log 7). -/
def timedCode (c : Nat) : Bool := c == 0x01 || (0x10 ≤ c && c ≤ 0x12)

/-- The event code that counter k selects. -/
def evCode (h : Hart) (k : Nat) : Nat := Word.field h.evsel (16 * k) 16

/-- A queue's occupancy for a gauge code (R320). -/
def gauge (s : State) (p : Nat) (c : Nat) : Option Nat :=
  let h := s.hart p
  let core := coreOf p
  match c with
  | 0x100 => some h.viq.length
  | 0x101 => some (h.replies.toList.filter (·.isSome)).length
  | 0x102 => some ((h.ssq.toList.map lineCount).foldl (· + ·) 0)
  | 0x103 => some h.tokIn
  | 0x104 => some h.tokOut
  | 0x105 => some (s.cluster (clusterOf core)).queue.length
  | 0x106 => some (s.vcore core).journal.length
  | 0x107 => some (s.vcore core).deferred.length
  | 0x108 => some ((List.range 16).filter (fun j => s.mem.num (State.efqKey core j) 8 != 0)).length
  | _ => none

/-- A counter of a timed code takes in what has elapsed since it was last read (log 7). -/
def settle (s : State) (p k : Nat) : State :=
  if timedCode (evCode (s.hart p) k) then
    (s.updHart p (fun h => { h with
      evcnt := vset h.evcnt k (vget 0 h.evcnt k + BitVec.ofNat 64 (Config.elapsed s.free)) })).tick
  else s

/-- Every counter takes in what has elapsed. -/
def settleAll (s : State) (p : Nat) : State := settle (settle (settle (settle s p 0) p 1) p 2) p 3

/-- The core's cycle counter goes on (log 7). -/
def settleCycle (s : State) (core : Nat) : State :=
  (s.updVcore core (fun k => { k with cycle := k.cycle + BitVec.ofNat 64 (Config.elapsed s.free) })).tick

/-! ## Values -/

/-- ITERSTAT (R33). Every hart of a region holds OPENER: it opened the region, or copied the bit at its split (R22). -/
def iterstat (h : Hart) : Nat :=
  h.withheld.toNat * 256 + h.seq.toNat * 32 + h.last.toNat * 8 + bcode h.region.isSome * 3

/-- FMASK's window (R108). -/
def fmaskWindow (s : State) (p : Nat) : Nat :=
  let h := s.hart p
  let w := getBits h.fstat.toNat 32 8
  if 64 * w < vlenOf s p / 2 then getBits h.fmask.toNat (64 * w) 64 else 0

/-- The launch-relative coordinates and sizes (R25, R112). -/
def stageOf (s : State) (h : Hart) : Nat :=
  match s.launch? h.launch with
  | some l => h.cluster / (l.desc.c / l.desc.s)
  | none => 0

/-- The value of a CSR in 0x000–0x117, for the hart on scalar core p. -/
def userCsr (s : State) (p n : Nat) : Nat :=
  let h := s.hart p
  match n with
  | 0x000 => h.vl.toNat
  | 0x001 => h.vstart.toNat
  | 0x002 => h.vtype.toNat
  | 0x003 => h.rows.toNat * 65536 + h.vl.toNat
  | 0x004 => h.vcap.toNat
  | 0x005 => h.vdirty.toNat
  | 0x006 => h.fstat.toNat
  | 0x007 => fmaskWindow s p
  | 0x100 => h.fflags.toNat
  | 0x101 => h.frm.toNat
  | 0x102 => h.rngkey.toNat
  | 0x103 => h.pfxs.toNat
  | 0x104 => iterstat h
  | 0x105 => ((s.regionOf p).map (fun g => g.budget.toNat)).getD 0
  | 0x106 => h.pntstat.toNat
  | 0x107 => ((hashOf s (some h.launch) (coreOf p)).map (fun t => t.cfg.toNat)).getD 0
  | 0x108 => h.shtcur.toNat
  | 0x109 => ((hashOf s (some h.launch) (coreOf p)).map (fun t => t.ovf.toNat)).getD 0
  | 0x10A => bcode h.ovr
  | 0x110 => (s.vcore (coreOf p)).cycle.toNat
  | 0x111 => h.retired.toNat
  | 0x112 => h.evsel.toNat
  | 0x114 | 0x115 | 0x116 | 0x117 =>
    (gauge s p (evCode h (n - 0x114))).getD (vget 0 h.evcnt (n - 0x114)).toNat
  | _ => 0

/-- The value of an identity CSR (R112); the launch-relative ones read zero without a hart (R103). -/
def identCsr (s : State) (p n : Nat) : Nat :=
  match n, s.hart? p with
  | 0x800, some h => stageOf s h
  | 0x801, some h => h.cluster
  | 0x802, some h => h.core
  | 0x803, some _ => slotOf p
  | 0x804, some _ => (s.vcore (coreOf p)).part
  | 0x805, some _ => vlenOf s p
  | 0x808, _ => dieOf (coreOf p)
  | 0x809, _ => clusterOf (coreOf p)
  | 0x80A, _ => coreOf p
  | 0x80B, _ => p
  | 0x80C, _ => 1 + Config.implCode * 256
  | 0x80D, _ => Config.profiles
  | _, _ => 0

/-- SSTATUS (R113). -/
def sstatus (s : State) (p : Nat) : Nat :=
  bcode (s.sup p).svc * 4 + bcode (s.efq (coreOf p)) * 2 + bcode (s.hart? p).isSome

/-- The value of a supervisor CSR (R113). -/
def supCsr (s : State) (p n : Nat) : Nat :=
  let u := s.sup p
  match n with
  | 0x400 => u.scause.toNat
  | 0x401 => u.sepc.toNat
  | 0x402 => sstatus s p
  | 0x403 => u.stval.toNat
  | 0x404 => u.scpc.toNat
  | 0x405 => u.pntbase.toNat
  | 0x406 => u.sscratch.toNat
  | _ => 0

/-- The value of a CSR on scalar core p. -/
def csrVal (s : State) (p n : Nat) : Word :=
  BitVec.ofNat 64 (if n < 0x400 then userCsr (s.withLast p) p n else if n < 0x800 then supCsr s p n else identCsr s p n)

/-- What reading a CSR takes in first: elapsed cycles. -/
def csrTouch (s : State) (p n : Nat) : State :=
  if n = 0x110 then settleCycle s (coreOf p)
  else if 0x114 ≤ n ∧ n ≤ 0x117 then settle s p (n - 0x114)
  else s

/-! ## Writes (R103) -/

/-- The bits of a CSR that a thread writes: fields RW, and fields RS for a supervisor thread (R103). -/
def csrMask (sup : Bool) (n : Nat) : Nat :=
  match n with
  | 0x000 | 0x001 => if sup then 0xFFFF else 0
  | 0x002 => 0x1FF
  | 0x003 => if sup then 0xFFFFF else 0
  | 0x005 => 2 ^ 50 - 1
  | 0x006 => if sup then 0xFFFF03FFFF else 0xFF00000000
  | 0x007 => if sup then 2 ^ 64 - 1 else 0
  | 0x100 => 0xFF
  | 0x101 => 3
  | 0x102 => 2 ^ 64 - 1
  | 0x103 => if sup then 0x1FFF else 0
  | 0x104 => 0xE0
  | 0x106 => 0x8FFFFFF
  | 0x108 => 0xFFFFFFFF3FFFF
  | 0x109 => 2 ^ 64 - 1
  | 0x10A => 1
  | 0x111 | 0x112 | 0x114 | 0x115 | 0x116 | 0x117 => 2 ^ 64 - 1
  | 0x401 => 2 ^ 64 - 4
  | 0x405 => 2 ^ 64 - 4096
  | 0x406 => 2 ^ 64 - 1
  | _ => 0

/-- The entry changes the configuration that later pushes see (R149). -/
def setsLength (e : VEntry) : Bool :=
  match e.instr with
  | .setvl _ _ _ | .setshape _ _ _ => true
  | _ => false

/-- What the scalar thread knows of VL and VTYPE follows a CSR write, unless a setvl or setshape still waits (R149). -/
def knowLength (h : Hart) : Hart :=
  if h.viq.any setsLength then h else { h with pushVl := h.vl, pushVtype := h.vtype }

/-- SHTOVF := a pointer, stored where the unit keeps the launch's table (R111); a user write while one is claimed is discarded
(R247). -/
def putShtovf (s : State) (sup : Bool) (p : Nat) (v : Word) : State :=
  let n := (s.hart p).launch
  s.updVcore (coreOf p) (fun k =>
    match k.hash.find? (fun t => t.launch == n) with
    | none => { k with hash := k.hash ++ [⟨n, 0, v, 0, 0⟩] }
    | some t => if shtEn t.cfg && !sup then k
        else { k with hash := k.hash.map (fun t => if t.launch = n then { t with ovf := v } else t) })

/-- A user CSR of the hart on scalar core p := v, a value whose unwritable bits are the old ones. DESIGN CHOICE (log 63): ROWS takes
any of its 16 values, and 0 counts as one row. -/
def putUser (s : State) (p n : Nat) (v : Word) : State :=
  let x := v.toNat
  let len := BitVec.ofNat 16 (Nat.min (x % 65536) (vlmaxOf s p (s.hart p).vtype))
  match n with
  | 0x000 => s.updHart p (fun h => knowLength { h with vl := len })
  | 0x001 => s.updHart p (fun h => { h with vstart := BitVec.ofNat 16 x })
  | 0x002 => s.updHart p (fun h => knowLength { h with vtype := BitVec.ofNat 9 x })
  | 0x003 => s.updHart p (fun h => knowLength { h with vl := len, rows := BitVec.ofNat 4 (x / 65536) })
  | 0x005 => s.updHart p (fun h => { h with vdirty := BitVec.ofNat 50 x })
  | 0x006 => s.updHart p (fun h => { h with fstat := BitVec.ofNat 40 x })
  | 0x007 =>
    let w := getBits (s.hart p).fstat.toNat 32 8
    if 64 * w < vlenOf s p / 2 then
      s.updHart p (fun h => { h with fmask := BitVec.ofNat 16384 (putBits h.fmask.toNat (64 * w) 64 x) })
    else s
  | 0x100 => s.updHart p (fun h => { h with fflags := BitVec.ofNat 8 x })
  | 0x101 => s.updHart p (fun h => { h with frm := BitVec.ofNat 2 x })
  | 0x102 => s.updHart p (fun h => { h with rngkey := v })
  | 0x103 => s.updHart p (fun h => { h with pfxs := BitVec.ofNat 13 x })
  | 0x104 => s.updHart p (fun h => { h with seq := BitVec.ofNat 3 (x / 32) })
  | 0x106 => s.updHart p (fun h => { h with pntstat := BitVec.ofNat 29 x })
  | 0x108 => s.updHart p (fun h => { h with shtcur := BitVec.ofNat 52 x })
  | 0x10A => s.updHart p (fun h => { h with ovr := x % 2 == 1 })
  | 0x111 => s.updHart p (fun h => { h with retired := v })
  | 0x112 => (settleAll s p).updHart p (fun h => { h with evsel := v })
  | 0x114 | 0x115 | 0x116 | 0x117 =>
    match gauge s p (evCode (s.hart p) (n - 0x114)) with
    | some _ => s
    | none => s.updHart p (fun h => { h with evcnt := vset h.evcnt (n - 0x114) v })
  | _ => s

/-- A supervisor CSR := v (R113). Each supervisor thread holds its own PNTBASE; a write takes effect in any hart of the core
(log 64). -/
def putSup (s : State) (p n : Nat) (v : Word) : State :=
  match n with
  | 0x401 => s.updSup p (fun u => { u with sepc := v })
  | 0x405 => (s.updSup p (fun u => { u with pntbase := v })).updVcore (coreOf p) (fun k => { k with pntbase := v })
  | 0x406 => s.updSup p (fun u => { u with sscratch := v })
  | _ => s

/-- The value a write leaves: bits the thread cannot write keep theirs. -/
def csrMerge (sup : Bool) (n : Nat) (old v : Word) : Word :=
  let m : Word := BitVec.ofNat 64 (csrMask sup n)
  (old &&& ~~~m) ||| (v &&& m)

/-- A user CSR := v, of the hart on scalar core p or, when no hart holds the user thread, of that thread's registers
(R103). -/
def putLast (s : State) (p n : Nat) (v : Word) : State :=
  match s.hart? p with
  | some _ => putUser s p n v
  | none => (putUser (s.withLast p) p n v).leave p

/-- A write by a user or supervisor thread; `none` when VTYPE would be left invalid (R106). A write of a thread that writes none
of a register's fields is discarded (R103), and so is one of SHTOVF when no launch's hart is there to own a table, and one of
PFXS while no trap is in service (R80). -/
def csrPut (s : State) (sup : Bool) (p n : Nat) (v : Word) : Option State :=
  let w := csrMerge sup n (csrVal s p n) v
  if 0x400 ≤ n then some (putSup s p n w)
  else if csrMask sup n == 0 then some s
  else if n = 0x103 ∧ !(s.sup p).svc then some s
  else if n = 0x002 ∧ !vtypeOk w.toNat then none
  else if n = 0x109 then some (if (s.hart? p).isNone then s else putShtovf s sup p w)
  else some (putLast s p n w)

/-! ## Access (R60, R103) -/

/-- Accesses to these act after every earlier instruction of the VIQ (R103). -/
def afterViq (n : Nat) : Bool :=
  n ≤ 0x0FF || n == 0x100 || n == 0x104 || (0x106 ≤ n && n ≤ 0x109)

/-- The word at the pc of the executing thread, as STVAL holds it. -/
def wordHere (s : State) : Word := (s.fetchWord s.agent s.pc).zeroExtend 64
/-- The word of an instruction, as STVAL holds it. -/
def wordOf (i : Instr) : Word := ((encode i).getD 0).zeroExtend 64

/-- A csr access by the thread that executes: the right to it, the wait for the VIQ, then the access with the scalar core and
whether a supervisor makes it. -/
def csrAccess (s : State) (n : Nat) (word : Word) (k : Bool → Nat → Out) : Out :=
  match s.agent with
  | .user p =>
    if csrSupervisor n then .next (s.trapHere causePriv 0 word)
    else if afterViq n && !(s.hart p).viq.isEmpty then waits s
    else k false p
  | .sup p =>
    if afterViq n && !((s.hart p).viq.isEmpty || (s.hart p).vecStopped) then waits s else k true p
  | .vec _ | .mcc _ => .next (s.trapHere causeIllegal 0 word)

/-- A csr instruction: `f old` is the value written, `none` when it writes nothing (R130). -/
def csrOp (i : Instr) (u : Uses) (d : Reg) (n : BitVec 12) (f : Word → Option Word) (s : State) : Out :=
  withRegs s u (csrAccess s n.toNat (wordOf i) (fun sup p =>
    let s1 := csrTouch s p n.toNat
    let old := csrVal s1 p n.toNat
    match f old with
    | none => done (s1.wx d old)
    | some v =>
      match csrPut s1 sup p n.toNat v with
      | some s2 => done (s2.wx d old)
      | none => .next (s.trapHere causeIllegal 3 (wordOf i))))

/-- CSRR (R130). -/
def execCsrr (d : Reg) (n : BitVec 12) (s : State) : Out := csrOp (.csrr d n) { wx := [d] } d n (fun _ => none) s
/-- A write to PFXS by a user thread takes PRIV (R80). -/
def pfxsGuard (i : Instr) (n : BitVec 12) (s : State) (k : Out) : Out :=
  match s.agent with
  | .user _ => if n = 0x103 then .next (s.trapHere causePriv 0 (wordOf i)) else k
  | _ => k
/-- CSRW (R130). -/
def execCsrw (d a : Reg) (n : BitVec 12) (s : State) : Out :=
  pfxsGuard (.csrw d a n) n s (csrOp (.csrw d a n) { rx := [a], wx := [d] } d n (fun _ => some (s.rx a)) s)
/-- CSRS (R130): nothing is written when x[a] = 0. -/
def execCsrs (d a : Reg) (n : BitVec 12) (s : State) : Out :=
  pfxsGuard (.csrs d a n) n s (csrOp (.csrs d a n) { rx := [a], wx := [d] } d n
    (fun old => if s.rx a = 0 then none else some (old ||| s.rx a)) s)
/-- CSRC (R130): nothing is written when x[a] = 0. -/
def execCsrc (d a : Reg) (n : BitVec 12) (s : State) : Out :=
  pfxsGuard (.csrc d a n) n s (csrOp (.csrc d a n) { rx := [a], wx := [d] } d n
    (fun old => if s.rx a = 0 then none else some (old &&& ~~~(s.rx a))) s)

/-! ## The writes as steps of their own -/

/-- A write of a value to a CSR by the thread that executes, inside its csr instruction: the register changes, the pc does
not. -/
def csrWriteRow (n : Nat) (v : Word) (s : State) : Out :=
  csrAccess s n (wordHere s) (fun sup p =>
    match csrPut (csrTouch s p n) sup p n v with
    | some s2 => .next s2
    | none => .next (s.trapHere causeIllegal 3 (wordHere s)))

/-- FFLAGS_WRITE (R60). -/
def execFflagsWrite (v : Word) (s : State) : Out := csrWriteRow 0x100 v s
/-- VTYPE_WRITE (R106). -/
def execVtypeWrite (v : Word) (s : State) : Out := csrWriteRow 0x002 v s
/-- VL_WRITE (R107). -/
def execVlWrite (v : Word) (s : State) : Out := csrWriteRow 0x000 v s
/-- FMASK_WRITE (R108). -/
def execFmaskWrite (v : Word) (s : State) : Out := csrWriteRow 0x007 v s
/-- VDIRTY_WRITE (R100). -/
def execVdirtyWrite (v : Word) (s : State) : Out := csrWriteRow 0x005 v s
/-- SHTCUR_WRITE (R111). -/
def execShtcurWrite (v : Word) (s : State) : Out := csrWriteRow 0x108 v s
/-- SHTOVF_WRITE (R247). -/
def execShtovfWrite (v : Word) (s : State) : Out := csrWriteRow 0x109 v s
/-- PNTBASE_WRITE (R113). -/
def execPntbaseWrite (v : Word) (s : State) : Out := csrWriteRow 0x405 v s
/-- PFXS_WRITE (R80): by a user thread it takes PRIV. -/
def execPfxsWrite (v : Word) (s : State) : Out :=
  match s.agent with
  | .user _ => .next (s.trapHere causePriv 0 (wordHere s))
  | _ => csrWriteRow 0x103 v s

end Sys2Proof.Machine
end

