-- ==== Sys2Proof/Machine/Uses.lean ====
section
/-! DEFINITION. Machine/Uses.lean: what the scalar thread captures with each word of classes 0x6–0xD, and which of them access
memory (R144, R246, R266, R282). -/

namespace Sys2Proof.Machine

/-! ## What the scalar thread captures -/

/-- A scalar operand captured at the push. -/
inductive Cap where
  | none
  | x (r : Reg)
  | f (r : Reg)
  deriving DecidableEq, Repr

/-- The captured operands of a word of classes 0x6–0xD, the x register its reply goes to, whether it counts as a vector
memory instruction (R246, R282, R328), its H bit (R234), and whether it may stop between element groups (R147, R237). -/
structure VUse where
  a : Cap := .none
  b : Cap := .none
  b1 : Option Reg := .none
  ret : Option Reg := .none
  mem : Bool := false
  hold : Bool := false
  first : Bool := false
  deriving DecidableEq, Repr

/-- Operand b as a scalar when sb = 1 (R75, R144). -/
def sbx (sb : Bool) (b : Reg) : Cap := if sb then .x b else .none
def sbf (sb : Bool) (b : Reg) : Cap := if sb then .f b else .none
/-- The counter operand of a conversion (R165). -/
def srcCap : CvtSrc → Cap
  | .code _ => .none
  | .ctr x _ => .x x

/-- What each word captures (R144, R149, R150, R152, R156, R165, R169–R177, R184, R231, R241–R243, R245, R281). -/
def vuse : Instr → VUse
  | .setvl _ a _ => { a := .x a }
  | .setshape _ a b => { a := .x a, b := .x b }
  | .vpopc d _ _ => { ret := some d }
  | .vfirst d _ _ => { ret := some d }
  | .vadd _ _ b _ sb => { b := sbx sb b, first := true }
  | .vsub _ _ b _ sb => { b := sbx sb b, first := true }
  | .vmul _ _ b _ sb => { b := sbx sb b, first := true }
  | .vmulh _ _ b _ sb _ => { b := sbx sb b, first := true }
  | .vand _ _ b _ sb => { b := sbx sb b, first := true }
  | .vor _ _ b _ sb => { b := sbx sb b, first := true }
  | .vxor _ _ b _ sb => { b := sbx sb b, first := true }
  | .vsll _ _ b _ sb => { b := sbx sb b, first := true }
  | .vsrl _ _ b _ sb => { b := sbx sb b, first := true }
  | .vsra _ _ b _ sb => { b := sbx sb b, first := true }
  | .vmin _ _ b _ sb => { b := sbx sb b, first := true }
  | .vmax _ _ b _ sb => { b := sbx sb b, first := true }
  | .vminu _ _ b _ sb => { b := sbx sb b, first := true }
  | .vmaxu _ _ b _ sb => { b := sbx sb b, first := true }
  | .vsadd _ _ b _ sb _ => { b := sbx sb b, first := true }
  | .vssub _ _ b _ sb _ => { b := sbx sb b, first := true }
  | .vcmp _ _ b _ sb _ _ => { b := sbx sb b }
  | .vmerge _ _ b _ sb => { b := sbx sb b, first := true }
  | .vmv _ b _ sb => { b := sbx sb b, first := true }
  | .vmvX d _ b _ => { b := .x b, ret := some d }
  | .vwadd _ _ b _ sb _ => { b := sbx sb b }
  | .vwmul _ _ b _ sb _ => { b := sbx sb b }
  | .vfadd _ _ b _ sb _ => { b := sbf sb b, first := true }
  | .vfsub _ _ b _ sb _ => { b := sbf sb b, first := true }
  | .vfmul _ _ b _ sb _ => { b := sbf sb b, first := true }
  | .vfdiv _ _ b _ sb _ => { b := sbf sb b, first := true }
  | .vfsqrt _ _ _ _ => { first := true }
  | .vfmadd _ _ b _ sb _ _ _ => { b := sbf sb b, first := true }
  | .vfmin _ _ b _ sb => { b := sbf sb b, first := true }
  | .vfmax _ _ b _ sb => { b := sbf sb b, first := true }
  | .vfcmp _ _ b _ sb _ => { b := sbf sb b }
  | .vfcvt _ _ _ src _ => { b := srcCap src }
  | .vfscale _ _ b _ sb _ => { b := sbf sb b, first := true }
  | .vquant _ _ _ src _ => { b := srcCap src }
  | .vredsum _ _ b _ sb _ => { b := sbx sb b }
  | .vredmax _ _ b _ sb _ => { b := sbx sb b }
  | .vredmin _ _ b _ sb _ => { b := sbx sb b }
  | .vredbit _ _ b _ sb _ => { b := sbx sb b }
  | .vfredsum _ _ b _ sb => { b := sbx sb b }
  | .vfredmax _ _ b _ sb => { b := sbx sb b }
  | .vargmax d _ _ => { ret := some d }
  | .vslideup _ _ b _ => { b := .x b }
  | .vslidedn _ _ b _ => { b := .x b }
  | .vperm _ _ b _ sb => { b := sbx sb b }
  | .vrand _ a b _ _ => { a := .x a, b := .x b }
  | .vsample d _ b _ sb => { b := sbx sb b, ret := some d }
  | .vgmax d _ b _ => { b := .x b, b1 := some (b + 1), ret := some d }
  | .vld _ base _ _ h _ _ _ => { a := .x base, mem := true, hold := h, first := true }
  | .vlds _ base ix _ _ h _ _ _ => { a := .x base, b := .x ix, mem := true, hold := h, first := true }
  | .vldx _ base _ _ _ h _ _ _ => { a := .x base, mem := true, hold := h }
  | .vldff _ base _ _ h _ _ _ => { a := .x base, mem := true, hold := h }
  | .vldxff _ base _ _ _ h _ _ _ => { a := .x base, mem := true, hold := h }
  | .vst _ base _ _ h _ _ => { a := .x base, mem := true, hold := h, first := true }
  | .vsts _ base ix _ _ h _ _ => { a := .x base, b := .x ix, mem := true, hold := h, first := true }
  | .vstx _ base _ _ _ h _ _ => { a := .x base, mem := true, hold := h }
  | .vamo _ base _ _ _ h _ _ => { a := .x base, mem := true, hold := h }
  | .vlock _ base _ _ h _ => { a := .x base, mem := true, hold := h }
  | .vunlock _ _ h _ => { mem := true, hold := h }
  | .vsave _ base h _ => { a := .x base, mem := true, hold := h }
  | .vrestore _ base h _ => { a := .x base, mem := true, hold := h }
  | .tanc _ _ b _ => { b := .x b }
  | .tancUp _ _ b _ sb => { b := sbx sb b }
  | .tcontract _ _ b _ => { b := .x b }
  | .tcontractM _ _ b _ => { b := .x b }
  | .hcfg a b => { a := .x a, b := .x b, mem := true }
  | .hins _ _ _ _ => { mem := true }
  | .hprb _ _ _ _ => { mem := true }
  | .hdel _ _ _ => { mem := true }
  | .hacc _ _ _ _ _ => { mem := true }
  | .hdrn _ a => { ret := some a, mem := true }
  | .strike a b => { a := .x a, b := .x b, mem := true }
  | .lde _ a _ _ => { a := .x a, mem := true }
  | .tsite d a => { a := .x a, ret := some d, mem := true }
  | .ttag a b => { a := .x a, b := .x b, mem := true }
  | .tremap d a b => { a := .x a, b := .x b, ret := some d, mem := true }
  | .tapDot _ _ b _ _ => { b := .x b, mem := true }
  | .tapFin _ _ _ => { mem := true }
  | .tapSteer _ _ b _ _ => { b := .x b, mem := true }
  | .mfeed _ _ _ _ => { mem := true }
  | .mpull _ _ _ _ => { mem := true }
  | .vopacc _ _ _ _ _ _ _ => { mem := true }
  | .xcopy a _ _ => { a := .x a, mem := true }
  | .xred a _ _ => { a := .x a, mem := true }
  | .strcfg _ a b _ _ _ => { a := .x a, b := .x b, b1 := some (b + 1), mem := true }
  | .vldS _ _ _ _ _ => { mem := true }
  | .tokpush _ => { mem := true }
  | .tokpop _ => { mem := true }
  | _ => {}

/-- The O bit of a vector memory instruction (R233). -/
def orderedBit (i : Instr) : Bool :=
  match i with
  | .vld _ _ _ o _ _ _ _ | .vlds _ _ _ _ o _ _ _ _ | .vldx _ _ _ _ o _ _ _ _ | .vldff _ _ _ o _ _ _ _
  | .vldxff _ _ _ _ o _ _ _ _ | .vst _ _ _ o _ _ _ | .vsts _ _ _ _ o _ _ _ | .vstx _ _ _ _ o _ _ _
  | .vamo _ _ _ _ o _ _ _ => o
  | _ => false

/-- A class 0xD word that a user thread may push. -/
def isEngine (i : Instr) : Bool :=
  match i with
  | .mfeed _ _ _ _ | .mpull _ _ _ _ | .vopacc _ _ _ _ _ _ _ | .xcopy _ _ _ | .xred _ _ _ | .strcfg _ _ _ _ _ _
  | .vldS _ _ _ _ _ | .tokpush _ | .tokpop _ => true
  | _ => false

/-- A word whose execution at the VIQ head accesses memory (R230): not one that only moves between registers, FIFOs and token
counters, or sets a stream slot. -/
def makesAccess (i : Instr) : Bool :=
  match i with
  | .tokpush _ | .tokpop _ | .mfeed _ _ _ _ | .mpull _ _ _ _ | .vopacc _ _ _ _ _ _ _ | .strcfg _ _ _ _ _ _ => false
  | i => (vuse i).mem

/-- The VIQ entries up to the last one that accesses memory. -/
def accessing : List VEntry → Nat
  | [] => 0
  | e :: rest => match accessing rest with
    | 0 => if makesAccess e.instr then 1 else 0
    | n + 1 => n + 2

end Sys2Proof.Machine
end

