-- ==== Sys2Proof/Machine/ScalarMem.lean ====
section
/-! DEFINITION. Machine/ScalarMem.lean: the scalar memory instructions of class 0x4 (R221–R230): plain loads and stores,
acquire, release and atomic accesses, fences and drains. -/

namespace Sys2Proof.Machine

/-! ## One access -/

/-- DETAIL of a failing access (R347): 4 for a read that the device makes, 0 for an uncorrectable error in memory, else the
kind of access. -/
def accDetail (k : AKind) (code : Nat) (dev : Bool) : Nat :=
  if dev then 4 else if code = causeUncorrectable then 0 else k.detail

/-- The checks of R199, then those of the lines reached: an uncorrectable sector (R219), an Engine-held line (R206). -/
def accPlace (s : State) (c : ACtx) (k : AKind) (al : Align) (baseTag : Nat) (addr : Int) (n : Nat) :
    Except AFail Place :=
  match checkAddr s c k al baseTag addr n with
  | .error e => .error e
  | .ok (.absent l t i o d) => .ok (.absent l t i o d)
  | .ok (.at_ key loc) =>
    if badAt s key n then .error (.of causeUncorrectable)
    else if engineHeld s (lineOf key) || engineHeld s (lineOf (key + n - 1)) then .error .wait
    else .ok (.at_ key loc)

/-- The exact address x[a] + imm (R221). -/
def sAddr (s : State) (a : Reg) (imm : BitVec 12) : Int := ((s.rx a).toNat : Int) + imm.toInt
/-- The 64 bits of an exact address, as STVAL holds them. -/
def addrWord (z : Int) : Word := BitVec.ofInt 64 z

/-- The place of a scalar access of the executing thread. -/
def sPlace (s : State) (k : AKind) (al : Align) (a : Reg) (imm : BitVec 12) (n : Nat) : Except AFail Place :=
  accPlace s (s.actx s.agent) k al (tagOf (s.rx a)) (sAddr s a imm) n

/-- A later scalar access waits behind an H bit or an lsync (R230, R234). -/
def held (s : State) : Bool :=
  match s.agent with
  | .user p => (s.hart p).hold != 0
  | _ => false

/-- The bytes a scalar load returns: its thread's waiting stores come first (R327, R213). -/
def loadBytes (s : State) (pl : Place) (n : Nat) : List Byte :=
  overlay s (s.sbufOf s.agent) pl (placeBytes s (dieOf (State.coreFor s.agent)) pl n)

/-- What a performed load of `n` bytes leaves behind: directory, caches and translations (R206–R208, R308). -/
def loaded (s : State) (pl : Place) (addr : Int) (n : Nat) : State :=
  noteTrans (noteLoad s (dieOf (State.coreFor s.agent)) pl n .dflt) (s.actx s.agent) .load addr

/-- The hart, region and SEQ that a birth of an agent is charged to. -/
def birthRegion (s : State) (a : Agent) : Option Nat × BitVec 3 :=
  match a with
  | .user p | .vec p => ((s.hart p).region, (s.hart p).seq)
  | _ => (none, 0)

/-- The key that a store or atomic of an agent reaches, its tile pitched first when it is absent (R214). -/
def landing (s : State) (a : Agent) (pl : Place) : Except (Nat × State) (State × Nat) :=
  match pl with
  | .at_ key _ => .ok (s, key)
  | .absent l t i o _ =>
    let s := s.settleTent l t
    match tileKey s l t i o with
    | some key => .ok (s, key)
    | none =>
      match pitch s (State.coreFor a) (birthRegion s a).1 (birthRegion s a).2 l t i with
      | .error e => .error e
      | .ok (s, frame) => .ok (s.countBirth a, devKey (frame + o))

/-- DETAIL of a birth that fails (R312, R347): the tent number, the journal, the pitching access's own, or a table read by
the device. -/
def birthDetail (k : AKind) (pl : Place) (code : Nat) : Nat :=
  match pl with
  | .absent _ t _ _ _ =>
    if code = causeTent then t else if code = causeJournal then 0 else if code = causeAccess then k.detail else 4
  | .at_ _ _ => 4

/-- A thread's scalar stores wait in its queue (R327, log 2). -/
def lazyOf (s : State) (a : Agent) : Bool :=
  match a with
  | .user p | .vec p => (s.hart p).lazyS
  | .sup p => (s.sup p).lazyS
  | .mcc _ => false

/-- A thread's plain scalar loads are performed late (R328, log 2). -/
def lateOf (s : State) (a : Agent) : Bool :=
  match a with
  | .user p | .vec p => (s.hart p).lazyL
  | .sup p => (s.sup p).lazyL
  | .mcc _ => false

/-- Where a store of a launch goes: a byte in a tent by its tile, whatever frame the tile has then (R220). -/
def destOf (s : State) (c : ACtx) (addr : Int) (pl : Place) : Dest :=
  match pl with
  | .absent l t i o _ => .tile l t i o
  | .at_ key _ =>
    if addr.toNat / 2 ^ 60 = 3 then
      match c.launch, tentAt (tentsOf s c.launch) (addr.toNat % 2 ^ 60) with
      | some n, some (j, t) =>
        let o := addr.toNat % 2 ^ 60 - t.base
        .tile n j (o / t.size) (o % t.size)
      | _, _ => .key key
    else .key key

/-- The number that a thread's next store instruction has. -/
def stampOf (s : State) (a : Agent) : Nat :=
  match a with
  | .user p | .vec p => (s.hart p).stamp
  | _ => ((s.sbufOf a).getLast?.map (fun p => p.acc + 1)).getD 0

/-- A store as it waits: of one unit, or, where it is not naturally aligned, byte by byte (R222). -/
def pendsOf (acc : Nat) (addr : Int) (d : Dest) (bs : List Byte) : List Pend :=
  let line := addr.toNat / 128
  if addr.toNat % bs.length = 0 then [⟨d, .bytes bs, acc, line, [], 0, .dflt, false⟩]
  else bs.zipIdx.map (fun e => ⟨d.plus e.2, .bytes [e.1], acc, line, [], 0, .dflt, false⟩)

/-- Put a store at the end of a thread's queue. -/
def enqueue (s : State) (a : Agent) (addr : Int) (d : Dest) (bs : List Byte) : State :=
  let ps := pendsOf (stampOf s a) addr d bs
  match a with
  | .user p | .vec p => s.updHart p (fun h => { h with sbuf := h.sbuf ++ ps, stamp := h.stamp + 1 })
  | .sup p => s.updSup p (fun u => { u with sbuf := u.sbuf ++ ps })
  | .mcc _ => s

/-- Perform a store of bytes at a key, after the thread's earlier ones to the same place (R327). -/
def storeNow (s : State) (a : Agent) (key : Nat) (bs : List Byte) : State :=
  (s.drainSel a (fun p => p.chan == chanOf key)).write (dieOf (State.coreFor a)) (cellsAt key bs)

/-- A plain store may wait in its thread's queue: one to an absent tile while the pool has a frame for it. -/
def canWait (s : State) (a : Agent) (pl : Place) : Bool :=
  lazyOf s a && (match pl with
    | .absent l t i _ _ => s.canReserve a l t i
    | .at_ _ _ => true)

/-- A cause of a scalar access at the executing word. -/
def accTrap (s : State) (k : AKind) (e : AFail) (addr : Int) : Out :=
  match e with
  | .wait => waits s
  | .cause code dev => .next (s.trapHere code (accDetail k code dev) (addrWord addr))

/-! ## Plain loads and stores (R221, R222) -/

/-- Before a load of host memory its thread's earlier host stores are performed there (R342). -/
def hostFirst (s : State) (a : Agent) (pl : Place) : State :=
  match pl with
  | .at_ _ .host => s.drainSel a (fun p => p.chan == 1)
  | _ => s

/-- A load that is not performed yet joins those of its thread. -/
def enqueueLoad (s : State) (toF : Bool) (d : Reg) (sgnd : Bool) (n : Nat) (addr : Int) (pl : Place) : State :=
  s.setLates s.agent (s.latesOf s.agent ++
    [⟨toF, d, sgnd, n, destOf s (s.actx s.agent) addr pl, addrWord addr, stampOf s s.agent, []⟩])

/-- A scalar load of `n` bytes into a register (R221): performed now, or, checked and translated, later (R328; log 2). -/
def loadOp (u : Uses) (toF : Bool) (d a : Reg) (imm : BitVec 12) (n : Nat) (sgnd : Bool) (s : State) : Out :=
  withRegs s u
    (if held s then waits s
     else match sPlace s .load .window a imm n with
       | .error e => accTrap s .load e (sAddr s a imm)
       | .ok pl =>
         let s := hostFirst s s.agent pl
         let addr := sAddr s a imm
         if lateOf s s.agent then done (noteTrans (enqueueLoad s toF d sgnd n addr pl) (s.actx s.agent) .load addr)
         else done ((loaded s pl addr n).putReg s.agent toF d (State.loadVal sgnd (loadBytes s pl n))))

/-- A load into x[d], sign- or zero-extended. -/
def loadX (d a : Reg) (imm : BitVec 12) (n : Nat) (sgnd : Bool) (s : State) : Out :=
  loadOp { rx := [a], wx := [d] } false d a imm n sgnd s
/-- A load into f[d] (R120). -/
def loadF (d a : Reg) (imm : BitVec 12) (n : Nat) (s : State) : Out :=
  loadOp { rx := [a], wf := [d] } true d a imm n false s

/-- A scalar store of the low `n` bytes of a word. -/
def storeOp (u : Uses) (a : Reg) (imm : BitVec 12) (n : Nat) (data : Word) (s : State) : Out :=
  withRegs s u
    (if held s then waits s
     else match sPlace s .store .window a imm n with
       | .error e => accTrap s .store e (sAddr s a imm)
       | .ok pl =>
         let addr := sAddr s a imm
         let bs := toBytes n data.toNat
         if canWait s s.agent pl then
           done (noteTrans (enqueue s s.agent addr (destOf s (s.actx s.agent) addr pl) bs) (s.actx s.agent) .store addr)
         else match landing s s.agent pl with
         | .error (code, s) => .next (s.trapHere code (birthDetail .store pl code) (addrWord addr))
         | .ok (s', key) => done (noteTrans (storeNow s' s'.agent key bs) (s.actx s.agent) .store addr))

/-- LD_S8 (R221). -/
def execLdS8 (d a : Reg) (imm : BitVec 12) (s : State) : Out := loadX d a imm 1 true s
/-- LD_Z8 (R221). -/
def execLdZ8 (d a : Reg) (imm : BitVec 12) (s : State) : Out := loadX d a imm 1 false s
/-- LD_S16 (R221). -/
def execLdS16 (d a : Reg) (imm : BitVec 12) (s : State) : Out := loadX d a imm 2 true s
/-- LD_Z16 (R221). -/
def execLdZ16 (d a : Reg) (imm : BitVec 12) (s : State) : Out := loadX d a imm 2 false s
/-- LD_S32 (R221). -/
def execLdS32 (d a : Reg) (imm : BitVec 12) (s : State) : Out := loadX d a imm 4 true s
/-- LD_Z32 (R221). -/
def execLdZ32 (d a : Reg) (imm : BitVec 12) (s : State) : Out := loadX d a imm 4 false s
/-- LD_64 (R221). -/
def execLd64 (d a : Reg) (imm : BitVec 12) (s : State) : Out := loadX d a imm 8 false s
/-- ST_8 (R221). -/
def execSt8 (d a : Reg) (imm : BitVec 12) (s : State) : Out := storeOp { rx := [a, d] } a imm 1 (s.rx d) s
/-- ST_16 (R221). -/
def execSt16 (d a : Reg) (imm : BitVec 12) (s : State) : Out := storeOp { rx := [a, d] } a imm 2 (s.rx d) s
/-- ST_32 (R221). -/
def execSt32 (d a : Reg) (imm : BitVec 12) (s : State) : Out := storeOp { rx := [a, d] } a imm 4 (s.rx d) s
/-- ST_64 (R221). -/
def execSt64 (d a : Reg) (imm : BitVec 12) (s : State) : Out := storeOp { rx := [a, d] } a imm 8 (s.rx d) s
/-- FLD_16 (R221). -/
def execFld16 (d a : Reg) (imm : BitVec 12) (s : State) : Out := loadF d a imm 2 s
/-- FLD_32 (R221). -/
def execFld32 (d a : Reg) (imm : BitVec 12) (s : State) : Out := loadF d a imm 4 s
/-- FLD_64 (R221). -/
def execFld64 (d a : Reg) (imm : BitVec 12) (s : State) : Out := loadF d a imm 8 s
/-- FST_16 (R221). -/
def execFst16 (d a : Reg) (imm : BitVec 12) (s : State) : Out := storeOp { rx := [a], rf := [d] } a imm 2 (s.rf d) s
/-- FST_32 (R221). -/
def execFst32 (d a : Reg) (imm : BitVec 12) (s : State) : Out := storeOp { rx := [a], rf := [d] } a imm 4 (s.rf d) s
/-- FST_64 (R221). -/
def execFst64 (d a : Reg) (imm : BitVec 12) (s : State) : Out := storeOp { rx := [a], rf := [d] } a imm 8 (s.rf d) s

/-! ## Acquire, release and atomic accesses (R223–R226) -/

/-- Bytes of a scalar width (R74). -/
def MWidth.bytes : MWidth → Nat
  | .w8 => 1
  | .w16 => 2
  | .w32 => 4
  | .w64 => 8

/-- What an acquire at a scope does beyond its own order: at system scope the die's copies of peer lines are bypassed
(R340). -/
def acquireAt (s : State) (sc : Scope) : State :=
  match sc with
  | .system => dropPeerCopies s (dieOf (State.coreFor s.agent))
  | _ => s

/-- The copies of a peer line that an access at its home directory makes stale (R208). -/
def atHome (s : State) (pl : Place) : State :=
  match pl with
  | .at_ key (.peer _) => dropPeerCopy s (dieOf (State.coreFor s.agent)) (lineOf key)
  | _ => s

/-- LDA (R223). An lda at system scope of a peer line reads at its home (R340). -/
def execLda (d a : Reg) (sc : Scope) (w : MWidth) (s : State) : Out :=
  withRegs s { rx := [a], wx := [d] }
    (if held s then waits s
     else match sPlace s .load .natural a 0 (MWidth.bytes w) with
       | .error e => accTrap s .load e (sAddr s a 0)
       | .ok pl =>
         let s' := acquireAt (s.drainAt s.agent sc pl.chan) sc
         done ((loaded s' pl (sAddr s a 0) (MWidth.bytes w)).wx d (BitVec.ofNat 64 (ofBytes (loadBytes s' pl (MWidth.bytes w))))))

/-- STL (R223): performed after every earlier scalar access of the thread and before any later one (R327). -/
def execStl (d a : Reg) (sc : Scope) (w : MWidth) (s : State) : Out :=
  withRegs s { rx := [a, d] }
    (if held s then waits s
     else match sPlace s .store .natural a 0 (MWidth.bytes w) with
       | .error e => accTrap s .store e (sAddr s a 0)
       | .ok pl => match landing s s.agent pl with
         | .error (code, s) => .next (s.trapHere code (birthDetail .store pl code) (addrWord (sAddr s a 0)))
         | .ok (s', key) =>
           done (noteTrans (storeNow (s'.drainAt s'.agent sc (chanOf key)) s'.agent key
             (toBytes (MWidth.bytes w) (s.rx d).toNat)) (s.actx s.agent) .store (sAddr s a 0)))

/-- An order with acquire semantics (R74). -/
def Order.acquires : Order → Bool
  | .acquire | .acqRel => true
  | .relaxed | .release => false

/-- The scalar atomics (R224, R225). -/
inductive AtomOp where
  | cas | swap | add | and | or | xor | min | max
  deriving DecidableEq, Repr

/-- Whether a host port can perform an atomic (R226). -/
def AtomOp.host : AtomOp → Bool
  | .cas | .swap | .add => true
  | _ => false

/-- What an atomic writes: `old`, its operand `b` and cas's comparand `c`, at `w` bits; `none` leaves memory (R224, R225). -/
def AtomOp.new (op : AtomOp) (w old b c : Nat) : Option Nat :=
  match op with
  | .cas => if old = c then some b else none
  | .swap => some b
  | .add => some ((old + b) % 2 ^ w)
  | .and => some (old &&& b)
  | .or => some (old ||| b)
  | .xor => some (old ^^^ b)
  | .min => some (if sgn w old ≤ sgn w b then old else b)
  | .max => some (if sgn w old ≤ sgn w b then b else old)

/-- A place refuses an atomic (R226). -/
def atomRefused (op : AtomOp) (pl : Place) : Bool :=
  match pl with
  | .at_ _ .host => !op.host
  | _ => false

/-- One atomic access (R224–R226): x[d] := the old value, sign-extended. -/
def atomOp (op : AtomOp) (d a b : Reg) (o : Order) (sc : Scope) (w : MWidth) (s : State) : Out :=
  withRegs s { rx := [a, b] ++ (match op with
      | .cas => [d]
      | _ => []), wx := [d] }
    (let n := MWidth.bytes w
     let addr := sAddr s a 0
     if held s then waits s
     else match sPlace s .atomic .natural a 0 n with
       | .error e => accTrap s .atomic e addr
       | .ok pl =>
         if atomRefused op pl then accTrap s .atomic (.of causeAccess) addr
         else match landing s s.agent pl with
           | .error (code, s) => .next (s.trapHere code (birthDetail .atomic pl code) (addrWord addr))
           | .ok (s', key) =>
             let s1 := atHome (s'.drainAt s'.agent sc (chanOf key)) pl
             let s1 := if Order.acquires o then acquireAt s1 sc else s1
             let old := s1.mem.num key n
             let m := 2 ^ (8 * n)
             let s2 := match op.new (8 * n) old ((s.rx b).toNat % m) ((s.rx d).toNat % m) with
               | some v => s1.write (dieOf (State.coreFor s1.agent)) (cellsAt key (toBytes n v))
               | none => s1
             done ((noteTrans s2 (s.actx s.agent) .atomic addr).wx d (BitVec.ofInt 64 (sgn (8 * n) old))))

/-- CAS (R224). -/
def execCas (d a b : Reg) (o : Order) (sc : Scope) (w : MWidth) (s : State) : Out := atomOp .cas d a b o sc w s
/-- AMOSWAP (R225). -/
def execAmoswap (d a b : Reg) (o : Order) (sc : Scope) (w : MWidth) (s : State) : Out := atomOp .swap d a b o sc w s
/-- AMOADD (R225). -/
def execAmoadd (d a b : Reg) (o : Order) (sc : Scope) (w : MWidth) (s : State) : Out := atomOp .add d a b o sc w s
/-- AMOAND (R225). -/
def execAmoand (d a b : Reg) (o : Order) (sc : Scope) (w : MWidth) (s : State) : Out := atomOp .and d a b o sc w s
/-- AMOOR (R225). -/
def execAmoor (d a b : Reg) (o : Order) (sc : Scope) (w : MWidth) (s : State) : Out := atomOp .or d a b o sc w s
/-- AMOXOR (R225). -/
def execAmoxor (d a b : Reg) (o : Order) (sc : Scope) (w : MWidth) (s : State) : Out := atomOp .xor d a b o sc w s
/-- AMOMIN (R225). -/
def execAmomin (d a b : Reg) (o : Order) (sc : Scope) (w : MWidth) (s : State) : Out := atomOp .min d a b o sc w s
/-- AMOMAX (R225). -/
def execAmomax (d a b : Reg) (o : Order) (sc : Scope) (w : MWidth) (s : State) : Out := atomOp .max d a b o sc w s

/-! ## Fences and drains (R227–R230) -/

/-- Later vector accesses are held behind the scalar stores that wait (R228). -/
def holdVector (s : State) : State :=
  match s.agent with
  | .user p => s.updHart p (fun h => { h with svNeed := h.stamp })
  | _ => s

/-- A fence of stores (R227): fence.sv's effect; later class 0xD words are pushed behind the stores performed at its scope;
at system scope later stores to other places come behind them as well. -/
def fenceStores (s : State) (sc : Scope) : State :=
  let fenced (ps : List Pend) : List Pend := if sc = .system then ps.map (fun p => { p with fences := p.fences + 1 }) else ps
  match s.agent with
  | .user p => s.updHart p (fun h => { h with
      svNeed := h.stamp
      dNeed := h.stamp
      dNeedFar := if sc = .system then h.stamp else h.dNeedFar
      sbuf := fenced h.sbuf })
  | .sup p => s.updSup p (fun u => { u with sbuf := fenced u.sbuf })
  | _ => s

/-- FENCE (R227, R329, R336, R340). -/
def execFence (k : Kinds) (sc : Scope) (s : State) : Out :=
  match k with
  | .loads => done (acquireAt s sc)
  | .stores => done (fenceStores s sc)
  | .both =>
    match sc with
    | .hart => done (fenceStores s sc)
    | _ => done (fenceStores (acquireAt (s.drainAt s.agent sc 0) sc) sc)

/-- FENCE_SV (R228). -/
def execFenceSv (s : State) : Out := done (holdVector s)

/-- VDRAIN (R229): the VIQ empty, every reply delivered, every vector access performed. -/
def execVdrain (s : State) : Out :=
  match s.agent with
  | .user p => if (s.hart p).viq.isEmpty then done (s.drainV p) else waits s
  | _ => done s

/-- LSYNC (R230): it joins the accesses of the entries that make one; with none left in the VIQ, those made are performed. -/
def execLsync (s : State) : Out :=
  match s.agent with
  | .user p =>
    match accessing (s.hart p).viq with
    | 0 => done (s.drainV p)
    | n + 1 => done (s.updHart p (fun h => { h with svJoin := true, hold := Nat.max h.hold (n + 1) }))
  | _ => done s

end Sys2Proof.Machine
end

