-- ==== Sys2Proof/Machine/Control.lean ====
section
/-! DEFINITION. Machine/Control.lean: the control and system instructions of class 0x5 that act on the thread, its hart and its
core (R131–R138, R140, R142), the prefix word (R77–R80), and the steps that end a wait or take a decode, fetch or budget
cause. -/

namespace Sys2Proof.Machine

/-- An instruction that only a user thread executes: another thread takes ILLEGAL (R116). -/
def onUser (i : Instr) (s : State) (k : Nat → Out) : Out :=
  match s.agent with
  | .user p => k p
  | _ => .next (s.trapHere causeIllegal 0 (wordOf i))

/-- An instruction that only a supervisor thread executes: a user thread takes PRIV, an MCC ILLEGAL (R84, R116). -/
def onSup (i : Instr) (s : State) (k : Nat → Out) : Out :=
  match s.agent with
  | .sup p => k p
  | .user _ | .vec _ => .next (s.trapHere causePriv 0 (wordOf i))
  | .mcc _ => .next (s.trapHere causeIllegal 0 (wordOf i))

/-! ## Traps and return (R131, R132) -/

/-- TRAP (R131): the trap itself has executed, and SEPC is the following word. -/
def execTrap (imm : BitVec 17) (s : State) : Out :=
  .next ((s.retireAt s.pc).raise causeBreak 0 (s.pc + 4) s.pc (imm.signExtend 64))

/-- TRET (R132): the supervisor's own pc advances in every case. -/
def execTret (s : State) : Out :=
  onSup .tret s (fun p =>
    match (s.setPc (s.pc + 4)).returnTrap p with
    | .done s' => .next s'
    | .wait s' => waits (s'.setPc s.pc))

/-! ## The prefix word, decode and fetch causes (R77–R81, R84, R129) -/

/-- PFX (R77, R79): the prefix waits for its successor; the pair retires as one instruction. -/
def execPfx (m : MReg) (sense zero : Bool) (cf : CFile) (creg : Reg) (s : State) : Out :=
  onUser (.pfx m sense zero cf creg) s (fun p =>
    .next ((s.updHart p (fun h => { h with latch := some (⟨m, sense, zero, cf, creg⟩, s.pc) })).setPc (s.pc + 4)))

/-- The word of a decoded prefix. -/
def pfxWord (x : Pfx) : Word := wordOf (.pfx x.m x.sense x.zero x.cfile x.creg)

/-- ILLEGAL_WORD (R84, R85): a PREFIX cause has EPC at the prefix word and leaves PFXS.V = 0 (R81); ILLEGAL and PRIV record a
pending prefix. -/
def execIllegalWord (w : BitVec 32) (code : Nat) (s : State) : Out :=
  if code = causePrefix then
    match s.agent with
    | .user p =>
      match (s.hart p).latch with
      | some (x, addr) =>
        .next ((s.updHart p (fun h => { h with latch := none })).raise causePrefix 0 addr addr (pfxWord x))
      | none => .next (s.trapHere causePrefix 0 (w.zeroExtend 64))
    | _ => .next (s.trapHere causePrefix 0 (w.zeroExtend 64))
  else .next (s.trapHere code 0 (w.zeroExtend 64))

/-- FETCH_FAULT (R129): SEPC, SCPC and STVAL are the target. -/
def execFetchFault (addr : Word) (code : Nat) (s : State) : Out :=
  let detail := match s.fetchFail s.agent addr with
    | some (_, true) => 4
    | _ => if code = causeUncorrectable then 0 else 3
  .next (s.raise code detail addr addr addr)

/-- BUDGET_EXHAUSTED (R36): the region of an opener whose budget is spent is abandoned with PREEMPT, DETAIL 2; a request
held for the region is this pre-emption (R359). -/
def execBudgetExhausted (p : Nat) (s : State) : Out :=
  match (s.vcore (coreOf p)).regions.find? (fun g => g.opener == p) with
  | none => .next s
  | some g => match g.spent with
    | none => .next s
    | some (slot, addr) =>
      .next ((s.abandon (coreOf p * 8 + slot) p ⟨causePreempt, false, addr, addr, 0, 2, false, false⟩).updHart p
        (fun h => { h with preempt := none }))

/-! ## Waiting (R30, R134, R135) -/

/-- Whether an agent is a supervisor thread, and its scalar core. -/
def watcher (a : Agent) : Bool × Nat :=
  match a with
  | .user p | .vec p => (false, p)
  | .sup p => (true, p)
  | .mcc c => (false, c)

/-- Set what a thread is parked for. -/
def setPark (s : State) (a : Agent) (k : Option Park) : State :=
  match a with
  | .user p | .vec p => s.updHart p (fun h => { h with park := k })
  | .sup p => s.updSup p (fun u => { u with park := k })
  | .mcc _ => s

/-- What a park at an address watches (R134, R135): its line; for tag 0x3 its tile; the translation made. -/
def watchAt (s : State) (a : Agent) (pl : Place) (va : Word) : Watch :=
  let tag := tagOf va
  let o := va.toNat % 2 ^ 60
  let tile := if tag = 3 then
      match (s.actx a).launch, tentAt (tentsOf s (s.actx a).launch) o with
      | some n, some (j, t) => some (n, j, (o - t.base) / t.size)
      | _, _ => none
    else none
  let line := match pl with
    | .at_ key _ => lineOf key
    | .absent _ _ _ _ _ => 2 ^ 64
  { sup := (watcher a).1, p := (watcher a).2, line := line, tile := tile
    trans := if tag = 0 ∨ tag = 4 ∨ tag = 5 then usedTlb s (s.actx a) o else none, hit := false }

/-- Park an agent with a watch. -/
def parkWith (s : State) (a : Agent) (k : Park) (w : Watch) : State :=
  let s := s.dropWatch w.sup w.p
  { setPark s a (some k) with watches := w :: s.watches }

/-- PARK (R134). DESIGN CHOICE (log 63): the thread's own waiting stores are performed before the park begins, so none of them
ends it. -/
def execPark (a : Reg) (s : State) : Out :=
  withRegs s { rx := [a] }
    (if held s then waits s
     else
       let va := s.rx a
       match checkPtr s (s.actx s.agent) .load .none va 1 with
       | .error e => accTrap s .load e (va.toNat : Int)
       | .ok pl =>
         let s1 := s.drainS s.agent
         let pl := (checkPtr s1 (s1.actx s1.agent) .load .none va 1).toOption.getD pl
         let s' := noteTrans s1 (s.actx s.agent) .load (va.toNat : Int)
         waits (parkWith s' s.agent .line (watchAt s1 s.agent pl va)))

/-- The place of a completion cell (R135): tag 0x3 takes ACCESS, after NONCANON, STRADDLE and MISALIGN. -/
def cellPlace (s : State) (va : Word) : Except AFail Place :=
  let r := accPlace s (s.actx s.agent) .load .natural (tagOf va) (va.toNat : Int) 16
  if tagOf va = 3 then refused r else r

/-- One evaluation of a waitge by the executing thread (R135): its read is an acquire at system scope. -/
def waitgeEval (d : Reg) (va target : Word) (s : State) : Out :=
  match cellPlace s va with
  | .error .wait => waits s
  | .error e => accTrap (s.dropWatch (watcher s.agent).1 (watcher s.agent).2) .load e (va.toNat : Int)
  | .ok pl =>
    let s1 := acquireAt (atHome (s.drainS s.agent) pl) .system
    let s2 := loaded s1 pl (va.toNat : Int) 16
    let bs := loadBytes s1 pl 16
    let count := ofBytes (bs.take 8)
    let status := ofBytes (bs.drop 8)
    if target.toNat ≤ count ∨ status ≠ 0 then
      let s3 := (setPark s2 s.agent none).dropWatch (watcher s.agent).1 (watcher s.agent).2
      done (s3.wx d (BitVec.ofNat 64 status))
    else waits (parkWith s2 s.agent (.cell d va target) (watchAt s s.agent pl va))

/-- WAITGE (R135). -/
def execWaitge (d a b : Reg) (s : State) : Out :=
  withRegs s { rx := [a, b], wx := [d] }
    (if held s then waits s else waitgeEval d (s.rx a) (s.rx b) s)

/-- The thread of a watcher. -/
def threadAgent (sup : Bool) (p : Nat) : Agent := if sup then .sup p else .user p

/-- A watched line or translation of a thread was written or removed. -/
def watchHit (s : State) (sup : Bool) (p : Nat) : Bool := s.watches.any (fun w => w.sup == sup && w.p == p && w.hit)

/-- What a thread is parked for. -/
def parkOf (s : State) (a : Agent) : Option Park :=
  match a with
  | .user p | .vec p => (s.hart p).park
  | .sup p => (s.sup p).park
  | .mcc _ => none

/-- A thread of a region that is over executes nothing more (R36). -/
def overFor (s : State) (sup : Bool) (p : Nat) : Bool := !sup && s.regionOver p

/-- PARK_WAKE (R134): the park ends and the thread goes on at the following word. -/
def execParkWake (p : Nat) (sup : Bool) (s : State) : Out :=
  let a := threadAgent sup p
  if watchHit s sup p && parkOf s a == some .line && !overFor s sup p then
    .next { ({ (setPark s a none).dropWatch sup p with agent := a } : State).advance with agent := s.agent }
  else .next s

/-- WAITGE_REREAD (R135): the parked waitge reads its cell afresh. -/
def execWaitgeReread (p : Nat) (sup : Bool) (s : State) : Out :=
  let a := threadAgent sup p
  match parkOf s a with
  | some (.cell d va target) =>
    if watchHit s sup p && !overFor s sup p then waitgeEval d va target { setPark s a none with agent := a } else .next s
  | _ => .next s

/-! ## Barriers (R31, R138) -/

/-- Whether two cores lie in one barrier scope. -/
def sameScope (sc : BarScope) (c1 c2 : Nat) : Bool :=
  match sc with
  | .core => c1 == c2
  | .cluster => clusterOf c1 == clusterOf c2
  | .die => dieOf c1 == dieOf c2
  | .package => true

/-- Every participant of a hart's barrier has arrived (R31): the launch's resident harts in the scope, and its suspended
ones by the slot they were saved from. A hart of a region that is over retires no bar (R36). -/
def barReady (s : State) (p : Nat) (sc : BarScope) : Bool :=
  let n := (s.hart p).launch
  (s.harts.all (fun e => e.2.launch != n || !sameScope sc (coreOf e.1) (coreOf p) ||
    (e.2.park == some (.bar sc) && !s.regionOver e.1))) &&
  (match s.launch? n with
   | some l => l.suspended.all (fun u => !sameScope sc (coreOf u.p) (coreOf p))
   | none => true)

/-- The harts whose barriers are complete. -/
def barDone (s : State) : List Nat :=
  (s.harts.filter (fun e => match e.2.park with
    | some (.bar sc) => barReady s e.1 sc
    | _ => false)).map (·.1)

/-- A hart parked at its word goes on at the following one; a line read early for a later vector load is read again (R331). -/
def releaseHart (s : State) (p : Nat) : State :=
  let addr := (s.hart p).thr.pc
  (s.updHart p (fun h => { h with park := none, early := [], thr := { h.thr with pc := addr + 4 } })).retireOf p addr

/-- Complete every barrier whose participants have all arrived (R31). -/
def releaseBars (s : State) : State := (barDone s).foldl releaseHart s

/-- BAR (R31, R138): the scalar accesses before it are performed; the hart parks until every participant arrives. -/
def execBar (sc : BarScope) (s : State) : Out :=
  onUser (.bar sc) s (fun p =>
    if held s then waits s
    else
      let s1 := releaseBars (setPark (s.drainL s.agent) s.agent (some (.bar sc)))
      if (s1.hart p).park.isSome then waits s1 else .next s1)

/-! ## Split, join and exit (R20–R24, R136, R137) -/

/-- The first failing check of R20, numbered as its DETAIL (R347). A child is refused as a hart with siblings is (R24), whether
they are resident or suspended. -/
def splitCheck (s : State) (p n : Nat) : Option Nat :=
  let part := (s.vcore (coreOf p)).part
  let ve := vlenEff s p
  if n ≠ 2 ∧ n ≠ 4 ∧ n ≠ 8 then some 1
  else if lanesOf part / n < 4 then some 2
  else if (s.hart p).isChild || decide (1 < (s.hartsOf (coreOf p)).length) then some 3
  else if ve / n < 512 then some 4
  else if ve < lanesOf part * sewBits (s.hart p).pushVtype then some 5
  else none

/-- Child j's hart at a split (R22, R181, R269). -/
def childHart (h : Hart) (ve n j : Nat) : Hart :=
  let vm := ve / n / sewBits h.vtype
  let vl := BitVec.ofNat 16 (Nat.min (h.vl.toNat - j * vm) vm)
  { h with
    thr := { h.thr with pc := h.thr.pc + 4 }
    vl := vl
    pushVl := vl
    vcap := BitVec.ofNat 18 (ve / n)
    vstart := 0
    seq := BitVec.ofNat 3 j
    splitB := BitVec.ofNat 16 (j * vm)
    isChild := true
    siblings := n
    tokIn := if j = 0 then h.tokIn else 0
    tokOut := if j = 0 then h.tokOut else 0
    early := [] }

/-- An accepted split with the VIQ drained (R21, R22). -/
def doSplit (s : State) (p n : Nat) : State :=
  let core := coreOf p
  let ve := vlenEff s p
  let part := (s.vcore core).part
  let s := ((s.drainS (.user p)).drainV p).retireOf p (s.hart p).thr.pc
  let h := s.hart p
  let s := s.updVcore core (fun k => { k with
    part := part * n
    unitTlb := Vector.replicate 8 none
    deficit := VCore.reset.deficit
    split := some ⟨slotOf p, part, n, h.vl, h.rows, h.vcap, h.seq, h.launch, core⟩ })
  let s := (s.dropHart p).dropWatch false p
  let s := (List.range n).foldl (fun s j => s.setHart (core * 8 + slotOf p * n + j) (childHart h ve n j)) s
  { s with agent := .user (core * 8 + slotOf p * n) }

/-- SPLIT (R20–R22, R136). -/
def execSplit (n : BitVec 4) (s : State) : Out :=
  onUser (.split n) s (fun p =>
    match splitCheck s p n.toNat with
    | some k => .next (s.trapHere causeSplit k 0)
    | none => if (s.hart p).viq.isEmpty then .next (doSplit s p n.toNat) else waits s)

/-- JOIN (R23, R24): the last sibling reassembles the parent, which goes on after child 0's join. -/
def execJoin (s : State) : Out :=
  onUser .join s (fun p =>
    if !(s.hart p).isChild then .next (s.trapHere causeSplit 6 0)
    else if !(s.hart p).viq.isEmpty then waits s
    else match (s.vcore (coreOf p)).split with
      | none => .next (s.trapHere causeSplit 6 0)
      | some r =>
        let s1 := setPark ((s.drainS (.user p)).drainV p) (.user p) (some .join)
        let ps := State.childCores (coreOf p) r
        if ps.all (fun q => (s1.hart q).park == some .join && (s1.hart? q).isSome) then
          let s2 := State.rejoin (ps.foldl releaseHart s1) (coreOf p) r
          .next (releaseBars { s2 with agent := .user (coreOf p * 8 + r.parentSlot) })
        else waits s1)

/-- When a launch's last hart has exited, its MCCs that still run are stopped (R283). -/
def stopMccs (s : State) (n : Nat) : State :=
  if s.harts.any (fun e => e.2.launch == n) || ((s.launch? n).map (fun l => !l.suspended.isEmpty)).getD false then s
  else
    let cs : List (Nat × Cluster) := s.clusters.map (fun (e : Nat × Cluster) =>
      if e.2.holder = some n ∧ e.2.mccRun = .running then (e.1, { e.2 with mccRun := .stopped }) else e)
    { s with clusters := cs }

/-- EXIT (R137). On an MCC it ends the stream. DESIGN CHOICE (log 63): a child in an open region takes SPLIT_STATE, not ILLEGAL. -/
def execExit (s : State) : Out :=
  match s.agent with
  | .user p =>
    if (s.hart p).isChild then .next (s.trapHere causeSplit 7 0)
    else if (s.hart p).region.isSome then .next (s.trapHere causeIllegal 2 (wordOf .exit))
    else if held s || !(s.hart p).viq.isEmpty then waits s
    else waits (releaseBars (stopMccs (((((s.drainS (.user p)).drainV p).dropWatch false p).dropCredit p).leave p)
      (s.hart p).launch))
  | .mcc c => waits (s.updCluster c (fun k => { k with mccRun := .stopped }))
  | _ => .next (s.trapHere causeIllegal 0 (wordOf .exit))

/-! ## Iteration regions (R34, R38, R140) -/

/-- The descriptor's iteration budget (R26). -/
def launchBudget (s : State) (n : Nat) : BitVec 32 := ((s.launch? n).map (·.desc.budget)).getD 0

/-- The budget that an iopen loads (R34). -/
def openBudget (x : Word) (limit : BitVec 32) : BitVec 32 :=
  if x = 0 ∨ limit.toNat < x.toNat then limit else BitVec.ofNat 32 x.toNat

/-- IOPEN (R34): not counted against the region it opens. Stores of the hart that wait for a tile to be born are performed first:
their births belong to no region (R35). -/
def execIopen (a : Reg) (s : State) : Out :=
  onUser (.iopen a) s (fun p => withRegs s { rx := [a] }
    (if (s.hart p).region.isSome then .next (s.trapHere causeIllegal 2 (wordOf (.iopen a)))
     else if !(s.hart p).viq.isEmpty then waits s
     else
       let s1 := ((s.drainL (.user p)).drainV p).advance
       let h := s1.hart p
       let k := s1.vcore (coreOf p)
       let g : Region := {
         opener := p, openPc := s.pc, x := h.thr.x, f := h.thr.f, vl := h.vl, vtype := h.vtype, rows := h.rows,
         rngkey := h.rngkey, part := k.part, split := k.split,
         budget := openBudget (s.rx a) (launchBudget s h.launch), spent := none, pennant := 0 }
       .next ((s1.updVcore (coreOf p) (fun k => { k with regions := k.regions ++ [g] })).updHart p
         (fun h => { h with region := some p, withheld := 0 }))))

/-- IABORT (R38, R140): the opening hart goes on after the iabort. DESIGN CHOICE (log 61): an iabort whose retirement brings IBUDGET
to 0 stands. -/
def execIabort (s : State) : Out :=
  onUser .iabort s (fun p =>
    match s.regionOf p with
    | none => .next (s.trapHere causeIllegal 2 (wordOf .iabort))
    | some g =>
      let s1 := State.endRegion (s.retireOf p s.pc) (coreOf p) g 2
      .next { s1.updHart g.opener (fun h => { h with thr := { h.thr with pc := s.pc + 4 }, viaTret := false }) with
        agent := .user g.opener })

/-! ## Translation invalidation (R142) -/

/-- A tlbinv reaches a core. -/
def inExtent (e : TlbExtent) (here core : Nat) : Bool :=
  match e with
  | .page | .all => core == here
  | .pkPage | .pkAll => true

/-- A tlbinv names a granule's translation (R142). -/
def inPage (e : TlbExtent) (va : Nat) (t : TlbEntry) : Bool :=
  match e with
  | .all | .pkAll => true
  | .page | .pkPage => t.covers t.asid (va / 65536)

/-- Every store that waits on a core whose clocks run is performed: an access that used an old translation waits no longer (R142,
R307). -/
def drainCore (s : State) (core : Nat) : State :=
  if !s.clocked core then s
  else
  let s := (s.hartsOf core).foldl (fun s e => (s.drainS (.user e.1)).drainV e.1) s
  ((s.sups.filter (fun e => coreOf e.1 == core)).map (·.1)).foldl (fun s p => s.drainS (.sup p)) s

/-- Remove translations on the cores of an extent; a removed translation of a parked thread counts as a write to its line
(R134, R135). `asid` limits the address spaces named (R388 command 0x0A). -/
def invalidate (s : State) (e : TlbExtent) (here : Nat) (asid : Option Nat) (va : Nat) : State :=
  let named (a : Nat) : Bool := asid.all (fun x => x == a)
  let cores := (sortSet (s.cores.map (·.1) ++ s.harts.map (fun h => coreOf h.1) ++
    s.sups.map (fun u => coreOf u.1))).filter (inExtent e here)
  let s := cores.foldl drainCore s
  let cs : List (Nat × VCore) := s.cores.map (fun (c : Nat × VCore) =>
    if inExtent e here c.1 then
      (c.1, c.2.forget (fun t => named t.asid && inPage e va t))
    else c)
  let ws : List Watch := s.watches.map (fun (w : Watch) =>
    match w.trans with
    | some t => if inExtent e here (coreOf w.p) && named t.asid && inPage e va t then { w with hit := true } else w
    | none => w)
  { s with cores := cs, watches := ws }

/-- TLBINV (R142). -/
def execTlbinv (a : Reg) (e : TlbExtent) (s : State) : Out :=
  onSup (.tlbinv a e) s (fun p => withRegs s { rx := [a] }
    (done (invalidate s e (coreOf p) none ((s.rx a).toNat % 2 ^ 60))))

/-! ## System calls (R133, R275) -/

/-- The system-call ring has no free slot, or no owner serves it (R275, R387). -/
def ringFull (s : State) : Bool :=
  decide (1024 ≤ (s.peg.ringProd - s.peg.ringCons).toNat) || s.peg.state == OwnState.unowned

/-- A slot's 128 bytes (R275). -/
def ringSlot (rec_ : List Byte) (q : Word) (p : Nat) : List Byte :=
  rec_ ++ toBytes 8 q.toNat ++ toBytes 2 p ++ toBytes 2 (slotOf p) ++ toBytes 52 0

/-- Steps 2 to 5 of a system call by the executing user thread (R133). DESIGN CHOICE (log 63): a record pointer of another tag
than 0x0 takes the access's own fault, else ACCESS. -/
def syscallEval (d a : Reg) (p : Nat) (s : State) : Out :=
  let va := s.rx a
  match accPlace s (s.actx s.agent) .load .natural (tagOf va) (va.toNat : Int) 64 with
  | .error e => accTrap s .load e (va.toNat : Int)
  | .ok pl =>
    if tagOf va ≠ 0 then accTrap s .load (.of causeAccess) (va.toNat : Int)
    else if ringFull s then
      waits ((setPark s s.agent (some (.ring d a))).updPeg (fun g => { g with ringWait := g.ringWait ++ [p] }))
    else
      let s1 := loaded (s.drainS s.agent) pl (va.toNat : Int) 64
      let q := s.peg.ringProd
      let bytes := ringSlot (loadBytes (s.drainS s.agent) pl 64) q p
      let s2 := (s1.poke (cellsAt (hostKey (s.peg.ringBase.toNat + 128 * (q.toNat % 1024))) bytes)).updPeg
        (fun g => { g with ringProd := q + 1 })
      .next (((s2.wx d q).retireAt s.pc).raise causeSyscall 0 (s.pc + 4) s.pc q)

/-- SYSCALL (R133): in an open region it abandons the region; no sequence number exists then, so STVAL is a free value
(log 6). -/
def execSyscall (d a : Reg) (s : State) : Out :=
  onUser (.syscall d a) s (fun p => withRegs s { rx := [a], wx := [d] }
    (if (s.hart p).region.isSome then
       .next (s.tick.raise causeSyscall 0 (s.pc + 4) s.pc (Config.freeWord s.free))
     else if held s then waits s
     else syscallEval d a p s))

end Sys2Proof.Machine
end

