-- ==== Sys2Proof/Machine/Launching.lean ====
section
/-! DEFINITION. Machine/Launching.lean: launch descriptors (R26, R309–R311), submission (R139, R363), placement (R211, R283,
R364–R367), completion, failure and termination (R27, R28), and icommit, which submits deferred launches (R37). -/

namespace Sys2Proof.Machine

/-! ## Descriptors (R309) -/

/-- The fields of a 256-byte descriptor (R309). -/
def descOf (bs : List Byte) : Desc where
  entry := BitVec.ofNat 64 (bytesField bs 0 8)
  handle := BitVec.ofNat 64 (bytesField bs 8 8)
  c := bytesField bs 16 2
  k := bytesField bs 18 1
  p := bytesField bs 19 1
  s := bytesField bs 20 2
  prio := bytesField bs 22 1
  weight := bytesField bs 23 1
  fuse := (bytesField bs 24 1).testBit 0
  lar := (bytesField bs 24 1).testBit 1
  q := bytesField bs 26 2
  vcap := bytesField bs 28 4
  param := BitVec.ofNat 64 (bytesField bs 32 8)
  claim := bytesField bs 40 4
  hash := bytesField bs 44 4
  budget := BitVec.ofNat 32 (bytesField bs 48 4)
  asid := bytesField bs 52 2
  tentN := bytesField bs 54 1
  tentList := BitVec.ofNat 64 (bytesField bs 56 8)
  rngkey := BitVec.ofNat 64 (bytesField bs 64 8)
  cell := BitVec.ofNat 64 (bytesField bs 72 8)

/-- A power of two. -/
def isPow2 (n : Nat) : Bool := n != 0 && 2 ^ Nat.log2 n == n

/-- A canonical parameter pointer (R309). -/
def paramOk (w : Word) : Bool :=
  let t := tagOf w
  decide (t ≤ 5) && (t == 1 || t == 2 || Word.field w 57 3 == 0)

/-- The resv fields of a descriptor are zero (R309). -/
def descResvOk (bs : List Byte) : Bool :=
  bytesField bs 24 1 < 4 && bytesField bs 25 1 == 0 && bytesField bs 55 1 == 0 && bytesZero bs 80 176

/-- The limits of R309 that depend on the descriptor alone. -/
def descLimitsOk (d : Desc) : Bool :=
  tagOf d.entry == 0 && d.entry.toNat % 4 == 0 &&
  (1 ≤ d.c && d.c ≤ 128) && (1 ≤ d.k && d.k ≤ 4) && (d.p == 1 || d.p == 2 || d.p == 4 || d.p == 8) &&
  (1 ≤ d.s && d.s ≤ d.c && d.c % d.s == 0) && d.prio ≤ 7 && (!d.fuse || d.k == 4) &&
  (1 ≤ d.q && d.q ≤ 256) && (isPow2 d.vcap && 512 ≤ d.vcap && d.vcap ≤ 32768 / d.p) && paramOk d.param &&
  (d.claim % 128 == 0 && d.claim ≤ Config.spmBytes) &&
  (d.hash % 128 == 0 && d.hash ≤ 2 ^ 20 && d.hash ≤ d.claim) && d.budget != 0 && d.tentN ≤ 16 &&
  (d.tentN == 0 || (tagOf d.tentList == 0 && d.tentList.toNat % 64 == 0)) &&
  (tagOf d.cell == 0 && d.cell.toNat % 16 == 0)

/-- Who submits a launch, for the resolution of its ASID (R310). -/
inductive Origin where
  | hart (asid : Nat)
  | sup (p : Nat)
  | owner
  deriving DecidableEq, Repr

/-- The address space a launch runs in; `none` when the descriptor's ASID is invalid (R310). -/
def resolveAsid (s : State) (o : Origin) (a : Nat) : Option Nat :=
  let registered := a ≠ Config.canvasAsid ∧ (Tbl.find s.peg.roots a).isSome
  match o with
  | .hart own => if a = 0 ∨ a = own then some own else none
  | .sup p =>
    if a = 0 then
      (match s.hart? p with
       | some h => (s.launch? h.launch).map (·.asid)
       | none => s.peg.defaultAsid)
    else if registered then some a else none
  | .owner => if a = 0 then s.peg.defaultAsid else if registered then some a else none

/-- The object with a handle. -/
def objectOf (s : State) (handle : Word) : Option Object := s.peg.objects.find? (fun o => o.handle == handle)

/-- An address lies in a code section of an object. -/
def inCode (o : Object) (a : Word) : Bool :=
  o.sections.any (fun c => c.code && c.va.toNat ≤ a.toNat && a.toNat < c.va.toNat + c.size)

/-- The page of an address in a space as the device finds it for itself (R305). -/
def devPlace (s : State) (asid : Nat) (k : AKind) (va : Nat) : Except AFail Place :=
  if 2 ^ 57 ≤ va then .error (.of causeNoncanon)
  else pagePlace s ⟨asid, false, none, 0⟩ k 0 va (walk s asid va)

/-- The entry page is executable by the launch's harts. -/
def entryRuns (s : State) (asid : Nat) (entry : Word) : Bool :=
  match pagePlace s ⟨asid, true, none, 0⟩ .fetch 0 entry.toNat (walk s asid entry.toNat) with
  | .ok _ => true
  | .error _ => false

/-- Step 3 of R139: 0, or the code of a submission that fails when it is made. -/
def descCheck (s : State) (o : Origin) (bs : List Byte) : Nat × Nat :=
  let d := descOf bs
  if !descResvOk bs || !descLimitsOk d then (1, 0)
  else match resolveAsid s o d.asid with
    | none => (1, 0)
    | some a => match objectOf s d.handle with
      | none => (4, a)
      | some ob =>
        if !inCode ob d.entry then (1, a)
        else if !entryRuns s a d.entry then (4, a)
        else (0, a)

/-! ## The launch queue (R274) -/

/-- A priority level holds 32 descriptors, or launches are no longer accepted (R219; log 20). -/
def levelFull (s : State) (prio : Nat) : Bool := s.peg.machineCheck || decide (32 ≤ (vget [] s.peg.levels prio).length)

/-- Accept a launch at the tail of its level: its number (R274). -/
def enqueueLaunch (s : State) (bs : List Byte) (asid cell : Nat) (b : Submitter) : State :=
  let d := descOf bs
  s.updPeg (fun g => { g with
    launches := g.launches ++ [{
      n := g.nextLaunch, desc := d, state := .queued, asid := asid, cell := cell, by_ := b, place := [], tents := [],
      suspended := [], held := false, order := 0 }]
    nextLaunch := g.nextLaunch + 1
    levels := vset g.levels d.prio (vget [] g.levels d.prio ++ [g.nextLaunch]) })

/-- Write a completion cell's status word with a launch's code (R28, R317). -/
def writeStatus (s : State) (cell code : Nat) : State := s.poke (cellsAt (cell + 8) (toBytes 8 (code + 0xFFFF * 65536)))

/-! ## Residency reports (R363) -/

/-- A report's bytes. -/
def reportBytes (seq n status reason : Nat) (place : List (Nat × List Nat)) : List Byte :=
  toBytes 8 seq ++ toBytes 8 n ++ toBytes 2 status ++ toBytes 2 reason ++ toBytes 2 place.length ++ toBytes 10 0 ++
  place.flatMap (fun e => toBytes 2 (e.1 + (e.2.foldl (fun m k => m + 2 ^ k) 0) * 256 + 2 ^ 15))

/-- Send a report over the path a submission came by; the owner's command completes after it (R388). -/
def sendReport (s : State) (b : Submitter) (n status reason : Nat) (place : List (Nat × List Nat)) : State :=
  match b with
  | .hart _ => s
  | .owner r cpl =>
    let s := s.poke (cellsAt (hostKey r.toNat) (reportBytes 0 n status reason place))
    s.poke (cellsAt (hostKey cpl.toNat) (toBytes 8 0 ++ toBytes 8 n))
  | .rack seq => s.updPeg (fun g => { g with rackOut := reportBytes seq.toNat n status reason place :: g.rackOut })

/-! ## LAUNCH (R139) -/

/-- A region's deferred list on a core is full (R35). -/
def deferFull (s : State) (core : Nat) : Bool := decide (1024 ≤ (s.vcore core).deferred.length)

/-- Steps 3 to 5 of R139, the descriptor read. -/
def launchEval (d : Reg) (o : Origin) (b : Submitter) (bs : List Byte) (s : State) : Out :=
  let (code, asid) := descCheck s o bs
  let ds := descOf bs
  if code ≠ 0 then done (s.wx d (BitVec.ofNat 64 code))
  else match checkAddr s ⟨asid, false, none, State.coreFor s.agent⟩ .store .natural 0 (ds.cell.toNat : Int) 16 with
    | .error (.cause c dev) => .next (s.trapHere c (accDetail .store c dev) ds.cell)
    | .error .wait => waits s
    | .ok (.absent _ _ _ _ _) => .next (s.trapHere causeAccess 1 ds.cell)
    | .ok (.at_ cell _) =>
      match s.agent with
      | .user p =>
        (match (s.hart p).region with
         | some r =>
           if deferFull s (coreOf p) then .next (s.trapHere causeJournal 1 0)
           else done ((s.updVcore (coreOf p) (fun k => { k with
               deferred := k.deferred ++ [.launch r bs asid cell p] })).wx d 0)
         | none =>
           if levelFull s ds.prio then done (s.wx d 5)
           else done ((enqueueLaunch s bs asid cell b).wx d 0))
      | _ =>
        if levelFull s ds.prio then done (s.wx d 5)
        else done ((enqueueLaunch s bs asid cell b).wx d 0)

/-- LAUNCH (R139). DESIGN CHOICE (log 63): the descriptor is read through a pointer of any tag from 0x0 to 0x5; R139 names
none. -/
def execLaunch (d a : Reg) (s : State) : Out :=
  withRegs s { rx := [a], wx := [d] }
    (if held s then waits s
     else
       let va := s.rx a
       match accPlace s (s.actx s.agent) .load .natural (tagOf va) (va.toNat : Int) 256 with
       | .error e => accTrap s .load e (va.toNat : Int)
       | .ok pl =>
         let s1 := s.drainS s.agent
         let bs := loadBytes s1 pl 256
         let s2 := loaded s1 pl (va.toNat : Int) 256
         match s.agent with
         | .user p => launchEval d (.hart (s.actx s.agent).asid) (.hart p) bs s2
         | .sup p => launchEval d (.sup p) (.hart p) bs s2
         | _ => .next (s.trapHere causeIllegal 0 (wordOf (.launch d a))))

/-! ## ICOMMIT (R37) -/

/-- A deferred launch is checked again and queued, or its cell takes the failure (R139, R37). -/
def commitLaunch (s : State) (bs : List Byte) (asid cell p : Nat) : State :=
  let d := descOf bs
  if (objectOf s d.handle).isNone || !entryRuns s asid d.entry then writeStatus s cell 4
  else if levelFull s d.prio then writeStatus s cell 5
  else enqueueLaunch s bs asid cell (.hart p)

/-- The births of a region whose SEQ is withheld (R37 step 2). -/
def withheldBirths (h : Hart) (r : Nat) (js : List Birth) : List Birth :=
  js.filter (fun b => b.region == r && h.withheld.getLsbD b.seq.toNat)

/-- One deferred entry of a region, strikes first, then launches (R37 step 4). -/
def commitStrike (r : Nat) (s : State) (d : Deferred) : State :=
  match d with
  | .strike g n t i => if g = r then strikeTile s n t i else s
  | .launch _ _ _ _ _ => s
def commitQueue (r : Nat) (s : State) (d : Deferred) : State :=
  match d with
  | .strike _ _ _ _ => s
  | .launch g bs a c p => if g = r then commitLaunch s bs a c p else s

/-- A deferred entry's region. -/
def Deferred.region : Deferred → Nat
  | .strike g _ _ _ => g
  | .launch g _ _ _ _ => g

/-- Steps 2 to 5 of icommit by an opener with an empty VIQ. DESIGN CHOICE (log 61): the withheld births are struck oldest first (step 2 gives
no order), and WITHHELD is cleared (step 5 does not say). -/
def commitRegion (s : State) (p : Nat) : State :=
  let core := coreOf p
  let s := (s.drainS (.user p)).drainV p
  let k := s.vcore core
  let s := (withheldBirths (s.hart p) p k.journal).foldl (fun s b => strikeTile s b.launch b.tent b.tile) s
  let s := k.deferred.foldl (commitStrike p) s
  let s := k.deferred.foldl (commitQueue p) s
  (s.updVcore core (fun k => { k with
    journal := k.journal.filter (fun b => b.region != p)
    deferred := k.deferred.filter (fun d => Deferred.region d != p)
    regions := k.regions.filter (fun g => g.opener != p) })).updHart p (fun h => { h with
      region := none, withheld := 0, last := 1, pntstat := h.pntstat &&& 0xFFFFFFF#29 })

/-- ICOMMIT (R37, R140): a deferred pennant word is delivered as one trap, with EPC at the following word. DESIGN CHOICE (log 61): SCPC is
the icommit's address, and an icommit whose retirement brings IBUDGET to 0 stands. -/
def execIcommit (s : State) : Out :=
  onUser .icommit s (fun p =>
    let ill := Host.Outcome.next (s.trapHere causeIllegal 2 (wordOf .icommit))
    match s.regionOf p with
    | none => ill
    | some g =>
      if g.opener ≠ p ∨ g.split ≠ (s.vcore (coreOf p)).split then ill
      else if !(s.hart p).viq.isEmpty then waits s
      else
        let s1 := (commitRegion s p).advance
        if g.pennant = 0 then .next s1
        else .next (s1.takeTrap p
          ⟨causePennant, true, s.pc + 4, s.pc, g.pennant.zeroExtend 64, 0, false, true⟩))

/-! ## Tent regions at placement (R211, R311, R312) -/

/-- The pages under `n` bytes from a tag-0x0 pointer, from the first, by memory key; `none` when one is unmapped or not
writable. `k` pages are left. -/
def pinPages (s : State) (asid va : Nat) : Nat → Option (List Nat)
  | 0 => some []
  | k + 1 =>
    match devPlace s asid .store va with
    | .ok (.at_ key _) => (pinPages s asid (va + 65536) k).map (key :: ·)
    | _ => none

/-- Pages that `n` bytes from a pointer touch. -/
def pageCount (ptr n : Nat) : Nat := (ptr % 65536 + n + 65535) / 65536

/-- One tent descriptor with its initial pool count (R311); `none` when it is invalid, or cannot be read for an uncorrectable
error (log 55). -/
def tentRead (s : State) (asid va : Nat) : Option (Tent × Nat) :=
  match devPlace s asid .load va with
  | .ok (.at_ key _) =>
    let bs := s.mem.gets key 64
    let base := BitVec.ofNat 64 (bytesField bs 0 8)
    let n := bytesField bs 8 4
    let code := bytesField bs 12 1
    let size := 4096 * 4 ^ code
    let o := base.toNat % 2 ^ 60
    let pool := bytesField bs 24 8
    let map := bytesField bs 32 8
    let cap := bytesField bs 40 4
    let init := bytesField bs 44 4
    if tagOf base ≠ 3 ∨ 2 < code ∨ o % size ≠ 0 ∨ n = 0 ∨ 2 ^ 24 < n ∨ 2 ^ 57 < o + n * size ∨ !bytesZero bs 13 3 ∨
        !bytesZero bs 48 16 ∨ badAt s key 64 ∨ 2 ^ 60 ≤ pool ∨ pool % 64 ≠ 0 ∨ 2 ^ 60 ≤ map ∨ map % 64 ≠ 0 ∨ cap < init then none
    else match pinPages s asid (pool / 65536 * 65536) (pageCount pool (64 + 8 * cap)),
        pinPages s asid (map / 65536 * 65536) (pageCount map (8 * n)) with
      | some ps, some ms =>
        some (⟨o, n, size, BitVec.ofNat 64 (bytesField bs 16 8), pool % 65536, ps, cap, map % 65536, ms⟩, init)
      | _, _ => none
  | _ => none

/-- Every tent descriptor from region `j` on, `k` left. -/
def tentsFrom (s : State) (asid list : Nat) : Nat → Nat → Option (List (Tent × Nat))
  | _, 0 => some []
  | j, k + 1 =>
    match tentRead s asid (list + 64 * j), tentsFrom s asid list (j + 1) k with
    | some t, some ts => some (t :: ts)
    | _, _ => none

/-- Two regions overlap. -/
def tentsClash (a b : Tent) : Bool := decide (a.base < b.base + b.tiles * b.size) && decide (b.base < a.base + a.tiles * a.size)

/-- No two regions of a list overlap. -/
def tentsDisjoint : List Tent → Bool
  | [] => true
  | t :: rest => !rest.any (tentsClash t) && tentsDisjoint rest

/-- A launch's tent regions; `none` when the list is invalid. -/
def tentsOfDesc (s : State) (l : Launch) : Option (List (Tent × Nat)) :=
  match tentsFrom s l.asid l.desc.tentList.toNat 0 l.desc.tentN with
  | some ts => if tentsDisjoint (ts.map (·.1)) then some ts else none
  | none => none

/-! ## Placement (R364, R365) -/

/-- A start of a free range of `size` bytes that clears every claim. -/
def rangeFree (cs : List Claim) (size start : Nat) : Bool :=
  decide (start + size ≤ Config.spmBytes) &&
  cs.all (fun c => decide (start + size ≤ c.start) || decide (c.start + c.size ≤ start) || c.size == 0 || size == 0)

/-- The lowest free range of `size` bytes: it starts at 0 or where a claim ends. -/
def lowestRange (cs : List Claim) (size : Nat) : Option Nat :=
  ((sortSet (0 :: cs.map (fun c => c.start + c.size))).find? (rangeFree cs size))

/-- A launch other than `n` holds a claim in a cluster. -/
def othersHold (s : State) (n c : Nat) : Bool :=
  (List.range 4).any (fun k => (s.vcore (c * 4 + k)).claims.any (fun d => d.launch != n))

/-- A fused launch holds a claim in a cluster (R205). -/
def fusedHold (s : State) (n c : Nat) : Bool :=
  (List.range 4).any (fun k => (s.vcore (c * 4 + k)).claims.any (fun d => d.launch != n &&
    ((s.launch? d.launch).map (·.desc.fuse)).getD false))

/-- A core fits a team (R364), with the slots of the launches in `gone` vacant; until a split's join no launch is placed in its
slots (R21, R372), nor any on a die whose clocks have stopped (R396). -/
def coreFits (s : State) (l : Launch) (gone : List Nat) (core : Nat) : Bool :=
  let k := s.vcore core
  (s.hartsOf core).all (fun e => gone.contains e.2.launch) && k.split.isNone && (k.part == l.desc.p || k.claims.isEmpty) &&
  (lowestRange k.claims l.desc.claim).isSome && (!l.desc.fuse || !othersHold s l.n (clusterOf core)) &&
  !fusedHold s l.n (clusterOf core) && s.peg.mask.getLsbD (clusterOf core) && s.clocked core

/-- The cores (0–3) of a physical cluster that a launch takes; empty when the cluster does not serve. -/
def clusterTake (s : State) (l : Launch) (gone : List Nat) (c : Nat) : List Nat :=
  let ks := (List.range 4).filter (fun k => coreFits s l gone (c * 4 + k))
  let ks := if l.desc.fuse && ks.length != 4 then [] else ks
  if l.desc.k ≤ ks.length then ks.take l.desc.k else []

/-- The scan of R365: the clusters taken, when there are enough. -/
def scan (s : State) (l : Launch) (gone : List Nat) : Option (List (Nat × List Nat)) :=
  let ts := ((List.range Config.clusters).map (fun c => (c, clusterTake s l gone c))).filter (fun e => !e.2.isEmpty)
  if l.desc.c ≤ ts.length then some (ts.take l.desc.c) else none

/-- The registers of a hart that starts (R29). -/
def startHart (l : Launch) (c k : Nat) (lazyS lazyV lazyL : Bool) : Hart :=
  { State.noHart with
    launch := l.n
    thr := (Thread.zeroAt l.desc.entry).wx 3 l.desc.param
    cluster := c
    core := k
    vtype := BitVec.ofNat 9 (5 + bcode l.desc.lar * 128)
    pushVtype := BitVec.ofNat 9 (5 + bcode l.desc.lar * 128)
    vcap := BitVec.ofNat 18 l.desc.vcap
    rngkey := l.desc.rngkey
    lazyS := lazyS
    lazyV := lazyV
    lazyL := lazyL }

/-- The registers of a hart that starts, or is restored, are written: no error is left in them (R219; log 66). -/
def cleanHart (s : State) (p : Nat) : State :=
  if s.badRegs = [] then s else { s with badRegs := s.badRegs.filter (fun b => !(b.1 == p && decide (b.2.1 < 6))) }

/-- Scratchpad bytes from a key on are zeroed, and with them the errors of their sectors (R201, R219). -/
def zeroSpm (s : State) (lo n : Nat) : State :=
  { s with
    mem := ⟨s.mem.cells.filter (fun e => !(decide (lo ≤ e.1) && decide (e.1 < lo + n)))⟩
    badSectors := s.badSectors.filter (fun k => !(decide (lo ≤ 64 * k) && decide (64 * k < lo + n))) }

/-- A team starts on a core: claim, partition, zeroed lanes and scratchpad claim, harts in every slot (R201, R365), with no credit
at the shared units (R369). Every access of its harts comes after the issuer's stores: a system-scope acquire of the die
(R338, R340). -/
def startTeam (s : State) (l : Launch) (c k core : Nat) : State :=
  let start := (lowestRange (s.vcore core).claims l.desc.claim).getD 0
  let s := s.updVcore core (fun v => { v with
    part := l.desc.p
    deficit := VCore.reset.deficit
    claims := v.claims ++ [⟨l.n, start, l.desc.claim, l.desc.hash⟩]
    v := Vector.replicate 32 0
    m := Vector.replicate 8 0
    t := Vector.replicate 8 0 })
  let s := dropPeerCopies (zeroSpm s (spmKey core start) l.desc.claim) (dieOf core)
  (List.range l.desc.p).foldl (fun s j =>
    ((cleanHart s (core * 8 + j)).setHart (core * 8 + j)
      (startHart l c k (s.choose 2 == 1) (s.tick.choose 2 == 1) (s.tick.tick.choose 2 == 1))).tick.tick.tick) s

/-- The L1Ds of a cluster are written back and emptied, to be fused or separated (R205). -/
def emptyL1 (s : State) (c : Nat) : State := { s with l1 := s.l1.filter (fun e => clusterOf e.1 != c) }

/-- The first launch on a free cluster takes its MCC, MXA and FIFOs (R283). -/
def startMcc (s : State) (l : Launch) (c pc : Nat) : State :=
  if (s.cluster pc).holder.isSome then s
  else
    let x := ((Thread.zeroAt l.desc.entry).wx 3 l.desc.param).wx 4 (BitVec.ofNat 64 c)
    (dropPeerCopies s (dieOf (pc * 4))).updCluster pc (fun k => { Cluster.reset with
      holder := some l.n, mcc := x.wx 5 1, mccRun := .running, queue := k.queue })

/-- The teams of one launch cluster. -/
def startCluster (l : Launch) (s : State) (e : Nat × Nat × List Nat) : State :=
  let s := startMcc (if l.desc.fuse then emptyL1 s e.2.1 else s) l e.1 e.2.1
  e.2.2.zipIdx.foldl (fun s k => startTeam s l e.1 k.2 (e.2.1 * 4 + k.1)) s

/-- Take a launch out of its level. -/
def unqueue (s : State) (l : Launch) : State :=
  s.updPeg (fun g => { g with
    levels := vset g.levels l.desc.prio ((vget [] g.levels l.desc.prio).filter (· ≠ l.n)) })

/-- A launch fails before it runs, with a code in its cell and in its report (R28, R363). -/
def failQueued (s : State) (l : Launch) (code reason : Nat) : State :=
  let s := unqueue s l
  let s := s.updLaunch l.n (fun l => { l with state := .failed })
  sendReport (writeStatus s l.cell code) l.by_ l.n code reason []

/-- A placed launch enters Running: tents pinned, teams started, report sent (R27, R365). -/
def placeLaunch (s : State) (l : Launch) (ts : List (Tent × Nat)) (place : List (Nat × List Nat)) : State :=
  let s := unqueue s l
  let top := s.peg.launches.foldl (fun m x => Nat.max m x.order) 0
  let s := s.updLaunch l.n (fun l => { l with state := .running, place := place, tents := ts.map (·.1), order := top + 1 })
  let s := ts.foldl (fun s t => s.poke (cellsAt t.1.topKey (toBytes 8 t.2))) s
  let s := (place.zipIdx.map (fun e => (e.2, e.1.1, e.1.2))).foldl (startCluster l) s
  sendReport s l.by_ l.n 0 0 place

/-- The candidates for suspension, in the order they are taken (R367): running launches of lower priority, lowest priority
first, the last to enter Running first. -/
def candidatesBelow (s : State) (prio : Nat) : List Launch :=
  let rs := s.peg.launches.filter (fun l => l.state == .running && l.desc.prio < prio)
  (List.range prio).flatMap (fun q =>
    let qs := rs.filter (fun l => l.desc.prio == q)
    ((sortSet (qs.map (·.order))).reverse).flatMap (fun o => qs.filter (fun l => l.order == o)))

/-- The shortest run of candidates with which the head places. -/
def suspendRun (s : State) (l : Launch) (cs : List Launch) : Option (List Nat) :=
  ((List.range cs.length).map (fun k => (cs.take (k + 1)).map (·.n))).find? (fun gone => (scan s l gone).isSome)

/-- Ask for pre-emption of every hart of a launch (R354). -/
def requestPreempt (s : State) (n detail : Nat) : State :=
  { s with harts := s.harts.map (fun (e : Nat × Hart) =>
      if e.2.launch = n ∧ e.2.preempt.isNone then (e.1, { e.2 with preempt := some detail }) else e) }

/-- The head of the highest level that holds a descriptor (R274). -/
def headLaunch (s : State) : Option Launch :=
  ((List.range 8).reverse.findSome? (fun q => (vget [] s.peg.levels q).head?)).bind s.launch?

/-- Clusters that a mask offers. -/
def maskCount (m : BitVec 128) : Nat := ((List.range 128).filter (fun k => m.getLsbD k)).length

/-- The package with no claims held (R366). -/
def unclaimed (s : State) : State := { s with harts := [], cores := [] }

/-- Why a launch fits no package (R363): its mask offers too few clusters, or too few that can be fused. -/
def neverReason (s : State) (l : Launch) : Nat :=
  if maskCount s.peg.mask < l.desc.c then 1 else if l.desc.fuse then 2 else 0

/-- One offer of the head descriptor (R365–R367); `none` when nothing changes. -/
def offer (s : State) : Option State :=
  match headLaunch s with
  | none => none
  | some l =>
    if (scan (unclaimed s) l []).isNone then some (failQueued s l 2 (neverReason s l))
    else match scan s l [] with
      | some place =>
        (match tentsOfDesc s l with
         | some ts => some (placeLaunch s l ts place)
         | none => some (failQueued s l 1 0))
      | none =>
        match suspendRun s l (candidatesBelow s l.desc.prio) with
        | none => none
        | some gone =>
          if s.harts.any (fun e => gone.contains e.2.launch && e.2.preempt.isNone) then
            some (gone.foldl (fun s n => requestPreempt s n 0) s)
          else none

/-- PLACEMENT_SCAN (R365–R367). -/
def execPlacementScan (s : State) : Out := .next ((offer s).getD s)

/-! ## The end of a launch (R27, R28) -/

/-- The launch that an engine command belongs to. -/
def Cmd.launch (c : Cmd) : Nat := c.by_.launch

/-- Every command in a queue or in execution. -/
def allCmds (s : State) : List Cmd :=
  s.clusters.flatMap (fun e => e.2.queue ++ e.2.mxa) ++ s.ces.flatMap (fun e => e.2.queue ++ e.2.exec)

/-- Every hart of a running launch has exited and every command has ended (R27, R283). -/
def launchDone (s : State) (l : Launch) : Bool :=
  l.state == .running && s.harts.all (fun e => e.2.launch != l.n) && l.suspended.isEmpty &&
  (allCmds s).all (fun c => Cmd.launch c != l.n)

/-- A launch's claims, tables and translations leave a core (R308, R364). -/
def releaseCore (s : State) (l : Launch) (core : Nat) : State :=
  s.updVcore core (fun k =>
    let cs := k.claims.filter (fun c => c.launch != l.n)
    let used := cs.any (fun c => ((s.launch? c.launch).map (·.asid)) == some l.asid)
    { (if used then k else k.forget (fun t => t.asid == l.asid)) with
      claims := cs
      hash := k.hash.filter (fun t => t.launch != l.n) })

/-- A launch leaves a cluster: its cores, and its MCC, whose registers keep their values, with the commands of the MXA
(R283). -/
def releaseCluster (l : Launch) (s : State) (e : Nat × List Nat) : State :=
  let s := e.2.foldl (fun s k => releaseCore s l (e.1 * 4 + k)) (if l.desc.fuse then emptyL1 s e.1 else s)
  if (s.cluster e.1).holder = some l.n then
    s.updCluster e.1 (fun k => { Cluster.reset with mcc := k.mcc, queue := k.queue.filter (fun d => match d.kind with
      | .mxa _ _ _ _ _ => false
      | .copy _ _ _ _ _ => true) })
  else s

/-- LAUNCH_COMPLETION (R28): the count is added after every store of the harts. -/
def completeLaunch (s : State) (l : Launch) : State :=
  let count := s.mem.num l.cell 8
  let s := s.poke (cellsAt l.cell (toBytes 8 (count + 1)))
  let s := l.place.foldl (releaseCluster l) s
  s.updLaunch l.n (fun l => { l with state := .completed })

/-- LAUNCH_COMPLETION (R28). -/
def execLaunchCompletion (n : Nat) (s : State) : Out :=
  match s.launch? n with
  | none => .next s
  | some l => if launchDone s l then .next (completeLaunch s l) else .next s

/-- The regions of a launch's harts on a core end without a cause (R397): births struck in reverse order, deferred work
discarded. -/
def dropRegions (s : State) (n core : Nat) : State :=
  let rs := ((s.hartsOf core).filter (fun e => e.2.launch == n)).filterMap (fun e => e.2.region)
  let k := s.vcore core
  let s := State.strikeBirths s (k.journal.filter (fun b => rs.contains b.region))
  s.updVcore core (fun k => { k with
    journal := k.journal.filter (fun b => !rs.contains b.region)
    deferred := k.deferred.filter (fun d => !rs.contains (Deferred.region d))
    regions := k.regions.filter (fun g => !rs.contains g.opener) })

/-- A launch's harts on a core cease to exist, a split's partition returning to the parent's. -/
def dropHarts (s : State) (n core : Nat) : State :=
  let ps := ((s.hartsOf core).filter (fun e => e.2.launch == n)).map (·.1)
  let s := ps.foldl (fun s p => ((s.drainS (.user p)).drainV p).dropCredit p) s
  let s := ps.foldl State.leave (dropRegions s n core)
  let s := { s with
    watches := s.watches.filter (fun w => w.sup || !ps.contains w.p) }
  let s := ps.foldl (fun s p => if (s.sup p).svc then s.updSup p (fun u => { u with svc := false }) else s) s
  let s := s.updPeg (fun g => { g with ringWait := g.ringWait.filter (fun p => !ps.contains p) })
  s.updVcore core (fun k => match k.split with
    | some r => if r.launch = n then { k with part := r.parentPart, split := none } else k
    | none => k)

/-- A launch fails with a code after it was accepted (R28, R397): a running one ends at once. -/
def terminate (s : State) (l : Launch) (code : Nat) : State :=
  let s := unqueue s l
  let s := (l.place.flatMap (fun e => e.2.map (fun k => e.1 * 4 + k))).foldl (fun s core => dropHarts s l.n core) s
  let s := l.place.foldl (releaseCluster l) s
  let s := s.updLaunch l.n (fun l => { l with state := .failed, suspended := [] })
  writeStatus s l.cell code

end Sys2Proof.Machine
end

