-- ==== Sys2Proof/Machine/Flags.lean ====
section
/-! DEFINITION. Machine/Flags.lean: the sticky flags of FFLAGS (R58, R59) and the rounding modes (R49). -/

namespace Sys2Proof.Machine

/-- A set of flags, in the bit positions of FFLAGS (R58). -/
abbrev Flags := BitVec 8

/-- Inexact (R57). -/
def fNX : Flags := 0x01
/-- Underflow (R57). -/
def fUF : Flags := 0x02
/-- Overflow (R54). -/
def fOF : Flags := 0x04
/-- Division by zero (R53). -/
def fDZ : Flags := 0x08
/-- Invalid operation (R53). -/
def fNV : Flags := 0x10
/-- Clamped to a format's limit (R48, R54). -/
def fSAT : Flags := 0x20
/-- A topology cycle (R183). -/
def fCYC : Flags := 0x40
/-- A dangling parent (R183). -/
def fDNG : Flags := 0x80

/-- The flags when a condition holds. -/
def flagsIf (c : Bool) (f : Flags) : Flags := if c then f else 0

/-- The four static rounding modes (R49), and stochastic rounding with its 24 random bits (R51). -/
inductive RMode where
  | rne | rdn | rup | rtz
  | sr (r : Nat)
  deriving DecidableEq, Repr

/-- FRM.MODE's numbering (R49). -/
def RMode.ofFrm (m : BitVec 2) : RMode :=
  match m.toNat with
  | 0 => .rne
  | 1 => .rdn
  | 2 => .rup
  | _ => .rtz

/-- The static mode a rounding code names, DYN taking FRM.MODE (R49). SR is no static mode; where an instruction takes it,
the caller handles it first. -/
def Rc.mode (rc : Rc) (frm : BitVec 2) : RMode :=
  match rc with
  | .rne => .rne
  | .rdn => .rdn
  | .rup => .rup
  | .rtz => .rtz
  | .sr => .rne
  | .dyn => .ofFrm frm

namespace State

/-- FRM.MODE of the executing scalar thread (R49, R121). -/
def frmNow (s : State) : BitVec 2 :=
  match s.agent with
  | .user p | .vec p => (s.hart p).frm
  | .sup p => (s.sup p).frm
  | .mcc _ => 0

/-- Set flags in the executing thread's FFLAGS; the device only sets them (R58). -/
def orFlags (s : State) (f : Flags) : State :=
  match s.agent with
  | .user p | .vec p => s.updHart p (fun h => { h with fflags := h.fflags ||| f })
  | .sup p => s.updSup p (fun u => { u with fflags := u.fflags ||| f })
  | .mcc _ => s

end State

end Sys2Proof.Machine
end

