-- ==== Sys2Proof/Machine/Float.lean ====
section
/-! DEFINITION. Machine/Float.lean: the floating-point formats of R42, decoding to exact values, the one rounding of R49,
R54 and R57, and the exact operations of R52, R53, R56, R64. An exact value is sign × m × 2^e. A quotient, root or
transcendental value that is not such a number is given with far more bits than any format holds, the last one set when bits
follow it, which rounds as the exact value does. -/

namespace Sys2Proof.Machine

/-! ## Formats (R42) -/

/-- A floating-point format: width, fraction bits, exponent bias, whether all-ones exponents are infinities and NaNs. -/
inductive FFmt where
  | f64 | f32 | f16 | bf16 | e4m3 | e5m2 | e2m1
  deriving DecidableEq, Repr

def FFmt.width : FFmt → Nat
  | .f64 => 64
  | .f32 => 32
  | .f16 | .bf16 => 16
  | .e4m3 | .e5m2 => 8
  | .e2m1 => 4

def FFmt.frac : FFmt → Nat
  | .f64 => 52
  | .f32 => 23
  | .f16 => 10
  | .bf16 => 7
  | .e4m3 => 3
  | .e5m2 => 2
  | .e2m1 => 1

def FFmt.bias : FFmt → Nat
  | .f64 => 1023
  | .f32 | .bf16 => 127
  | .f16 | .e5m2 => 15
  | .e4m3 => 7
  | .e2m1 => 1

/-- The canonical NaN (R42); E2M1 has none, and a NaN delivered to it is code 0 (R54). -/
def FFmt.nan : FFmt → Nat
  | .f64 => 0x7FF8000000000000
  | .f32 => 0x7FC00000
  | .f16 => 0x7E00
  | .bf16 => 0x7FC0
  | .e4m3 => 0x7F
  | .e5m2 => 0x7E
  | .e2m1 => 0

/-- The code of the largest finite value (R42). -/
def FFmt.maxCode : FFmt → Nat
  | .f64 => 0x7FEFFFFFFFFFFFFF
  | .f32 => 0x7F7FFFFF
  | .f16 => 0x7BFF
  | .bf16 => 0x7F7F
  | .e4m3 => 0x7E
  | .e5m2 => 0x7B
  | .e2m1 => 0x7

/-- Exponent field of infinities and NaNs. -/
def FFmt.expMax (f : FFmt) : Nat := 2 ^ (f.width - 1 - f.frac) - 1

/-- Exponent of the smallest quantum: the value of the lowest bit of a subnormal (R42). -/
def FFmt.qMin (f : FFmt) : Int := 1 - (f.bias : Int) - (f.frac : Int)

/-! ## Exact values -/

/-- An exact value. A NaN keeps whether it was signalling (R53). -/
inductive FVal where
  | nan (sig : Bool)
  | inf (neg : Bool)
  | fin (neg : Bool) (m : Nat) (e : Int)
  deriving DecidableEq, Repr

/-- +0 or −0. -/
def FVal.zero (neg : Bool) : FVal := .fin neg 0 0
/-- The value 1. -/
def FVal.one : FVal := .fin false 1 0

/-- The value that a code of a format stands for (R42, R43). -/
def FFmt.decode (f : FFmt) (bits : Nat) : FVal :=
  let neg := bits.testBit (f.width - 1)
  let ex := getBits bits f.frac (f.width - 1 - f.frac)
  let fr := getBits bits 0 f.frac
  let fin : FVal := if ex = 0 then .fin neg fr f.qMin else .fin neg (fr + 2 ^ f.frac) (f.qMin + (ex : Int) - 1)
  match f with
  | .e2m1 => fin
  | .e4m3 => if ex = 15 ∧ fr = 7 then .nan false else fin
  | _ => if ex = f.expMax then (if fr = 0 then .inf neg else .nan (!fr.testBit (f.frac - 1))) else fin

/-- floor(log2) of a non-zero finite value. -/
def FVal.lg (m : Nat) (e : Int) : Int := e + (Nat.log2 m : Int)

def FVal.isNan : FVal → Bool
  | .nan _ => true
  | _ => false
def FVal.isSig : FVal → Bool
  | .nan b => b
  | _ => false
def FVal.isZero : FVal → Bool
  | .fin _ m _ => m == 0
  | _ => false
def FVal.isNeg : FVal → Bool
  | .nan _ => false
  | .inf n => n
  | .fin n _ _ => n
def FVal.neg : FVal → FVal
  | .nan s => .nan s
  | .inf n => .inf (!n)
  | .fin n m e => .fin (!n) m e
/-- Negate when a condition holds. -/
def FVal.negIf (c : Bool) (x : FVal) : FVal := if c then x.neg else x

/-! ## Rounding (R49, R54, R57) -/

/-- Whether a magnitude with remainder `r` of `2 ^ sh` rounds up: `odd` is the kept part's last bit. -/
def roundUp (mode : RMode) (neg odd : Bool) (r sh : Nat) : Bool :=
  match mode with
  | .rne => decide (2 ^ sh < 2 * r) || (decide (2 * r = 2 ^ sh) && odd)
  | .rdn => neg && r != 0
  | .rup => !neg && r != 0
  | .rtz => false
  | .sr k =>
    if neg then r != 0 && !decide (k * 2 ^ sh < (2 ^ sh - r) * 2 ^ 24)
    else decide (k * 2 ^ sh < r * 2 ^ 24)

/-- m × 2^e as a multiple of 2^q, rounded: the multiple and whether it is inexact. -/
def toQuantum (mode : RMode) (neg : Bool) (m : Nat) (e q : Int) : Nat × Bool :=
  if q ≤ e then (m * 2 ^ (e - q).toNat, false)
  else
    let sh := (q - e).toNat
    -- further beyond the number's own length a shift changes no decision
    let sh' := Nat.min sh (Nat.log2 m + 40)
    let k := if sh' = sh then m >>> sh else 0
    let r := if sh' = sh then m % 2 ^ sh else m
    (if roundUp mode neg (k % 2 == 1) r sh' then k + 1 else k, r != 0)

/-- A magnitude in a format's code: `k` quanta of 2^q, k at most 2^(frac + 1). -/
def packMag (f : FFmt) (k : Nat) (q : Int) : Nat := (q - f.qMin).toNat * 2 ^ f.frac + k

/-- A code with a sign. -/
def signed (f : FFmt) (neg : Bool) (mag : Nat) : Nat := mag + (if neg then 2 ^ (f.width - 1) else 0)

/-- A directed mode that rounds a value of a sign toward zero. -/
def towardZero (mode : RMode) (neg : Bool) : Bool :=
  match mode with
  | .rne => false
  | .rtz => true
  | .rdn => !neg
  | .rup => neg
  | .sr _ => false

/-- What an overflowing finite value delivers (R54). -/
def overflowTo (f : FFmt) (mode : RMode) (sat neg : Bool) : Nat × Flags :=
  match f with
  | .e2m1 => (signed f neg f.maxCode, fSAT ||| fNX)
  | .e4m3 => if sat then (signed f neg f.maxCode, fSAT ||| fNX) else (f.nan, fOF ||| fNX)
  | .e5m2 =>
    if sat then (signed f neg f.maxCode, fSAT ||| fNX)
    else if towardZero mode neg then (signed f neg f.maxCode, fOF ||| fNX)
    else (signed f neg (f.maxCode + 1), fOF ||| fNX)
  | _ =>
    if towardZero mode neg then (signed f neg f.maxCode, fOF ||| fNX)
    else (signed f neg (f.maxCode + 1), fOF ||| fNX)

/-- What an infinity delivers (R54). -/
def infTo (f : FFmt) (sat neg : Bool) : Nat × Flags :=
  match f with
  | .e2m1 => (signed f neg f.maxCode, fSAT ||| fNX)
  | .e4m3 => if sat then (signed f neg f.maxCode, fSAT ||| fNX) else (f.nan, fNV)
  | .e5m2 => if sat then (signed f neg f.maxCode, fSAT ||| fNX) else (signed f neg (f.maxCode + 1), 0)
  | _ => (signed f neg (f.maxCode + 1), 0)

/-- Tiny after rounding (R57): with an unbounded exponent the magnitude would still round below the minimum normal. For E2M1,
the delivered magnitude is below 1. -/
def tiny (f : FFmt) (mode : RMode) (neg : Bool) (m : Nat) (e : Int) (k : Nat) : Bool :=
  let l := FVal.lg m e
  let emin : Int := 1 - (f.bias : Int)
  match f with
  | .e2m1 => decide (k < 2)
  | _ =>
    decide (l < emin) &&
    !(decide (l = emin - 1) && decide (2 ^ (f.frac + 1) ≤ (toQuantum mode neg m e (l - (f.frac : Int))).1))

/-- The rounding of an exact value into a format: its code and the flags it raises (R53, R54, R57). `sat` is the saturate
option. -/
def roundTo (f : FFmt) (mode : RMode) (sat : Bool) (x : FVal) : Nat × Flags :=
  match x with
  | .nan sig => (f.nan, flagsIf (sig || f == .e2m1) fNV)
  | .inf neg => infTo f sat neg
  | .fin neg m e =>
    if m = 0 then (signed f neg 0, 0)
    else
      let l := FVal.lg m e
      let q := if f.qMin ≤ l - (f.frac : Int) then l - (f.frac : Int) else f.qMin
      if (f.bias : Int) + 2 < l then overflowTo f mode sat neg
      else
        let (k, inexact) := toQuantum mode neg m e q
        let mag := packMag f k q
        if f.maxCode < mag then overflowTo f mode sat neg
        else (signed f neg mag, flagsIf inexact fNX ||| flagsIf (inexact && tiny f mode neg m e k) fUF)

/-- rne (R4): the nearest value, without flags. -/
def rneTo (f : FFmt) (x : FVal) : Nat := (roundTo f .rne false x).1

/-! ## Exact arithmetic (R52, R53, R64) -/

/-- The signed integer of a value at an exponent not above its own. -/
def FVal.at_ (neg : Bool) (m : Nat) (e q : Int) : Int :=
  let k : Int := (m * 2 ^ (e - q).toNat : Nat)
  if neg then -k else k

/-- The value of a signed integer at an exponent; `z` is the sign of a zero. -/
def FVal.ofInt (z : Bool) (k : Int) (q : Int) : FVal := .fin (if k = 0 then z else decide (k < 0)) k.natAbs q

/-- The sign of an exact zero sum; `allNegZero`: every term is a zero of negative sign (R52). -/
def zeroSign (mode : RMode) (allNegZero : Bool) : Bool := allNegZero || mode == .rdn

/-- Exact sum; an invalid sum of infinities is a NaN with NV (R52, R53). -/
def addX (mode : RMode) (x y : FVal) : FVal × Flags :=
  let sig := flagsIf (x.isSig || y.isSig) fNV
  match x, y with
  | .nan _, _ => (.nan false, sig)
  | _, .nan _ => (.nan false, sig)
  | .inf a, .inf b => if a = b then (.inf a, 0) else (.nan false, fNV)
  | .inf a, .fin _ _ _ => (.inf a, 0)
  | .fin _ _ _, .inf b => (.inf b, 0)
  | .fin a m e, .fin b n g =>
    if m = 0 ∧ n = 0 then (.zero (zeroSign mode (a && b)), 0)
    else if m = 0 then (.fin b n g, 0)
    else if n = 0 then (.fin a m e, 0)
    else
      let q := if e ≤ g then e else g
      let k := FVal.at_ a m e q + FVal.at_ b n g q
      (FVal.ofInt (zeroSign mode false) k q, 0)

/-- Exact product (R53). -/
def mulX (x y : FVal) : FVal × Flags :=
  let sig := flagsIf (x.isSig || y.isSig) fNV
  match x, y with
  | .nan _, _ => (.nan false, sig)
  | _, .nan _ => (.nan false, sig)
  | .inf a, .inf b => (.inf (a != b), 0)
  | .inf a, .fin b n _ => if n = 0 then (.nan false, fNV) else (.inf (a != b), 0)
  | .fin a m _, .inf b => if m = 0 then (.nan false, fNV) else (.inf (a != b), 0)
  | .fin a m e, .fin b n g => (.fin (a != b) (m * n) (e + g), 0)

/-- Quotient (R53): a zero divisor of a non-zero value, infinity included, gives an infinity and DZ. -/
def divX (x y : FVal) : FVal × Flags :=
  let sig := flagsIf (x.isSig || y.isSig) fNV
  match x, y with
  | .nan _, _ => (.nan false, sig)
  | _, .nan _ => (.nan false, sig)
  | .inf _, .inf _ => (.nan false, fNV)
  | .inf a, .fin b n _ => (.inf (a != b), flagsIf (n == 0) fDZ)
  | .fin a _ _, .inf b => (.zero (a != b), 0)
  | .fin a m e, .fin b n g =>
    if n = 0 then (if m = 0 then (.nan false, fNV) else (.inf (a != b), fDZ))
    else if m = 0 then (.zero (a != b), 0)
    else
      let num := m * 2 ^ (140 + Nat.log2 n)
      let k := num / n
      (.fin (a != b) (2 * k + (if num % n = 0 then 0 else 1)) (e - g - (140 + Nat.log2 n : Nat) - 1), 0)

/-- Integer square root below bit `k`: the largest r0 + d with d below 2^k whose square is at most n. -/
def isqrtFrom (n : Nat) : Nat → Nat → Nat
  | 0, r => r
  | k + 1, r => isqrtFrom n k (if (r + 2 ^ k) * (r + 2 ^ k) ≤ n then r + 2 ^ k else r)

/-- Integer square root. -/
def isqrt (n : Nat) : Nat := isqrtFrom n (Nat.log2 n / 2 + 1) 0

/-- Square root (R53, R121). -/
def sqrtX (x : FVal) : FVal × Flags :=
  match x with
  | .nan sig => (.nan false, flagsIf sig fNV)
  | .inf neg => if neg then (.nan false, fNV) else (.inf false, 0)
  | .fin neg m e =>
    if m = 0 then (.zero neg, 0)
    else if neg then (.nan false, fNV)
    else
      let e' := if e % 2 = 0 then e else e - 1
      let n := (if e % 2 = 0 then m else 2 * m) * 2 ^ 280
      let r := isqrt n
      (.fin false (2 * r + (if r * r = n then 0 else 1)) (e' / 2 - 141), 0)

/-- x × y + z exactly (R64), the product negated by `np` and the addend by `nc`. -/
def fmaX (mode : RMode) (np nc : Bool) (x y z : FVal) : FVal × Flags :=
  let sig := flagsIf (x.isSig || y.isSig || z.isSig) fNV
  let (p, f1) := mulX x y
  let (r, f2) := addX mode (p.negIf np) (z.negIf nc)
  (r, sig ||| f1 ||| f2)

/-- Rounding of an exact result with the flags it already carries. -/
def finish (f : FFmt) (mode : RMode) (r : FVal × Flags) : Nat × Flags :=
  let (c, fl) := roundTo f mode false r.1
  (c, fl ||| r.2)

/-! ## Comparison, minimum and maximum (R56, R123) -/

/-- −1, 0 or 1 as the first value lies below, at or above the second; −0 equals +0. Neither is a NaN. -/
def cmpX (x y : FVal) : Int :=
  match x, y with
  | .nan _, _ => 0
  | _, .nan _ => 0
  | .inf a, .inf b => if a = b then 0 else if a then -1 else 1
  | .inf a, .fin _ _ _ => if a then -1 else 1
  | .fin _ _ _, .inf b => if b then 1 else -1
  | .fin a m e, .fin b n g =>
    let q := if e ≤ g then e else g
    let d := FVal.at_ a m e q - FVal.at_ b n g q
    if d < 0 then -1 else if d = 0 then 0 else 1

/-- The order of minimum and maximum: −0 lies below +0 (R56). -/
def ltMM (x y : FVal) : Bool :=
  let c := cmpX x y
  c == -1 || (c == 0 && x.isNeg && !y.isNeg)

/-- Minimum or maximum of two codes of a format (R56). -/
def minmax (f : FFmt) (isMax : Bool) (a b : Nat) : Nat × Flags :=
  let x := f.decode a
  let y := f.decode b
  let sig := flagsIf (x.isSig || y.isSig) fNV
  if x.isNan && y.isNan then (f.nan, sig)
  else if x.isNan then (b, sig)
  else if y.isNan then (a, sig)
  else if isMax then (if ltMM x y then b else a, 0)
  else (if ltMM y x then b else a, 0)

/-- A floating-point condition and the NV it raises (R123). -/
def fcond (c : FCond) (x y : FVal) : Bool × Flags :=
  let un := x.isNan || y.isNan
  let sig := flagsIf (x.isSig || y.isSig) fNV
  match c with
  | .eq => (!un && cmpX x y == 0, sig)
  | .lt => (!un && cmpX x y == -1, flagsIf un fNV)
  | .le => (!un && cmpX x y != 1, flagsIf un fNV)
  | .un => (un, sig)

/-! ## Conversions to and from integers (R55) -/

/-- Lowest and highest value of an n-bit integer format (R48). -/
def intLo (sgnd : Bool) (n : Nat) : Int := if sgnd then -((2 : Int) ^ (n - 1)) else 0
def intHi (sgnd : Bool) (n : Nat) : Int := if sgnd then (2 : Int) ^ (n - 1) - 1 else (2 : Int) ^ n - 1

/-- An exact value to an n-bit integer (R55). -/
def toIntX (mode : RMode) (sgnd : Bool) (n : Nat) (x : FVal) : Int × Flags :=
  match x with
  | .nan _ => (0, fNV)
  | .inf neg => (if neg then intLo sgnd n else intHi sgnd n, fNV)
  | .fin neg m e =>
    if m = 0 then (0, 0)
    else if 70 < FVal.lg m e then (if neg then intLo sgnd n else intHi sgnd n, fNV)
    else
      let (k, inexact) := toQuantum mode neg m e 0
      let z : Int := if neg then -(k : Int) else k
      if z < intLo sgnd n then (intLo sgnd n, fNV)
      else if intHi sgnd n < z then (intHi sgnd n, fNV)
      else (z, flagsIf inexact fNX)

/-- An integer as an exact value (R55). -/
def ofIntX (z : Int) : FVal := FVal.ofInt false z 0

/-! ## 2^x and log2 x (R163) -/

/-- floor(ln 2 × 2^320). -/
def ln2Fix : Nat := 0xB17217F7D1CF79ABC9E3B39803F2F6AF40F343267298B62D8A0D175B8BAAFA2BE7B876206DEBAC98

/-- Sum of the series of e^x in fixed point (320 bits) from a term on: `n` terms left, the next being term `k`. -/
def expSum (x : Nat) : Nat → Nat → Nat → Nat
  | 0, _, _ => 0
  | n + 1, k, term => term + expSum x n (k + 1) (term * x / 2 ^ 320 / (k + 1))

/-- 2^a: exact for an integer; otherwise irrational, given to 300 bits with the last set (R163). -/
def exp2X (x : FVal) : FVal × Flags :=
  match x with
  | .nan sig => (.nan false, flagsIf sig fNV)
  | .inf neg => if neg then (.zero false, 0) else (.inf false, 0)
  | .fin neg m e =>
    if m = 0 then (.one, 0)
    else if 14 ≤ FVal.lg m e then (if neg then .fin false 1 (-100000) else .fin false 1 100000, 0)
    else if FVal.lg m e < -260 then (.fin false (if neg then 2 ^ 300 - 1 else 2 ^ 300 + 1) (-300), 0)
    else if 0 ≤ e then
      let k : Int := (m * 2 ^ e.toNat : Nat)
      (.fin false 1 (if neg then -k else k), 0)
    else
      let sh := (-e).toNat
      let v : Int := if neg then -(m : Int) else m
      let n := v / ((2 : Int) ^ sh)
      let fr := (v % ((2 : Int) ^ sh)).toNat
      if fr = 0 then (.fin false 1 n, 0)
      else
        let r := fr * ln2Fix / 2 ^ sh
        let s := expSum r 90 0 (2 ^ 320)
        (.fin false (2 * (s / 2 ^ 20) + 1) (n - 301), 0)

/-- Sum of the series of atanh z = z + z^3/3 + … in fixed point (320 bits): `n` terms left, divisor `k`, next power `p`. -/
def atanhSum (z2 : Nat) : Nat → Nat → Nat → Nat
  | 0, _, _ => 0
  | n + 1, k, p => p / k + atanhSum z2 n (k + 2) (p * z2 / 2 ^ 320)

/-- log2 a: exact for a power of two; otherwise irrational, given to 300 bits after the point with the last set (R163). -/
def log2X (x : FVal) : FVal × Flags :=
  match x with
  | .nan sig => (.nan false, flagsIf sig fNV)
  | .inf neg => if neg then (.nan false, fNV) else (.inf false, 0)
  | .fin neg m e =>
    if m = 0 then (.inf true, fDZ)
    else if neg then (.nan false, fNV)
    else
      let l := Nat.log2 m
      let k : Int := e + (l : Int)
      if m = 2 ^ l then (FVal.ofInt false k 0, 0)
      else
        let z : Nat := (m - 2 ^ l) * 2 ^ 320 / (m + 2 ^ l)
        let ln : Nat := 2 * atanhSum (z * z / 2 ^ 320) 110 1 z
        let fr : Nat := ln * 2 ^ 320 / ln2Fix
        let t : Int := (k * (2 : Int) ^ 320 + (fr : Int)) / (2 : Int) ^ 20
        (FVal.ofInt false (2 * t + 1) (-301), 0)

/-! ## Multi-term sums rounded once (R65, R66) -/

/-- The exact sum of values that are no NaNs. -/
def foldX (mode : RMode) : List FVal → FVal × Flags
  | [] => (.zero false, 0)
  | [x] => (x, 0)
  | x :: y :: rest =>
    let (t, f1) := foldX mode (y :: rest)
    let (r, f2) := addX mode x t
    (r, f1 ||| f2)

/-- Infinite terms of both signs (R66). -/
def bothInfs (xs : List FVal) : Bool := xs.contains (.inf false) && xs.contains (.inf true)

/-- The exact sum of values: a NaN term gives a NaN; infinities of both signs give a NaN and NV, beside a NaN term too; a
zero's sign follows R52 (R66). -/
def sumX (mode : RMode) (xs : List FVal) : FVal × Flags :=
  if xs.any FVal.isNan then (.nan false, flagsIf (xs.any FVal.isSig || bothInfs xs) fNV) else foldX mode xs

/-! ## Stochastic rounding (R51) and the random generator (R67) -/

/-- x × 2^n. -/
def FVal.scale (x : FVal) (n : Int) : FVal :=
  match x with
  | .fin s m e => .fin s m (e + n)
  | y => y

/-- |x|. -/
def FVal.abs (x : FVal) : FVal := x.negIf x.isNeg

/-- Stochastic rounding into a format with 24 random bits (R51). -/
def sround (f : FFmt) (sat : Bool) (r : Nat) (x : FVal) : Nat × Flags :=
  match x with
  | .fin _ _ _ =>
    if cmpX (f.decode f.maxCode) x.abs = -1 then roundTo f .rne sat x else roundTo f (.sr r) sat x
  | _ => roundTo f .rne sat x

/-- rng_word (R67). -/
def rngWord (key stream ctr : Word) (i : Nat) : Word :=
  mix64 (key ^^^ mix64 (stream * 0x9E3779B97F4A7C15#64 + ctr + BitVec.ofNat 64 i))

/-- uniform (R67), as an exact value. -/
def uniformX (w : Word) : FVal := .fin false (w.toNat / 2 ^ 40) (-24)

/-- The 24 bits of stochastic rounding (R51). -/
def srBits (key ctr : Word) (i : Nat) : Nat := (rngWord key 0xFFFFFFFF ctr i).toNat / 2 ^ 40

/-! ## Block-scaled formats (R44–R46) -/

/-- A value under an E8M0 scale byte (R44). -/
def scaled (e : Nat) (x : FVal) : FVal := if e = 255 then .nan false else x.scale ((e : Int) - 127)

/-- A 4-bit element under a descriptor (R45, R46): `d` is its scale byte and, above it, its spare byte. -/
def blockX (kfp : Bool) (d code : Nat) : FVal :=
  let x := if kfp && code == 8 then FFmt.e4m3.decode (d / 256) else FFmt.e2m1.decode code
  scaled (d % 256) x

/-- A finite value as a multiple of 2^q, q not above its exponent. -/
def fixedX (q : Int) (x : FVal) : Int :=
  match x with
  | .fin s m e => FVal.at_ s m e q
  | _ => 0

/-- A candidate code of a KFP4 block: its value as a multiple of 2^q, its code, and whether it is an ordinary code. -/
structure KCand where
  v : Int
  code : Nat
  ord : Bool
  deriving DecidableEq, Repr

/-- The representable values of a KFP4 block (R54): the fifteen ordinary codes and the spare, unless that is a NaN. -/
def kcands (spare : FVal) (q : Int) : List KCand :=
  (((List.range 16).filter (· ≠ 8)).map (fun c => (⟨fixedX q (FFmt.e2m1.decode c), c, true⟩ : KCand))) ++
  (if spare.isNan then [] else [⟨fixedX q spare, 8, false⟩])

/-- Of two candidates, the one that an earlier choice keeps: the better by `lt`, an ordinary code on equal values. -/
def kbest (lt : Int → Int → Bool) (a b : KCand) : KCand :=
  if lt b.v a.v then b else if a.v = b.v ∧ b.ord ∧ !a.ord then b else a

/-- The best candidate that satisfies a condition. -/
def kpick (lt : Int → Int → Bool) (ok : Int → Bool) (cs : List KCand) : KCand :=
  match cs.filter (fun c => ok c.v) with
  | [] => ⟨0, 0, true⟩
  | c :: rest => rest.foldl (kbest lt) c

/-- Rounding to the nearer of two neighbours (R54). -/
def knearest (x : Int) (lo hi : KCand) : KCand :=
  if x - lo.v < hi.v - x then lo
  else if hi.v - x < x - lo.v then hi
  else if lo.ord && !hi.ord then lo
  else if hi.ord && !lo.ord then hi
  else if lo.code % 2 = 0 then lo else hi

/-- Rounding of a scaled value into a KFP4 block's codes (R51, R54, R57): always saturating. -/
def kround (spare : FVal) (mode : RMode) (x : FVal) : Nat × Flags :=
  match x with
  | .nan _ => (0, fNV)
  | .inf neg =>
    let cs := kcands spare (-9)
    ((if neg then kpick (fun a b => decide (a < b)) (fun _ => true) cs
      else kpick (fun a b => decide (b < a)) (fun _ => true) cs).code, fSAT ||| fNX)
  | .fin neg m e =>
    let q := if e ≤ -9 then e else -9
    let cs := kcands spare q
    let z := FVal.at_ neg m e q
    if m = 0 then (0, 0)
    else
      let top := if neg then kpick (fun a b => decide (a < b)) (fun _ => true) cs
        else kpick (fun a b => decide (b < a)) (fun _ => true) cs
      if (neg && decide (z < top.v)) || (!neg && decide (top.v < z)) then (top.code, fSAT ||| fNX)
      else
        let lo := kpick (fun a b => decide (b < a)) (fun v => decide (v ≤ z)) cs
        let hi := kpick (fun a b => decide (a < b)) (fun v => decide (z ≤ v)) cs
        if lo.v = z then (lo.code, 0)
        else
          let r := match mode with
            | .rne => knearest z lo hi
            | .rdn => lo
            | .rup => hi
            | .rtz => if neg then hi else lo
            | .sr k => if (k : Int) * (hi.v - lo.v) < (z - lo.v) * (2 : Int) ^ 24 then hi else lo
          (r.code, fNX ||| flagsIf (decide (r.v.natAbs < 2 ^ (-q).toNat)) fUF)

end Sys2Proof.Machine
end

