-- ==== Sys2Proof/Machine/Operands.lean ====
section
/-! DEFINITION. Machine/Operands.lean: how a vector, tree, structure or engine word is pushed with its captured operands
(R17, R266, R267), and how, at the VIQ head, it reads its elements and writes its destinations (R18, R19, R94–R100,
R144–R148). -/

namespace Sys2Proof.Machine

/-! ## The push (R17, R266, R267) -/

/-- The instruction's elements below VSTART are not active (R144): the first kind of R147 and the vector memory instructions
with elements (R231); every other treats VSTART as 0. -/
def usesVstart (i : Instr) (rows : Nat) : Bool :=
  match i with
  | .vldx _ _ _ _ _ _ _ _ _ | .vldff _ _ _ _ _ _ _ _ | .vldxff _ _ _ _ _ _ _ _ _ | .vstx _ _ _ _ _ _ _ _
  | .vamo _ _ _ _ _ _ _ _ | .vlock _ _ _ _ _ _ | .vunlock _ _ _ _ => true
  | i => (vuse i).first && (rows == 1 || (vuse i).mem)

/-- The value of a captured operand. -/
def capVal (s : State) : Cap → Word
  | .none => 0
  | .x r => s.rx r
  | .f r => s.rf r

/-- The registers that a push reads, and the x register that setvl and setshape write at the push (R149, R150). -/
def pushUses (i : Instr) : Uses :=
  let u := vuse i
  let xs := fun (c : Cap) => match c with
    | .x r => [r]
    | _ => []
  let fs := fun (c : Cap) => match c with
    | .f r => [r]
    | _ => []
  { rx := xs u.a ++ xs u.b ++ u.b1.toList
    rf := fs u.a ++ fs u.b
    wx := match i with
      | .setvl d _ _ => [d]
      | .setshape d _ _ => [d]
      | _ => [] }

/-- Lowest free Reply Queue slot. -/
def freeSlot (h : Hart) : Option Nat := (List.range 16).find? (fun k => (vget none h.replies k).isNone)

/-- The length that setvl or setshape grants, as the scalar thread computes it at the push (R149, R150). -/
def grantAt (s : State) (p : Nat) (i : Instr) : Option (Reg × BitVec 16 × BitVec 9) :=
  match i with
  | .setvl d a vt => some (d, BitVec.ofNat 16 (Nat.min (s.rx a).toNat (vlmaxOf s p vt)), vt)
  | .setshape d a _ =>
    let vt := (s.hart p).pushVtype
    some (d, BitVec.ofNat 16 (Nat.min (s.rx a).toNat (vlmaxOf s p vt)), vt)
  | _ => none

/-- A first-fault load that may still trim VL, with no setvl or setshape after it in the VIQ (R301). -/
def mayTrim : List VEntry → Bool
  | [] => false
  | e :: rest =>
    (match e.instr with
     | .vldff _ _ _ _ _ _ _ _ | .vldxff _ _ _ _ _ _ _ _ _ => !rest.any setsLength
     | _ => false) || mayTrim rest

/-- The push waits (R266, R267, R301). -/
def pushWaits (s : State) (p : Nat) (i : Instr) : Bool :=
  let h := s.hart p
  decide (((s.launch? h.launch).map (fun l => l.desc.q)).getD 256 ≤ h.viq.length) ||
  ((vuse i).ret.isSome && (freeSlot h).isNone) ||
  (match i with
   | .vldS _ _ _ _ _ => mayTrim h.viq
   | _ => false)

/-- The entry that a push makes: the word and what is captured with it. -/
def entryOf (s : State) (p : Nat) (i : Instr) : VEntry :=
  let h := s.hart p
  let u := vuse i
  { instr := i
    addr := match h.latch with
      | some (_, a) => a
      | none => s.pc
    pfx := h.latch.map (·.1)
    a := capVal s u.a
    b := capVal s u.b
    b1 := match u.b1 with
      | some r => s.rx r
      | none => 0
    rngkey := h.rngkey
    pntbase := (s.vcore (coreOf p)).pntbase
    pushPos := match i with
      | .vldS _ k _ _ _ => (vget Stream.none h.streams k.toNat).pushPos
      | _ => 0
    frm := h.frm
    ovr := h.ovr
    slot := if u.ret.isSome then freeSlot h else none
    st := .fresh
    needs := if u.mem then h.svNeed else 0
    joined := u.mem && h.svJoin
    bad := false
    done := .zero }

/-- The reservation that a push makes for its reply. -/
def replyOf (e : VEntry) (i : Instr) : Option Reply :=
  (vuse i).ret.map (fun r =>
    ⟨false, r, e.pfx.bind (fun x => if x.cfile = .x then some x.creg else none), none⟩)

/-- A stream slot's push position after a strcfg or vld.s is pushed (R300, R301). -/
def pushStreams (h : Hart) (i : Instr) : Vector Stream 4 :=
  match i with
  | .strcfg k _ _ _ _ _ =>
    vset h.streams k.toNat { vget Stream.none h.streams k.toNat with pushPos := 0 }
  | .vldS _ k _ _ _ =>
    let t := vget Stream.none h.streams k.toNat
    vset h.streams k.toNat { t with pushPos := t.pushPos + h.pushVl.zeroExtend 64 }
  | _ => h.streams

/-- The hart after a push: the entry at the queue's tail, its reply reserved, the prefix used up. -/
def pushHart (h : Hart) (e : VEntry) (i : Instr) : Hart :=
  let n := h.viq.length + 1
  { State.countEv h 0x0002 with
    viq := h.viq ++ [e]
    latch := none
    replies := match e.slot with
      | some k => vset h.replies k (replyOf e i)
      | none => h.replies
    svJoin := h.svJoin && !(vuse i).mem
    hold := if (vuse i).hold then n else h.hold
    streams := pushStreams h i }

/-- Push a word: the thread goes on at the next one, and the push counts as its execution (R36, R266). -/
def pushState (s : State) (p : Nat) (i : Instr) : State :=
  let e := entryOf s p i
  let g := grantAt s p i
  let s1 := (s.updHart p (fun h => pushHart h e i)).advance
  match g with
  | none => s1
  | some (d, vl, vt) =>
    (s1.wx d (vl.zeroExtend 64)).updHart p (fun h => { h with pushVl := vl, pushVtype := vt })

/-- Before a class 0xD word is pushed the scalar stores that a fence names are performed (R227). -/
def performFenced (s : State) (p : Nat) (i : Instr) : State :=
  let h := s.hart p
  if isEngine i then
    s.drainSel (.user p) (fun q => decide (q.acc < h.dNeedFar) || (decide (q.acc < h.dNeed) && q.chan == 0))
  else s

/-- Push a word and go on with `k`, or wait at it. -/
def withPush (s : State) (p : Nat) (i : Instr) (k : State → Out) : Out :=
  withRegs s (pushUses i) (if pushWaits s p i then waits s else k (pushState (performFenced s p i) p i))

/-! ## What executes at the VIQ head -/

/-- What an executing vector instruction works with: its hart and lanes, the configuration in force, the predicate, and its
entry. -/
structure VCtx where
  p : Nat
  core : Nat
  lane0 : Nat
  lanes : Nat
  vlen : Nat
  eff : Nat
  vl : Nat
  vstart : Nat
  rows : Nat
  sew : Nat
  fmt : Nat
  lar : Bool
  cyc : Bool
  /-- the predicate: a mask register's number, its contents and the sense (R77, R144) -/
  mask : Option (Nat × Nat × Bool)
  zero : Bool
  /-- how many of its separate steps an instruction performs now: all without it (R251, R253) -/
  pause : Option Nat
  e : VEntry
  deriving DecidableEq, Repr

/-- How an execution at the head ends: retired with a reply value; a cause, the entry kept; retired and then a cause; not
yet; or some of its steps done. -/
inductive VRes where
  | ok (s : State) (reply : Option Word)
  | trap (s : State) (c : Cause)
  | after (s : State) (c : Cause)
  | wait (s : State)
  | part (s : State) (d : Partial)

/-- The contents of mask register m of a core. -/
def maskReg (s : State) (core m : Nat) : Nat := (vget 0 (s.vcore core).m m).toNat

/-- The context of an entry (R144: a prefix's mask and sense, or m0 when mk = 1). -/
def vctx (s : State) (p : Nat) (e : VEntry) (i : Instr) : VCtx :=
  let h := s.hart p
  let core := coreOf p
  let lanes := lanesOf (s.vcore core).part
  let rows := Nat.max 1 h.rows.toNat
  { p := p, core := core, lane0 := slotOf p * lanes, lanes := lanes, vlen := 1024 * lanes
    eff := Nat.min (1024 * lanes) h.vcap.toNat
    vl := h.vl.toNat
    vstart := if usesVstart i rows then h.vstart.toNat else 0
    rows := rows
    sew := sewBits h.vtype, fmt := fmtOf h.vtype, lar := h.vtype.getLsbD 7, cyc := h.vtype.getLsbD 8
    mask := match e.pfx with
      | some x => some (x.m.toNat, maskReg s core x.m.toNat, x.sense)
      | none => if mkBit i then some (0, maskReg s core 0, false) else none
    zero := (e.pfx.map (·.zero)).getD false
    pause := h.pause
    e := e }

/-- A cause in the vector stream, at the entry (R347): SEPC is the stop point. -/
def VCtx.cause (c : VCtx) (s : State) (code detail : Nat) (tval : Word) : Cause :=
  ⟨code, true, (s.hart c.p).thr.pc, c.e.addr, tval, detail, false, false⟩

/-- The R145 fault. -/
def VCtx.illegal (c : VCtx) (s : State) : VRes := .trap s (c.cause s causeIllegal 1 (wordOf c.e.instr))

/-! ## Elements (R18, R19, R144, R146) -/

/-- E of lane_of at a width (R4). -/
def VCtx.per (c : VCtx) (w : Nat) : Nat := Nat.max 1 (c.eff / (c.lanes * w))
/-- Elements of width `w` in one register. -/
def VCtx.cap (c : VCtx) (w : Nat) : Nat := c.eff / w
/-- Bit position of element i of a v register in its core's register. -/
def VCtx.vPos (c : VCtx) (w i : Nat) : Nat := (c.lane0 + i / c.per w) * 1024 + i % c.per w * w
/-- Bit position of mask bit i. -/
def VCtx.mPos (c : VCtx) (i : Nat) : Nat := (c.lane0 + i / c.per c.sew) * 512 + i % c.per c.sew
/-- Bit position of topology entry i (R180). -/
def VCtx.tPos (c : VCtx) (i : Nat) : Nat := (c.lane0 + i / c.per c.sew) * 1024 + i % c.per c.sew * 16

/-- The predicate at an index (R144). -/
def VCtx.pred (c : VCtx) (i : Nat) : Bool :=
  match c.mask with
  | none => true
  | some (_, m, sense) => m.testBit (c.mPos i) != sense
/-- Element i is active (R144). -/
def VCtx.act (c : VCtx) (i : Nat) : Bool := decide (c.vstart ≤ i) && decide (i < c.vl) && c.pred i
/-- The active indices, ascending. -/
def VCtx.actives (c : VCtx) : List Nat := (List.range c.vl).filter c.act

/-- v[r] of the core. -/
def vreg (s : State) (core r : Nat) : Nat := (vget 0 (s.vcore core).v r).toNat
/-- Element i of the operand at v[r] and width `w`: a wide operand's group included (R146). -/
def VCtx.ev (c : VCtx) (s : State) (r w i : Nat) : Nat :=
  let h := c.cap w
  getBits (vreg s c.core (r + i / h)) (c.vPos w (i % h)) w
/-- m[r].e[i]. -/
def VCtx.em (c : VCtx) (s : State) (r i : Nat) : Bool := (maskReg s c.core r).testBit (c.mPos i)
/-- t[r].e[i]. -/
def VCtx.et (c : VCtx) (s : State) (r i : Nat) : Nat := getBits (vget 0 (s.vcore c.core).t r).toNat (c.tPos i) 16

/-- Operand b at width `w`: the captured scalar, or an element of v[b] (R144). -/
def VCtx.opb (c : VCtx) (s : State) (sb : Bool) (b w i : Nat) : Nat :=
  if sb then c.e.b.toNat % 2 ^ w else c.ev s b w i

/-- A destination and a source group share a register (R146). -/
def shares (a na b nb : Nat) : Bool := decide (a < b + nb) && decide (b < a + na)

/-- Registers of an operand at width `w` (R146). -/
def VCtx.span (c : VCtx) (w : Nat) : Nat := Nat.max 1 (w / c.sew)

/-! ## Writing destinations (R19, R95, R100) -/

/-- The bits of a hart's lanes in a core's register whose lanes hold `lw` bits each. -/
def VCtx.inside (c : VCtx) (lw : Nat) : Nat := (2 ^ (c.lanes * lw) - 1) <<< (c.lane0 * lw)

/-- Bits that elements of width `w` cover in `n` lanes from the hart's lowest on. -/
def coverLanes (lw bits lane0 : Nat) : Nat → Nat
  | 0 => 0
  | n + 1 => coverLanes lw bits lane0 n ||| ((2 ^ bits - 1) <<< ((lane0 + n) * lw))

/-- The bits of a v or t register that elements cover (R19). -/
def VCtx.cover (c : VCtx) (n per w : Nat) : Nat :=
  coverLanes 1024 (per * w) c.lane0 (Nat.min c.lanes ((n + per - 1) / per))

/-- Replace elements `lo` to `lo + n - 1` by what `f` gives. -/
def setElems (pos : Nat → Nat) (w : Nat) (f : Nat → Option Nat) (lo : Nat) : Nat → Nat → Nat
  | 0, r => r
  | n + 1, r =>
    let r' := setElems pos w f lo n r
    match f (lo + n) with
    | none => r'
    | some v => putBits r' (pos (lo + n)) w v

/-- A register with every bit that no element covers zero (R19). -/
def cleared (inside cover r : Nat) : Nat := r ^^^ (r &&& (inside ^^^ cover))

/-- Set VDIRTY bits (R100). -/
def State.dirty (s : State) (p bit : Nat) : State :=
  s.updHart p (fun h => { h with vdirty := h.vdirty ||| (1#50 <<< bit) })

/-- v[r] := a whole register of the core. -/
def State.putVreg (s : State) (core r x : Nat) : State :=
  s.updVcore core (fun k => { k with v := vset k.v r (BitVec.ofNat 32768 x) })
def State.putMreg (s : State) (core r x : Nat) : State :=
  s.updVcore core (fun k => { k with m := vset k.m r (BitVec.ofNat 16384 x) })
def State.putTreg (s : State) (core r x : Nat) : State :=
  s.updVcore core (fun k => { k with t := vset k.t r (BitVec.ofNat 32768 x) })

/-- What R95 writes at an index: the result where active, zero where inactive under a zeroing prefix, else nothing. -/
def VCtx.dest (c : VCtx) (f : Nat → Nat) (i : Nat) : Option Nat :=
  if i < c.vstart ∨ c.vl ≤ i then none else if c.pred i then some (f i) else if c.zero then some 0 else none

/-- Write the elements `off` … of an operand that one register v[r] holds at width `w`; `hi` is one above the last index
that may be written. -/
def VCtx.writeV (c : VCtx) (s : State) (r w off hi : Nat) (f : Nat → Option Nat) : State :=
  let n := c.cap w
  let base := cleared (c.inside 1024) (c.cover n (c.per w) w) (vreg s c.core r)
  ((s.putVreg c.core r (setElems (c.vPos w) w (fun j => f (off + j)) 0 (Nat.min n (hi - off)) base)).dirty c.p r).clean c.p 2 r

/-- Write an operand of `n` registers at width `w`. -/
def VCtx.writeGroup (c : VCtx) (s : State) (r w hi : Nat) (f : Nat → Option Nat) (n : Nat) : State :=
  (List.range n).foldl (fun s k => c.writeV s (r + k) w (k * c.cap w) hi f) s

/-- The copy register of the v or t file (R77). -/
def VCtx.copy (c : VCtx) (file : CFile) : Option Nat :=
  match c.e.pfx with
  | some x => if x.cfile = file then some x.creg.toNat else none
  | none => none

/-- Write a v destination and its copy: `f` gives what is written at each index. DESIGN CHOICE (log 63): a register of both the
destination group and the copy group keeps the later write, the copy's of its row, or the destination's of a later row. -/
def VCtx.putV' (c : VCtx) (s : State) (d w n row hi : Nat) (f : Nat → Option Nat) : State :=
  let s := c.writeGroup s (d + row) w hi f n
  match c.copy .v with
  | some x => if x = d then s else c.writeGroup s (x + row) w hi f n
  | none => s

/-- Write a v destination by R95, and its copy register (R77). -/
def VCtx.putV (c : VCtx) (s : State) (d w : Nat) (f : Nat → Nat) : State :=
  c.putV' s d w (c.span w) 0 c.vl (c.dest f)

/-- Write a v destination whose inactive elements keep their values under every prefix (R167, R174), and its copy register. -/
def VCtx.keepV (c : VCtx) (s : State) (d w : Nat) (f : Nat → Nat) : State := { c with zero := false }.putV s d w f

/-- Write an m destination by R95: bits at and above VL are zero. -/
def VCtx.putM (c : VCtx) (s : State) (d : Nat) (f : Nat → Bool) : State :=
  let old := maskReg s c.core d
  let keep (i : Nat) : Nat := bcode (old.testBit (c.mPos i))
  let g (i : Nat) : Option Nat := some (match c.dest (fun i => bcode (f i)) i with
    | some v => v
    | none => keep i)
  ((s.putMreg c.core d (setElems c.mPos 1 g 0 c.vl (cleared (c.inside 512) 0 old))).dirty c.p (32 + d)).clean c.p 3 d

/-- Write one t register. -/
def VCtx.writeT (c : VCtx) (s : State) (d : Nat) (f : Nat → Option Nat) : State :=
  let old := (vget 0 (s.vcore c.core).t d).toNat
  let base := cleared (c.inside 1024) (c.cover (c.cap c.sew) (c.per c.sew) 16) old
  ((s.putTreg c.core d (setElems c.tPos 16 f 0 c.vl base)).dirty c.p (40 + d)).clean c.p 4 d

/-- Write a t destination by R95, and its copy register. -/
def VCtx.putT (c : VCtx) (s : State) (d : Nat) (f : Nat → Nat) : State :=
  let s := c.writeT s d (c.dest f)
  match c.copy .t with
  | some x => if x = d then s else c.writeT s x (c.dest f)
  | none => s

/-! ## Flags and checks -/

/-- Flags of the executing instruction (R58, R59). -/
def VCtx.flag (c : VCtx) (s : State) (f : Flags) : State := s.updHart c.p (fun h => { h with fflags := h.fflags ||| f })

/-- The flags that the active elements raise (R59). -/
def VCtx.flagsOf (c : VCtx) (f : Nat → Flags) : Flags := c.actives.foldl (fun a i => a ||| f i) 0

/-- The rounding mode of a code: DYN is the captured FRM (R50). SR is handled by its instructions. -/
def VCtx.mode (c : VCtx) (rc : Rc) : RMode := Rc.mode rc c.e.frm

/-- A register that an instruction reads holds an uncorrectable word (R219): files 2 v, 3 m, 4 t, 5 pa. -/
def VCtx.bad (c : VCtx) (s : State) (file r : Nat) : Bool := s.badRegs.contains (c.p, file, r)

/-- The groups an instruction reads (register and count), those it writes, the m and t registers it reads: a group past v31
takes R145 (R96), an uncorrectable register takes UNCORRECTABLE (R147, R219), nothing written in either case. -/
def VCtx.guardRegs (c : VCtx) (s : State) (srcs dsts : List (Nat × Nat)) (ms ts : List Nat) (k : VRes) : VRes :=
  let copies := match c.copy .v with
    | some x => dsts.map (fun g => (x, g.2))
    | none => []
  let masks := match c.mask with
    | some (m, _, _) => m :: ms
    | none => ms
  if (srcs ++ dsts ++ copies).any (fun g => 32 < g.1 + g.2) then c.illegal s
  else if srcs.any (fun g => (List.range g.2).any (fun j => c.bad s 2 (g.1 + j))) || masks.any (c.bad s 3) ||
      ts.any (c.bad s 4) then .trap s (c.cause s causeUncorrectable 1 0)
  else k

/-- The registers' checks for an instruction that works on VL elements: a VL beyond VLMAX, which a csrw of VTYPE can leave, is
a condition of R145 (log 37). -/
def VCtx.guard (c : VCtx) (s : State) (srcs dsts : List (Nat × Nat)) (ms ts : List Nat) (k : VRes) : VRes :=
  if c.cap c.sew < c.vl then c.illegal s else c.guardRegs s srcs dsts ms ts k

/-- Source group of operand b. -/
def srcB (sb : Bool) (b n : Nat) : List (Nat × Nat) := if sb then [] else [(b, n)]

/-! ## The two shapes of elementwise instructions (R147, R148) -/

/-- An elementwise instruction of the first kind: `f` gives the result and flags at a row and an index; with ROWS > 1 every
row of the group is computed before any is written. `every` writes inactive elements too. -/
def VCtx.rowsOp (c : VCtx) (s : State) (srcs : List Nat) (d : Nat) (every : Bool) (f : Nat → Nat → Nat × Flags) : VRes :=
  c.guard s (srcs.map (fun r => (r, c.rows))) [(d, c.rows)] [] []
    (let w (j : Nat) : Nat → Option Nat := if every then
          fun i => if i < c.vstart ∨ c.vl ≤ i then none else some (f j i).1
        else c.dest (fun i => (f j i).1)
     let s' := (List.range c.rows).foldl (fun s' j => c.putV' s' d c.sew 1 j c.vl (w j)) s
     let fl := (List.range c.rows).foldl (fun a j => a ||| c.flagsOf (fun i => (f j i).2)) 0
     .ok (c.flag s' fl) none)

end Sys2Proof.Machine
end

