-- ==== Sys2Proof/Machine/Units.lean ====
section
/-! DEFINITION. Machine/Units.lean: the three units that a core's harts share (R40, R369–R371): which requests the instruction
at a VIQ head makes of them, and the deficit round-robin that grants them (log 49). -/

namespace Sys2Proof.Machine

/-! ## Element addresses (R232, R236) -/

/-- Bits of a vector memory width (R76): code 6 is VTYPE.SEW. -/
def VWidth.bits (w : VWidth) (sew : Nat) : Nat :=
  match w with
  | .e2 => 2
  | .e4 => 4
  | .e8 => 8
  | .e16 => 16
  | .e32 => 32
  | .e64 => 64
  | .sew => sew

/-- The element addresses of a vector memory instruction (R232). -/
inductive VAddr where
  | unit
  | strided
  | indexed (ix : Nat)
  deriving DecidableEq, Repr

/-- The first byte of element i of a unit-stride or strided access (R232). -/
def VCtx.groupAddr (c : VCtx) (g : VAddr × Nat) (i : Nat) : Int :=
  match g.1 with
  | .strided => (c.e.a.toNat : Int) + (i : Int) * c.e.b.toInt
  | _ => (c.e.a.toNat : Int) + (i * g.2 / 8 : Nat)

/-- The address of element i (R232), exactly. -/
def VCtx.eaddr (c : VCtx) (s : State) (g : VAddr) (w i : Nat) : Int :=
  match g with
  | .indexed ix => (c.e.a.toNat : Int) + (c.ev s ix c.sew i : Int)
  | g => c.groupAddr (g, w) i

/-- The elements an execution acts on: the active ones, at a replay those whose FMASK bits are set (R236). -/
def VCtx.todo (c : VCtx) (s : State) : List Nat :=
  if c.e.st = .replay then c.actives.filter (fun i => (s.hart c.p).fmask.getLsbD i) else c.actives

/-! ## Requests (R369) -/

/-- The shared unit that a VIQ head asks for (R369): 0 the VMU, 1 the feed port, 2 the gather TLB. -/
def wantsUnit (u : Nat) (i : Instr) : Bool :=
  match u with
  | 0 => (vuse i).mem && (match i with
      | .mfeed _ _ _ _ | .mpull _ _ _ _ | .vopacc _ _ _ _ _ _ _ | .tokpush _ | .tokpop _ | .strcfg _ _ _ _ _ _ => false
      | _ => true)
  | 1 => match i with
    | .mfeed _ _ _ _ => true
    | _ => false
  | _ => match i with
    | .vldx _ _ _ _ _ _ _ _ _ | .vldxff _ _ _ _ _ _ _ _ _ | .vstx _ _ _ _ _ _ _ _ | .vamo _ _ _ _ _ _ _ _ |
      .vlock _ _ _ _ _ _ | .vunlock _ _ _ _ => true
    | _ => false

/-- The addresses of a memory instruction's elements, with their width (R232); `none` for one without. -/
def elemForm (i : Instr) (sew : Nat) : Option (VAddr × Nat) :=
  match i with
  | .vld _ _ w _ _ _ _ _ | .vldff _ _ w _ _ _ _ _ | .vst _ _ w _ _ _ _ => some (.unit, VWidth.bits w sew)
  | .vlds _ _ _ w _ _ _ _ _ | .vsts _ _ _ w _ _ _ _ => some (.strided, VWidth.bits w sew)
  | .vldx _ _ ix w _ _ _ _ _ | .vldxff _ _ ix w _ _ _ _ _ | .vstx _ _ ix w _ _ _ _ | .vamo _ _ ix w _ _ _ _ =>
    some (.indexed ix.toNat, VWidth.bits w sew)
  | .lde _ _ _ _ => some (.unit, sew)
  | _ => none

/-- How many different members a list has. -/
def countDistinct (xs : List Int) : Nat := xs.eraseDups.length

/-- The line accesses of an instruction (R233): one for each line that its elements lie in, with O one for each element; one
for each lock's address (R241); one for an instruction without element addresses (log 49). -/
def VCtx.lineAccesses (c : VCtx) (s : State) (i : Instr) : Nat :=
  match elemForm i c.sew, i with
  | some g, _ =>
    if orderedBit i then (c.todo s).length else countDistinct ((c.todo s).map (fun j => c.eaddr s g.1 g.2 j / 128))
  | none, .vlock _ _ ix _ _ _ | none, .vunlock _ ix _ _ => countDistinct (c.actives.map (fun j => (c.ev s ix.toNat 64 j : Int)))
  | none, .vsave _ _ _ _ | none, .vrestore _ _ _ _ => (64 + c.vlen / 8 + 127) / 128
  | none, _ => 1

/-- The requests that an instruction makes of a unit: line accesses of the VMU, rows of the feed port, lookups of the gather
TLB (R369). -/
def VCtx.requests (c : VCtx) (s : State) (i : Instr) (u : Nat) : Nat :=
  if !wantsUnit u i then 0
  else match u with
    | 0 => c.lineAccesses s i
    | 1 => c.rows - c.e.done.steps
    | _ => (c.todo s).length

/-- The requests that the hart in a slot has ready at a unit: it is runnable there, and they are not granted yet (R369). -/
def asksOf (s : State) (p u : Nat) : Nat :=
  match s.hart? p with
  | none => 0
  | some h =>
    if h.vecStopped || vectorParked h then 0
    else match h.viq with
      | e :: _ => (vctx s p e e.instr).requests s e.instr u - vget 0 h.served u
      | [] => 0

/-! ## Deficit round-robin (R369) -/

/-- A unit's arbitration on a core: what each slot still asks for, its credit, the slot whose turn it is, and the grants
made. -/
structure Drr where
  asks : Vector Nat 8
  credit : Vector Nat 8
  turn : Nat
  got : Vector Nat 8
  deriving DecidableEq, Repr

/-- A slot has a request ready. -/
def Drr.ready (d : Drr) (j : Nat) : Bool := decide (0 < vget 0 d.asks j)

/-- A slot's request is granted for one unit of its credit. -/
def Drr.give (d : Drr) (j : Nat) : Drr :=
  ⟨vset d.asks j (vget 0 d.asks j - 1), vset d.credit j (vget 0 d.credit j - 1), j, vset d.got j (vget 0 d.got j + 1)⟩

/-- A slot has that much credit. -/
def Drr.setCredit (d : Drr) (j n : Nat) : Drr := { d with credit := vset d.credit j n }

/-- The next slots after one are visited, `n` of them left: the first with a ready request is credited and granted; a slot
without one holds no credit. -/
def Drr.visit (ws : Vector Nat 8) (part : Nat) : Nat → Nat → Drr → Drr × Bool
  | 0, _, d => (d, false)
  | n + 1, j, d =>
    let j := (j + 1) % Nat.max 1 part
    if d.ready j then ((d.setCredit j (vget 0 d.credit j + vget 1 ws j)).give j, true)
    else Drr.visit ws part n j (d.setCredit j 0)

/-- One grant, if a request is ready: to the slot whose turn it is while its credit lasts, else at the next visits. -/
def Drr.grant (ws : Vector Nat 8) (part : Nat) (d : Drr) : Drr × Bool :=
  if d.ready d.turn then
    (if 0 < vget 0 d.credit d.turn then (d.give d.turn, true) else d.visit ws part part d.turn)
  else (d.setCredit d.turn 0).visit ws part part d.turn

/-- Grants until a slot's requests are all granted, at most `n`. -/
def Drr.serve (ws : Vector Nat 8) (part target : Nat) : Nat → Drr → Drr
  | 0, d => d
  | n + 1, d => if d.ready target then Drr.serve ws part target n (d.grant ws part).1 else d

/-! ## The state's side -/

/-- The share weights of a core's slots, 0 read as 1 (R26, R369). -/
def weightsOf (s : State) (core : Nat) : Vector Nat 8 :=
  Vector.ofFn (fun j => Nat.max 1 (((s.launch? (s.hart (core * 8 + j.val)).launch).map (·.desc.weight)).getD 0))

/-- A unit of a core as it stands. -/
def unitOf (s : State) (core u : Nat) : Drr :=
  let k := s.vcore core
  ⟨Vector.ofFn (fun j => if j.val < k.part then asksOf s (core * 8 + j.val) u else 0),
    vget (Vector.replicate 8 0) k.deficit u, vget 7 k.turn u, Vector.replicate 8 0⟩

/-- Count an event several times (R320). -/
def countMany (h : Hart) (code : Nat) : Nat → Hart
  | 0 => h
  | n + 1 => countMany (State.countEv h code) code n

/-- A hart has been granted `n` more requests of a unit; those of the VMU are an event (R320). -/
def serveHart (h : Hart) (u n : Nat) : Hart :=
  let h := if u = 0 then countMany h 0x30 n else h
  { h with served := vset h.served u (vget 0 h.served u + n) }

/-- A core's unit stands as its arbitration leaves it. -/
def putUnit (s : State) (core u : Nat) (d : Drr) : State :=
  let s := s.updVcore core (fun k => { k with deficit := vset k.deficit u d.credit, turn := vset k.turn u d.turn })
  (List.range 8).foldl (fun s j =>
    if vget 0 d.got j = 0 then s else s.updHart (core * 8 + j) (fun h => serveHart h u (vget 0 d.got j))) s

/-- What an executing instruction asks of a unit has been granted, with the grants that come before; `s` is the state in which it
executed, `t` the one it leaves. -/
def VCtx.grantedBy (c : VCtx) (i : Instr) (s : State) (t : State) (u : Nat) : State :=
  let n := c.requests s i u
  if n = 0 then t
  else
    let j := slotOf c.p
    let d := unitOf s c.core u
    let d := { d with asks := vset d.asks j (n - vget 0 (s.hart c.p).served u) }
    let d := d.serve (weightsOf s c.core) (s.vcore c.core).part j d.asks.toList.sum
    (putUnit t c.core u d).updHart c.p (fun h => { h with served := vset h.served u (vget 0 h.served u - n) })

/-- What an executing instruction asks of the three units has been granted (R40, R369). -/
def VCtx.granted (c : VCtx) (i : Instr) (s t : State) : State :=
  c.grantedBy i s (c.grantedBy i s (c.grantedBy i s t 0) 1) 2

/-- A hart with no request ready at a unit holds no credit there (R369). -/
def settleCredit (s : State) (p : Nat) : State :=
  let core := coreOf p
  let drop (u : Nat) (k : VCore) : VCore :=
    if asksOf s p u = 0 then { k with deficit := vset k.deficit u (vset (vget (Vector.replicate 8 0) k.deficit u) (slotOf p) 0) } else k
  if (s.vcore core).deficit.toList.all (fun d => vget 0 d (slotOf p) == 0) then s
  else s.updVcore core (fun k => drop 2 (drop 1 (drop 0 k)))

end Sys2Proof.Machine
end

