-- ==== Sys2Proof/Machine/Head.lean ====
section
/-! DEFINITION. Machine/Head.lean: how a vector, tree, structure or engine word is executed at the VIQ head: its retirement and
reply (R94, R267), where it may stop (R147, R237, R354), and the outcomes that its meaning gives. -/

namespace Sys2Proof.Machine

/-! ## Retirement (R94, R107, R234) -/

/-- Deliver a reply to its registers and free its slot (R94, R267). -/
def deliverReply (s : State) (p k : Nat) (v : Word) : State :=
  match vget none (s.hart p).replies k with
  | none => s
  | some r =>
    let s := s.updHart p (fun h =>
      let t := if r.toF then h.thr.wf r.reg v else h.thr.wx r.reg v
      { h with
        thr := match r.copy with
          | some x => t.wx x v
          | none => t
        replies := vset h.replies k none })
    let s := s.cleanReg (.user p) r.toF r.reg
    match r.copy with
    | some x => s.cleanReg (.user p) false x
    | none => s

/-- The head retires: its reply is delivered, VSTART becomes 0, and an H instruction's accesses have been performed before
later scalar accesses go on (R94, R107, R234); with no further request ready it leaves no credit (R369). -/
def retireHead (s : State) (p : Nat) (e : VEntry) (reply : Option Word) : State :=
  let s := match e.slot with
    | some k => deliverReply s p k (match reply with
        | some v => v
        | none => ((vget none (s.hart p).replies k).bind (·.value)).getD 0)
    | none => s
  let s := if (s.hart p).hold = 1 then s.drainV p else s
  settleCredit (s.updHart p (fun h => { State.popViq (State.countEv h 0x0003) with vstart := 0 })) p

/-- After the head: the vector half goes on while entries wait, else the scalar half. -/
def afterHead (s : State) (p : Nat) : State :=
  { s with agent := if (s.hart p).viq.isEmpty then .user p else .vec p }

/-- A vector memory instruction's accesses come after the scalar stores that a fence.sv names and after an lsync's join
(R228, R230). -/
def beforeAccess (s : State) (p : Nat) (e : VEntry) : State :=
  let s := s.drainBelow p e.needs
  if e.joined then s.drainV p else s

/-! ## Element groups and pre-emption (R147, R237, R354) -/

/-- Instructions with element groups in memory, their addresses and widths (R237); an expanding load has none. -/
def memGroups (i : Instr) (sew : Nat) : Option (VAddr × Nat) :=
  match i with
  | .vld _ _ w _ _ _ _ x => if x then none else some (.unit, VWidth.bits w sew)
  | .vlds _ _ _ w _ _ _ _ x => if x then none else some (.strided, VWidth.bits w sew)
  | .vst _ _ w _ _ _ _ => some (.unit, VWidth.bits w sew)
  | .vsts _ _ _ w _ _ _ _ => some (.strided, VWidth.bits w sew)
  | _ => none

/-- A vector load of elements. -/
def isLoad (i : Instr) : Bool :=
  match i with
  | .vld _ _ _ _ _ _ _ _ | .vlds _ _ _ _ _ _ _ _ _ | .vldx _ _ _ _ _ _ _ _ _ => true
  | _ => false

/-- A vector memory instruction with O whose elements may be performed at different moments (R233): not an expanding or
first-fault load, and not vamo, whose parts are its own (R240). -/
def singly (i : Instr) : Bool :=
  orderedBit i && (match i with
    | .vld _ _ _ _ _ _ _ x | .vlds _ _ _ _ _ _ _ _ x | .vldx _ _ _ _ _ _ _ _ x => !x
    | .vst _ _ _ _ _ _ _ | .vsts _ _ _ _ _ _ _ _ | .vstx _ _ _ _ _ _ _ _ => true
    | _ => false)

/-- The instruction may stop between element groups (R147, R237). -/
def VCtx.mayStop (c : VCtx) (i : Instr) : Bool :=
  (vuse i).first && c.e.st != .replay && decide (c.vl ≤ c.eff / c.sew) &&
  (if (vuse i).mem then (memGroups i c.sew).isSome else c.rows == 1)

/-- The indices of a vector memory instruction at which it may stop: for a pre-emption, and between the accesses of a store, those
where a new 64-byte sector begins (R237); between the accesses of a load, where a new 128-byte line does (R233). -/
def VCtx.groupStarts (c : VCtx) (i : Instr) (g : VAddr × Nat) (pre : Bool) : List Nat :=
  let size : Int := if pre || !isLoad i then 64 else 128
  (List.range c.vl).filter (fun j =>
    decide (c.vstart < j) && c.groupAddr g j / size != c.groupAddr g (j - 1) / size)

/-- The index after `n` element groups from VSTART on; with O each element is an access of its own (R233); an instruction
without memory elements may stop at any index (log 24). -/
def VCtx.groupEnd (c : VCtx) (i : Instr) (n : Nat) (pre : Bool) : Nat :=
  match memGroups i c.sew, orderedBit i && !pre with
  | some g, false => (c.vstart :: c.groupStarts i g pre).getD n c.vl
  | _, _ => Nat.min c.vl (c.vstart + n)

/-- The VIQ head's progress (R356). -/
def setHead (h : Hart) (st : EntryState) : Hart :=
  { h with viq := match h.viq with
      | e :: rest => { e with st := st, done := .zero } :: rest
      | [] => [] }

/-- What the VIQ head has done in its steps so far. -/
def setDone (h : Hart) (d : Partial) : Hart :=
  { h with viq := match h.viq with
      | e :: rest => { e with done := d } :: rest
      | [] => [] }

/-- The instruction's accesses may come at different moments: where a pre-emption may stop it, and with O. -/
def VCtx.mayPause (c : VCtx) (i : Instr) : Bool :=
  c.mayStop i || (singly i && c.e.st != .replay && decide (c.vl ≤ c.eff / c.sew))

/-- A pre-emption may stop the instruction at an index: where an element group begins (R237). -/
def VCtx.stopsAt (c : VCtx) (i : Instr) (b : Nat) : Bool :=
  c.mayStop i && (match memGroups i c.sew with
    | some g => (c.groupStarts i g true).contains b
    | none => true)

/-- The head performs `n` element groups and stops with VSTART at the next one, for a pre-emption or not; `none` when it
completes or fails first. From an index at which no pre-emption may stop it goes on to the next group for one. -/
def stopRun (c : VCtx) (i : Instr) (k : VCtx → State → VRes) (s : State) (pre : Bool) (n : Nat) : Option State :=
  let b := c.groupEnd i (if pre && decide (0 < c.e.done.steps) then Nat.max n 1 else n) pre
  if (if pre then c.mayStop i else c.mayPause i) && decide (b < c.vl) then
    let steps := bcode (!c.stopsAt i b)
    let c := { c with vl := b }
    match k c s with
    | .ok s' _ => some ((c.granted i s s').updHart c.p (fun h =>
        setDone (setHead { h with vstart := BitVec.ofNat 16 b } .stopped) { Partial.zero with steps := steps }))
    | _ => none
  else none

/-- A held pre-emption request is delivered as PREEMPT, with every line access of the hart performed first (R354). -/
def deliverPreempt (s : State) (p : Nat) : State :=
  match (s.hart p).preempt with
  | none => s
  | some d =>
    let s := (((s.drainV p).updHart p (fun h => { h with preempt := none, stopAt := none, vecStopped := true })).dropCredit
      p).stopUser p
    s.deliver p ⟨causePreempt, false, (s.hart p).thr.pc, (s.hart p).thr.pc, 0, d, false, false⟩

/-- The pre-emption is put off: the head's fault comes first (R354), and a replay begins anew (R246). -/
def endStop (s : State) (p : Nat) : State :=
  s.updHart p (fun h => { setDone h .zero with stopAt := none, served := Vector.replicate 3 0 })

/-- The head's pause is over. -/
def unpause (s : State) (p : Nat) : State :=
  if (s.hart p).pause.isSome then s.updHart p (fun h => { h with pause := none }) else s

/-- Execute the VIQ head of a hart as an instruction: with a pause, only some of its element groups, the rest at a later step
(R237, R39). An entry whose word is uncorrectable takes UNCORRECTABLE (R219). What it asks of the shared units has been granted
(R369); a cause raised before any element is accessed leaves nothing granted. -/
def runHead (i : Instr) (k : VCtx → State → VRes) (p : Nat) (s : State) : Out :=
  match (s.hart p).viq with
  | [] => .next { s with agent := .user p }
  | e :: _ =>
    let s := { beforeAccess s p e with agent := .vec p }
    let c := vctx s p e i
    let s := unpause s p
    if e.bad && e.done.steps == 0 then .next ((endStop s p).takeTrap p (c.cause s causeUncorrectable 1 0))
    else match (s.hart p).stopAt.bind (stopRun c i k s true), c.pause.bind (stopRun c i k s false) with
    | some s', _ => .next (deliverPreempt s' p)
    | none, some s' => .next s'
    | none, none =>
      match k c s with
      | .ok s' r =>
        let t := retireHead (c.granted i s s') p e r
        .next (if (s.hart p).stopAt.isSome then deliverPreempt t p else afterHead t p)
      | .trap s' c' => .next ((endStop (if State.awaitsReplay (s'.hart p) then c.granted i s s' else s') p).takeTrap p c')
      | .after s' c' => .next ((endStop (retireHead (c.granted i s s') p e none) p).takeTrap p c')
      | .wait s' => .next { s' with agent := s'.rotate }
      | .part s' d => .next ((({ c with rows := d.steps } : VCtx).grantedBy i s s' 1).updHart p (fun h => setDone h d))

/-- A word of classes 0x6–0xD: a user thread pushes it, and with nothing before it in the VIQ its vector half executes it at
once, unless the push has spent the region's budget (R36); the vector half executes it at the head (R17). -/
def vecOp (i : Instr) (k : VCtx → State → VRes) (s : State) : Out :=
  match s.agent with
  | .user p => withPush s p i (fun s' =>
      if (s.hart p).viq.isEmpty && !s'.budgetSpent p then runHead i k p s' else .next s')
  | .vec p => runHead i k p s
  | _ => .next (s.trapHere causeIllegal 0 (wordOf i))

end Sys2Proof.Machine
end

