-- ==== Sys2Proof/Machine/VecInt.lean ====
section
/-! DEFINITION. Machine/VecInt.lean: configuration (R149, R150), masks (R151–R153) and integer arithmetic (R154–R159) of classes
0x6 and 0x7. -/

namespace Sys2Proof.Machine

/-! ## Configuration -/

/-- SETVL (R149): x[d] was written at the push. -/
def execSetvl (d a : Reg) (vt : BitVec 9) (s : State) : Out :=
  vecOp (.setvl d a vt) (fun c s =>
    .ok (s.updHart c.p (fun h => { h with
      vtype := vt
      vl := BitVec.ofNat 16 (Nat.min c.e.a.toNat (c.eff / sewBits vt))
      rows := 1
      vstart := 0 })) none) s

/-- clamp(x, 1, 8) (R150). -/
def clampRows (x : Word) : BitVec 4 := BitVec.ofNat 4 (Nat.max 1 (Nat.min x.toNat 8))

/-- SETSHAPE (R150). -/
def execSetshape (d a b : Reg) (s : State) : Out :=
  vecOp (.setshape d a b) (fun c s =>
    .ok (s.updHart c.p (fun h => { h with
      vl := BitVec.ofNat 16 (Nat.min c.e.a.toNat (c.cap c.sew))
      rows := clampRows c.e.b })) none) s

/-! ## Masks (R151–R153) -/

/-- A mask operation of active bits (R151). -/
def maskOp (i : Instr) (d a : MReg) (b : Option MReg) (f : Bool → Bool → Bool) (s : State) : Out :=
  vecOp i (fun c s => c.guard s [] [] (a.toNat :: (b.map (·.toNat)).toList) []
    (.ok (c.putM s d.toNat (fun j => f (c.em s a.toNat j) (match b with
      | some r => c.em s r.toNat j
      | none => false))) none)) s

/-- VMAND (R151). -/
def execVmand (d a b : MReg) (mk : Bool) (s : State) : Out := maskOp (.vmand d a b mk) d a (some b) (· && ·) s
/-- VMOR (R151). -/
def execVmor (d a b : MReg) (mk : Bool) (s : State) : Out := maskOp (.vmor d a b mk) d a (some b) (· || ·) s
/-- VMXOR (R151). -/
def execVmxor (d a b : MReg) (mk : Bool) (s : State) : Out := maskOp (.vmxor d a b mk) d a (some b) (· != ·) s
/-- VMNOT (R151). -/
def execVmnot (d a : MReg) (mk : Bool) (s : State) : Out := maskOp (.vmnot d a mk) d a none (fun x _ => !x) s

/-- The active indices whose bit of m[a] is set. -/
def VCtx.ones (c : VCtx) (s : State) (a : Nat) : List Nat := c.actives.filter (c.em s a)

/-- VPOPC (R152). -/
def execVpopc (d : Reg) (a : MReg) (mk : Bool) (s : State) : Out :=
  vecOp (.vpopc d a mk) (fun c s => c.guard s [] [] [a.toNat] []
    (.ok s (some (BitVec.ofNat 64 (c.ones s a.toNat).length)))) s
/-- VFIRST (R152). -/
def execVfirst (d : Reg) (a : MReg) (mk : Bool) (s : State) : Out :=
  vecOp (.vfirst d a mk) (fun c s => c.guard s [] [] [a.toNat] []
    (.ok s (some (BitVec.ofNat 64 ((c.ones s a.toNat).headD c.vl))))) s

/-- What vmspan writes at i, for the first and last set positions (R153); with none, the first is VL and there is no last. -/
def spanBit (v : SpanVar) (first : Nat) (last : Option Nat) (i : Nat) : Bool :=
  match v with
  | .pre => decide (i < first)
  | .thru => decide (i ≤ first)
  | .post => last.all (fun l => decide (l < i))
  | .span => last.any (fun l => decide (first ≤ i) && decide (i ≤ l))

/-- VMSPAN (R153). -/
def execVmspan (d a : MReg) (mk : Bool) (v : SpanVar) (s : State) : Out :=
  vecOp (.vmspan d a mk v) (fun c s => c.guard s [] [] [a.toNat] []
    (let os := c.ones s a.toNat
     .ok (c.putM s d.toNat (spanBit v (os.headD c.vl) os.getLast?)) none)) s

/-- VMRANK (R153). -/
def execVmrank (d : Reg) (a : MReg) (mk incl : Bool) (s : State) : Out :=
  vecOp (.vmrank d a mk incl) (fun c s => c.guard s [] [(d.toNat, 1)] [a.toNat] []
    (let os := c.ones s a.toNat
     .ok (c.putV s d.toNat c.sew (fun i => (os.filter (fun k => if incl then k ≤ i else k < i)).length)) none)) s

/-! ## Same-width integer arithmetic (R154) -/

/-- An elementwise integer instruction: `f w a b` gives the result and flags. -/
def intOp (i : Instr) (d a b : Reg) (sb : Bool) (f : Nat → Nat → Nat → Nat × Flags) (s : State) : Out :=
  vecOp i (fun c s => c.rowsOp s (a.toNat :: (if sb then [] else [b.toNat])) d.toNat false (fun j e =>
    f c.sew (c.ev s (a.toNat + j) c.sew e) (c.opb s sb (b.toNat + j) c.sew e))) s

/-- The result of an operation that sets no flag. -/
def plain (f : Nat → Nat → Nat → Nat) (w a b : Nat) : Nat × Flags := (f w a b, 0)

/-- VADD (R154). -/
def execVadd (d a b : Reg) (mk sb : Bool) (s : State) : Out :=
  intOp (.vadd d a b mk sb) d a b sb (plain (fun _ x y => x + y)) s
/-- VSUB (R154). -/
def execVsub (d a b : Reg) (mk sb : Bool) (s : State) : Out :=
  intOp (.vsub d a b mk sb) d a b sb (plain (fun w x y => x + 2 ^ w - y)) s
/-- VMUL (R154). -/
def execVmul (d a b : Reg) (mk sb : Bool) (s : State) : Out :=
  intOp (.vmul d a b mk sb) d a b sb (plain (fun _ x y => x * y)) s

/-- The high half of a product (R154). -/
def mulhOf (v : MulhVar) (w x y : Nat) : Nat :=
  let a : Int := match v with
    | .uu => (x : Int)
    | _ => sgn w x
  let b : Int := match v with
    | .ss => sgn w y
    | _ => (y : Int)
  enc w (a * b / (2 : Int) ^ w)

/-- VMULH (R154). -/
def execVmulh (d a b : Reg) (mk sb : Bool) (v : MulhVar) (s : State) : Out :=
  intOp (.vmulh d a b mk sb v) d a b sb (plain (mulhOf v)) s
/-- VAND (R154). -/
def execVand (d a b : Reg) (mk sb : Bool) (s : State) : Out :=
  intOp (.vand d a b mk sb) d a b sb (plain (fun _ x y => x &&& y)) s
/-- VOR (R154). -/
def execVor (d a b : Reg) (mk sb : Bool) (s : State) : Out :=
  intOp (.vor d a b mk sb) d a b sb (plain (fun _ x y => x ||| y)) s
/-- VXOR (R154). -/
def execVxor (d a b : Reg) (mk sb : Bool) (s : State) : Out :=
  intOp (.vxor d a b mk sb) d a b sb (plain (fun _ x y => x ^^^ y)) s
/-- VSLL (R154): the shift is u(b) mod SEW. -/
def execVsll (d a b : Reg) (mk sb : Bool) (s : State) : Out :=
  intOp (.vsll d a b mk sb) d a b sb (plain (fun w x y => x <<< (y % w))) s
/-- VSRL (R154). -/
def execVsrl (d a b : Reg) (mk sb : Bool) (s : State) : Out :=
  intOp (.vsrl d a b mk sb) d a b sb (plain (fun w x y => x >>> (y % w))) s
/-- VSRA (R154). -/
def execVsra (d a b : Reg) (mk sb : Bool) (s : State) : Out :=
  intOp (.vsra d a b mk sb) d a b sb (plain (fun w x y => enc w (sgn w x / (2 : Int) ^ (y % w)))) s
/-- VMIN (R154). -/
def execVmin (d a b : Reg) (mk sb : Bool) (s : State) : Out :=
  intOp (.vmin d a b mk sb) d a b sb (plain (fun w x y => if sgn w x ≤ sgn w y then x else y)) s
/-- VMAX (R154). -/
def execVmax (d a b : Reg) (mk sb : Bool) (s : State) : Out :=
  intOp (.vmax d a b mk sb) d a b sb (plain (fun w x y => if sgn w x ≤ sgn w y then y else x)) s
/-- VMINU (R154). -/
def execVminu (d a b : Reg) (mk sb : Bool) (s : State) : Out :=
  intOp (.vminu d a b mk sb) d a b sb (plain (fun _ x y => Nat.min x y)) s
/-- VMAXU (R154). -/
def execVmaxu (d a b : Reg) (mk sb : Bool) (s : State) : Out :=
  intOp (.vmaxu d a b mk sb) d a b sb (plain (fun _ x y => Nat.max x y)) s

/-- The integer that bits stand for, signed or not (R48). -/
def intOf (sgnd : Bool) (w x : Nat) : Int := if sgnd then sgn w x else ((x % 2 ^ w : Nat) : Int)

/-- An exact result clamped to the w-bit range, SAT when that changes it (R48). -/
def clampTo (sgnd : Bool) (w : Nat) (z : Int) : Nat × Flags :=
  let lo : Int := if sgnd then -((2 : Int) ^ (w - 1)) else 0
  let hi : Int := if sgnd then (2 : Int) ^ (w - 1) - 1 else (2 : Int) ^ w - 1
  if z < lo then (enc w lo, fSAT) else if hi < z then (enc w hi, fSAT) else (enc w z, 0)

/-- VSADD (R154). -/
def execVsadd (d a b : Reg) (mk sb uns : Bool) (s : State) : Out :=
  intOp (.vsadd d a b mk sb uns) d a b sb (fun w x y => clampTo (!uns) w (intOf (!uns) w x + intOf (!uns) w y)) s
/-- VSSUB (R154). -/
def execVssub (d a b : Reg) (mk sb uns : Bool) (s : State) : Out :=
  intOp (.vssub d a b mk sb uns) d a b sb (fun w x y => clampTo (!uns) w (intOf (!uns) w x - intOf (!uns) w y)) s

/-! ## Comparison, merge and move (R155, R156) -/

/-- An integer condition (R155). -/
def icondHolds (c : ICond) (x y : Int) : Bool :=
  match c with
  | .eq => decide (x = y)
  | .ne => decide (x ≠ y)
  | .lt => decide (x < y)
  | .le => decide (x ≤ y)
  | .gt => decide (y < x)
  | .ge => decide (y ≤ x)

/-- VCMP (R155). -/
def execVcmp (d : MReg) (a b : Reg) (mk sb uns : Bool) (cc : ICond) (s : State) : Out :=
  vecOp (.vcmp d a b mk sb uns cc) (fun c s => c.guard s ((a.toNat, 1) :: srcB sb b.toNat 1) [] [] []
    (.ok (c.putM s d.toNat (fun i => icondHolds cc (intOf (!uns) c.sew (c.ev s a.toNat c.sew i))
      (intOf (!uns) c.sew (c.opb s sb b.toNat c.sew i)))) none)) s

/-- VMERGE (R156): every index from VSTART to VL − 1 is written, and the prefix zero bit has no effect. -/
def execVmerge (d a b : Reg) (mk sb : Bool) (s : State) : Out :=
  vecOp (.vmerge d a b mk sb) (fun c s =>
    c.rowsOp s (a.toNat :: (if sb then [] else [b.toNat])) d.toNat true (fun j e =>
      (if c.pred e then c.opb s sb (b.toNat + j) c.sew e else c.ev s (a.toNat + j) c.sew e, 0))) s

/-- VMV with var 00 (R156). -/
def execVmv (d b : Reg) (mk sb : Bool) (s : State) : Out :=
  vecOp (.vmv d b mk sb) (fun c s =>
    c.rowsOp s (if sb then [] else [b.toNat]) d.toNat false (fun j e => (c.opb s sb (b.toNat + j) c.sew e, 0))) s

/-- VMV_X (R156): the predicate has no effect. -/
def execVmvX (d a b : Reg) (mk : Bool) (s : State) : Out :=
  vecOp (.vmvX d a b mk) (fun c s => c.guard s [(a.toNat, 1)] [] [] []
    (let x := if c.e.b.toNat < c.vl then c.ev s a.toNat c.sew c.e.b.toNat else 0
     .ok s (some (if c.fmt = 0 then BitVec.ofInt 64 (sgn c.sew x) else BitVec.ofNat 64 x)))) s

/-! ## Widening and narrowing (R157–R159) -/

/-- A widening operation into v[d], v[d + 1] (R157). -/
def widenOp (i : Instr) (d a b : Reg) (sb uns : Bool) (f : Int → Int → Int) (s : State) : Out :=
  vecOp i (fun c s =>
    if c.sew = 64 ∨ shares d.toNat 2 a.toNat 1 ∨ (!sb ∧ shares d.toNat 2 b.toNat 1) then c.illegal s
    else c.guard s ((a.toNat, 1) :: srcB sb b.toNat 1) [(d.toNat, 2)] [] []
      (.ok (c.putV s d.toNat (2 * c.sew) (fun e => enc (2 * c.sew)
        (f (intOf (!uns) c.sew (c.ev s a.toNat c.sew e)) (intOf (!uns) c.sew (c.opb s sb b.toNat c.sew e))))) none)) s

/-- VWADD (R157). -/
def execVwadd (d a b : Reg) (mk sb uns : Bool) (s : State) : Out :=
  widenOp (.vwadd d a b mk sb uns) d a b sb uns (· + ·) s
/-- VWMUL (R157). -/
def execVwmul (d a b : Reg) (mk sb uns : Bool) (s : State) : Out :=
  widenOp (.vwmul d a b mk sb uns) d a b sb uns (· * ·) s

/-- What vnarrow makes of a 2·SEW element (R158). -/
def narrowOf (sat uns : Bool) (w x : Nat) : Nat × Flags :=
  if sat then clampTo (!uns) w (intOf (!uns) (2 * w) x) else (x % 2 ^ w, 0)

/-- VNARROW (R158). At SEW 64 its source would be 128 bits wide: two registers, as R146 gives. -/
def execVnarrow (d a : Reg) (mk sat uns : Bool) (s : State) : Out :=
  vecOp (.vnarrow d a mk sat uns) (fun c s =>
    if shares d.toNat 1 a.toNat 2 then c.illegal s
    else c.guard s [(a.toNat, 2)] [(d.toNat, 1)] [] []
      (let f (e : Nat) := narrowOf sat uns c.sew (c.ev s a.toNat (2 * c.sew) e)
       .ok (c.flag (c.putV s d.toNat c.sew (fun e => (f e).1)) (c.flagsOf (fun e => (f e).2))) none)) s

/-- The factor of vext. -/
def ExtF.by_ : ExtF → Nat
  | .x2 => 2
  | .x4 => 4
  | .x8 => 8

/-- VEXT (R159). -/
def execVext (d a : Reg) (mk : Bool) (f : ExtF) (zero : Bool) (s : State) : Out :=
  vecOp (.vext d a mk f zero) (fun c s =>
    let n := c.sew / ExtF.by_ f
    if n < 2 ∨ a = d then c.illegal s
    else c.guard s [(a.toNat, 1)] [(d.toNat, 1)] [] []
      (.ok (c.putV s d.toNat c.sew (fun e => enc c.sew (intOf (!zero) n (c.ev s a.toNat n e)))) none)) s

end Sys2Proof.Machine
end

