-- ==== Sys2Proof/Machine/VecFp.lean ====
section
/-! DEFINITION. Machine/VecFp.lean: floating-point arithmetic and the scaled formats of class 0x8 (R160–R168). -/

namespace Sys2Proof.Machine

/-! ## Formats of VTYPE (R105, R106) -/

/-- VTYPE's format is ieee or bf16. -/
def VCtx.isFp (c : VCtx) : Bool := c.fmt == 2 || c.fmt == 3

/-- The floating-point format of VTYPE's FMT and SEW. -/
def VCtx.ffmt (c : VCtx) : FFmt :=
  match c.fmt with
  | 3 => .bf16
  | 4 => .e4m3
  | 5 => .e5m2
  | 6 | 7 | 8 => .e2m1
  | _ => if c.sew = 64 then .f64 else if c.sew = 32 then .f32 else .f16

/-- The value of element e of v[r] in the VTYPE format. -/
def VCtx.fv (c : VCtx) (s : State) (r e : Nat) : FVal := c.ffmt.decode (c.ev s r c.sew e)
/-- The value of operand b. -/
def VCtx.fb (c : VCtx) (s : State) (sb : Bool) (b e : Nat) : FVal := c.ffmt.decode (c.opb s sb b c.sew e)

/-! ## Elementwise arithmetic (R160, R161, R164) -/

/-- A floating-point instruction of the first kind. DEDUCED (log 63): R160's requirement of FMT ieee or bf16 is taken for every
instruction of this shape; R145 names the integer and block formats alone. -/
def fpOp (i : Instr) (srcs : List Nat) (d : Reg) (f : VCtx → State → Nat → Nat → Nat × Flags) (s : State) : Out :=
  vecOp i (fun c s => if !c.isFp then c.illegal s else c.rowsOp s srcs d.toNat false (f c s)) s

/-- Two operands, one rounding (R160). -/
def fpBin (i : Instr) (d a b : Reg) (sb : Bool) (rc : Rc) (op : RMode → FVal → FVal → FVal × Flags) (s : State) : Out :=
  fpOp i (a.toNat :: (if sb then [] else [b.toNat])) d (fun c s j e =>
    finish c.ffmt (c.mode rc) (op (c.mode rc) (c.fv s (a.toNat + j) e) (c.fb s sb (b.toNat + j) e))) s

/-- VFADD (R160). -/
def execVfadd (d a b : Reg) (mk sb : Bool) (rc : Rc) (s : State) : Out :=
  fpBin (.vfadd d a b mk sb rc) d a b sb rc addX s
/-- VFSUB (R160). -/
def execVfsub (d a b : Reg) (mk sb : Bool) (rc : Rc) (s : State) : Out :=
  fpBin (.vfsub d a b mk sb rc) d a b sb rc (fun m x y => addX m x y.neg) s
/-- VFMUL (R160). -/
def execVfmul (d a b : Reg) (mk sb : Bool) (rc : Rc) (s : State) : Out :=
  fpBin (.vfmul d a b mk sb rc) d a b sb rc (fun _ => mulX) s
/-- VFDIV (R160). -/
def execVfdiv (d a b : Reg) (mk sb : Bool) (rc : Rc) (s : State) : Out :=
  fpBin (.vfdiv d a b mk sb rc) d a b sb rc (fun _ => divX) s
/-- VFSQRT (R160). -/
def execVfsqrt (d a : Reg) (mk : Bool) (rc : Rc) (s : State) : Out :=
  fpOp (.vfsqrt d a mk rc) [a.toNat] d (fun c s j e =>
    finish c.ffmt (c.mode rc) (sqrtX (c.fv s (a.toNat + j) e))) s
/-- VFMADD (R161). -/
def execVfmadd (d a b : Reg) (mk sb negp negc : Bool) (rc : Rc) (s : State) : Out :=
  fpOp (.vfmadd d a b mk sb negp negc rc) (d.toNat :: a.toNat :: (if sb then [] else [b.toNat])) d (fun c s j e =>
    finish c.ffmt (c.mode rc) (fmaX (c.mode rc) negp negc (c.fv s (a.toNat + j) e) (c.fb s sb (b.toNat + j) e)
      (c.fv s (d.toNat + j) e))) s

/-- Minimum or maximum (R56, R160). -/
def fpMinmax (i : Instr) (d a b : Reg) (sb isMax : Bool) (s : State) : Out :=
  fpOp i (a.toNat :: (if sb then [] else [b.toNat])) d (fun c s j e =>
    minmax c.ffmt isMax (c.ev s (a.toNat + j) c.sew e) (c.opb s sb (b.toNat + j) c.sew e)) s

/-- VFMIN (R160). -/
def execVfmin (d a b : Reg) (mk sb : Bool) (s : State) : Out := fpMinmax (.vfmin d a b mk sb) d a b sb false s
/-- VFMAX (R160). -/
def execVfmax (d a b : Reg) (mk sb : Bool) (s : State) : Out := fpMinmax (.vfmax d a b mk sb) d a b sb true s

/-- a × 2^n, exactly; a NaN read signalling sets NV (R53, R164). -/
def scaleX (x : FVal) (n : Int) : FVal × Flags := (if x.isNan then .nan false else x.scale n, flagsIf x.isSig fNV)

/-- VFSCALE (R164). -/
def execVfscale (d a b : Reg) (mk sb : Bool) (rc : Rc) (s : State) : Out :=
  fpOp (.vfscale d a b mk sb rc) (a.toNat :: (if sb then [] else [b.toNat])) d (fun c s j e =>
    finish c.ffmt (c.mode rc) (scaleX (c.fv s (a.toNat + j) e) (sgn c.sew (c.opb s sb (b.toNat + j) c.sew e)))) s

/-! ## Comparison and unary functions (R162, R163) -/

/-- VFCMP (R162). -/
def execVfcmp (d : MReg) (a b : Reg) (mk sb : Bool) (cc : FCond) (s : State) : Out :=
  vecOp (.vfcmp d a b mk sb cc) (fun c s =>
    if !c.isFp then c.illegal s
    else c.guard s ((a.toNat, 1) :: srcB sb b.toNat 1) [] [] []
      (let f (e : Nat) := fcond cc (c.fv s a.toNat e) (c.fb s sb b.toNat e)
       .ok (c.flag (c.putM s d.toNat (fun e => (f e).1)) (c.flagsOf (fun e => (f e).2))) none)) s

/-- A unary function, correctly rounded (R163): row 0 only, not interrupted (R147, R148). -/
def fpUnary (i : Instr) (d a : Reg) (rc : Rc) (op : FVal → FVal × Flags) (s : State) : Out :=
  vecOp i (fun c s =>
    if !c.isFp then c.illegal s
    else c.guard s [(a.toNat, 1)] [(d.toNat, 1)] [] []
      (let f (e : Nat) := finish c.ffmt (c.mode rc) (op (c.fv s a.toNat e))
       .ok (c.flag (c.putV s d.toNat c.sew (fun e => (f e).1)) (c.flagsOf (fun e => (f e).2))) none)) s

/-- VFEXP2 (R163). -/
def execVfexp2 (d a : Reg) (mk : Bool) (rc : Rc) (s : State) : Out := fpUnary (.vfexp2 d a mk rc) d a rc exp2X s
/-- VFLOG2 (R163). -/
def execVflog2 (d a : Reg) (mk : Bool) (rc : Rc) (s : State) : Out := fpUnary (.vflog2 d a mk rc) d a rc log2X s
/-- VFRECIP (R163). -/
def execVfrecip (d a : Reg) (mk : Bool) (rc : Rc) (s : State) : Out :=
  fpUnary (.vfrecip d a mk rc) d a rc (divX .one) s

/-! ## Conversion (R165, R166) -/

/-- The source formats of vfcvt and the copy engines (R165). -/
inductive ElemFmt where
  | int (sgnd : Bool) (w : Nat)
  | fp (f : FFmt)
  | block (kfp : Bool)
  deriving DecidableEq, Repr

/-- Width of a source element in bits. -/
def ElemFmt.width : ElemFmt → Nat
  | .int _ w => w
  | .fp f => f.width
  | .block _ => 4

/-- The format of a source code (R165). -/
def elemFmt (code : Nat) : Option ElemFmt :=
  if code < 6 then some (.int true (2 ^ (code + 1)))
  else if code < 12 then some (.int false (2 ^ (code - 5)))
  else match code with
    | 12 => some (.fp .f16)
    | 13 => some (.fp .f32)
    | 14 => some (.fp .f64)
    | 15 => some (.fp .bf16)
    | 16 => some (.fp .e4m3)
    | 17 => some (.fp .e5m2)
    | 18 => some (.fp .e2m1)
    | 19 => some (.block false)
    | 20 => some (.block true)
    | _ => none

/-- The source of a vfcvt or vquant, and whether it is the stochastic form (R165). -/
def srcFmt : CvtSrc → ElemFmt
  | .code k => (elemFmt k.toNat).getD (.int true 2)
  | .ctr _ .f32 => .fp .f32
  | .ctr _ .bf => .fp .bf16
  | .ctr _ .f16 => .fp .f16
  | .ctr _ .f64 => .fp .f64

/-- Entry b of v31 (R46). -/
def VCtx.entry (c : VCtx) (s : State) (b : Nat) : Nat := c.ev s 31 16 b

/-- The exact value of bits in a format; `desc` is the block's descriptor (R44–R46). -/
def ElemFmt.value (f : ElemFmt) (desc bits : Nat) : FVal :=
  match f with
  | .int sgnd w => ofIntX (intOf sgnd w bits)
  | .fp f => f.decode bits
  | .block kfp => blockX kfp desc bits

/-- The value of source element e of v[a] (R165). -/
def VCtx.srcVal (c : VCtx) (s : State) (f : ElemFmt) (a e : Nat) : FVal :=
  f.value (c.entry s (e / 32)) (c.ev s a f.width e)

/-- Source and destination of a conversion conflict with R146: a ratio over 8, or registers of different width shared. -/
def VCtx.cvtBad (c : VCtx) (f : ElemFmt) (d a : Nat) : Bool :=
  decide (8 < f.width / c.sew) || (f.width != c.sew && shares d 1 a (c.span f.width))

/-- A value delivered to the VTYPE format (R166): `desc` the destination block's descriptor, `r` the random bits when the
rounding is stochastic. -/
def VCtx.cvtTo (c : VCtx) (mode : RMode) (r : Option Nat) (desc : Nat) (x : FVal) : Nat × Flags :=
  if c.fmt < 2 then
    let z := toIntX mode (c.fmt == 0) c.sew x
    (enc c.sew z.1, z.2)
  else
    let y := if c.fmt = 7 ∨ c.fmt = 8 then x.scale (127 - ((desc % 256 : Nat) : Int)) else x
    if c.fmt = 7 then kround (FFmt.e4m3.decode (desc / 256)) (match r with
      | some k => .sr k
      | none => mode) y
    else match r with
      | some k => sround c.ffmt false k y
      | none => roundTo c.ffmt mode false y

/-- The random bits of element e under SR (R51). -/
def VCtx.rnd (c : VCtx) (rc : Rc) (e : Nat) : Option Nat := if rc = .sr then some (srBits c.e.rngkey c.e.b e) else none

/-- A conversion of a floating source to a wider floating format (R166): exact, it sets no flag (log 38). -/
def VCtx.widens (c : VCtx) (f : ElemFmt) : Bool :=
  match f with
  | .fp g => decide (2 ≤ c.fmt) && c.fmt != 7 && c.fmt != 8 && decide ((ElemFmt.fp g).width < c.sew)
  | _ => false

/-- VFCVT (R165, R166). -/
def execVfcvt (d a : Reg) (mk : Bool) (src : CvtSrc) (rc : Rc) (s : State) : Out :=
  vecOp (.vfcvt d a mk src rc) (fun c s =>
    let f := srcFmt src
    let isInt := match f with
      | .int _ _ => true
      | _ => false
    let isBlock := match f with
      | .block _ => true
      | _ => false
    let toBlock := c.fmt == 7 || c.fmt == 8
    if (isInt && decide (c.fmt < 2)) || (rc == .sr && decide (c.fmt < 2)) || (isBlock && toBlock) ||
        c.cvtBad f d.toNat a.toNat then c.illegal s
    else c.guard s ((a.toNat, c.span f.width) :: (if isBlock || toBlock then [(31, 1)] else [])) [(d.toNat, 1)] [] []
      (let g (e : Nat) := c.cvtTo (c.mode rc) (c.rnd rc e) (c.entry s (e / 32)) (c.srcVal s f a.toNat e)
       let fl := if c.widens f then 0 else c.flagsOf (fun e => (g e).2)
       .ok (c.flag (c.putV s d.toNat c.sew (fun e => (g e).1)) fl) none)) s

/-! ## Quantisation (R167) -/

/-- emax of a destination format (R167). -/
def quantMax (fmt : Nat) : Int := if fmt = 4 then 8 else if fmt = 5 then 15 else 2

/-- The active indices of block B. -/
def VCtx.blockOf (c : VCtx) (b : Nat) : List Nat := c.actives.filter (fun i => i / 32 == b)

/-- |x| below |y|, both finite. -/
def magLt (x y : FVal) : Bool := cmpX x.abs y.abs == -1

/-- The value of greatest magnitude, the first on ties. -/
def greatest : List FVal → FVal
  | [] => .zero false
  | x :: rest => rest.foldl (fun m y => if magLt m y then y else m) x

/-- Scale byte of a block whose greatest magnitude is |y| (R167). -/
def quantScale (fmt : Nat) (y : FVal) : Nat :=
  match y with
  | .fin _ m e =>
    if m = 0 then 127
    else
      let z := FVal.lg m e - quantMax fmt + 127
      if z < 0 then 0 else if 254 < z then 254 else z.toNat
  | _ => 127

/-- The descriptor of a block of values (R167). -/
def quantDesc (fmt : Nat) (xs : List FVal) : Nat :=
  if xs.any (fun x => match x with
      | .fin _ _ _ => false
      | _ => true) then 0xFF
  else
    let y := greatest xs
    let e := quantScale fmt y
    let spare := if fmt = 7 ∧ !y.isZero then (roundTo .e4m3 .rne true (y.scale (127 - (e : Int)))).1 else 0
    spare * 256 + e

/-- The element of a block under its descriptor (R167): always saturating. -/
def VCtx.quantElem (c : VCtx) (mode : RMode) (r : Option Nat) (desc : Nat) (x : FVal) : Nat × Flags :=
  if desc % 256 = 255 then (c.ffmt.nan, fNV)
  else
    let y := x.scale (127 - ((desc % 256 : Nat) : Int))
    if c.fmt = 7 then kround (FFmt.e4m3.decode (desc / 256)) (match r with
      | some k => .sr k
      | none => mode) y
    else match r with
      | some k => sround c.ffmt true k y
      | none => roundTo c.ffmt mode true y

/-- VQUANT (R167). -/
def execVquant (d a : Reg) (mk : Bool) (src : CvtSrc) (rc : Rc) (s : State) : Out :=
  vecOp (.vquant d a mk src rc) (fun c s =>
    let f := srcFmt src
    if !(c.fmt == 7 || c.fmt == 8 || c.fmt == 4 || c.fmt == 5) || c.cvtBad f d.toNat a.toNat ||
        d.toNat == 31 || decide (31 < a.toNat + c.span f.width) then c.illegal s
    else c.guard s [(a.toNat, c.span f.width)] [(d.toNat, 1)] [] []
      (let x (e : Nat) := c.srcVal s f a.toNat e
       let desc (b : Nat) := quantDesc c.fmt ((c.blockOf b).map x)
       let g (e : Nat) := c.quantElem (c.mode rc) (c.rnd rc e) (desc (e / 32)) (x e)
       let s1 := c.writeV s 31 16 0 ((c.vl + 31) / 32) (fun b => if c.blockOf b = [] then none else some (desc b))
       .ok (c.flag (c.keepV s1 d.toNat c.sew (fun e => (g e).1)) (c.flagsOf (fun e => (g e).2))) none)) s

/-! ## Block dot products (R168) -/

/-- FMT and SEW that vmxdot accepts. -/
def VCtx.mxOk (c : VCtx) : Bool := (4 ≤ c.fmt && c.fmt ≤ 8) || (decide (c.fmt < 2) && (c.sew == 4 || c.sew == 8))

/-- The value of an operand's element: under a descriptor when the operand is scaled. -/
def VCtx.mxVal (c : VCtx) (isScaled : Bool) (desc bits : Nat) : FVal :=
  let plain := if c.fmt < 2 then ofIntX (intOf (c.fmt == 0) c.sew bits) else c.ffmt.decode bits
  if !isScaled then plain
  else if c.fmt = 7 then blockX true desc bits
  else scaled (desc % 256) plain

/-- acc := rne(acc + rne(exact sum of products, FP32), FP32), with the flags of both roundings (R65, R168). DEDUCED (log 29): a
product of integer codes that is zero has the sign of its factors, so a block of them sums to -0 only when every product is
-0. -/
def blockAcc (acc : Nat) (ps : List (FVal × FVal)) : Nat × Flags :=
  let ts := ps.map (fun p => mulX p.1 p.2)
  let s := finish .f32 .rne (sumX .rne (ts.map (·.1)))
  let r := finish .f32 .rne (addX .rne (FFmt.f32.decode acc) (FFmt.f32.decode s.1))
  (r.1, ts.foldl (fun a t => a ||| t.2) 0 ||| s.2 ||| r.2)

/-- VMXDOT (R168). -/
def execVmxdot (d a b : Reg) (mk scb sca : Bool) (s : State) : Out :=
  vecOp (.vmxdot d a b mk scb sca) (fun c s =>
    if !c.mxOk || d.toNat == 31 || d == a || d == b then c.illegal s
    else c.guard s ([(d.toNat, 1), (a.toNat, 1), (b.toNat, 1)] ++ (if sca || scb then [(31, 1)] else [])) [(d.toNat, 1)]
        [] []
      (let g (k : Nat) := blockAcc (c.ev s d.toNat 32 k) ((c.blockOf k).map (fun e =>
         (c.mxVal sca (c.entry s k) (c.ev s a.toNat c.sew e),
          c.mxVal scb (c.entry s (c.eff / 32 + k)) (c.ev s b.toNat c.sew e))))
       let w (k : Nat) : Option Nat :=
         if c.blockOf k ≠ [] then some (g k).1 else if c.zero && c.vl != 0 then some 0 else none
       let n := (c.vl + 31) / 32
       let fl := ((List.range n).filter (fun k => decide (c.blockOf k ≠ []))).foldl (fun t k => t ||| (g k).2) 0
       .ok (c.flag (c.putV' s d.toNat 32 1 0 (c.cap 32) w) fl) none)) s

end Sys2Proof.Machine
end

