-- ==== Sys2Proof/Machine/VecRed.lean ====
section
/-! DEFINITION. Machine/VecRed.lean: reductions, permutations, scans, random numbers and sampling of class 0x9 (R61–R63, R67,
R169–R177). These instructions act on row 0 and are not interrupted (R147, R148). -/

namespace Sys2Proof.Machine

/-! ## Integer reductions (R63, R169) -/

/-- Mark the destination and the copy register of an instruction that writes nothing (R100). -/
def VCtx.markV (c : VCtx) (s : State) (d : Nat) : State :=
  let s := s.dirty c.p d
  match c.copy .v with
  | some x => s.dirty c.p x
  | none => s

/-- Deliver a reduction's result to v[d].e[0] (R169): the other elements below VL are unchanged, or zero under a zeroing
prefix; at VL = 0 nothing is written. -/
def VCtx.putRed (c : VCtx) (s : State) (d : Nat) (r : Nat × Flags) : VRes :=
  if c.vl = 0 then .ok (c.markV s d) none
  else .ok (c.flag (c.putV' s d c.sew 1 0 c.vl (fun i => if i = 0 then some r.1 else if c.zero then some 0 else none)) r.2)
    none

/-- A reduction: `f` combines the starting value and the active elements. -/
def redOp (i : Instr) (d a b : Reg) (sb : Bool) (ok : VCtx → Bool) (f : VCtx → Nat → List (Nat × Nat) → Nat × Flags)
    (s : State) : Out :=
  vecOp i (fun c s =>
    if !ok c then c.illegal s
    else c.guard s ((a.toNat, 1) :: srcB sb b.toNat 1) [(d.toNat, 1)] [] []
      (c.putRed s d.toNat (f c (c.opb s sb b.toNat c.sew 0)
        (c.actives.map (fun e => (e, c.ev s a.toNat c.sew e)))))) s

/-- The sum of a reduction (R63, R169): clamped once, at the end. -/
def redSum (v : RedVar) (w s0 : Nat) (xs : List Nat) : Nat × Flags :=
  let total (sgnd : Bool) : Int := xs.foldl (fun t x => t + intOf sgnd w x) (intOf sgnd w s0)
  match v with
  | .wrap => (enc w (total false), 0)
  | .satS => clampTo true w (total true)
  | .satU => clampTo false w (total false)

/-- VREDSUM (R169). -/
def execVredsum (d a b : Reg) (mk sb : Bool) (v : RedVar) (s : State) : Out :=
  redOp (.vredsum d a b mk sb v) d a b sb (fun _ => true) (fun c s0 xs => redSum v c.sew s0 (xs.map (·.2))) s
/-- VREDMAX (R169). -/
def execVredmax (d a b : Reg) (mk sb uns : Bool) (s : State) : Out :=
  redOp (.vredmax d a b mk sb uns) d a b sb (fun _ => true) (fun c s0 xs =>
    (xs.foldl (fun m x => if intOf (!uns) c.sew m < intOf (!uns) c.sew x.2 then x.2 else m) s0, 0)) s
/-- VREDMIN (R169). -/
def execVredmin (d a b : Reg) (mk sb uns : Bool) (s : State) : Out :=
  redOp (.vredmin d a b mk sb uns) d a b sb (fun _ => true) (fun c s0 xs =>
    (xs.foldl (fun m x => if intOf (!uns) c.sew x.2 < intOf (!uns) c.sew m then x.2 else m) s0, 0)) s

/-- A bitwise combination (R169). -/
def bitOf (op : BitOp) (x y : Nat) : Nat :=
  match op with
  | .and => x &&& y
  | .or => x ||| y
  | .xor => x ^^^ y

/-- VREDBIT (R169). -/
def execVredbit (d a b : Reg) (mk sb : Bool) (op : BitOp) (s : State) : Out :=
  redOp (.vredbit d a b mk sb op) d a b sb (fun _ => true) (fun _ s0 xs =>
    (xs.foldl (fun m x => bitOf op m x.2) s0, 0)) s

/-! ## Floating-point reductions (R4, R61, R62, R170) -/

/-- A value that reaches a result without a rounding of its own: a NaN becomes the canonical NaN, with NV when it was
signalling (R53). -/
def delivered (f : FFmt) (x : Nat) : Nat × Flags :=
  let v := f.decode x
  if v.isNan then (f.nan, flagsIf v.isSig fNV) else (x, 0)

/-- A node of a sum tree: absent, or a code of the format, with the flags raised below it. -/
abbrev Node := Option Nat × Flags

/-- pair (R4). -/
def pairNode (f : FFmt) (a b : Node) : Node :=
  match a.1, b.1 with
  | none, _ => (b.1, a.2 ||| b.2)
  | _, none => (a.1, a.2 ||| b.2)
  | some x, some y =>
    let r := finish f .rne (addX .rne (f.decode x) (f.decode y))
    (some r.1, a.2 ||| b.2 ||| r.2)

/-- One level of a sum tree. -/
def pairRow (f : FFmt) : List Node → List Node
  | a :: b :: rest => pairNode f a b :: pairRow f rest
  | xs => xs

/-- A sum tree of `n` levels over 2^n nodes. -/
def sumTree (f : FFmt) : Nat → List Node → Node
  | 0, l => l.headD (none, 0)
  | n + 1, l => sumTree f n (pairRow f l)

/-- The leaf at an index. -/
def leafOf (f : FFmt) (xs : List (Nat × Nat)) (k : Nat) : Node :=
  match xs.find? (fun e => e.1 == k) with
  | none => (none, 0)
  | some e =>
    let r := delivered f e.2
    (some r.1, r.2)

/-- canonical_sum (R4) over the active elements `xs` of `n`. -/
def canonicalSum (f : FFmt) (xs : List (Nat × Nat)) (n : Nat) : Node :=
  (List.range ((n + 31) / 32)).foldl (fun acc b =>
    pairNode f acc (sumTree f 5 ((List.range 32).map (fun j => leafOf f xs (32 * b + j))))) (none, 0)

/-- fast_sum (R62) for L lanes of E elements. -/
def fastSum (f : FFmt) (xs : List (Nat × Nat)) (n lanes per : Nat) : Node :=
  sumTree f (lg lanes) ((List.range lanes).map (fun j =>
    (List.range per).foldl (fun acc k => if j * per + k < n then pairNode f acc (leafOf f xs (j * per + k)) else acc)
      (none, 0)))

/-- What vfredsum delivers (R61, R62, R170): with no active element the starting value itself. -/
def fredSum (c : VCtx) (s0 : Nat) (xs : List (Nat × Nat)) : Nat × Flags :=
  let t := if c.lar then canonicalSum c.ffmt xs c.vl else fastSum c.ffmt xs c.vl c.lanes (c.per c.sew)
  if xs = [] then delivered c.ffmt s0
  else
    let r := finish c.ffmt .rne (addX .rne (c.ffmt.decode s0) (c.ffmt.decode (t.1.getD 0)))
    (r.1, t.2 ||| r.2)

/-- VFREDSUM (R170). -/
def execVfredsum (d a b : Reg) (mk sb : Bool) (s : State) : Out :=
  redOp (.vfredsum d a b mk sb) d a b sb VCtx.isFp fredSum s

/-- The maximum of a starting value and further codes, each step by R56, the flags collected. -/
def foldMinmax (f : FFmt) (isMax : Bool) (s0 : Nat) (xs : List Nat) : Nat × Flags :=
  xs.foldl (fun m x =>
    let r := minmax f isMax m.1 x
    (r.1, m.2 ||| r.2)) (delivered f s0)

/-- VFREDMAX (R170). -/
def execVfredmax (d a b : Reg) (mk sb : Bool) (s : State) : Out :=
  redOp (.vfredmax d a b mk sb) d a b sb VCtx.isFp (fun c s0 xs => foldMinmax c.ffmt true s0 (xs.map (·.2))) s

/-! ## The index of the greatest element (R171) -/

/-- The first index whose value no other exceeds. -/
def argmax {α : Type} (lt : α → α → Bool) : List (Nat × α) → Option (Nat × α)
  | [] => none
  | x :: rest => some (rest.foldl (fun m e => if lt m.2 e.2 then e else m) x)

/-- vargmax over floating-point values (R171): NaNs are excluded; with none left, `vl`, and NV when there was one. -/
def argmaxFp (vl : Nat) (xs : List (Nat × FVal)) : Nat × Flags :=
  match argmax ltMM (xs.filter (fun e => !e.2.isNan)) with
  | some e => (e.1, 0)
  | none => (vl, flagsIf (!xs.isEmpty) fNV)

/-- VARGMAX (R171): a signalling NaN sets NV (R53, R56). -/
def execVargmax (d a : Reg) (mk : Bool) (s : State) : Out :=
  vecOp (.vargmax d a mk) (fun c s =>
    if c.fmt = 7 ∨ c.fmt = 8 then c.illegal s
    else c.guard s [(a.toNat, 1)] [] [] []
      (let xs := c.actives.map (fun e => (e, c.ev s a.toNat c.sew e))
       let r : Nat × Flags :=
         if c.fmt < 2 then
           (match argmax (fun x y => decide (intOf (c.fmt == 0) c.sew x < intOf (c.fmt == 0) c.sew y)) xs with
            | some e => (e.1, 0)
            | none => (c.vl, 0))
         else
           let ys := xs.map (fun e => (e.1, c.ffmt.decode e.2))
           let r := argmaxFp c.vl ys
           (r.1, r.2 ||| flagsIf (ys.any (fun e => e.2.isSig)) fNV)
       .ok (c.flag s r.2) (some (BitVec.ofNat 64 r.1)))) s

/-! ## Permutations (R172, R173) -/

/-- VCOMPRESS (R172): the predicate selects. -/
def execVcompress (d a : Reg) (mk : Bool) (s : State) : Out :=
  vecOp (.vcompress d a mk) (fun c s => c.guard s [(a.toNat, 1)] [(d.toNat, 1)] [] []
    (let sel := c.actives
     .ok (c.putV' s d.toNat c.sew 1 0 c.vl (fun k => match sel[k]? with
       | some i => some (c.ev s a.toNat c.sew i)
       | none => if c.zero then some 0 else none)) none)) s

/-- VEXPAND (R172). -/
def execVexpand (d a : Reg) (mk : Bool) (s : State) : Out :=
  vecOp (.vexpand d a mk) (fun c s => c.guard s [(a.toNat, 1)] [(d.toNat, 1)] [] []
    (let sel := c.actives
     .ok (c.putV s d.toNat c.sew (fun i => c.ev s a.toNat c.sew (sel.filter (· < i)).length)) none)) s

/-- VSLIDEUP (R173): elements below the offset are unchanged. -/
def execVslideup (d a b : Reg) (mk : Bool) (s : State) : Out :=
  vecOp (.vslideup d a b mk) (fun c s => c.guard s [(a.toNat, 1)] [(d.toNat, 1)] [] []
    (let off := c.e.b.toNat
     .ok (c.putV' s d.toNat c.sew 1 0 c.vl (fun i =>
       if c.pred i && decide (i < off) then none else c.dest (fun i => c.ev s a.toNat c.sew (i - off)) i)) none)) s

/-- The element at an index below VL, else 0 (R173). -/
def VCtx.within (c : VCtx) (s : State) (a k : Nat) : Nat := if k < c.vl then c.ev s a c.sew k else 0

/-- VSLIDEDN (R173). -/
def execVslidedn (d a b : Reg) (mk : Bool) (s : State) : Out :=
  vecOp (.vslidedn d a b mk) (fun c s => c.guard s [(a.toNat, 1)] [(d.toNat, 1)] [] []
    (.ok (c.putV s d.toNat c.sew (fun i => c.within s a.toNat (i + c.e.b.toNat))) none)) s

/-- VPERM (R173). -/
def execVperm (d a b : Reg) (mk sb : Bool) (s : State) : Out :=
  vecOp (.vperm d a b mk sb) (fun c s => c.guard s ((a.toNat, 1) :: srcB sb b.toNat 1) [(d.toNat, 1)] [] []
    (.ok (c.putV s d.toNat c.sew (fun i => c.within s a.toNat (c.opb s sb b.toNat c.sew i))) none)) s

/-! ## Scans (R174) -/

/-- One step of a fold of values in VTYPE's format (R174, R186): sums wrap or round, maxima and minima follow the format's
order. -/
def VCtx.foldStep (c : VCtx) (op : FoldOp) (x y : Nat) : Nat × Flags :=
  if c.isFp then
    match op with
    | .sum => finish c.ffmt .rne (addX .rne (c.ffmt.decode x) (c.ffmt.decode y))
    | .max => minmax c.ffmt true x y
    | .min => minmax c.ffmt false x y
  else
    let lt (p q : Nat) : Bool := decide (intOf (c.fmt == 0) c.sew p < intOf (c.fmt == 0) c.sew q)
    match op with
    | .sum => ((x + y) % 2 ^ c.sew, 0)
    | .max => (if lt x y then y else x, 0)
    | .min => (if lt y x then y else x, 0)

/-- A lone value of a fold (R53, R174). -/
def VCtx.foldOne (c : VCtx) (x : Nat) : Nat × Flags := if c.isFp then delivered c.ffmt x else (x, 0)

/-- The running combinations of a list, with the flags of every step. -/
def VCtx.scanList (c : VCtx) (op : FoldOp) : Option Nat → List (Nat × Nat) → List (Nat × Nat × Flags)
  | _, [] => []
  | acc, (i, x) :: rest =>
    let r := match acc with
      | none => c.foldOne x
      | some y => c.foldStep op y x
    (i, r.1, r.2) :: c.scanList op (some r.1) rest

/-- FMT is int, uns, ieee or bf16. -/
def VCtx.plainFmt (c : VCtx) : Bool := decide (c.fmt < 4)

/-- VSCAN (R174): inactive elements keep their destination values, under a zeroing prefix too (R95 yields to the description;
log 23). -/
def execVscan (d a : Reg) (mk : Bool) (op : FoldOp) (s : State) : Out :=
  vecOp (.vscan d a mk op) (fun c s =>
    if !c.plainFmt then c.illegal s
    else c.guard s [(a.toNat, 1)] [(d.toNat, 1)] [] []
      (let rs := c.scanList op none (c.actives.map (fun e => (e, c.ev s a.toNat c.sew e)))
       .ok (c.flag (c.keepV s d.toNat c.sew (fun i => ((rs.find? (fun e => e.1 == i)).map (·.2.1)).getD 0))
         (rs.foldl (fun t e => t ||| e.2.2) 0)) none)) s

/-! ## Random numbers and sampling (R175–R177) -/

/-- VRAND (R175). -/
def execVrand (d a b : Reg) (mk uni : Bool) (s : State) : Out :=
  vecOp (.vrand d a b mk uni) (fun c s =>
    if !(if uni then c.sew == 32 && c.fmt == 2 else c.sew == 64 && decide (c.fmt < 2)) then c.illegal s
    else c.guard s [] [(d.toNat, 1)] [] []
      (.ok (c.putV s d.toNat c.sew (fun i =>
        let w := rngWord c.e.rngkey c.e.a c.e.b i
        if uni then rneTo .f32 (uniformX w) else w.toNat)) none)) s

/-- The running sums of vsample (R176), rounded to FP32 at every step. -/
def samplePre : Nat → List (Nat × Nat) → List (Nat × Nat)
  | _, [] => []
  | acc, (i, w) :: rest =>
    let a := (finish .f32 .rne (addX .rne (FFmt.f32.decode acc) (FFmt.f32.decode w))).1
    (i, a) :: samplePre a rest

/-- vsample's index and flags (R176) for u and the active weights. DESIGN CHOICE (log 38): the FP32 roundings on the way raise no NX
and no OF (R57), since R176 names NV alone. -/
def sampleOf (vl u : Nat) (ws : List (Nat × Nat)) : Nat × Flags :=
  let val (x : Nat) : FVal := FFmt.f32.decode x
  let zero : FVal := .zero false
  let pre := samplePre 0 ws
  let acc := val ((pre.getLast?.map (·.2)).getD 0)
  let badU := (val u).isNan || cmpX (val u) zero == -1 || cmpX (val u) .one != -1
  let badW := ws.any (fun e => (val e.2).isNan || cmpX (val e.2) zero == -1)
  let last := ((ws.filter (fun e => cmpX zero (val e.2) == -1)).getLast?.map (·.1)).getD vl
  let isInf := match acc with
    | .inf _ => true
    | _ => false
  if ws = [] then (vl, 0)
  else if badU || badW || acc.isZero || isInf then (vl, fNV)
  else
    let t := val (finish .f32 .rne (mulX (val u) acc)).1
    (((pre.find? (fun e => cmpX t (val e.2) == -1)).map (·.1)).getD last, 0)

/-- VSAMPLE (R176). -/
def execVsample (d a b : Reg) (mk sb : Bool) (s : State) : Out :=
  vecOp (.vsample d a b mk sb) (fun c s =>
    if !(c.sew == 32 && c.fmt == 2) then c.illegal s
    else c.guard s ((a.toNat, 1) :: srcB sb b.toNat 1) [] [] []
      (let r := sampleOf c.vl (c.opb s sb b.toNat 32 0) (c.actives.map (fun e => (e, c.ev s a.toNat 32 e)))
       .ok (c.flag s r.2) (some (BitVec.ofNat 64 r.1)))) s

/-- log2_rn and the products of R177, as correctly rounded FP32 values. -/
def log2Rn (x : FVal) : FVal := FFmt.f32.decode (finish .f32 .rne (log2X x)).1
def mulRn (x y : FVal) : FVal := FFmt.f32.decode (finish .f32 .rne (mulX x y)).1

/-- gumbel (R177). -/
def gumbel (u : FVal) : FVal :=
  let ln2 : FVal := FFmt.f32.decode 0x3F317218
  (mulRn (log2Rn (mulRn (log2Rn u) ln2).neg) ln2).neg

/-- VGMAX (R177). -/
def execVgmax (d a b : Reg) (mk : Bool) (s : State) : Out :=
  vecOp (.vgmax d a b mk) (fun c s =>
    if !((c.sew == 32 && c.fmt == 2) || c.fmt == 3) then c.illegal s
    else c.guard s [(a.toNat, 1)] [] [] []
      (let score (i : Nat) : FVal :=
         let g := gumbel (uniformX (rngWord c.e.rngkey c.e.b c.e.b1 i))
         FFmt.f32.decode (finish .f32 .rne (addX .rne (c.fv s a.toNat i) g)).1
       let r := argmaxFp c.vl (c.actives.map (fun i => (i, score i)))
       .ok (c.flag s r.2) (some (BitVec.ofNat 64 r.1)))) s

end Sys2Proof.Machine
end

