-- ==== Sys2Proof/Machine/VecMem.lean ====
section
/-! DEFINITION. Machine/VecMem.lean: the vector memory instructions of class 0xA (R231–R243), element faults and replay (R236),
first-fault loads (R238) and expanding loads of tent tiles (R216, R258). -/

namespace Sys2Proof.Machine

/-! ## Element faults (R236, R353) -/

/-- A failing element: its index, its cause, the cause's DETAIL and its STVAL. -/
structure EFail where
  i : Nat
  code : Nat
  detail : Nat
  tval : Word
  deriving DecidableEq, Repr

/-- The mask of a set of element indices. -/
def bitsOf (is : List Nat) : Nat := is.foldl (fun m i => m ||| 2 ^ i) 0

/-- FSTAT after an element fault: CAUSE, PEND and FIDX (R236). -/
def fstatFault (fstat : BitVec 40) (code i : Nat) : BitVec 40 :=
  BitVec.ofNat 40 (putBits (putBits (putBits fstat.toNat 24 8 code) 17 1 1) 0 16 i)

/-- The lowest failing element. -/
def firstFail (fs : List EFail) : Option EFail :=
  match fs with
  | [] => none
  | f :: rest => some (rest.foldl (fun a b => if b.i < a.i then b else a) f)

/-- Record failing elements and raise their trap (R236, R320): one count for each element fault taken. -/
def VCtx.elementFault (c : VCtx) (s : State) (fs : List EFail) : VRes :=
  match firstFail fs with
  | none => .ok s none
  | some f =>
    let s := s.updHart c.p (fun h =>
      setHead (fs.foldl (fun h _ => State.countEv h 0x40) { h with
        fmask := BitVec.ofNat 16384 (bitsOf (fs.map (·.i)))
        fstat := fstatFault h.fstat f.code f.i
        elemFaults := fs.map (fun f => (f.i, f.code, f.tval)) }) .replay)
    .trap s (c.cause s f.code f.detail f.tval)

/-- A replay has acted on its elements: FMASK and PEND are clear (R108, R236). -/
def VCtx.endReplay (c : VCtx) (s : State) : State :=
  if c.e.st = .replay then
    s.updHart c.p (fun h => { h with fmask := 0, fstat := h.fstat &&& ~~~(1#40 <<< 17), elemFaults := [] })
  else s

/-- An instruction's end: its element faults, or retirement. -/
def VCtx.finishMem (c : VCtx) (s : State) (fs : List EFail) : VRes := c.elementFault (c.endReplay s) fs

/-! ## Addresses and checks (R199, R231, R232) -/

/-- The source group of an index operand. -/
def VAddr.srcs : VAddr → List (Nat × Nat)
  | .indexed ix => [(ix, 1)]
  | _ => []

/-- Bytes of an element in memory. -/
def elemBytes (w : Nat) : Nat := Nat.max 1 (w / 8)

/-- The space of the hart's vector accesses. -/
def VCtx.actx (c : VCtx) (s : State) : ACtx := s.actx (.vec c.p)

/-- The check of an element (R199, R206, R219), with the base pointer's tag. -/
def VCtx.check (c : VCtx) (s : State) (k : AKind) (addr : Int) (n : Nat) : Except AFail Place :=
  accPlace s (c.actx s) k .natural (tagOf c.e.a) addr n

/-- A failing element of an access. -/
def failOf (i : Nat) (k : AKind) (code : Nat) (dev : Bool) (addr : Int) : EFail :=
  ⟨i, code, accDetail k code dev, addrWord addr⟩

/-- An element has to wait for a line that a copy engine holds (R206). -/
def mustWait (r : Except AFail Place) : Bool :=
  match r with
  | .error .wait => true
  | _ => false

/-- The slices that elements' line accesses pass through (R4, R268). -/
def slicesOf (as : List Int) : List Nat := sortSet (as.map (fun a => sliceOf a.toNat))

/-- The hart's earlier line accesses in some slices are performed (R268, R328). -/
def drainSlices (s : State) (p : Nat) (ks : List Nat) : State := ks.foldl (fun s k => s.drainSlice p k) (s.bornTogether p ks)

/-- The hart's line accesses performed early in some slices are used up, or given up (R328). -/
def dropEarly (s : State) (p : Nat) (ks : List Nat) : State :=
  if (s.hart p).early = [] then s
  else s.updHart p (fun h => { h with early := h.early.filter (fun e => !ks.contains (e.va % 8)) })

/-- What accesses at addresses leave in the translation caches, a unit-stride or strided instruction's in its slot's register
(R308); the next free value is taken. -/
def VCtx.noteAll (c : VCtx) (s : State) (k : AKind) (unit : Bool) (as : List Int) : State :=
  (as.foldl (fun s a =>
    if walkOk s (c.actx s) k a then cacheTlb s (c.actx s) (if unit then some (slotOf c.p) else none) (a.toNat % 2 ^ 60)
    else s) s).tick

/-- A width that the rules of R231 forbid: `unit` for unit-stride instructions. -/
def VCtx.widthBad (c : VCtx) (w : Nat) (unit : Bool) : Bool :=
  decide (c.sew < w) || (decide (w < c.sew) && decide (2 ≤ c.fmt)) || (!unit && decide (w < 8))

/-- Whether an access is unit-stride. -/
def VAddr.isUnit : VAddr → Bool
  | .unit => true
  | _ => false
/-- Whether an access is unit-stride or strided. -/
def VAddr.inLine : VAddr → Bool
  | .indexed _ => false
  | _ => true

/-! ## Loads (R231–R236) -/

/-- What one element of a load gives: its bits with the flags of its conversion, or its failure. -/
inductive ELoad where
  | got (bits : Nat) (fl : Flags)
  | fails (f : EFail)
  deriving DecidableEq, Repr

/-- An element's bits from `w` memory bits (R231). -/
def VCtx.extend (c : VCtx) (w raw : Nat) : Nat :=
  if w < c.sew ∧ c.fmt = 0 then enc c.sew (sgn w raw) else raw

/-- The bytes that an element of a load returns: those of its line's access, if that was performed already (R328), else those
in memory now. -/
def VCtx.elemGets (c : VCtx) (s : State) (es : List Early) (addr : Int) (pl : Place) (n : Nat) : List Byte :=
  match pl with
  | .at_ key _ =>
    (match es.find? (fun e => e.va == addr.toNat / 128 && e.line == lineOf key) with
     | some e => (e.bytes.drop (key % 128)).take n
     | none => placeBytes s (dieOf c.core) pl n)
  | pl => placeBytes s (dieOf c.core) pl n

/-- A plain load of one element, with the line accesses performed early; a sub-byte one lies at a bit offset of its byte
(R47). -/
def VCtx.loadElem (c : VCtx) (s : State) (es : List Early) (g : VAddr) (w i : Nat) : ELoad :=
  let addr := c.eaddr s g w i
  match c.check s .load addr (elemBytes w) with
  | .error (.cause code dev) => .fails (failOf i .load code dev addr)
  | .error .wait => .fails (failOf i .load causeAccess false addr)
  | .ok pl =>
    let raw := ofBytes (c.elemGets s es addr pl (elemBytes w))
    .got (c.extend w (if w < 8 then getBits raw (i * w % 8) w else raw)) 0

/-- What the memory system keeps of reads at places: of each sector and each line once (R233). -/
def noteReads (s : State) (die : Nat) (pol : Policy) (rs : List (Place × Nat)) : State :=
  let s := (rs.flatMap (fun r => r.1.sectors r.2)).eraseDups.foldl (fun s k => noteSector s pol k) s
  let line (r : Place × Nat) : List Place := match r.1 with
    | .at_ key loc => (linesOf key r.2).map (fun l => .at_ (128 * l) loc)
    | .absent _ _ _ _ _ => []
  (rs.flatMap line).eraseDups.foldl (fun s pl => noteRead s die pl 1 (Policy.inL2 pol)) s

/-- What the memory system keeps of a load's elements, `extra` beside them. -/
def VCtx.noteLoads (c : VCtx) (s : State) (unit : Bool) (as : List Int) (n : Nat) (pol : Policy) (extra : List (Place × Nat)) : State :=
  c.noteAll (noteReads s (dieOf c.core) pol ((as.filterMap (fun a => match c.check s .load a n with
    | .ok pl => some (pl, n)
    | .error _ => none)) ++ extra)) .load unit as

/-! ### Expanding loads (R216, R258) -/

/-- A tagged tile: its size, its frame, and the in-tile offset of the base address. -/
structure Tile where
  tag : Nat
  size : Nat
  frame : Nat
  off : Nat
  deriving DecidableEq, Repr

/-- What the base tile of an expanding load makes of it: the plain load, an expansion, or one failure of every element. -/
inductive BaseTile where
  | plain
  | tile (t : Tile)
  | fails (code : Nat) (dev : Bool)
  deriving DecidableEq, Repr

/-- The base tile (R258): its entry is read once. -/
def VCtx.baseTile (c : VCtx) (s : State) : BaseTile :=
  match tentAt (tentsOf s (c.actx s).launch) (c.e.a.toNat % 2 ^ 60) with
  | none => .plain
  | some (_, t) =>
    let o := c.e.a.toNat % 2 ^ 60 - t.base
    match devRead s (t.entryKey (o / t.size)) 8 with
    | none => .fails causeUncorrectable true
    | some w =>
      if !entPresent w || entTag w == 0 then .plain
      else if entOk t.size w then .tile ⟨entTag w, t.size, entFrame w, o % t.size⟩
      else .fails causeAccess false

/-- Bytes of a tile's frame. -/
def Tile.num (t : Tile) (s : State) (off n : Nat) : Nat := s.mem.num (devKey (t.frame + off)) n

/-- q of R258's tag 2. -/
def Tile.codes (t : Tile) (s : State) : Nat := 64 + (2 * t.num s 0 2 + 63) / 64 * 64

/-- A tag-2 tile's header is valid (R216). -/
def Tile.headerOk (t : Tile) (s : State) : Bool :=
  let n := t.num s 0 2
  decide (1 ≤ n) && decide (n ≤ 1024) && t.num s 2 62 == 0

/-- The bytes that follow the last block of a tag-3 or tag-4 tile are zero (R3, R216). -/
def Tile.tailOk (t : Tile) (s : State) (block : Nat) : Bool := t.num s (t.size / block * block) (t.size % block) == 0

/-- The stored elements of a tile and k0 (R258), or the failure of every element. A tag-3 or tag-4 tile whose resv bytes are not
zero is invalid (R3, R216): ACCESS, as for a tag-2 tile's header (log 59). -/
def Tile.layout (t : Tile) (s : State) : Except Nat (Nat × Nat) :=
  let o := t.off
  match t.tag with
  | 1 => if o % 2 = 1 then .error causeMisalign else .ok (t.size / 2, o / 2)
  | 2 =>
    if !t.headerOk s ∨ o < t.codes s then .error causeAccess
    else .ok (2 * (t.size - t.codes s), 2 * (o - t.codes s))
  | 3 => if !t.tailOk s 17 ∨ o % 17 = 16 then .error causeAccess else .ok (32 * (t.size / 17), 32 * (o / 17) + 2 * (o % 17))
  | 4 => if !t.tailOk s 18 ∨ o % 18 = 17 then .error causeAccess else .ok (32 * (t.size / 18), 32 * (o / 18) + 2 * (o % 18))
  | 5 | 6 => .ok (t.size, o)
  | _ => .error causeAccess

/-- Where a stored element's bytes lie in its tile, as ranges (R216). -/
def Tile.ranges (t : Tile) (s : State) (k : Nat) : List (Nat × Nat) :=
  match t.tag with
  | 1 => [(2 * k, 2)]
  | 2 => [(0, 64), (64 + 2 * (k % t.num s 0 2), 2), (t.codes s + k / 2, 1)]
  | 3 => [(17 * (k / 32), 17)]
  | 4 => [(18 * (k / 32), 18)]
  | _ => [(k, 1)]

/-- A stored element's exact value, with the flags of reading it (R216, R44, R45). -/
def Tile.value (t : Tile) (s : State) (k : Nat) : FVal × Flags :=
  let delivered (x : FVal) : FVal × Flags := (x, flagsIf x.isSig fNV)
  match t.tag with
  | 1 => delivered (FFmt.bf16.decode (t.num s (2 * k) 2))
  | 2 =>
    mulX (ofIntX (sgn 4 (getBits (t.num s (t.codes s + k / 2) 1) (4 * (k % 2)) 4)))
      (FFmt.bf16.decode (t.num s (64 + 2 * (k % t.num s 0 2)) 2))
  | 3 =>
    delivered (blockX false (t.num s (17 * (k / 32) + 16) 1) (getBits (t.num s (17 * (k / 32) + k % 32 / 2) 1) (4 * (k % 2)) 4))
  | 4 =>
    delivered (blockX true (t.num s (18 * (k / 32) + 16) 2) (getBits (t.num s (18 * (k / 32) + k % 32 / 2) 1) (4 * (k % 2)) 4))
  | 5 => delivered (FFmt.e4m3.decode (t.num s k 1))
  | _ => delivered (ofIntX (sgn 8 (t.num s k 1)))

/-- Element i of an expanded tile (R258). -/
def VCtx.expandElem (c : VCtx) (s : State) (t : Tile) (addr : Int) (i : Nat) : ELoad :=
  let fail (code : Nat) : ELoad := .fails (failOf i .load code false addr)
  match t.layout s with
  | .error code => fail code
  | .ok (count, k0) =>
    if !c.isFp && t.tag != 6 then fail causeAccess
    else if count ≤ k0 + i then fail causeAccess
    else if (t.ranges s (k0 + i)).any (fun r => badAt s (devKey (t.frame + r.1)) r.2) then fail causeUncorrectable
    else if c.isFp then
      let r := t.value s (k0 + i)
      let q := finish c.ffmt .rne r
      .got q.1 q.2
    else
      let b := t.num s (k0 + i) 1
      .got (if c.fmt = 0 then enc c.sew (sgn 8 b) else b) 0

/-- An expanding load finds a line of its tile held by a copy engine (R206). -/
def VCtx.tileWaits (s : State) (t : Tile) (is : List Nat) : Bool :=
  match t.layout s with
  | .error _ => false
  | .ok (count, k0) => is.any (fun i => k0 + i < count && (t.ranges s (k0 + i)).any (fun r =>
      engineHeld s (lineOf (devKey (t.frame + r.1))) || engineHeld s (lineOf (devKey (t.frame + r.1 + r.2 - 1)))))

/-- The places of its tile that an expanding load reads (R216). -/
def Tile.reads (t : Tile) (s : State) (is : List Nat) : List (Place × Nat) :=
  match t.layout s with
  | .error _ => []
  | .ok (count, k0) => (is.filter (fun i => k0 + i < count)).flatMap (fun i =>
      (t.ranges s (k0 + i)).map (fun r => (.at_ (devKey (t.frame + r.1)) .dev, r.2)))

/-- A refused element of a load (R199). -/
def VCtx.loadRefused (c : VCtx) (s : State) (addr : Int) (n i : Nat) : ELoad :=
  match refused (c.check s .load addr n) with
  | .error (.cause code dev) => .fails (failOf i .load code dev addr)
  | _ => .fails (failOf i .load causeAccess false addr)

/-- Element i of a load with the x bit: an address of another tag than 0x3 takes ACCESS after steps 1 to 3 of R199 (R231); over
a tagged base tile an element's own address meets step 1 alone, for its data comes from the base tile (R258). -/
def VCtx.loadX (c : VCtx) (s : State) (b : BaseTile) (g : VAddr) (w i : Nat) : ELoad :=
  let addr := c.eaddr s g w i
  if tagOf c.e.a ≠ 3 then c.loadRefused s addr (elemBytes w) i
  else match b with
    | .plain => c.loadElem s [] g w i
    | .tile t => if canonical 3 addr then c.expandElem s t addr i else .fails (failOf i .load causeNoncanon false addr)
    | .fails code dev => .fails (failOf i .load (if canonical 3 addr then code else causeNoncanon) (canonical 3 addr && dev) addr)

/-! ### The load as a whole -/

/-- The failures of a load's elements. -/
def failsOf (rs : List (Nat × ELoad)) : List EFail :=
  rs.filterMap (fun r => match r.2 with
    | .fails f => some f
    | .got _ _ => none)

/-- The bits that a load writes at an index. -/
def gotAt (rs : List (Nat × ELoad)) (i : Nat) : Option (Nat × Flags) :=
  match rs.find? (fun r => r.1 == i) with
  | some (_, .got v fl) => some (v, fl)
  | _ => none

/-- What a load writes at an index (R95, R236): a failing element's destination is unchanged. -/
def VCtx.loadDest (c : VCtx) (rs : List (Nat × ELoad)) (i : Nat) : Option Nat :=
  if i < c.vstart then none
  else if c.pred i then (gotAt rs i).map (·.1)
  else if c.zero then some 0 else none

/-- Flags of the elements that a load writes below an index. -/
def flagsBelow (rs : List (Nat × ELoad)) (hi : Nat) : Flags :=
  rs.foldl (fun t r => match r.2 with
    | .got _ fl => if r.1 < hi then t ||| fl else t
    | .fails _ => t) 0

/-- FSTAT and VL after a first-fault load trimmed at element g (R238). DESIGN CHOICE (log 63): FMASK keeps its value, for R238 gives
it none. -/
def trimmed (h : Hart) (g code : Nat) : Hart :=
  { h with
    vl := BitVec.ofNat 16 g
    fstat := BitVec.ofNat 40 (putBits (putBits (putBits h.fstat.toNat 24 8 code) 16 1 1) 0 16 g) }

/-- What the scalar thread knows of VL once a first-fault load at the head is done (R103, R149). -/
def knowTrim (h : Hart) : Hart := if (h.viq.drop 1).any setsLength then h else { h with pushVl := h.vl }

/-- The end of a first-fault load (R238). -/
def VCtx.finishFirst (c : VCtx) (s : State) (d : Nat) (rs : List (Nat × ELoad)) : VRes :=
  let s := c.endReplay s
  let fs := failsOf rs
  match firstFail fs with
  | none =>
    let s := s.updHart c.p (fun h => { h with fstat := h.fstat &&& ~~~(1#40 <<< 16) })
    .ok (c.flag (c.putV' s d c.sew 1 0 c.vl (c.loadDest rs)) (flagsBelow rs c.vl)) none
  | some f =>
    if (rs.head?.map (·.1)) = some f.i then c.elementFault s [f]
    else
      let s := c.flag (c.putV' s d c.sew 1 0 f.i (c.loadDest rs)) (flagsBelow rs f.i)
      .ok (s.updHart c.p (fun h => knowTrim (trimmed h f.i f.code))) none

/-- A vector load: `first` for a first-fault one, `x` for the x bit, `o` for the O bit, `pol` its policy (R200, R231–R238,
R258). -/
def loadOpV (i : Instr) (d : Reg) (g : VAddr) (vw : VWidth) (o : Bool) (pol : Policy) (x first : Bool) (s : State) : Out :=
  vecOp i (fun c s =>
    let w := VWidth.bits vw c.sew
    if c.widthBad w g.isUnit || (x && (vw != .sew || decide (3 < c.fmt) || (decide (c.fmt < 2) && decide (c.sew < 8)))) then
      c.illegal s
    else c.guard s g.srcs [(d.toNat, 1)] [] []
      (let s := c.markV s d.toNat
       let is := if first then c.actives else c.todo s
       let as := is.map (c.eaddr s g w)
       let es := if o || x then [] else (s.hart c.p).early
       let s := if x then s.drainV c.p else drainSlices s c.p (slicesOf as)
       let b := if x && tagOf c.e.a == 3 then c.baseTile s else .plain
       let waits := match b with
         | .tile t => VCtx.tileWaits s t is
         | _ => as.any (fun a => mustWait (c.check s .load a (elemBytes w)))
       if waits then .wait s
       else
         let rs := is.map (fun i => (i, if x then c.loadX s b g w i else c.loadElem s es g w i))
         let s := dropEarly s c.p (if x then List.range 8 else slicesOf as)
         let pol := Policy.inForce pol c.e.ovr
         let s := match b with
           | .tile t => c.noteLoads s g.inLine [] (elemBytes w) pol (t.reads s is)
           | _ => c.noteLoads s g.inLine as (elemBytes w) pol []
         if first then c.finishFirst s d.toNat rs
         else c.finishMem (c.flag (c.putV' s d.toNat c.sew 1 0 c.vl (c.loadDest rs)) (flagsBelow rs c.vl)) (failsOf rs))) s

/-- VLD (R232). -/
def execVld (d base : Reg) (w : VWidth) (o h : Bool) (pol : Policy) (mk x : Bool) (s : State) : Out :=
  loadOpV (.vld d base w o h pol mk x) d .unit w o pol x false s
/-- VLDS (R232). -/
def execVlds (d base ix : Reg) (w : VWidth) (o h : Bool) (pol : Policy) (mk x : Bool) (s : State) : Out :=
  loadOpV (.vlds d base ix w o h pol mk x) d .strided w o pol x false s
/-- VLDX (R232). -/
def execVldx (d base ix : Reg) (w : VWidth) (o h : Bool) (pol : Policy) (mk x : Bool) (s : State) : Out :=
  loadOpV (.vldx d base ix w o h pol mk x) d (.indexed ix.toNat) w o pol x false s
/-- VLDFF (R238). -/
def execVldff (d base : Reg) (w : VWidth) (o h : Bool) (pol : Policy) (mk x : Bool) (s : State) : Out :=
  loadOpV (.vldff d base w o h pol mk x) d .unit w o pol x true s
/-- VLDXFF (R238). -/
def execVldxff (d base ix : Reg) (w : VWidth) (o h : Bool) (pol : Policy) (mk x : Bool) (s : State) : Out :=
  loadOpV (.vldxff d base ix w o h pol mk x) d (.indexed ix.toNat) w o pol x true s

/-! ## Stores (R231–R236, R268, R341) -/

/-- What element i of a store writes: whole bytes, or some bits of one byte (R47, R233). -/
def VCtx.datum (c : VCtx) (s : State) (d w i : Nat) : Datum :=
  let v := c.ev s d c.sew i % 2 ^ w
  if w < 8 then .bits (BitVec.ofNat 8 ((2 ^ w - 1) <<< (i * w % 8))) (BitVec.ofNat 8 (v <<< (i * w % 8)))
  else .bytes (toBytes (w / 8) v)

/-- Two sub-byte elements of one instruction in one byte are one update of it (R233). -/
def Pend.merge (p q : Pend) : Option Pend :=
  match p.data, q.data with
  | .bits m v, .bits m' v' =>
    if p.acc = q.acc ∧ p.dest = q.dest then some { p with data := .bits (m ||| m') (maskByte m' v' v) } else none
  | _, _ => none

/-- An element joins the accesses before it: the last one's byte when it lies in it (R233). -/
def joinPend (ps : List Pend) (q : Pend) : List Pend :=
  match ps.getLast?.bind (fun p => p.merge q) with
  | some r => ps.dropLast ++ [r]
  | none => ps ++ [q]

/-- The destination of an element train (R341, R342): a peer package, or the host, numbered 256. -/
def Dest.peer (d : Dest) : Option Nat :=
  match d with
  | .key k => if 2 ^ 62 ≤ k then some ((k - 2 ^ 62) / 2 ^ 57) else if 2 ^ 61 ≤ k then some 256 else none
  | .tile _ _ _ _ => none

/-- A slice store queue holds 32 line accesses (R265, R268): with no room the VMU waits until the oldest is performed. -/
def makeRoom (s : State) (p slice : Nat) (q : Pend) : State :=
  let ps := vget [] (s.hart p).ssq slice
  if 32 ≤ lineCount ps ∧ (ps.getLast?.map (fun r => r.joins q)) ≠ some true then
    let r := firstLine ps
    (s.performs (.vec p) r.1).updHart p (fun h => { h with ssq := vset h.ssq slice r.2 })
  else s

/-- An element joins the train of its instruction to a package or the host, or begins it (R341, R342). -/
def intoTrain (p g : Nat) (q : Pend) : List (Nat × Nat × List Pend) → List (Nat × Nat × List Pend)
  | [] => [(p, g, [q])]
  | t :: rest =>
    if t.1 = p ∧ t.2.1 = g ∧ (t.2.2.head?.map (·.acc)) = some q.acc then (t.1, t.2.1, joinPend t.2.2 q) :: rest
    else t :: intoTrain p g q rest

/-- An element enters its slice store queue (R268), or its element train (R341); the order within a slice is kept (R328). -/
def VCtx.enter (c : VCtx) (s : State) (slice : Nat) (q : Pend) : State :=
  match q.dest.peer with
  | some g =>
    let s := s.drainQueue c.p slice
    { s with trains := intoTrain c.p g q s.trains }
  | none =>
    let s := s.ackTrains (fun t => State.inTrain c.p slice t && t.2.2.all (fun r => r.acc != q.acc))
    (makeRoom s c.p slice q).updHart c.p (fun h => { h with ssq := vset h.ssq slice (joinPend (vget [] h.ssq slice) q) })

/-- Elements are performed, in order, after the hart's earlier line accesses of their slices. -/
def VCtx.performNow (c : VCtx) (s : State) (ls : List (Nat × Pend)) : State :=
  (drainSlices s c.p (sortSet (ls.map (·.1)))).performs (.vec c.p) (ls.map (·.2))

/-- A place is reached by an element train (R341, R342). -/
def Place.far (pl : Place) : Bool :=
  match pl with
  | .at_ _ .host | .at_ _ (.peer _) => true
  | _ => false

/-- Every element of a store that does not fail goes by a train: then the trains keep the order of O (R233, R341). -/
def VCtx.allFar (c : VCtx) (s : State) (as : List Int) (n : Nat) : Bool :=
  as.all (fun a => match c.check s .store a n with
    | .ok pl => pl.far
    | .error _ => true)

/-- An element of a store waits in a queue or a train (R235, log 2): with O only where all elements go by trains (`far`), and in
an absent tile only while the pool has a frame for it. -/
def VCtx.queues (c : VCtx) (s : State) (ordered far : Bool) (pl : Place) : Bool :=
  (s.hart c.p).lazyV && (!ordered || far) && (match pl with
    | .at_ _ _ => true
    | .absent l t i _ _ => s.canReserve (.vec c.p) l t i)

/-- The elements that lie in the byte of element i, `w` bits each, are all written. -/
def wholeByte (w : Nat) (is : List Nat) (i : Nat) : Bool :=
  (List.range (8 / w)).all (fun j => is.contains (i / (8 / w) * (8 / w) + j))

/-- Sectors that the elements of a store cover whole (R219). -/
def VCtx.coveredSectors (c : VCtx) (s : State) (g : VAddr) (w : Nat) (is : List Nat) : List Nat :=
  if s.badSectors = [] ∧ s.lostSectors = [] then []
  else wholeSectors ((is.filter (fun i => decide (8 ≤ w) || wholeByte w is i)).flatMap (fun i =>
    match checkAddr s (c.actx s) .store .natural (tagOf c.e.a) (c.eaddr s g w i) (elemBytes w) with
    | .ok (.at_ key _) => cellsAt key (List.replicate (elemBytes w) 0)
    | _ => []))

/-- A store's check of an element: a bad sector that the store covers whole is replaced (R219). -/
def VCtx.checkStore (c : VCtx) (s : State) (cover : List Nat) (addr : Int) (n : Nat) : Except AFail Place :=
  match c.check s .store addr n with
  | .error e =>
    (match checkAddr s (c.actx s) .store .natural (tagOf c.e.a) addr n with
     | .ok (.at_ key loc) =>
       if cover.contains (sectorOf key) && !engineHeld s (lineOf key) then .ok (.at_ key loc) else .error e
     | _ => .error e)
  | r => r

/-- A store in progress: the state, the elements to perform at once with their slices, and the failures. -/
structure Storing where
  s : State
  ls : List (Nat × Pend)
  fs : List EFail

/-- How a store's elements are performed: its O bit, whether all of them go by trains, its policy (R200), and the
sectors that they cover whole. -/
structure StoreMode where
  ord : Bool
  far : Bool
  pol : Policy
  cover : List Nat

/-- One element of a store: it enters its queue; or it is noted; or its absent tile is pitched and the element performed with
the birth (R214, R333). -/
def VCtx.storeElem (c : VCtx) (g : VAddr) (w d : Nat) (m : StoreMode) (t : Storing) (i : Nat) : Storing :=
  let addr := c.eaddr t.s g w i
  let slice := sliceOf addr.toNat
  let at_ (s : State) (clears : List Nat) (dest : Dest) : Pend :=
    ⟨dest, c.datum s d w i, (s.hart c.p).stamp, addr.toNat / 128, clears, 0, m.pol, m.ord⟩
  match c.checkStore t.s m.cover addr (elemBytes w) with
  | .error .wait => { t with fs := t.fs ++ [failOf i .store causeAccess false addr] }
  | .error (.cause code dev) => { t with fs := t.fs ++ [failOf i .store code dev addr] }
  | .ok pl =>
    let clears := match pl with
      | .at_ key _ => m.cover.filter (· == sectorOf key)
      | .absent _ _ _ _ _ => []
    if c.queues t.s m.ord m.far pl then
      { t with s := c.enter t.s slice (at_ t.s clears (destOf t.s (c.actx t.s) addr pl)) }
    else match pl with
      | .at_ key _ =>
        let q := at_ t.s clears (.key key)
        (match t.ls.getLast?.bind (fun l => l.2.merge q) with
         | some r => { t with ls := t.ls.dropLast ++ [(slice, r)] }
         | none => { t with ls := t.ls ++ [(slice, q)] })
      | pl =>
        match landing t.s (.vec c.p) pl with
        | .error (code, s') => { t with s := s', fs := t.fs ++ [⟨i, code, birthDetail .store pl code, addrWord addr⟩] }
        | .ok (s', key) => { t with s := c.performNow s' [(slice, at_ s' [] (.key key))] }

/-- The end of a store: what does not wait is performed; the next store instruction has the next stamp. -/
def VCtx.endStore (c : VCtx) (t : Storing) : State :=
  let s := if t.ls = [] then t.s else c.performNow t.s t.ls
  if (s.hart c.p).lazyV then s.updHart c.p (fun h => { h with stamp := h.stamp + 1 }) else s

/-- What tells coinciding elements apart: the memory key, or the address in an absent tile. -/
def VCtx.spot (c : VCtx) (s : State) (g : VAddr) (w i : Nat) : Int :=
  let addr := c.eaddr s g w i
  match c.check s .store addr (elemBytes w) with
  | .ok (.at_ key _) => (key : Int)
  | _ => -1 - addr

/-- The order in which a store performs its elements (R233): ascending with O; without O any one of several coinciding
elements comes last. -/
def VCtx.storeOrder (c : VCtx) (s : State) (g : VAddr) (w : Nat) (o : Bool) (is : List Nat) : List Nat :=
  if o || g.isUnit then is
  else
    let last (i : Nat) : Bool :=
      let same := is.filter (fun j => c.spot s g w j == c.spot s g w i)
      same.getD (s.chooseAt (c.spot s g w i).natAbs same.length) i == i
    is.filter (fun i => !last i) ++ is.filter last

/-- A vector store (R231–R236), with its policy (R200). A line read early for a later load is given up in the slices that the
store touches (R328). -/
def storeOpV (i : Instr) (d : Reg) (g : VAddr) (vw : VWidth) (o : Bool) (pol : Policy) (s : State) : Out :=
  vecOp i (fun c s =>
    let w := VWidth.bits vw c.sew
    if c.widthBad w g.isUnit then c.illegal s
    else c.guard s ((d.toNat, 1) :: g.srcs) [] [] []
      (let is := c.todo s
       let as := is.map (c.eaddr s g w)
       let s := dropEarly s c.p (slicesOf as)
       let cover := c.coveredSectors s g w is
       let m : StoreMode := ⟨o, c.allFar s as (elemBytes w), Policy.inForce pol c.e.ovr, cover⟩
       if as.any (fun a => mustWait (c.checkStore s cover a (elemBytes w))) then .wait s
       else
         let t := (c.storeOrder s g w o is).foldl (c.storeElem g w d.toNat m) ⟨s, [], []⟩
         c.finishMem (c.noteAll (c.endStore t) .store g.inLine as) t.fs)) s

/-- VST (R232). -/
def execVst (d base : Reg) (w : VWidth) (o h : Bool) (pol : Policy) (mk : Bool) (s : State) : Out :=
  storeOpV (.vst d base w o h pol mk) d .unit w o pol s
/-- VSTS (R232). -/
def execVsts (d base ix : Reg) (w : VWidth) (o h : Bool) (pol : Policy) (mk : Bool) (s : State) : Out :=
  storeOpV (.vsts d base ix w o h pol mk) d .strided w o pol s
/-- VSTX (R232). -/
def execVstx (d base ix : Reg) (w : VWidth) (o h : Bool) (pol : Policy) (mk : Bool) (s : State) : Out :=
  storeOpV (.vstx d base ix w o h pol mk) d (.indexed ix.toNat) w o pol s

/-! ## Vector atomics (R239, R240) -/

/-- VTYPE meets vamo's requirement (R239). -/
def VCtx.vamoOk (c : VCtx) (op : VamoOp) : Bool :=
  match op with
  | .swap => true
  | .fadd => c.isFp
  | _ => decide (c.fmt < 2)

/-- The value that vamo writes, with its flags (R239). -/
def VCtx.vamoNew (c : VCtx) (op : VamoOp) (old b : Nat) : Nat × Flags :=
  let le (x y : Nat) : Bool := decide (intOf (c.fmt == 0) c.sew x ≤ intOf (c.fmt == 0) c.sew y)
  match op with
  | .add => ((old + b) % 2 ^ c.sew, 0)
  | .swap => (b, 0)
  | .and => (old &&& b, 0)
  | .or => (old ||| b, 0)
  | .xor => (old ^^^ b, 0)
  | .min => (if le old b then old else b, 0)
  | .max => (if le old b then b else old, 0)
  | .fadd => finish c.ffmt .rne (addX .rne (c.ffmt.decode old) (c.ffmt.decode b))

/-- A host element that vamo refuses (R240). -/
def VCtx.hostRefused (c : VCtx) (op : VamoOp) (pl : Place) : Bool :=
  match pl with
  | .at_ _ .host => !((op == .add || op == .swap) && (c.sew == 32 || c.sew == 64))
  | _ => false

/-- A vamo in progress: the state, the old values by index, the flags and the failures. -/
structure Amoing where
  s : State
  olds : List (Nat × Nat)
  fl : Flags
  fs : List EFail

/-- One application of vamo (R239), `b` its operand. -/
def VCtx.amoElem (c : VCtx) (op : VamoOp) (t : Amoing) (e : Nat × Int × Nat) : Amoing :=
  let n := c.sew / 8
  let fail (code detail : Nat) (s : State) : Amoing := { t with s := s, fs := t.fs ++ [⟨e.1, code, detail, addrWord e.2.1⟩] }
  match c.check t.s .atomic e.2.1 n with
  | .error .wait => fail causeAccess 2 t.s
  | .error (.cause code dev) => fail code (accDetail .atomic code dev) t.s
  | .ok pl =>
    if c.hostRefused op pl then fail causeAccess 2 t.s
    else match landing t.s (.vec c.p) pl with
      | .error (code, s') => fail code (birthDetail .atomic pl code) s'
      | .ok (s', key) =>
        let s' := match pl with
          | .at_ key (.peer _) => dropPeerCopy s' (dieOf c.core) (lineOf key)
          | _ => s'
        let old := s'.mem.num key n
        let r := c.vamoNew op old e.2.2
        { t with
          s := s'.write (dieOf c.core) (cellsAt key (toBytes n r.1))
          olds := t.olds ++ [(e.1, old)]
          fl := t.fl ||| r.2 }

/-- The part of a vamo that an element belongs to (R240): 0 the local part, as one; 1 the peer elements of one address; 2 one host
element. An element that fails counts with the local part. -/
def VCtx.amoUnit (c : VCtx) (s : State) (e : Nat × Int × Nat) : Nat × Int :=
  match c.check s .atomic e.2.1 (c.sew / 8) with
  | .ok (.at_ _ (.peer _)) => (1, e.2.1)
  | .ok (.at_ _ .host) => (2, (e.1 : Int))
  | _ => (0, 0)

/-- The parts that may be performed next, of those in the order of their first elements: with O the peer and host elements keep
ascending index (R240). -/
def nextUnits (o : Bool) (us : List (Nat × Int)) : List (Nat × Int) :=
  if o then us.filter (fun u => u.1 == 0) ++ (us.filter (fun u => u.1 != 0)).take 1 else us

/-- Earlier trains of a hart that write a byte of a far element are performed before it (R326, R341). -/
def VCtx.ackMeeting (c : VCtx) (s : State) (e : Nat × Int × Nat) : State :=
  match c.check s .atomic e.2.1 (c.sew / 8) with
  | .ok (.at_ key loc) =>
    if (Place.at_ key loc).far then
      s.ackTrains (fun t => t.1 == c.p && t.2.2.any (fun q => match q.dest with
        | .key k => decide (k < key + c.sew / 8) && decide (key < k + q.data.size)
        | .tile _ _ _ _ => false))
    else s
  | _ => s

/-- The elements of a vamo that are neither applied nor failed yet. -/
def Amoing.left (t : Amoing) (es : List (Nat × Int × Nat)) : List (Nat × Int × Nat) :=
  es.filter (fun e => !t.olds.any (fun x => x.1 == e.1) && !t.fs.any (fun f => f.i == e.1))

/-- `n` more parts of a vamo are performed, in any order that R240 allows. -/
def VCtx.amoParts (c : VCtx) (op : VamoOp) (o : Bool) (es : List (Nat × Int × Nat)) : Nat → Amoing → Amoing
  | 0, t => t
  | n + 1, t =>
    let left := t.left es
    let us := nextUnits o (left.map (c.amoUnit t.s)).eraseDups
    match us[t.s.choose us.length]? with
    | none => t
    | some u =>
      let now := left.filter (fun e => c.amoUnit t.s e == u)
      let t := { t with s := now.foldl c.ackMeeting t.s }
      let t := now.foldl (c.amoElem op) t
      c.amoParts op o es n { t with s := t.s.tick }

/-- VAMO (R239, R240): its parts at one moment, or at moments of their own. -/
def execVamo (d base ix : Reg) (w : VWidth) (o h : Bool) (op : VamoOp) (mk : Bool) (s : State) : Out :=
  vecOp (.vamo d base ix w o h op mk) (fun c s =>
    let g := VAddr.indexed ix.toNat
    if VWidth.bits w c.sew ≠ c.sew ∨ c.sew < 8 ∨ !c.vamoOk op then c.illegal s
    else c.guard s [(d.toNat, 1), (ix.toNat, 1)] [(d.toNat, 1)] [] []
      (let s := c.markV s d.toNat
       let es := (c.todo s).map (fun i => (i, c.eaddr s g c.sew i, c.ev s d.toNat c.sew i))
       let as := es.map (·.2.1)
       let x := c.e.done
       let start : Amoing :=
         ⟨s, x.outs.map (fun y => (y.1, y.2.2)), x.fl, x.fails.map (fun f => ⟨f.1, f.2.1, f.2.2.1, f.2.2.2⟩)⟩
       let near := ((start.left es).filter (fun e => (c.amoUnit s e).1 == 0)).map (·.2.1)
       let s := dropEarly (drainSlices s c.p (slicesOf near)) c.p (slicesOf as)
       if (start.left es).any (fun e => mustWait (c.check s .atomic e.2.1 (c.sew / 8))) then .wait s
       else
         let t := c.amoParts op o es (c.pause.getD es.length) { start with s := s }
         if t.left es ≠ [] then
           .part t.s { x with
             steps := x.steps + 1, outs := t.olds.map (fun y => (y.1, true, y.2)), fl := t.fl
             fails := t.fs.map (fun f => (f.i, f.code, f.detail, f.tval)) }
         else
         let dest (i : Nat) : Option Nat :=
           if i < c.vstart then none else if c.pred i then (t.olds.find? (fun e => e.1 == i)).map (·.2) else if c.zero then some 0 else none
         c.finishMem (c.noteAll (c.flag (c.putV' t.s d.toNat c.sew 1 0 c.vl dest) t.fl) .atomic false as) t.fs)) s

/-! ## Locks (R241, R242) -/

/-- The check of a lock's address (R241): tags 0x4 and 0x5 take ACCESS after the checks of R199. -/
def VCtx.checkLock (c : VCtx) (s : State) (a : Word) : Except AFail Place :=
  let r := accPlace s (c.actx s) .atomic .natural (tagOf a) (a.toNat : Int) 8
  if 3 < tagOf a then refused r else r

/-- The active elements of v[ix] with the locks they present. -/
def VCtx.locks (c : VCtx) (s : State) (ix : Reg) : List (Nat × Word) :=
  c.actives.map (fun i => (i, BitVec.ofNat 64 (c.ev s ix.toNat 64 i)))

/-- The locks' failing elements. -/
def VCtx.lockFails (c : VCtx) (s : State) (es : List (Nat × Word)) : List EFail :=
  es.filterMap (fun e => match c.checkLock s e.2 with
    | .error (.cause code dev) => some (failOf e.1 .atomic code dev (e.2.toNat : Int))
    | _ => none)

/-- Tries locks in order (R241): the state, the addresses held, and whether trying has stopped; a tile that cannot be
pitched names its address and cause. -/
structure Locking where
  s : State
  heldAt : List Nat
  stop : Bool
  bad : Option (Nat × Nat × Nat)

/-- cas(a, 0, T) (R241). -/
def VCtx.tryLock (c : VCtx) (tag : Word) (stopAtBusy : Bool) (t : Locking) (a : Nat) : Locking :=
  if t.stop || t.bad.isSome then t
  else match c.checkLock t.s (BitVec.ofNat 64 a) with
    | .error _ => t
    | .ok pl => match landing t.s (.vec c.p) pl with
      | .error (code, s') => { t with s := s', bad := some (a, code, birthDetail .atomic pl code) }
      | .ok (s', key) =>
        if s'.mem.num key 8 = 0 then
          { t with s := s'.write (dieOf c.core) (cellsAt key (toBytes 8 tag.toNat)), heldAt := a :: t.heldAt }
        else { t with s := s', stop := stopAtBusy }

/-- Locks taken are given back: a failing element leaves nothing performed (R241). -/
def VCtx.unlocked (c : VCtx) (s : State) (as : List Nat) : State :=
  as.foldl (fun s a => match c.checkLock s (BitVec.ofNat 64 a) with
    | .ok (.at_ key _) => s.write (dieOf c.core) (cellsAt key (toBytes 8 0))
    | _ => s) s

/-- VLOCK (R241). -/
def execVlock (d : MReg) (base ix : Reg) (s_ h mk : Bool) (s : State) : Out :=
  vecOp (.vlock d base ix s_ h mk) (fun c s =>
    if c.sew ≠ 64 ∨ c.e.a = 0 then c.illegal s
    else c.guard s [(ix.toNat, 1)] [] [] []
      (let s := s.dirty c.p (32 + d.toNat)
       let es := c.locks s ix
       let as := es.map (fun e => (e.2.toNat : Int))
       let s := dropEarly (drainSlices s c.p (slicesOf as)) c.p (slicesOf as)
       if es.any (fun e => mustWait (c.checkLock s e.2)) then .wait s
       else match c.lockFails s es with
         | f :: fs => c.finishMem s (f :: fs)
         | [] =>
           let t := (sortSet (es.map (·.2.toNat))).foldl (c.tryLock c.e.a s_) ⟨s, [], false, none⟩
           match t.bad with
           | some (a, code, detail) =>
             c.finishMem (c.unlocked t.s t.heldAt) ((es.filter (fun e => e.2.toNat == a)).map (fun e => ⟨e.1, code, detail, e.2⟩))
           | none =>
             let first (i : Nat) : Bool := match es.find? (fun e => e.1 == i) with
               | some e => t.heldAt.contains e.2.toNat && (es.find? (fun k => k.2 == e.2)).map (·.1) == some i
               | none => false
             .ok (c.noteAll (c.putM (c.endReplay t.s) d.toNat first) .atomic false as) none)) s

/-- One lock to release: its tile is pitched first when it is absent; the store of 0 comes when every lock is found (R241, R242). -/
def VCtx.findLock (c : VCtx) (t : Storing) (e : Nat × Word) : Storing :=
  match c.checkLock t.s e.2 with
  | .error _ => t
  | .ok pl => match landing t.s (.vec c.p) pl with
    | .error (code, s) => { t with s := s, fs := t.fs ++ [⟨e.1, code, birthDetail .atomic pl code, e.2⟩] }
    | .ok (s, key) =>
      { t with s := s, ls := t.ls ++ [(0, ⟨.key key, .bytes (toBytes 8 0), 0, e.2.toNat / 128, [], 0, .dflt, false⟩)] }

/-- VUNLOCK (R242): a release at package scope. -/
def execVunlock (d : MReg) (ix : Reg) (h mk : Bool) (s : State) : Out :=
  vecOp (.vunlock d ix h mk) (fun c s =>
    if c.sew ≠ 64 then c.illegal s
    else c.guard s [(ix.toNat, 1)] [] [d.toNat] []
      (let es := c.locks s ix
       let as := es.map (fun e => (e.2.toNat : Int))
       if es.any (fun e => mustWait (c.checkLock s e.2)) then .wait s
       else match c.lockFails s es with
         | f :: fs => c.finishMem s (f :: fs)
         | [] =>
           let s := ((s.settleLate (.user c.p)).drainL (.user c.p)).drainQueues c.p
           let t := (es.filter (fun e => c.em s d.toNat e.1)).foldl c.findLock ⟨s, [], []⟩
           if t.fs = [] then c.finishMem (c.noteAll (t.s.performs (.vec c.p) (t.ls.map (·.2))) .atomic false as) []
           else c.finishMem t.s t.fs)) s

/-! ## Saving vector registers (R243) -/

/-- The first sector of a register image that step 4 of R199, an uncorrectable error or an Engine-held line stops. -/
def VCtx.sectorFail (c : VCtx) (s : State) (k : AKind) (n : Nat) : Option (AFail × Int) :=
  (List.range (n / 64)).findSome? (fun j =>
    let addr : Int := (c.e.a.toNat : Int) + (64 * j : Nat)
    let tag := tagOf c.e.a
    let r := if k = .load then accPlace s (c.actx s) k .natural tag addr 64 else checkAddr s (c.actx s) k .natural tag addr 64
    match r with
    | .error e => some (e, addr)
    | .ok (.at_ key _) => if engineHeld s (lineOf key) then some (.wait, addr) else none
    | .ok _ => none)

/-- The failing check of a register image (R243), if any, with its address: steps 1 to 3 of R199 on the image as a whole, the
tags that R243 refuses, then step 4 on each of its bytes. -/
def VCtx.imageFail (c : VCtx) (s : State) (k : AKind) (n : Nat) : Option (AFail × Int) :=
  let a : Int := (c.e.a.toNat : Int)
  let tag := tagOf c.e.a
  let whole := checkAddr s (c.actx s) k (.multiple 64) tag a n
  match (if 2 < tag then refused whole else whole), decide (2 < tag) with
  | .error e, true => some (e, a)
  | .error (.cause code dev), false =>
    if code < causePage then some (.cause code dev, a) else c.sectorFail s k n
  | _, _ => c.sectorFail s k n

/-- The key and location of an image's 64-byte sector j. -/
def VCtx.imageAt (c : VCtx) (s : State) (k : AKind) (j : Nat) : Nat × Loc :=
  match checkAddr s (c.actx s) k .natural (tagOf c.e.a) ((c.e.a.toNat : Int) + (64 * j : Nat)) 64 with
  | .ok (.at_ key loc) => (key, loc)
  | _ => (0, .dev)

/-- The header of an image (R243). -/
def VCtx.imageHead (c : VCtx) : List Byte := toBytes 4 c.vlen ++ toBytes 4 c.eff ++ toBytes 56 0

/-- An image access: its checks, then `k` on the keys of its sectors; an instruction fault at the first failing check. -/
def VCtx.imageOp (c : VCtx) (s : State) (kind : AKind) (k : State → List (Nat × Loc) → VRes) : VRes :=
  let n := 64 + c.vlen / 8
  match c.imageFail s kind n with
  | some (.wait, _) => .wait s
  | some (.cause code dev, addr) => .trap s (c.cause s code (accDetail kind code dev) (addrWord addr))
  | none =>
    let s := s.drainV c.p
    k s ((List.range (n / 64)).map (c.imageAt s kind))

/-- The addresses of an image's sectors. -/
def VCtx.imageAddrs (c : VCtx) : List Int :=
  (List.range ((64 + c.vlen / 8) / 64)).map (fun j => (c.e.a.toNat : Int) + (64 * j : Nat))

/-- VSAVE (R243). -/
def execVsave (d base : Reg) (h : Bool) (pol : Policy) (s : State) : Out :=
  vecOp (.vsave d base h pol) (fun c s => c.guardRegs s [(d.toNat, 1)] [] [] []
    (c.imageOp s .store (fun s keys =>
      let bs := c.imageHead ++ toBytes (c.vlen / 8) (getBits (vreg s c.core d.toNat) (c.lane0 * 1024) c.vlen)
      let cells := keys.zipIdx.flatMap (fun e => cellsAt e.1.1 ((bs.drop (64 * e.2)).take 64))
      .ok (c.noteAll (s.writeBy (Policy.inForce pol c.e.ovr) (dieOf c.core) cells) .store true c.imageAddrs) none))) s

/-- VRESTORE (R243). -/
def execVrestore (d base : Reg) (h : Bool) (pol : Policy) (s : State) : Out :=
  vecOp (.vrestore d base h pol) (fun c s => c.guardRegs s [] [(d.toNat, 1)] [] []
    (let s := s.dirty c.p d.toNat
     c.imageOp s .load (fun s keys =>
       let bs := keys.flatMap (fun k => readBytes s (dieOf c.core) k.2 k.1 64)
       if bs.take 64 ≠ c.imageHead then .trap s (c.cause s causeImage 0 c.e.a)
       else
         let v := putBits (vreg s c.core d.toNat) (c.lane0 * 1024) c.vlen (ofBytes (bs.drop 64))
         let s := noteReads s (dieOf c.core) (Policy.inForce pol c.e.ovr) (keys.map (fun k => (.at_ k.1 k.2, 64)))
         .ok (c.noteAll ((s.putVreg c.core d.toNat v).clean c.p 2 d.toNat) .load true c.imageAddrs) none))) s

end Sys2Proof.Machine
end

