-- ==== Sys2Proof/Machine/Engines.lean ====
section
/-! DEFINITION. Machine/Engines.lean: tokens, the Matrix Control Core and the Matrix Array, outer products and streams: the
instructions of class 0xD but for the copies (R269, R272, R273, R281–R293, R300, R301), and the steps of the MXA and of the
stream fetch hardware. -/

namespace Sys2Proof.Machine

/-! ## Tokens on a hart (R269, R282, R283, R285) -/

/-- The MCC and the FIFOs of a hart's cluster are held by its launch (R283). -/
def ownsMcc (s : State) (p : Nat) : Bool := (s.cluster (clusterOf (coreOf p))).holder == some (s.hart p).launch

/-- ACCESS of a whole instruction that names no address (R283, R301): STVAL is a free value (log 6). -/
def VCtx.noUnit (c : VCtx) (s : State) : VRes := .trap s.tick (c.cause s causeAccess 0 (Config.freeWord s.free))

/-- How far the head has come. -/
def setStage (s : State) (p : Nat) (g : HeadStage) : State := s.updHart p (fun h => { h with stage := g })

/-- A token of the hart's incoming direction is taken. -/
def takeToken (s : State) (p : Nat) : State := s.updHart p (fun h => { h with tokIn := h.tokIn - 1 })

/-- The head has executed: its .push adds a token, when there is room, and it retires (R269). -/
def VCtx.endToken (c : VCtx) (s : State) (push : Bool) (r : Option Word) : VRes :=
  if !push then .ok (setStage s c.p .start) r
  else if (s.hart c.p).tokOut < 16 then
    .ok (setStage (s.updHart c.p (fun h => { h with tokOut := h.tokOut + 1 })) c.p .start) r
  else .wait (setStage s c.p .ran)

/-- A class 0xD word with its suffixes: the pop as it issues, the push when it retires; `cmd` for a word that retires by
entering a command, which waits for the push's room first (R269, R270, R285). A word that waits has not issued, and its token is
in the FIFO still (log 17). No token moves at an instruction fault (R282); an element fault is replayed without a second
pop. -/
def tokened (push pop cmd : Bool) (k : VCtx → State → VRes) (c : VCtx) (s : State) : VRes :=
  let h := s.hart c.p
  let pops := pop && c.e.done.steps == 0 && c.e.st != .replay
  if (push || pop) && !ownsMcc s c.p then c.noUnit s
  else if h.stage = .ran then c.endToken s push none
  else if pops && h.tokIn == 0 then .wait s
  else if cmd && push && decide (16 ≤ h.tokOut) then .wait s
  else
    let taken (s : State) : State := if pops then takeToken s c.p else s
    match k c s with
    | .ok s' r => c.endToken (taken s') push r
    | .wait s' => .wait s'
    | .part s' d => .part (taken s') d
    | .after s' z => .after s' z
    | .trap s' z => .trap (if State.awaitsReplay (s'.hart c.p) then taken s' else s') z

/-! ## Tokens on an MCC (R285, R286) -/

/-- Whom a partner index of an MCC names: a resident hart, a suspended hart of the launch, or none. -/
inductive Partner where
  | hart (p : Nat)
  | away
  | none
  deriving DecidableEq, Repr

/-- CORE of a physical core in a launch's placement on cluster c (R25). -/
def coreCoord (l : Launch) (c core : Nat) : Option Nat :=
  (l.place.find? (fun e => e.1 == c)).bind (fun e => e.2.findIdx? (fun k => c * 4 + k == core))

/-- The hart that partner index `i` names (R285). -/
def partnerOf (s : State) (c i : Nat) : Partner :=
  match (s.cluster c).holder.bind s.launch? with
  | Option.none => .none
  | some l =>
    match s.harts.find? (fun e => clusterOf (coreOf e.1) == c && e.2.launch == l.n && 8 * e.2.core + slotOf e.1 == i) with
    | some e => if i < 32 then .hart e.1 else .none
    | Option.none =>
      if i < 32 ∧ l.suspended.any (fun u => clusterOf (coreOf u.p) == c &&
          (coreCoord l c (coreOf u.p)).map (fun k => 8 * k + slotOf u.p) == some i) then .away
      else .none

/-- A token toward a hart. -/
def pushToHart (s : State) (p : Nat) : State := s.updHart p (fun h => { h with tokIn := h.tokIn + 1 })
/-- A token from a hart is taken. -/
def popFromHart (s : State) (p : Nat) : State := s.updHart p (fun h => { h with tokOut := h.tokOut - 1 })

/-- The MCC's current word has taken its token, or is over. -/
def setPopped (s : State) (c : Nat) (b : Bool) : State := s.updCluster c (fun k => { k with popped := b })

/-- A word that only an MCC executes. -/
def onMcc (i : Instr) (s : State) (k : Nat → Out) : Out :=
  match s.agent with
  | .mcc c => k c
  | _ => .next (s.trapHere causeIllegal 0 (wordOf i))

/-- The pop of an MCC's word, then `k`; a partner that names no hart of the launch halts the MCC (R285). A .late push names
its partner at the command's completion. -/
def mccPop (s : State) (c : Nat) (d : Reg) (push pop late : Bool) (k : State → Out) : Out :=
  if pop || (push && !late) then
    match partnerOf s c (s.rx d).toNat with
    | .none => .next (s.trapHere causeAccess 0 0)
    | .away => waits s
    | .hart p =>
      if pop && !(s.cluster c).popped then
        if (s.hart p).tokOut = 0 then waits s else k (setPopped (popFromHart s p) c true)
      else k s
  else k s

/-- A command enters the cluster's queue and the word retires (R270, R285), when the queue and a plain push have room. -/
def mccEnter (s : State) (c : Nat) (d : Reg) (push late : Bool) (op : MxaOp) (ranges : List (Nat × Nat)) : Out :=
  let i := (s.rx d).toNat
  let k := s.cluster c
  let enter (s : State) : State :=
    { s.updCluster c (fun k => { k with
        popped := false
        queue := k.queue ++ [⟨s.nextCmd, c, ⟨0xFFFF, c, k.holder.getD 0⟩, ranges,
          .mxa op s.pc (if push && late then some i else none) 0 []⟩] }) with nextCmd := s.nextCmd + 1 }
  if 64 ≤ k.queue.length then waits s
  else if push && !late then
    match partnerOf s c i with
    | .none => .next (s.trapHere causeAccess 0 0)
    | .away => waits s
    | .hart p => if (s.hart p).tokIn < 16 then done (enter (pushToHart s p)) else waits s
  else done (enter s)

/-- The space of a cluster's MXA commands. -/
def mxaCtx (s : State) (c : Nat) : ACtx := s.actx (.mcc c)

/-- The scratchpad bytes that an MXA command names (R202, R287), checked in R199's order: their first key, or the cause. The
record of R284 has no NONCANON: an address that fails step 1 is outside the claims (log 27). -/
def mxaPlace (s : State) (c : Nat) (k : AKind) (ptr : Word) (n : Nat) : Except Nat Nat :=
  let r := checkPtr s (mxaCtx s c) k (.multiple 64) ptr n
  match (if tagOf ptr = 2 then r else refused r) with
  | .ok (.at_ key _) => .ok key
  | .error (.cause code _) => .error (if code = causeNoncanon then causeAccess else code)
  | _ => .error causeAccess

/-! ## MLDS, MSWAP, MMAC (R287–R289) -/

/-- K of a weight format (R287). -/
def wDepth (f : WFmt) : Nat :=
  match f with
  | .bf16 => 128
  | .e4m3 | .e5m2 => 256
  | .mxfp4 | .kfp4 | .int4 => 512

/-- Bytes of a tile (R287). -/
def tileBytes (f : WFmt) : Nat :=
  match f with
  | .mxfp4 | .kfp4 => 36864
  | _ => 32768

/-- MLDS (R287). -/
def execMlds (d a : Reg) (push pop late : Bool) (fmt : WFmt) (s : State) : Out :=
  onMcc (.mlds d a push pop late fmt) s (fun c => mccPop s c d push pop late (fun s =>
    match mxaPlace s c .load (s.rx a) (tileBytes fmt) with
    | .error code => .next (s.trapHere code 0 0)
    | .ok key => mccEnter s c d push late (.lds (s.rx a) fmt) [(key, tileBytes fmt)]))

/-- MSWAP (R288). -/
def execMswap (d : Reg) (push pop late : Bool) (s : State) : Out :=
  onMcc (.mswap d push pop late) s (fun c => mccPop s c d push pop late (fun s => mccEnter s c d push late .swap []))

/-- The fields of a control word (R289). -/
def ctlM (w : Word) : Nat := Word.field w 0 8
def ctlRow0 (w : Word) : Nat := Word.field w 8 8
def ctlTile (w : Word) : Nat := Word.field w 16 1
def ctlZero (w : Word) : Bool := w.getLsbD 17
def ctlAfmt (w : Word) : Nat := Word.field w 18 3

/-- A control word that the MCC accepts (R289). -/
def ctlOk (op : MmacOp) (w : Word) : Bool :=
  Word.field w 21 43 == 0 && ctlM w != 0 && decide (ctlRow0 w + ctlM w ≤ 128) &&
  (op != .acc || decide (ctlAfmt w ≤ 4))

/-- MMAC (R289). -/
def execMmac (d a b : Reg) (push pop late : Bool) (op : MmacOp) (s : State) : Out :=
  onMcc (.mmac d a b push pop late op) s (fun c => mccPop s c d push pop late (fun s =>
    let w := s.rx a
    if !ctlOk op w then .next (s.trapHere causeIllegal 0 0)
    else match op with
      | .dspm =>
        (match mxaPlace s c .store (s.rx b) (512 * ctlM w) with
         | .error code => .next (s.trapHere code 0 0)
         | .ok key => mccEnter s c d push late (.mac op w (s.rx b)) [(key, 512 * ctlM w)])
      | _ => mccEnter s c d push late (.mac op w 0) []))

/-- TOKPUSH (R286). -/
def execTokpush (d : Reg) (s : State) : Out :=
  match s.agent with
  | .mcc c =>
    (match partnerOf s c (s.rx d).toNat with
     | .none => .next (s.trapHere causeAccess 0 0)
     | .away => waits s
     | .hart p => if (s.hart p).tokIn < 16 then done (pushToHart s p) else waits s)
  | _ => vecOp (.tokpush d) (fun c s =>
      if !ownsMcc s c.p then c.noUnit s
      else if (s.hart c.p).tokOut < 16 then .ok (s.updHart c.p (fun h => { h with tokOut := h.tokOut + 1 })) none
      else .wait s) s

/-- TOKPOP (R286). -/
def execTokpop (d : Reg) (s : State) : Out :=
  match s.agent with
  | .mcc c =>
    (match partnerOf s c (s.rx d).toNat with
     | .none => .next (s.trapHere causeAccess 0 0)
     | .away => waits s
     | .hart p => if (s.hart p).tokOut = 0 then waits s else done (popFromHart s p))
  | _ => vecOp (.tokpop d) (fun c s =>
      if !ownsMcc s c.p then c.noUnit s
      else if (s.hart c.p).tokIn = 0 then .wait s
      else .ok (takeToken s c.p) none) s

/-! ## The range checker (R270) -/

/-- Two lists of scratchpad ranges share a byte. -/
def rangesMeet (a b : List (Nat × Nat)) : Bool :=
  a.any (fun x => b.any (fun y => decide (x.1 < y.1 + y.2) && decide (y.1 < x.1 + x.2)))

/-- The commands of a cluster's queue that are still queued or executing. -/
def clusterCmds (s : State) (c : Nat) : List Cmd :=
  (s.cluster c).queue ++ (s.cluster c).mxa ++
  ((s.ce (c / 2)).queue ++ (s.ce (c / 2)).exec).filter (fun d => d.cluster == c)

/-- A command may leave for its engine (R270). -/
def mayLeave (s : State) (d : Cmd) : Bool :=
  (clusterCmds s d.cluster).all (fun e => !(decide (e.id < d.id) && rangesMeet e.ranges d.ranges))

/-! ## The Matrix Array (R65, R287–R289) -/

/-- Whether an activation format pairs with the active plane's (R289). -/
def afmtPairs (afmt : Nat) (f : Option WFmt) : Bool :=
  match f with
  | none => true
  | some .bf16 => afmt == 0
  | some .e4m3 | some .e5m2 => afmt == 1 || afmt == 2
  | some .int4 | some .mxfp4 | some .kfp4 => afmt == 3 || afmt == 4

/-- K of an accumulation (R287, R289). -/
def accDepth (afmt : Nat) (f : Option WFmt) : Nat :=
  match f with
  | some f => wDepth f
  | none => if afmt = 0 then 128 else if afmt ≤ 2 then 256 else 512

/-- W[k][n] of a plane (R287). -/
def weight (p : Plane) (k n : Nat) : FVal :=
  let byte (off len : Nat) : Nat := getBits p.bits.toNat (8 * off) (8 * len)
  let code := getBits p.bits.toNat (8 * (64 * k) + 4 * n) 4
  match p.fmt with
  | none => .zero false
  | some .bf16 => FFmt.bf16.decode (byte (256 * k + 2 * n) 2)
  | some .e4m3 => FFmt.e4m3.decode (byte (128 * k + n) 1)
  | some .e5m2 => FFmt.e5m2.decode (byte (128 * k + n) 1)
  | some .int4 => ofIntX (sgn 4 code)
  | some .mxfp4 => blockX false (byte (32768 + 256 * (k / 32) + 2 * n) 1) code
  | some .kfp4 => blockX true (byte (32768 + 256 * (k / 32) + 2 * n) 2) code

/-- Activation k of a feed row (R289). -/
def activation (afmt : Nat) (row : BitVec 2048) (k : Nat) : FVal :=
  match afmt with
  | 0 => FFmt.bf16.decode (getBits row.toNat (16 * k) 16)
  | 1 => FFmt.e4m3.decode (getBits row.toNat (8 * k) 8)
  | 2 => FFmt.e5m2.decode (getBits row.toNat (8 * k) 8)
  | 3 => FFmt.e2m1.decode (getBits row.toNat (4 * k) 4)
  | _ => ofIntX (sgn 4 (getBits row.toNat (4 * k) 4))

/-- The exact sum of a block's products (R65): of integers, an integer. -/
def blockSum (ints : Bool) (xs : List (FVal × FVal)) : FVal :=
  let t := (sumX .rne (xs.map (fun x => (mulX x.1 x.2).1))).1
  if ints && t.isZero then .zero false else t

/-- mxa_acc (R65) for column n. -/
def mxaAcc (afmt : Nat) (p : Plane) (row : BitVec 2048) (n acc : Nat) : Nat :=
  (List.range (accDepth afmt p.fmt / 32)).foldl (fun acc b =>
    let xs := (List.range 32).map (fun j => (activation afmt row (32 * b + j), weight p (32 * b + j) n))
    let t := rneTo .f32 (blockSum (afmt == 4 && p.fmt == some .int4) xs)
    rneTo .f32 (addX .rne (FFmt.f32.decode acc) (FFmt.f32.decode t)).1) acc

/-- One row of a tile: 128 FP32 values. -/
def tileRow (t : BitVec 524288) (r : Nat) : BitVec 4096 := BitVec.ofNat 4096 (getBits t.toNat (4096 * r) 4096)

/-- Accumulate one feed row into a row of a tile (R289). -/
def accRow (ctl : Word) (p : Plane) (feed : BitVec 2048) (t : BitVec 524288) (r : Nat) : BitVec 524288 :=
  let old := (tileRow t r).toNat
  let new := (List.range 128).foldl (fun x n =>
    putBits x (32 * n) 32 (mxaAcc (ctlAfmt ctl) p feed n (if ctlZero ctl then 0 else getBits old (32 * n) 32))) 0
  BitVec.ofNat 524288 (putBits t.toNat (4096 * r) 4096 new)

/-- Accumulate at most `n` rows from row j on, as many as the feed FIFO holds (R272, R289). -/
def accRows (ctl : Word) : Nat → Nat → Cluster → Cluster × Nat
  | 0, j, k => (k, j)
  | n + 1, j, k =>
    match k.feed with
    | [] => (k, j)
    | row :: rest =>
      accRows ctl n (j + 1) { k with
        feed := rest
        acc := vset k.acc (ctlTile ctl) (accRow ctl k.active row (vget 0 k.acc (ctlTile ctl)) (ctlRow0 ctl + j)) }

/-- Drain at most `n` rows from row j on into the drain FIFO, as many as it has room for (R272, R289). -/
def drainRows (ctl : Word) : Nat → Nat → Cluster → Cluster × Nat
  | 0, j, k => (k, j)
  | n + 1, j, k =>
    if 64 ≤ k.drain.length then (k, j)
    else drainRows ctl n (j + 1) { k with
      drain := k.drain ++ [tileRow (vget 0 k.acc (ctlTile ctl)) (ctlRow0 ctl + j)] }

/-- The bytes of `n` rows of a tile from row r on. -/
def tileOut (t : BitVec 524288) (r : Nat) : Nat → List Byte
  | 0 => []
  | n + 1 => toBytes 512 (tileRow t r).toNat ++ tileOut t (r + 1) n

/-- Record how many rows an executing MXA command has done. -/
def setRows (s : State) (c id rows : Nat) : State :=
  s.updCluster c (fun k => { k with mxa := k.mxa.map (fun d =>
    if d.id = id then { d with kind := match d.kind with
      | .mxa op a l _ g => .mxa op a l rows g
      | x => x } else d) })

/-- An MXA command whose work is done completes, its .late token pushed (R285). -/
def finishMxa (s : State) (c id : Nat) (addr : Word) (late : Option Nat) : State :=
  let gone := s.updCluster c (fun k => { k with mxa := k.mxa.filter (fun d => d.id != id) })
  match late with
  | none => gone
  | some i =>
    match partnerOf s c i with
    | .none => s.failMxa c id causeAccess addr
    | .away => s
    | .hart p => if (s.hart p).tokIn < 16 then pushToHart gone p else s

/-- An executing mlds has read bytes of its tile. -/
def setGot (s : State) (c id : Nat) (got : List (Nat × Byte)) : State :=
  s.updCluster c (fun k => { k with mxa := k.mxa.map (fun d =>
    if d.id = id then { d with kind := match d.kind with
      | .mxa op a l r _ => .mxa op a l r got
      | x => x } else d) })

/-- Bytes by offset, from offset `j` on: those read already (`true`), the others as memory holds them now. -/
def fillGot {α : Type} : Nat → List α → List (Nat × α) → List (Nat × Bool × α)
  | _, [], _ => []
  | j, b :: rest, [] => (j, false, b) :: fillGot (j + 1) rest []
  | j, b :: rest, (k, x) :: got =>
    if k = j then (j, true, x) :: fillGot (j + 1) rest got else (j, false, b) :: fillGot (j + 1) rest ((k, x) :: got)

/-- An mlds reads its tile byte by byte: those of a free choice now, the lowest among them, or all that are left (R292). -/
def readTile (s : State) (bs : List (Nat × Bool × Byte)) : List (Nat × Bool × Byte) :=
  if s.choose 2 = 0 then bs
  else
    let low := ((bs.find? (fun b => !b.2.1)).map (·.1)).getD 0
    bs.filter (fun b => b.2.1 || b.1 == low || s.tick.chooseAt b.1 2 == 0)

/-- One go of an MXA command in execution: as much of its work as can be done, then its completion (R288, R289). -/
def runMxa (s : State) (c : Nat) (d : Cmd) : State :=
  match d.kind with
  | .copy _ _ _ _ _ => s
  | .mxa op addr late rows got =>
    match op with
    | .lds ptr f =>
      if rows = 1 then finishMxa s c d.id addr late
      else
        (match mxaPlace s c .load ptr (tileBytes f) with
         | .error code => s.failMxa c d.id code addr
         | .ok key =>
           if badAt s key (tileBytes f) then s.failMxa c d.id causeUncorrectable addr
           else
             let now := readTile s (fillGot 0 (s.mem.gets key (tileBytes f)) got)
             let s := s.tick.tick
             if now.length < tileBytes f then setGot s c d.id (now.map (fun b => (b.1, b.2.2)))
             else
               let bits := BitVec.ofNat 294912 (ofBytes (now.map (·.2.2)))
               finishMxa (setRows (s.updCluster c (fun k => { k with shadow := ⟨bits, some f⟩ })) c d.id 1) c d.id addr late)
    | .swap =>
      if rows = 1 then finishMxa s c d.id addr late
      else finishMxa (setRows (s.updCluster c (fun k => { k with active := k.shadow, shadow := k.active })) c d.id 1)
        c d.id addr late
    | .mac op ctl ptr =>
      let m := ctlM ctl
      let go (s : State) (k : Cluster × Nat) : State :=
        let s := setRows (s.setCluster c k.1) c d.id k.2
        if k.2 = m then finishMxa s c d.id addr late else s
      match op with
      | .acc => go s (accRows ctl (m - rows) rows (s.cluster c))
      | .dfifo => go s (drainRows ctl (m - rows) rows (s.cluster c))
      | .dspm =>
        if rows = m then finishMxa s c d.id addr late
        else match mxaPlace s c .store ptr (512 * m) with
          | .error code => s.failMxa c d.id code addr
          | .ok key =>
            let bs := tileOut (vget 0 (s.cluster c).acc (ctlTile ctl)) (ctlRow0 ctl) m
            finishMxa (setRows (s.write (dieOf (c * 4)) (cellsAt key bs)) c d.id m) c d.id addr late

/-- The next MXA command of a cluster, in entry order (R288). -/
def nextMxa (s : State) (c : Nat) : Option Cmd := (s.cluster c).queue.find? State.isMxa

/-- An mmac that is not waiting for feed rows: a later mlds may run beside it (R288, R302). -/
def macFed (k : Cluster) (d : Cmd) : Bool :=
  match d.kind with
  | .mxa (.mac .acc ctl _) _ _ rows _ => decide (ctlM ctl ≤ rows + k.feed.length)
  | .mxa (.mac _ _ _) _ _ _ _ => true
  | _ => false

/-- The next MXA command may begin (R270, R288). -/
def mxaBegins (s : State) (c : Nat) : Option Cmd :=
  match nextMxa s c with
  | none => none
  | some d =>
    let k := s.cluster c
    let free := match d.kind with
      | .mxa (.lds _ _) _ _ _ _ => k.mxa.all (macFed k)
      | _ => k.mxa.isEmpty
    if free && mayLeave s d then some d else none

/-- MXA_COMMAND (R288): the next command begins; a pairing that R289 forbids fails it. -/
def execMxaCommand (c : Nat) (s : State) : Out :=
  match mxaBegins s c with
  | none => .next s
  | some d =>
    let s1 := s.updCluster c (fun k => { k with queue := k.queue.filter (fun e => e.id != d.id), mxa := k.mxa ++ [d] })
    match d.kind with
    | .mxa (.mac .acc ctl _) addr _ _ _ =>
      if afmtPairs (ctlAfmt ctl) (s.cluster c).active.fmt then .next s1
      else .next (s1.failMxa c d.id causeIllegal addr)
    | _ => .next s1

/-- MXA_COMMAND_DONE (R285): a command in execution goes on, and completes when its work and its .late push are done. -/
def execMxaCommandDone (c : Nat) (s : State) : Out :=
  let ds := (s.cluster c).mxa
  match ds[s.choose ds.length]? with
  | none => .next s
  | some d => .next (s.tick.as (.mcc c) (fun s => runMxa s c d))

/-! ## MFEED, MPULL, VOPACC (R290, R291, R293) -/

/-- VTYPE suits mfeed (R290). -/
def VCtx.feedOk (c : VCtx) : Bool :=
  ((c.fmt == 3 && c.sew == 16) || (c.fmt == 4 && c.sew == 8) || (c.fmt == 5 && c.sew == 8) ||
    (c.fmt == 6 && c.sew == 4) || (c.fmt == 0 && c.sew == 4)) && decide (c.vl * c.sew ≤ 2048)

/-- The FIFO row that v[r] gives (R290). -/
def VCtx.feedRow (c : VCtx) (s : State) (r : Nat) : BitVec 2048 :=
  BitVec.ofNat 2048 (c.actives.foldl (fun x i => putBits x (i * c.sew) c.sew (c.ev s r c.sew i)) 0)

/-- Another hart of a cluster has entered some of an mfeed's rows, and its others come first (R272). -/
def feeding (s : State) (p : Nat) : Bool :=
  s.harts.any (fun e => e.1 != p && clusterOf (coreOf e.1) == clusterOf (coreOf p) && (match e.2.viq with
    | v :: _ => decide (0 < v.done.steps) && (match v.instr with
        | .mfeed _ _ _ _ => true
        | _ => false)
    | [] => false))

/-- The rows of an mfeed, read when it issues. -/
def VCtx.feedRows (c : VCtx) (s : State) (a : Nat) : List (BitVec 2048) :=
  if c.e.done.steps = 0 then (List.range c.rows).map (fun j => c.feedRow s (a + j))
  else c.e.done.outs.map (fun o => BitVec.ofNat 2048 o.2.2)

/-- MFEED (R290): its rows enter in order, each when the FIFO has room; it retires when its last has entered. -/
def execMfeed (a : Reg) (push pop mk : Bool) (s : State) : Out :=
  vecOp (.mfeed a push pop mk) (tokened push pop false (fun c s =>
    let i := c.e.done.steps
    let enter : VRes :=
      let k := s.cluster (clusterOf c.core)
      let rows := c.feedRows s a.toNat
      let n := Nat.min (c.pause.getD c.rows) (Nat.min (64 - k.feed.length) (c.rows - i))
      let s' := s.updCluster (clusterOf c.core) (fun k => { k with feed := k.feed ++ (rows.drop i).take n })
      if feeding s c.p then .wait s
      else if c.rows ≤ i + n then .ok s' none
      else if n = 0 then .wait s
      else .part s' { c.e.done with steps := i + n, outs := rows.zipIdx.map (fun e => (e.2, true, e.1.toNat)) }
    if 0 < i then enter
    else if !ownsMcc s c.p then c.noUnit s
    else if !c.feedOk then c.illegal s
    else c.guard s [(a.toNat, c.rows)] [] [] [] enter)) s

/-- VTYPE suits mpull (R291). -/
def VCtx.pullOk (c : VCtx) : Bool :=
  ((c.fmt == 2 && (c.sew == 32 || c.sew == 16)) || (c.fmt == 3 && c.sew == 16)) && decide (c.vl ≤ 128)

/-- Value i of a drained row, in the VTYPE format (R291). -/
def VCtx.pulled (c : VCtx) (row : BitVec 4096) (i : Nat) : Nat × Flags :=
  let x := getBits row.toNat (32 * i) 32
  if c.sew = 32 then (x, 0) else c.cvtTo .rne none 0 (FFmt.f32.decode x)

/-- MPULL (R291). -/
def execMpull (d : Reg) (push pop mk : Bool) (s : State) : Out :=
  vecOp (.mpull d push pop mk) (tokened push pop false (fun c s =>
    if !ownsMcc s c.p then c.noUnit s
    else if !c.pullOk then c.illegal s
    else c.guard s [] [(d.toNat, c.rows)] [] []
      (let k := s.cluster (clusterOf c.core)
       if k.drain.length < c.rows then .wait s
       else
         let row (j : Nat) : BitVec 4096 := k.drain.getD j 0
         let s' := s.updCluster (clusterOf c.core) (fun k => { k with drain := k.drain.drop c.rows })
         let s' := (List.range c.rows).foldl (fun s' j =>
           c.putV' s' d.toNat c.sew 1 j c.vl (c.dest (fun i => (c.pulled (row j) i).1))) s'
         .ok (c.flag s' ((List.range c.rows).foldl (fun t j => t ||| c.flagsOf (fun i => (c.pulled (row j) i).2)) 0))
           none))) s

/-- VOPACC (R293). -/
def execVopacc (d a b : Reg) (push pop mk : Bool) (n1 : BitVec 3) (s : State) : Out :=
  vecOp (.vopacc d a b push pop mk n1) (tokened push pop false (fun c s =>
    let n := n1.toNat + 1
    if !c.isFp ∨ c.vl < n ∨ shares d.toNat n a.toNat 1 ∨ shares d.toNat n b.toNat 1 then c.illegal s
    else c.guard s [(a.toNat, 1), (b.toNat, 1), (d.toNat, n)] [(d.toNat, n)] [] []
      (let f (r i : Nat) : Nat × Flags := finish c.ffmt .rne
         (fmaX .rne false false (c.fv s a.toNat i) (c.fv s b.toNat r) (c.fv s (d.toNat + r) i))
       let s' := (List.range n).foldl (fun s' r => c.putV' s' d.toNat c.sew 1 r c.vl (c.dest (fun i => (f r i).1))) s
       .ok (c.flag s' ((List.range n).foldl (fun t r => t ||| c.flagsOf (fun i => (f r i).2)) 0)) none))) s

/-! ## Streams (R273, R300, R301) -/

/-- The width that a width code stands for when VTYPE has an element width (R76). -/
def widthAt (w : VWidth) (sew : Nat) : VWidth :=
  match w with
  | .sew => if sew = 2 then .e2 else if sew = 4 then .e4 else if sew = 8 then .e8 else if sew = 16 then .e16
    else if sew = 32 then .e32 else .e64
  | w => w

/-- A stream slot of a hart. -/
def streamOf (s : State) (p k : Nat) : Stream := vget Stream.none (s.hart p).streams k

/-- Change a stream slot. -/
def setStream (s : State) (p k : Nat) (f : Stream → Stream) : State :=
  s.updHart p (fun h => { h with streams := vset h.streams k (f (vget Stream.none h.streams k)) })

/-- STRCFG (R300): the earlier stream has ended, since its vld.s stand before the strcfg in the VIQ. -/
def execStrcfg (d : SlotReg) (a b : Reg) (push pop : Bool) (w : VWidth) (s : State) : Out :=
  vecOp (.strcfg d a b push pop w) (tokened push pop false (fun c s =>
    if c.e.b1 ≠ 0 ∧ VWidth.bits w c.sew < 8 then c.illegal s
    else .ok (setStream s c.p d.toNat (fun t => { t with
      base := c.e.a, len := c.e.b, stride := c.e.b1, pr := 0, width := widthAt w c.sew, configured := true,
      strip := [], failed := [] })) none)) s

/-- Bits of a stream's elements. -/
def Stream.bits (t : Stream) : Nat := VWidth.bits t.width 64

/-- The address of stream element j (R300). -/
def Stream.addr (t : Stream) (j : Nat) : Int :=
  if t.stride = 0 then (t.base.toNat : Int) + (j * t.bits / 8 : Nat) else (t.base.toNat : Int) + (j : Int) * t.stride.toInt

/-- The check of a stream element (R199): a base of another tag than 0x0 to 0x3 fails. -/
def streamCheck (s : State) (p : Nat) (t : Stream) (j : Nat) : Except AFail Place :=
  match accPlace s (s.actx (.vec p)) .load .natural (tagOf t.base) (t.addr j) (elemBytes t.bits) with
  | .ok pl => if 3 < tagOf t.base then .error (.of causeAccess) else .ok pl
  | r => r

/-- A stream element's bits at a place. -/
def streamBits (s : State) (p : Nat) (t : Stream) (j : Nat) (pl : Place) : Nat :=
  let raw := ofBytes (placeBytes s (dieOf (coreOf p)) pl (elemBytes t.bits))
  if t.bits < 8 then getBits raw (j * t.bits % 8) t.bits else raw

/-- The elements of a stream that the strip buffer keeps (R300): from pr, two strips, below L. -/
def stripRange (s : State) (p : Nat) (t : Stream) : List Nat :=
  let ls := Nat.min (1024 * lanesOf (s.vcore (coreOf p)).part) (s.hart p).vcap.toNat / t.bits
  ((List.range (2 * ls)).map (t.pr.toNat + ·)).filter (fun j => decide (j < t.len.toNat))

/-- The failure of a stream element's fetch: its cause and DETAIL (R301). -/
def streamFail (r : Except AFail Place) : Option (Nat × Nat) :=
  match r with
  | .error (.cause code dev) => some (code, accDetail .load code dev)
  | _ => none

/-- What the memory system keeps of reads of stream elements (R206, R207). -/
def noteStream (s : State) (p : Nat) (t : Stream) (js : List Nat) : State :=
  s.as (.vec p) (fun s => noteReads s (dieOf (coreOf p)) .dflt (js.filterMap (fun j => match streamCheck s p t j with
    | .ok pl => some (pl, elemBytes t.bits)
    | .error _ => none)))

/-- STREAM_FETCH (R273, R300): of the elements not yet fetched, those of a free choice are read; one whose fetch fails is left to the
vld.s that consumes it (R301). -/
def execStreamFetch (p k : Nat) (s : State) : Out :=
  let t := streamOf s p k
  if (s.hart? p).isNone || !t.configured then .next s
  else
    let s := s.drainV p
    let now := (stripRange s p t).filter (fun j =>
      !t.strip.any (fun e => e.1 == j) && !t.failed.any (fun e => e.1 == j) && s.chooseAt j 2 == 0)
    let new := now.filterMap (fun j => match streamCheck s p t j with
      | .ok pl => some (j, streamBits s p t j pl)
      | .error _ => none)
    let bad := now.filterMap (fun j => (streamFail (streamCheck s p t j)).map (fun f => (j, f.1, f.2)))
    .next (setStream (noteStream s p t now) p k (fun t => { t with strip := t.strip ++ new, failed := t.failed ++ bad })).tick

/-- Stream element j has not been fetched when a vld.s consumes it, or is fetched again by its replay (R301). -/
def VCtx.unfetched (c : VCtx) (t : Stream) (j : Nat) : Bool :=
  decide (j < t.len.toNat) && !t.strip.any (fun e => e.1 == j) && (c.e.st == .replay || !t.failed.any (fun e => e.1 == j))

/-- Element i of a vld.s at push position `pos` (R301). -/
def VCtx.streamElem (c : VCtx) (s : State) (t : Stream) (pos i : Nat) : ELoad :=
  let j := pos + i
  if t.len.toNat ≤ j then .got 0 0
  else match t.strip.find? (fun e => e.1 == j) with
    | some e => .got (c.extend t.bits e.2) 0
    | none => match t.failed.find? (fun e => e.1 == j && c.e.st != .replay) with
      | some f => .fails ⟨i, f.2.1, f.2.2, addrWord (t.addr j)⟩
      | none => match streamCheck s c.p t j with
        | .ok pl => .got (c.extend t.bits (streamBits s c.p t j pl)) 0
        | .error (.cause code dev) => .fails (failOf i .load code dev (t.addr j))
        | .error .wait => .fails (failOf i .load causeAccess false (t.addr j))

/-- VLD_S (R301). -/
def execVldS (d : Reg) (a : SlotReg) (push pop mk : Bool) (s : State) : Out :=
  vecOp (.vldS d a push pop mk) (tokened push pop false (fun c s =>
    let t := streamOf s c.p a.toNat
    if !t.configured then c.noUnit s
    else if c.widthBad t.bits true then c.illegal s
    else c.guard s [] [(d.toNat, 1)] [] []
      (let s := c.markV s d.toNat
       let pos := c.e.pushPos.toNat
       let is := c.todo s
       let as := (is.filter (fun i => decide (pos + i < t.len.toNat))).map (fun i => t.addr (pos + i))
       let s := drainSlices s c.p (slicesOf as)
       let js := (is.map (pos + ·)).filter (c.unfetched t)
       if js.any (fun j => mustWait (streamCheck s c.p t j)) then .wait s
       else
         let rs := is.map (fun i => (i, c.streamElem s t pos i))
         let fs := failsOf rs
         let s := noteStream s c.p t js
         let s := c.noteAll (c.putV' s d.toNat c.sew 1 0 c.vl (c.loadDest rs)) .load true as
         let s := if fs = [] then setStream s c.p a.toNat (fun t => { t with
             pr := c.e.pushPos, strip := t.strip.filter (fun e => decide (pos ≤ e.1))
             failed := t.failed.filter (fun e => decide (pos ≤ e.1)) }) else s
         c.finishMem s fs))) s

end Sys2Proof.Machine
end

