-- ==== Sys2Proof/Machine/Copying.lean ====
section
/-! DEFINITION. Machine/Copying.lean: copy and reducing-copy commands: their parameter block (R294–R296), and the steps of the
copy engines: issue, the released add, the visible add and failure (R270, R271, R297–R299). -/

namespace Sys2Proof.Machine

/-! ## The parameter block (R294, R296) -/

/-- A 64-bit field of a block. -/
def blkWord (bs : List Byte) (off : Nat) : Word := BitVec.ofNat 64 (bytesField bs off 8)

/-- The fields of a 128-byte parameter block (R294). -/
def blkOf (bs : List Byte) (isRed : Bool) : CopyBlk where
  src := blkWord bs 0
  dst := blkWord bs 8
  e := Vector.ofFn (fun j : Fin 4 => BitVec.ofNat 32 (bytesField bs (16 + 4 * j.val) 4))
  ss := Vector.ofFn (fun j : Fin 3 => blkWord bs (32 + 8 * j.val))
  ds := Vector.ofFn (fun j : Fin 3 => blkWord bs (56 + 8 * j.val))
  sfmt := BitVec.ofNat 8 (bytesField bs 80 1)
  dfmt := BitVec.ofNat 8 (bytesField bs 81 1)
  op := BitVec.ofNat 16 (bytesField bs 84 2)
  flags := BitVec.ofNat 16 (bytesField bs 86 2)
  rel := blkWord bs 88
  vis := blkWord bs 96
  incr := blkWord bs 104
  resvOk := bytesZero bs 82 2 && bytesZero bs 112 16
  isRed := isRed

/-- Extent j of a block. -/
def CopyBlk.ext (b : CopyBlk) (j : Nat) : Nat := (vget 0 b.e j).toNat

/-- The format of a copy's code: 0 to 18 of R165; `none` for any other, raw bytes among them. -/
def copyFmt (code : BitVec 8) : Option ElemFmt := if code.toNat ≤ 18 then elemFmt code.toNat else none

/-- Width in bits of an element of a code; raw elements are bytes. -/
def copyWidth (code : BitVec 8) : Nat :=
  match copyFmt code with
  | some f => f.width
  | none => 8

/-- A code names an integer format. -/
def copyIsInt (code : BitVec 8) : Bool := decide (code.toNat < 12)

/-- A cell pointer that R296 accepts. -/
def cellOk (p : Word) : Bool := p.toNat % 16 == 0 && (decide (tagOf p ≤ 2) || tagOf p == 4 || tagOf p == 5)

/-- A block is valid (R296). -/
def CopyBlk.valid (b : CopyBlk) : Bool :=
  let known (c : BitVec 8) : Bool := decide (c.toNat ≤ 18) || c == 0xFF
  let bytes (c : BitVec 8) : Bool := b.ext 0 * copyWidth c % 8 == 0
  b.resvOk && decide (b.flags.toNat < 16) && decide (b.flags.toNat % 8 < 6) &&
  (if b.isRed then b.op == 2 || b.op == 3 else b.op == 0 || b.op == 1) &&
  known b.sfmt && known b.dfmt &&
  (b.op != 0 || b.sfmt == b.dfmt) &&
  (b.op != 1 || !((copyIsInt b.sfmt && copyIsInt b.dfmt) || b.sfmt == 0xFF || b.dfmt == 0xFF)) &&
  (b.op.toNat < 2 || (b.sfmt != 0xFF && b.dfmt != 0xFF)) &&
  (b.rel == 0 || cellOk b.rel) && (b.vis == 0 || cellOk b.vis) && bytes b.sfmt && bytes b.dfmt

/-- Items of a block: innermost rows; none when an extent is 0 (R296, R297). -/
def CopyBlk.items (b : CopyBlk) : Nat := if b.ext 0 = 0 then 0 else b.ext 1 * b.ext 2 * b.ext 3

/-- The address of element j0 of an item over a pointer and its strides (R297). -/
def CopyBlk.addr (b : CopyBlk) (ptr : Word) (st : Vector Word 3) (w item j0 : Nat) : Int :=
  (ptr.toNat : Int) + (item % b.ext 1 : Nat) * (vget 0 st 0).toInt + (item / b.ext 1 % b.ext 2 : Nat) * (vget 0 st 1).toInt +
    (item / (b.ext 1 * b.ext 2) : Nat) * (vget 0 st 2).toInt + (j0 * w / 8 : Nat)

/-- The lowest and the highest byte address of a side (R270). -/
def CopyBlk.span (b : CopyBlk) (ptr : Word) (st : Vector Word 3) (w : Nat) : Int × Int :=
  let far (j : Nat) : Int := (vget 0 st j).toInt * ((b.ext (j + 1) : Int) - 1)
  let lo (z : Int) : Int := if z < 0 then z else 0
  let hi (z : Int) : Int := if z < 0 then 0 else z
  ((ptr.toNat : Int) + lo (far 0) + lo (far 1) + lo (far 2),
   (ptr.toNat : Int) + hi (far 0) + hi (far 1) + hi (far 2) + (b.ext 0 * w / 8 : Nat) - 1)

/-- The bytes of a launch's claim on a core from offset `lo` to `hi`, as a range of keys. -/
def clipClaim (s : State) (launch : Option Nat) (core : Nat) (lo hi : Int) : List (Nat × Nat) :=
  match claimOf s launch core with
  | none => []
  | some k =>
    let a := lo.toNat
    let n := (hi + 1).toNat - a
    let n := Nat.min n (k.size - a)
    if n = 0 then [] else [(spmKey core (k.start + a), n)]

/-- The scratchpad ranges of a side (R270): the bounding span of a tag-0x1 or tag-0x2 side. -/
def sideRanges (s : State) (c : ACtx) (b : CopyBlk) (ptr : Word) (st : Vector Word 3) (w : Nat) : List (Nat × Nat) :=
  let (lo, hi) := b.span ptr st w
  match tagOf ptr with
  | 1 => clipClaim s c.launch c.core (lo - 2 ^ 60) (hi - 2 ^ 60)
  | 2 => (List.range 4).flatMap (fun k => match windowCore s c.launch c.core k with
      | some core =>
        let base : Int := 2 * 2 ^ 60 + (k * Config.spmBytes : Nat)
        clipClaim s c.launch core (lo - base) (Min.min (hi - base) (Config.spmBytes - 1))
      | none => [])
  | _ => []

/-- The scratchpad ranges of a command (R270). -/
def blkRanges (s : State) (c : ACtx) (b : CopyBlk) : List (Nat × Nat) :=
  if !b.valid || b.items == 0 then []
  else sideRanges s c b b.src b.ss (copyWidth b.sfmt) ++ sideRanges s c b b.dst b.ds (copyWidth b.dfmt)

/-! ## XCOPY, XRED (R294, R295) -/

/-- The check of a block's pointer (R294). -/
def VCtx.checkBlk (c : VCtx) (s : State) : Except AFail Place :=
  let a := c.e.a
  if 5 < tagOf a ∨ offsetBound (tagOf a) ≤ a.toNat % 2 ^ 60 then .error (.of causeNoncanon)
  else if a.toNat % 128 ≠ 0 then .error (.of causeMisalign)
  else if 2 < tagOf a then .error (.of causeAccess)
  else c.check s .load (a.toNat : Int) 128

/-- A copy command enters its cluster's queue. -/
def enterCopy (s : State) (p : Nat) (b : CopyBlk) (addr : Word) : State :=
  let cl := clusterOf (coreOf p)
  let d : Cmd := ⟨s.nextCmd, cl, ⟨p, slotOf p, (s.hart p).launch⟩, blkRanges s (s.actx (.vec p)) b,
    .copy b addr .queued none none⟩
  { s.updCluster cl (fun k => { k with queue := k.queue ++ [d] }) with nextCmd := s.nextCmd + 1 }

/-- xcopy and xred at the VIQ head (R295): the block is read through its slice's queue and the command enters. -/
def copyOp (i : Instr) (push pop isRed : Bool) (s : State) : Out :=
  vecOp i (tokened push pop true (fun c s =>
    match c.checkBlk s with
    | .error .wait => .wait s
    | .error (.cause code dev) => .trap s (c.cause s code (accDetail .load code dev) c.e.a)
    | .ok pl =>
      if 64 ≤ (s.cluster (clusterOf c.core)).queue.length then .wait s
      else
        let s := drainSlices s c.p [sliceOf c.e.a.toNat]
        let bs := placeBytes s (dieOf c.core) pl 128
        let s := c.noteAll (noteLoad s (dieOf c.core) pl 128 .dflt) .load false [(c.e.a.toNat : Int)]
        let b := blkOf bs isRed
        let s := if b.flags.getLsbD 3 then s.drainV c.p else s
        .ok (enterCopy s c.p b c.e.a) none)) s

/-- XCOPY (R294). -/
def execXcopy (a : Reg) (push pop : Bool) (s : State) : Out := copyOp (.xcopy a push pop) push pop false s
/-- XRED (R294). -/
def execXred (a : Reg) (push pop : Bool) (s : State) : Out := copyOp (.xred a push pop) push pop true s

/-! ## A command's accesses (R297) -/

/-- The space and claims of a command (R294). -/
def copyCtx (s : State) (d : Cmd) : ACtx :=
  ⟨((s.launch? d.by_.launch).map (·.asid)).getD 0, true, some d.by_.launch, coreOf d.by_.pscore⟩

/-- Units that an item's source row is read by, and their bytes: its elements, or the bytes of narrower ones. -/
def CopyBlk.units (b : CopyBlk) : Nat := if copyWidth b.sfmt < 8 then b.ext 0 * copyWidth b.sfmt / 8 else b.ext 0

/-- Bytes of a source row. -/
def CopyBlk.rowBytes (b : CopyBlk) : Nat := b.units * elemBytes (copyWidth b.sfmt)

/-- The place of one unit of a source row, or the cause (R297, R219). -/
def unitPlace (s : State) (d : Cmd) (b : CopyBlk) (item u : Nat) : Except Nat Place :=
  let c := copyCtx s d
  let w := copyWidth b.sfmt
  match checkAddr s c .load .natural (tagOf b.src) (b.addr b.src b.ss w item (if w < 8 then u * (8 / w) else u)) (elemBytes w) with
  | .error (.cause code _) => .error code
  | .error .wait => .error causeAccess
  | .ok (.absent l t i o x) => .ok (.absent l t i o x)
  | .ok (.at_ key loc) => if badAt s key (elemBytes w) then .error causeUncorrectable else .ok (.at_ key loc)

/-- The bytes of a source row as memory holds them now, each with the cause that its read takes. -/
def copyRow (s : State) (d : Cmd) (b : CopyBlk) (item : Nat) : List (Except Nat Byte) :=
  let n := elemBytes (copyWidth b.sfmt)
  (List.range b.units).flatMap (fun u => match unitPlace s d b item u with
    | .ok pl => (placeBytes s (dieOf (copyCtx s d).core) pl n).map Except.ok
    | .error code => List.replicate n (.error code))

/-- A source row with the bytes read already in their places (R298 step 2). -/
def rowNow (s : State) (d : Cmd) (b : CopyBlk) (got : Tbl (List (Nat × Byte))) (item : Nat) : List (Nat × Bool × Except Nat Byte) :=
  fillGot 0 (copyRow s d b item) ((Tbl.get [] got item).map (fun g => (g.1, Except.ok g.2)))

/-- The bytes of a row that could be read. -/
def okBytes (row : List (Nat × Bool × Except Nat Byte)) : List (Nat × Byte) :=
  row.filterMap (fun x => match x.2.2 with
    | .ok y => some (x.1, y)
    | .error _ => none)

/-- The first cause of a row. -/
def rowCause (row : List (Nat × Bool × Except Nat Byte)) : Option Nat :=
  row.findSome? (fun x => match x.2.2 with
    | .ok _ => none
    | .error code => some code)

/-- The elements that a row's bytes spell. -/
def CopyBlk.elems (b : CopyBlk) (row : List (Nat × Byte)) : List Nat :=
  let x := ofBytes (row.map (·.2))
  (List.range (b.ext 0)).map (fun j => getBits x (j * copyWidth b.sfmt) (copyWidth b.sfmt))

/-- An item's source elements, what is not read yet read now, or the cause. -/
def readItem (s : State) (d : Cmd) (b : CopyBlk) (got : Tbl (List (Nat × Byte))) (item : Nat) : Except Nat (List Nat) :=
  let row := rowNow s d b got item
  match rowCause row with
  | some code => .error code
  | none => .ok (b.elems (okBytes row))

/-- Every source byte of a command has been read (R298). -/
def allRead (b : CopyBlk) (got : Tbl (List (Nat × Byte))) : Bool :=
  (List.range b.items).all (fun i => (Tbl.get [] got i).length == b.rowBytes)

/-- A source element in the destination format (R166, R297). An integer that a narrower integer format cannot hold has no
stated conversion: `free` is its value (log 6). -/
def copyConv (b : CopyBlk) (free x : Nat) : Nat :=
  match copyFmt b.sfmt, copyFmt b.dfmt with
  | some sf, some df =>
    (match df with
     | .int sg w =>
       (match sf with
        | .int sg' w' =>
          let z := intOf sg' w' x
          if intLo sg w ≤ z ∧ z ≤ intHi sg w then enc w z else free % 2 ^ w
        | _ => enc w (toIntX .rne sg w (sf.value 0 x)).1)
     | .fp f => rneTo f (sf.value 0 x)
     | .block _ => x)
  | _, _ => x

/-- What a destination element `old` becomes (R297). -/
def copyNew (b : CopyBlk) (free x old : Nat) : Nat :=
  let y := copyConv b free x
  match b.op.toNat with
  | 0 => x
  | 1 => y
  | 2 => match copyFmt b.dfmt with
    | some (.int _ w) => (old + y) % 2 ^ w
    | some (.fp f) => (finish f .rne (addX .rne (f.decode old) (f.decode y))).1
    | _ => y
  | _ => match copyFmt b.dfmt with
    | some (.int sg w) => if intOf sg w old < intOf sg w y then y else old
    | some (.fp f) => (minmax f true old y).1
    | _ => y

/-- The kind of access that a destination element takes: a reduce reads and writes it as one step (R298). -/
def CopyBlk.kind (b : CopyBlk) : AKind := if b.isRed then .atomic else .store

/-- The translation of a destination page: the one made at issue, or the failure found then (R298). -/
def dstWalk (s : State) (c : ACtx) (tr : DstTrans) (va : Nat) : Walk :=
  match tr.ok.find? (fun t => t.granule == va / 65536), tr.bad.find? (fun x => x.1 == va / 65536) with
  | some t, _ => .leaf ⟨t.leaf.toNat⟩ t.large
  | none, some x => .fails x.2 false
  | none, none => translate s c.core c.asid va

/-- The place of a destination element. -/
def dstPlace (s : State) (d : Cmd) (b : CopyBlk) (tr : DstTrans) (item j0 : Nat) : Except AFail Place :=
  let w := copyWidth b.dfmt
  let c := copyCtx s d
  checkBy (dstWalk s c tr) s c b.kind .natural (tagOf b.dst) (b.addr b.dst b.ds w item j0) (elemBytes w)

/-- A destination granule is translated at issue. -/
def DstTrans.add (s : State) (c : ACtx) (tr : DstTrans) (g : Nat) : DstTrans :=
  match translate s c.core c.asid (g * 65536) with
  | .leaf e large => { tr with ok := tr.ok ++ [⟨c.asid, g, BitVec.ofNat 64 e.w, large⟩] }
  | .fails code _ => { tr with bad := tr.bad ++ [(g, code)] }

/-- The translations of a destination's pages at issue (R298). -/
def dstTrans (s : State) (d : Cmd) (b : CopyBlk) : DstTrans :=
  if tagOf b.dst = 0 ∨ tagOf b.dst = 4 ∨ tagOf b.dst = 5 then
    (sortSet ((List.range b.items).flatMap (fun item => (List.range (b.ext 0)).map (fun j =>
      (b.addr b.dst b.ds (copyWidth b.dfmt) item j).toNat % 2 ^ 60 / 65536)))).foldl (DstTrans.add s (copyCtx s d)) ⟨[], []⟩
  else ⟨[], []⟩

/-- Sectors that an item's destination elements cover whole (R219). -/
def itemCover (s : State) (d : Cmd) (b : CopyBlk) (tr : DstTrans) (item : Nat) : List Nat :=
  if (s.badSectors = [] ∧ s.lostSectors = []) ∨ b.isRed then []
  else wholeSectors ((List.range (b.ext 0)).flatMap (fun j => match dstPlace s d b tr item j with
    | .ok (.at_ key _) => cellsAt key (List.replicate (elemBytes (copyWidth b.dfmt)) 0)
    | _ => []))

/-- Write one destination element: the state after it, or the cause with the state left. -/
def copyWrite (s : State) (d : Cmd) (b : CopyBlk) (tr : DstTrans) (cover : List Nat) (item j0 x : Nat) : Except (Nat × State) State :=
  let w := copyWidth b.dfmt
  let n := elemBytes w
  match dstPlace s d b tr item j0 with
  | .error (.cause code _) => .error (code, s)
  | .error .wait => .error (causeAccess, s)
  | .ok pl =>
    let land : Except (Nat × State) (State × Nat) := match pl with
      | .at_ key _ => .ok (s, key)
      | .absent l t i o _ =>
        let s := s.settleTent l t
        match tileKey s l t i o with
        | some key => .ok (s, key)
        | none => match pitch s (coreOf d.by_.pscore) none 0 l t i with
          | .error e => .error e
          | .ok (s, frame) => .ok (s, devKey (frame + o))
    match land with
    | .error e => .error e
    | .ok (s, key) =>
      if badAt s key n && !cover.contains (sectorOf key) then .error (causeUncorrectable, s)
      else
        let old := s.mem.num key n
        let lo := j0 * w % 8
        let v := copyNew b (Config.freeWord s.free).toNat x (if w < 8 then getBits old lo w else old)
        .ok ((s.heal (cover.filter (· == sectorOf key))).writeBy .stream (dieOf (coreOf d.by_.pscore))
          (cellsAt key (toBytes n (if w < 8 then putBits old lo w v else v)))).tick

/-- Write destination elements from j0 on. -/
def copyWrites (d : Cmd) (b : CopyBlk) (tr : DstTrans) (cover : List Nat) (item : Nat) : Nat → List Nat → State → Except (Nat × State) State
  | _, [], s => .ok s
  | j0, x :: xs, s =>
    match copyWrite s d b tr cover item j0 x with
    | .error e => .error e
    | .ok s => copyWrites d b tr cover item (j0 + 1) xs s

/-- Write an item. -/
def writeItem (s : State) (d : Cmd) (b : CopyBlk) (tr : DstTrans) (item : Nat) (xs : List Nat) : Except (Nat × State) State :=
  copyWrites d b tr (itemCover s d b tr item) item 0 xs s

/-- The device-memory destination lines of `n` items from one on (R298). -/
def itemLines (s : State) (d : Cmd) (b : CopyBlk) (tr : DstTrans) : Nat → Nat → List Nat
  | _, 0 => []
  | item, n + 1 =>
    (List.range (b.ext 0)).filterMap (fun j => match dstPlace s d b tr item j with
      | .ok (.at_ key .dev) => some (lineOf key)
      | _ => none) ++ itemLines s d b tr (item + 1) n

/-! ## The engine's commands -/

/-- Change an executing command's progress. -/
def setPhase (s : State) (e id : Nat) (ph : CopyPhase) : State :=
  let k := s.ce e
  s.setCe e { k with exec := k.exec.map (fun d => if d.id = id then { d with kind := match d.kind with
    | .copy b a _ r v => .copy b a ph r v
    | x => x } else d) }

/-- A command leaves its engine. -/
def dropCmd (s : State) (e id : Nat) : State :=
  let k := s.ce e
  s.setCe e { k with exec := k.exec.filter (fun d => d.id != id) }

/-- Add the increment to a cell's count (R298, R317). -/
def addCount (s : State) (key : Option Nat) (incr : Word) : State :=
  match key with
  | none => s
  | some k => s.poke (cellsAt k (toBytes 8 (s.mem.num k 8 + incr.toNat)))

/-- A command fails at an item (R299): the status of each cell it could translate at issue, and a fault record. -/
def failCopy (s : State) (e : Nat) (d : Cmd) (code item : Nat) : State :=
  match d.kind with
  | .mxa _ _ _ _ _ => s
  | .copy b a _ rk vk =>
    let status := code + e * 65536 + item % 2 ^ 32 * 2 ^ 32
    let s := (sortSet (rk.toList ++ vk.toList)).foldl (fun s k => s.poke (cellsAt (k + 8) (toBytes 8 status))) s
    let cell := if b.vis = 0 then b.rel else b.vis
    (dropCmd s e d.id).engineFault (coreOf d.by_.pscore) status a.toNat cell.toNat d.by_.pscore d.by_.hart d.by_.pscore

/-- The first copy of a cluster's queue that may leave (R270). -/
def readyCopy (s : State) (c : Nat) : Option Cmd :=
  (s.cluster c).queue.find? (fun d => !State.isMxa d && mayLeave s d)

/-- One command goes from a cluster's queue into the engine's, the two clusters in turn (R271). -/
def takeOne (s : State) (e : Nat) : State :=
  let k := s.ce e
  if 32 ≤ k.queue.length then s
  else
    let a := readyCopy s (2 * e + bcode k.turn)
    let b := readyCopy s (2 * e + bcode (!k.turn))
    let move (d : Cmd) (turn : Bool) : State :=
      (s.updCluster d.cluster (fun c => { c with queue := c.queue.filter (fun x => x.id != d.id) })).setCe e
        { k with queue := k.queue ++ [d], turn := turn }
    match a, b with
    | some d, _ => move d (!k.turn)
    | none, some d => move d k.turn
    | none, none => s

/-- Every command that may leave goes into the engine's queue, while it has room. -/
def takeReady (s : State) (e : Nat) : State := (List.range 32).foldl (fun s _ => takeOne s e) s

/-- The memory key of a cell that a block names, translated at issue (R298); the cause when it cannot be. -/
def cellKey (s : State) (d : Cmd) (p : Word) : Except Nat (Option Nat) :=
  if p = 0 then .ok none
  else if !cellOk p then .error causeIllegal
  else match checkPtr s (copyCtx s d) .store .natural p 16 with
    | .ok (.at_ key _) => .ok (some key)
    | .error (.cause code _) => .error code
    | _ => .error causeAccess

/-- The key that a translation gave, if any. -/
def keyOf (r : Except Nat (Option Nat)) : Option Nat :=
  match r with
  | .ok k => k
  | .error _ => none

/-- A waiting store of a list goes to one of these lines. -/
def touchesLines (s : State) (lines : List Nat) (ps : List Pend) : Bool :=
  ps.any (fun p => match p.dest.now s with
    | .key k => lines.contains (lineOf k) || lines.contains (lineOf (k + p.data.size - 1))
    | .tile _ _ _ _ => false)

/-- A store that waits on a die whose clocks have stopped goes to one of these lines: it keeps waiting (R396). -/
def stuckStore (s : State) (lines : List Nat) : Bool :=
  !s.tripped.isEmpty && (s.harts.any (fun e => !s.clocked (coreOf e.1) &&
    (touchesLines s lines e.2.sbuf || e.2.ssq.toList.any (touchesLines s lines))) ||
  s.sups.any (fun e => !s.clocked (coreOf e.1) && touchesLines s lines e.2.sbuf))

/-- Every store that waits for one of these lines is performed before the engine takes them (R206). -/
def flushLines (s : State) (lines : List Nat) : State :=
  let touches := touchesLines s lines
  let s := s.harts.foldl (fun s e => if touches e.2.sbuf then s.drainS (.user e.1) else s) s
  let s := s.harts.foldl (fun s e => if e.2.ssq.toList.any touches then s.drainV e.1 else s) s
  s.sups.foldl (fun s e => if touches e.2.sbuf then s.drainS (.sup e.1) else s) s

/-- Issue a command that the engine holds (R298 step 1). `none` while another command holds one of its lines. -/
def issueCopy (s : State) (e : Nat) (d : Cmd) : Option State :=
  match d.kind with
  | .mxa _ _ _ _ _ => none
  | .copy b a _ _ _ =>
    let rk := cellKey s d b.rel
    let vk := cellKey s d b.vis
    let d' : Cmd := { d with kind := .copy b a .queued (keyOf rk) (keyOf vk) }
    let k := s.ce e
    let out (s : State) (d' : Cmd) : State :=
      s.setCe e { k with queue := k.queue.filter (fun x => x.id != d.id), exec := k.exec ++ [d'] }
    if !b.valid then some (failCopy (out s d') e d' causeIllegal 0)
    else match rk, vk with
      | .error code, _ => some (failCopy (out s d') e d' code 0)
      | _, .error code => some (failCopy (out s d') e d' code 0)
      | .ok _, .ok _ =>
        let tr := dstTrans s d b
        let lines := sortSet (itemLines s d b tr 0 b.items)
        if lines.any (engineHeld s) || stuckStore s lines then none
        else
          let s1 := flushLines s lines
          let s2 := uncache s1 lines.contains
          some (out s2 { d' with kind := .copy b a (.issued tr lines []) (keyOf rk) (keyOf vk) }).tick

/-- What a copy engine does: no hart's event (R320). -/
def onCe (ce : Nat) (s : State) (f : State → State) : Out := .next (s.as (.mcc (2 * ce)) f)

/-- COPY_ISSUE (R271, R298): ready commands come into the engine's queue, and its k-th is issued while fewer than 8 are in
execution. -/
def execCopyIssue (ce k : Nat) (s : State) : Out :=
  onCe ce s (fun s =>
    let s := takeReady s ce
    let q := s.ce ce
    match q.queue[k]? with
    | none => s
    | some d => if 8 ≤ q.exec.length then s else (issueCopy s ce d).getD s)

/-- How a run of items ends early: the cause, the item, and whether a destination write failed. -/
structure ItemFail where
  code : Nat
  item : Nat
  dst : Bool
  deriving DecidableEq, Repr

/-- Perform items from one on, their source elements by `read`: the state, and how it ended early. -/
def runItems (d : Cmd) (b : CopyBlk) (tr : DstTrans) (read : State → Nat → Except Nat (List Nat)) : Nat → Nat → State →
    State × Option ItemFail
  | _, 0, s => (s, none)
  | item, n + 1, s =>
    match read s item with
    | .error code => (s, some ⟨code, item, false⟩)
    | .ok xs => match writeItem s d b tr item xs with
      | .error (code, s) => (s, some ⟨code, item, true⟩)
      | .ok s => runItems d b tr read (item + 1) n s

/-- A command with some source bytes read fails: its released count is added first if, with this failure at a destination write,
every source byte has been read (R299). -/
def failIssued (s : State) (ce : Nat) (d : Cmd) (b : CopyBlk) (got : Tbl (List (Nat × Byte))) (rk : Option Nat) (f : ItemFail) : State :=
  let every := f.dst && (List.range b.items).all (fun i => decide (i ≤ f.item) || (Tbl.get [] got i).length == b.rowBytes)
  failCopy (if every then addCount s rk b.incr else s) ce d f.code f.item

/-- Source bytes are read: all that are left, or those of a free choice, the lowest among them; a byte that cannot be read fails
the command at its lowest failing item, the items below it performed (R298, R299). -/
def readBytesOf (s : State) (ce : Nat) (d : Cmd) (b : CopyBlk) (tr : DstTrans) (lines : List Nat) (got : Tbl (List (Nat × Byte)))
    (rk : Option Nat) : State :=
  let all := s.choose 2 == 0
  let first := (List.range b.items).find? (fun i => (Tbl.get [] got i).length != b.rowBytes)
  let rows := (List.range b.items).map (fun i =>
    let row := rowNow s d b got i
    let low := ((row.find? (fun x => !x.2.1)).map (·.1)).getD 0
    (i, if all then row else row.filter (fun x =>
      x.2.1 || (first == some i && x.1 == low) || s.tick.chooseAt (2 ^ 32 * i + x.1) 2 == 0)))
  match rows.find? (fun r => (rowCause r.2).isSome) with
  | some r =>
    let t := runItems d b tr (fun s i => readItem s d b got i) 0 r.1 s
    (match t.2 with
     | some f => failIssued t.1 ce d b got rk f
     | none => failCopy t.1 ce d ((rowCause r.2).getD 0) r.1)
  | none =>
    let n := elemBytes (copyWidth b.sfmt)
    let places := rows.flatMap (fun r => (List.range b.units).filterMap (fun u =>
      if r.2.any (fun x => !x.2.1 && x.1 / n == u) then
        (match unitPlace s d b r.1 u with
         | .ok pl => some (pl, n)
         | .error _ => none)
      else none))
    (setPhase (noteReads s (dieOf (copyCtx s d).core) .stream places) ce d.id
      (.issued tr lines (rows.map (fun r => (r.1, okBytes r.2))))).tick.tick

/-- RELEASED_ADD (R298 steps 2 and 3): source bytes are read, each at a moment of its own, and once every one is read the released
count is added. -/
def execReleasedAdd (ce k : Nat) (s : State) : Out :=
  onCe ce s (fun s => match (s.ce ce).exec[k]? with
    | none => s
    | some d =>
      match d.kind with
      | .copy b _ (.issued tr lines got) rk _ =>
        if allRead b got then
          addCount (setPhase s ce d.id (.read tr lines ((List.range b.items).map (fun i => b.elems (Tbl.get [] got i))) 0)) rk b.incr
        else readBytesOf s ce d b tr lines got rk
      | _ => s)

/-- VISIBLE_ADD (R298 step 4): the next item is written and lines that no later item needs are given up; after the last the
visible count is added and the command ends. -/
def execVisibleAdd (ce k : Nat) (s : State) : Out :=
  onCe ce s (fun s => match (s.ce ce).exec[k]? with
    | none => s
    | some d =>
      match d.kind with
      | .copy b _ (.read tr lines vals item) _ vk =>
        if item < b.items then
          match writeItem s d b tr item (vals.getD item []) with
          | .error (code, s) => failCopy s ce d code item
          | .ok s =>
            let later := itemLines s d b tr (item + 1) (b.items - (item + 1))
            setPhase s ce d.id (.read tr (lines.filter (fun l => later.contains l)) vals (item + 1))
        else addCount (dropCmd s ce d.id) vk b.incr
      | _ => s)

/-- COPY_FAILURE (R299): a command that fails at an item fails before its released add, or at the item it is to write next; lower
items are performed. -/
def execCopyFailure (ce k code item : Nat) (s : State) : Out :=
  onCe ce s (fun s => match (s.ce ce).exec[k]? with
    | none => s
    | some d =>
      match d.kind with
      | .copy b _ (.issued tr _ got) rk _ =>
        let r := runItems d b tr (fun s i => readItem s d b got i) 0 b.items s
        (match r.2 with
         | some f => if f.code = code ∧ f.item = item then failIssued r.1 ce d b got rk f else s
         | none => s)
      | .copy b _ (.read tr _ vals from_) _ _ =>
        let r := runItems d b tr (fun _ i => .ok (vals.getD i [])) from_ (b.items - from_) s
        (match r.2 with
         | some f => if f.code = code ∧ f.item = item then failCopy r.1 ce d code item else s
         | none => s)
      | _ => s)

end Sys2Proof.Machine
end

