-- ==== Sys2Proof/Machine/Context.lean ====
section
/-! DEFINITION. Machine/Context.lean: saving and restoring a hart: the context image (R355–R358, R101), ctxsave and ctxload
(R141), and the restoration of a suspended hart (R368). -/

namespace Sys2Proof.Machine

/-! ## The image (R355–R357) -/

/-- Bytes padded with zeros to a multiple of 64. -/
def pad64 (bs : List Byte) : List Byte := bs ++ List.replicate ((64 - bs.length % 64) % 64) 0

/-- `n` padded to a multiple of 64. -/
def up64 (n : Nat) : Nat := (n + 63) / 64 * 64

/-- The user CSRs of the image, in ascending number (R355). -/
def imageCsrs : List Nat :=
  [0x000, 0x001, 0x002, 0x003, 0x004, 0x005, 0x006, 0x100, 0x101, 0x102, 0x103, 0x104, 0x105, 0x106, 0x107, 0x108, 0x109,
   0x10A, 0x111, 0x112, 0x114, 0x115, 0x116, 0x117]

/-- An entry of no instruction, for the element positions of a hart. -/
def noEntry : VEntry := ⟨.vdrain, 0, none, 0, 0, 0, 0, 0, 0, 0, true, none, .fresh, 0, false, false, .zero⟩

/-- The lanes and configuration of a hart. -/
def imageCtx (s : State) (p : Nat) : VCtx := vctx s p noEntry .vdrain

/-- Bytes of each marked register's part of the vector area, by VDIRTY bit (R357). -/
def regBytes (vl sew vlen bit : Nat) : Nat :=
  if bit < 32 then (vl * sew + 7) / 8
  else if bit < 40 then (vl + 7) / 8
  else if bit < 48 then 2 * Nat.min vl (vlen / 16)
  else 512

/-- The marked registers, in image order. -/
def marked (vdirty : BitVec 50) : List Nat := (List.range 50).filter (fun k => vdirty.getLsbD k)

/-- The number that `n` elements of `w` bits spell, from a register's bits and their positions. -/
def packElems (pos : Nat → Nat) (w : Nat) (reg : Nat) (n : Nat) : Nat :=
  (List.range n).foldl (fun x i => putBits x (i * w) w (getBits reg (pos i) w)) 0

/-- The bytes of one marked register (R101). -/
def packReg (s : State) (c : VCtx) (bit : Nat) : List Byte :=
  let k := s.vcore c.core
  let n := regBytes c.vl c.sew c.vlen bit
  let lim (i : Nat) : Nat := Nat.min i (c.cap c.sew)
  pad64 (toBytes n
    (if bit < 32 then packElems (c.vPos c.sew) c.sew (vget 0 k.v bit).toNat (lim c.vl)
     else if bit < 40 then packElems c.mPos 1 (vget 0 k.m (bit - 32)).toNat (lim c.vl)
     else if bit < 48 then packElems c.tPos 16 (vget 0 k.t (bit - 40)).toNat (lim (Nat.min c.vl (c.vlen / 16)))
     else (vget 0 (s.hart c.p).pa (bit - 48)).toNat))

/-- The vector area (R357). -/
def vectorArea (s : State) (p : Nat) : List Byte :=
  let c := imageCtx s p
  let h := s.hart p
  pad64 (toBytes ((c.vl + 7) / 8) (h.fmask.toNat % 2 ^ c.vl)) ++ (marked h.vdirty).flatMap (packReg s c)

/-- State of a VIQ entry in the image (R356). -/
def EntryState.code : EntryState → Nat
  | .fresh => 0
  | .stopped => 1
  | .replay => 2

/-- A VIQ entry's 128 bytes (R356). -/
def packEntry (e : VEntry) : List Byte :=
  toBytes 8 e.addr.toNat ++ toBytes 4 (wordOf e.instr).toNat ++
  toBytes 4 ((e.pfx.map (fun x => (pfxWord x).toNat)).getD 0) ++
  toBytes 8 e.a.toNat ++ toBytes 8 e.b.toNat ++ toBytes 8 e.b1.toNat ++ toBytes 8 e.rngkey.toNat ++
  toBytes 8 e.pntbase.toNat ++ toBytes 8 e.pushPos.toNat ++ toBytes 1 e.frm.toNat ++ toBytes 1 (bcode e.ovr) ++
  toBytes 1 (e.slot.getD 255) ++ toBytes 1 e.st.code ++ toBytes 60 0

/-- A stream slot's 48 bytes (R355): the remaining length counts from the strip position. -/
def packStream (t : Stream) : List Byte :=
  toBytes 8 t.base.toNat ++ toBytes 8 (t.len.toNat - t.pr.toNat) ++ toBytes 8 t.stride.toNat ++ toBytes 8 t.pr.toNat ++
  toBytes 8 t.pushPos.toNat ++ toBytes 8 (t.width.code + bcode t.configured * 8)

/-- A Reply Queue slot's 16 bytes (R355). -/
def packReply (r : Option Reply) : List Byte :=
  match r with
  | none => toBytes 16 0
  | some r =>
    toBytes 1 (r.reg.toNat + (if r.toF then 128 else 64)) ++ toBytes 1 (bcode r.value.isSome) ++
    toBytes 1 (match r.copy with
      | some x => x.toNat + 64
      | none => 0) ++ toBytes 5 0 ++ toBytes 8 ((r.value.getD 0).toNat)

/-- The image of the hart on scalar core p (R355). -/
def imageOf (s : State) (p : Nat) : List Byte :=
  let h := s.hart p
  let u := s.sup p
  let area := vectorArea s p
  toBytes 4 1 ++ toBytes 4 (1280 + 128 * h.viq.length + area.length) ++ toBytes 4 (vlenOf s p) ++ toBytes 4 (vlenEff s p) ++
  toBytes 2 h.viq.length ++ toBytes 1 (s.vcore (coreOf p)).part ++ toBytes 1 (slotOf p) ++
  toBytes 1 (bcode h.isChild + 2 * h.siblings) ++ toBytes 1 0 ++ toBytes 2 h.splitB.toNat ++ toBytes 8 h.launch ++
  toBytes 32 0 ++
  (List.range 31).flatMap (fun k => toBytes 8 (vget 0 h.thr.x (k + 1)).toNat) ++
  h.thr.f.toList.flatMap (fun w => toBytes 8 w.toNat) ++
  imageCsrs.flatMap (fun n => toBytes 8 (userCsr s p n)) ++
  toBytes 8 u.scause.toNat ++ toBytes 8 u.sepc.toNat ++ toBytes 8 u.scpc.toNat ++ toBytes 8 u.stval.toNat ++
  toBytes 1 h.tokIn ++ toBytes 1 h.tokOut ++ toBytes 6 0 ++ h.streams.toList.flatMap packStream ++
  h.replies.toList.flatMap packReply ++ toBytes 32 0 ++ h.viq.flatMap packEntry ++ area

/-! ## Its pages (R141) -/

/-- Result codes of ctxsave and ctxload (R141). -/
def ctxBusy : Nat := 0xFFFF

/-- What a check of pages finds: their keys, a code for x[d], a cause for the supervisor thread, or a line to wait for. -/
inductive Pages where
  | keys (ks : List Nat)
  | code (n : Nat)
  | bad
  | wait
  deriving DecidableEq, Repr

/-- A 4 KiB page of an image (R141): a pointer of another tag than 0x0 fails as ACCESS. -/
def imagePage (s : State) (p : Nat) (k : AKind) (va : Nat) : Pages :=
  if va / 2 ^ 60 ≠ 0 then .code causeAccess
  else match checkAddr s (s.actx (.sup p)) k .none 0 (va : Int) 4096 with
    | .ok (.at_ key _) =>
      if (List.range 32).any (fun j => engineHeld s (lineOf (key + 128 * j))) then .wait else .keys [key]
    | .error (.cause code dev) =>
      if dev && code == causeUncorrectable then .bad else .code (if code = causePage then causePage else causeAccess)
    | _ => .code causeAccess

/-- `n` pages of an image, lowest first. -/
def imagePages (s : State) (p : Nat) (k : AKind) (va : Nat) : Nat → Pages
  | 0 => .keys []
  | n + 1 =>
    match imagePage s p k va with
    | .keys ks => match imagePages s p k (va + 4096) n with
      | .keys rest => .keys (ks ++ rest)
      | r => r
    | r => r

/-- Pages that bytes take. -/
def pagesFor (n : Nat) : Nat := (n + 4095) / 4096

/-- The bytes that pages hold. -/
def pagesGet (s : State) (ks : List Nat) : List Byte := ks.flatMap (fun k => s.mem.gets k 4096)

/-- The byte writes of an image on its pages. -/
def pagesPut (ks : List Nat) (bs : List Byte) : List Host.Cell :=
  ks.zipIdx.flatMap (fun e => cellsAt e.1 ((bs.drop (4096 * e.2)).take 4096))

/-- An executing supervisor thread's result. -/
def ctxDone (s : State) (d : Reg) (n : Nat) : Out := done (s.wx d (BitVec.ofNat 64 n))

/-! ## CTXSAVE (R141, R355) -/

/-- A register or VIQ entry that an image needs holds an uncorrectable word (R219, R362). -/
def imageBad (s : State) (p : Nat) : Bool :=
  let h := s.hart p
  h.viq.any (·.bad) || s.badRegs.any (fun b => b.1 == p &&
    (b.2.1 == 0 || b.2.1 == 1 || (b.2.1 == 2 && h.vdirty.getLsbD b.2.2) || (b.2.1 == 3 && h.vdirty.getLsbD (32 + b.2.2)) ||
     (b.2.1 == 4 && h.vdirty.getLsbD (40 + b.2.2)) || (b.2.1 == 5 && h.vdirty.getLsbD (48 + b.2.2))))

/-- The hart leaves its slot, suspended (R355, R367). A split outlives its children's leaving: its slots stay reserved (R21,
R372). -/
def vacate (s : State) (p : Nat) : State :=
  let h := s.hart p
  let core := coreOf p
  let owner := (s.sup p).scause.toNat / 65536 % 8192 == 1 && ((s.launch? h.launch).map (·.held)).getD false
  let s := ((s.dropCredit p).leave p).dropWatch false p
  let s := s.updLaunch h.launch (fun l => { l with
    suspended := l.suspended ++ [⟨p, (s.vcore core).part, owner, if h.isChild then (s.vcore core).split else none⟩] })
  s.updSup p (fun u => { u with svc := false })

/-- CTXSAVE (R141): a VIQ head that is not interrupted where it stands goes on first (R246; log 33). -/
def execCtxsave (d a : Reg) (s : State) : Out :=
  onSup (.ctxsave d a) s (fun p => withRegs s { rx := [a], wx := [d] }
    (let va := (s.rx a).toNat
     if va % 4096 ≠ 0 then ctxDone s d causeMisalign
     else if !(s.sup p).svc || (s.hart? p).isNone then ctxDone s d ctxBusy
     else if State.midway (s.hart p) && !(s.hart p).vecStopped then waits s
     else
       let bs := imageOf s p
       match imagePages s p .store va (pagesFor bs.length) with
       | .code n => ctxDone s d n
       | .bad => .next (s.trapHere causeUncorrectable 4 (s.rx a))
       | .wait => waits s
       | .keys ks =>
         if imageBad s p then .next (s.trapHere causeUncorrectable 1 0)
         else
           let s1 := (((s.drainS (.sup p)).drainS (.user p)).drainV p).write (dieOf (coreOf p)) (pagesPut ks bs)
           let s2 := if (s.sup p).scause.toNat % 256 = causePreempt then vacate s1 p else s1
           ctxDone s2.tick d bs.length))

/-! ## CTXLOAD (R141, R358) -/

/-- The fields of an image's header. -/
def imgN (bs : List Byte) (off n : Nat) : Nat := bytesField bs off n
/-- A user CSR of the image, by its place in the list of R355. -/
def imgCsr (bs : List Byte) (k : Nat) : Nat := bytesField bs (568 + 8 * k) 8

/-- The image is a child's, and its sibling count. -/
def imgChild (bs : List Byte) : Bool := (imgN bs 20 1).testBit 0
def imgSiblings (bs : List Byte) : Nat := imgN bs 20 1 / 2 % 16

/-- The harts of a core other than the target slot's. -/
def others (s : State) (p : Nat) : List (Nat × Hart) := (s.hartsOf (coreOf p)).filter (fun e => e.1 != p)

/-- The partition of the target slot's core once the image is restored: a core with no resident hart takes the image's
(R358). -/
def slotPart (s : State) (p : Nat) (bs : List Byte) : Nat :=
  if (s.hartsOf (coreOf p)).isEmpty then imgN bs 18 1 else (s.vcore (coreOf p)).part

/-- The core can take what the header names (R141 step 4, R358). DESIGN CHOICE (log 63): an image that is no child's is refused while a
split is recorded on a core with other harts resident; R358 does not list the case. -/
def targetOk (s : State) (p : Nat) (bs : List Byte) : Bool :=
  let core := coreOf p
  let part := imgN bs 18 1
  let n := imgSiblings bs
  (claimOf s (some (imgN bs 24 8)) core).isSome && (part == 1 || part == 2 || part == 4 || part == 8) &&
  ((others s p).isEmpty || (s.vcore core).part == part) && imgN bs 19 1 == slotOf p && decide (slotOf p < part) &&
  (if imgChild bs then
     (n == 2 || n == 4 || n == 8) && decide (n ≤ part) &&
     (s.hartsOf core).all (fun e =>
       e.2.isChild && e.2.launch == imgN bs 24 8 && e.2.siblings == n && slotOf e.1 / n == slotOf p / n)
   else (others s p).isEmpty || (s.vcore core).split.isNone)

/-- The header is well formed and its VLEN is the slot's (R141 step 5, R358). -/
def headOk (s : State) (p : Nat) (bs : List Byte) : Bool :=
  imgN bs 0 4 == 1 && imgN bs 8 4 == 1024 * lanesOf (slotPart s p bs) && imgN bs 18 1 == slotPart s p bs &&
  bytesZero bs 21 1 && bytesZero bs 32 32 && decide (imgN bs 20 1 < 32)

/-- VDIRTY, VL and SEW as the image records them. -/
def imgVdirty (bs : List Byte) : BitVec 50 := BitVec.ofNat 50 (imgCsr bs 5)
def imgVl (bs : List Byte) : Nat := imgCsr bs 0 % 65536
def imgVtype (bs : List Byte) : BitVec 9 := BitVec.ofNat 9 (imgCsr bs 2)

/-- The length that n_q and VDIRTY give (R355, R357). -/
def imgLength (bs : List Byte) : Nat :=
  1280 + 128 * imgN bs 16 2 + up64 ((imgVl bs + 7) / 8) +
  ((marked (imgVdirty bs)).map (fun k => up64 (regBytes (imgVl bs) (sewBits (imgVtype bs)) (imgN bs 8 4) k))).foldl (· + ·) 0

/-- An entry's instruction: a vector, tree, structure or engine word that a user thread may push. -/
def entryInstr (w : Nat) : Option Instr :=
  match decodeWord (BitVec.ofNat 32 w) with
  | .ok i => if 6 ≤ w / 2 ^ 28 ∧ w / 2 ^ 28 ≤ 13 ∧ denied .user i = none then some i else none
  | .error _ => none

/-- An entry's prefix; `none` when the word is no prefix that its instruction accepts. -/
def entryPfx (w : Nat) (i : Instr) : Option (Option Pfx) :=
  if w = 0 then some none
  else match decodeWord (BitVec.ofNat 32 w) with
    | .ok (.pfx m sense zero cf creg) => if pfxOk zero cf i then some (some ⟨m, sense, zero, cf, creg⟩) else none
    | _ => none

/-- A VIQ entry of the image (R356); `none` when it is malformed. Its order after what stood before it in the queues is
kept by putting every earlier vector access of the hart first (log 25). -/
def unpackEntry (bs : List Byte) : Option VEntry :=
  match entryInstr (imgN bs 8 4) with
  | none => none
  | some i => match entryPfx (imgN bs 12 4) i with
    | none => none
    | some pf =>
      let st : Option EntryState := match imgN bs 67 1 with
        | 0 => some .fresh
        | 1 => some .stopped
        | 2 => some .replay
        | _ => none
      let slot := imgN bs 66 1
      match st with
      | none => none
      | some st =>
        if !bytesZero bs 68 60 || (slot != 255 && decide (16 ≤ slot)) then none
        else some {
          instr := i
          addr := BitVec.ofNat 64 (imgN bs 0 8)
          pfx := pf
          a := BitVec.ofNat 64 (imgN bs 16 8)
          b := BitVec.ofNat 64 (imgN bs 24 8)
          b1 := BitVec.ofNat 64 (imgN bs 32 8)
          rngkey := BitVec.ofNat 64 (imgN bs 40 8)
          pntbase := BitVec.ofNat 64 (imgN bs 48 8)
          pushPos := BitVec.ofNat 64 (imgN bs 56 8)
          frm := BitVec.ofNat 2 (imgN bs 64 1)
          ovr := (imgN bs 65 1).testBit 0
          slot := if slot = 255 then none else some slot
          st := st
          needs := 0
          joined := (vuse i).mem
          bad := false
          done := .zero }

/-- The VIQ entries of the image, `n` left. -/
def unpackEntries (bs : List Byte) : Nat → Option (List VEntry)
  | 0 => some []
  | n + 1 =>
    match unpackEntry (bs.take 128), unpackEntries (bs.drop 128) n with
    | some e, some es => some (e :: es)
    | _, _ => none

/-- A stream slot of the image; `none` when it is malformed. Its strips are fetched again (R273). -/
def unpackStream (bs : List Byte) : Option Stream :=
  let k := imgN bs 40 8
  match VWidth.ofCode (k % 8) with
  | none => none
  | some w =>
    if 16 ≤ k then none
    else
      let pr := BitVec.ofNat 64 (imgN bs 24 8)
      some ⟨BitVec.ofNat 64 (imgN bs 0 8), BitVec.ofNat 64 (imgN bs 8 8) + pr, BitVec.ofNat 64 (imgN bs 16 8), pr,
        BitVec.ofNat 64 (imgN bs 32 8), w, k.testBit 3, [], []⟩

/-- A Reply Queue slot of the image; the outer `none` when it is malformed. -/
def unpackReply (bs : List Byte) : Option (Option Reply) :=
  let r := imgN bs 0 1
  let c := imgN bs 2 1
  if !bytesZero bs 3 5 ∨ 192 ≤ r ∨ 192 ≤ c ∨ 32 ≤ r % 64 ∨ 32 ≤ c % 64 ∨ 1 < imgN bs 1 1 then none
  else if r < 64 then some none
  else some (some ⟨decide (128 ≤ r), BitVec.ofNat 5 r, if 64 ≤ c then some (BitVec.ofNat 5 c) else none,
    if imgN bs 1 1 = 1 then some (BitVec.ofNat 64 (imgN bs 8 8)) else none⟩)

/-- Parts of `n` bytes from an offset, `k` of them. -/
def chunks (bs : List Byte) (off n k : Nat) : List (List Byte) := (List.range k).map (fun j => (bs.drop (off + n * j)).take n)

/-- The contents beyond the header are well formed (R141 step 7): the length, resv bytes, entries, slots, VTYPE and VCAP. -/
def bodyOk (bs : List Byte) : Bool :=
  imgN bs 4 4 == imgLength bs && decide (imgN bs 16 2 ≤ 256) && bytesZero bs 794 6 && bytesZero bs 1248 32 &&
  (chunks bs 800 48 4).all (fun c => (unpackStream c).isSome) && (chunks bs 992 16 16).all (fun c => (unpackReply c).isSome) &&
  (unpackEntries (bs.drop 1280) (imgN bs 16 2)).isSome && vtypeOk (imgVtype bs).toNat &&
  isPow2 (imgCsr bs 4) && decide (512 ≤ imgCsr bs 4) && decide (imgCsr bs 4 ≤ imgN bs 8 4)

/-- VL and VTYPE as the scalar thread knows them behind the restored entries (R149). -/
def knownAfter (eff : Nat) (vl : BitVec 16) (vt : BitVec 9) : List VEntry → BitVec 16 × BitVec 9
  | [] => (vl, vt)
  | e :: rest =>
    match e.instr with
    | .setvl _ _ t => knownAfter eff (BitVec.ofNat 16 (Nat.min e.a.toNat (eff / sewBits t))) t rest
    | .setshape _ _ _ => knownAfter eff (BitVec.ofNat 16 (Nat.min e.a.toNat (eff / sewBits vt))) vt rest
    | _ => knownAfter eff vl vt rest

/-- The hart of an image, on scalar core p. The resv bits of its CSRs are not stored (R3); B is 0 but in a child (R181). -/
def imageHart (s : State) (p : Nat) (bs : List Byte) : Hart :=
  let n := imgN bs 24 8
  let es := (unpackEntries (bs.drop 1280) (imgN bs 16 2)).getD []
  let word (off : Nat) : Word := BitVec.ofNat 64 (imgN bs off 8)
  let it := imgCsr bs 11
  let l := s.launch? n
  let cl := clusterOf (coreOf p)
  let vl := BitVec.ofNat 16 (imgCsr bs 0)
  let known := knownAfter (Nat.min (imgN bs 8 4) (imgCsr bs 4)) vl (imgVtype bs) es
  { State.noHart with
    launch := n
    thr := {
      x := Vector.ofFn (fun k : Fin 32 => if k.val = 0 then 0 else word (64 + 8 * (k.val - 1)))
      f := Vector.ofFn (fun k : Fin 32 => word (312 + 8 * k.val))
      pc := word 768 }
    cluster := (l.bind (fun l => l.place.findIdx? (fun e => e.1 == cl))).getD 0
    core := (l.bind (fun l => coreCoord l cl (coreOf p))).getD 0
    vl := vl
    vstart := BitVec.ofNat 16 (imgCsr bs 1)
    vtype := imgVtype bs
    rows := BitVec.ofNat 4 (imgCsr bs 3 / 65536)
    vcap := BitVec.ofNat 18 (imgCsr bs 4)
    vdirty := imgVdirty bs
    fstat := BitVec.ofNat 40 (imgCsr bs 6) &&& ~~~0xFC0000#40
    fmask := BitVec.ofNat 16384 (bytesField bs (1280 + 128 * es.length) ((imgVl bs + 7) / 8) % 2 ^ imgVl bs)
    fflags := BitVec.ofNat 8 (imgCsr bs 7)
    frm := BitVec.ofNat 2 (imgCsr bs 8)
    rngkey := BitVec.ofNat 64 (imgCsr bs 9)
    pfxs := BitVec.ofNat 13 (imgCsr bs 10)
    withheld := BitVec.ofNat 8 (it / 256)
    seq := BitVec.ofNat 3 (it / 32)
    last := BitVec.ofNat 2 (it / 8)
    pntstat := BitVec.ofNat 29 (imgCsr bs 13)
    shtcur := BitVec.ofNat 52 (imgCsr bs 15) &&& ~~~0xC0000#52
    ovr := (imgCsr bs 17).testBit 0
    retired := BitVec.ofNat 64 (imgCsr bs 18)
    evsel := BitVec.ofNat 64 (imgCsr bs 19)
    evcnt := Vector.ofFn (fun k : Fin 4 => BitVec.ofNat 64 (imgCsr bs (20 + k.val)))
    splitB := if imgChild bs then BitVec.ofNat 16 (imgN bs 22 2) else 0
    isChild := imgChild bs
    siblings := if imgChild bs then imgSiblings bs else 0
    viq := es
    replies := Vector.ofFn (fun k : Fin 16 => ((unpackReply ((bs.drop (992 + 16 * k.val)).take 16)).getD none))
    tokIn := imgN bs 792 1
    tokOut := imgN bs 793 1
    streams := Vector.ofFn (fun k : Fin 4 => ((unpackStream ((bs.drop (800 + 48 * k.val)).take 48)).getD Stream.none))
    pushVl := known.1
    pushVtype := known.2
    vecStopped := true
    needSiblings := imgChild bs
    hold := es.length
    lazyS := s.choose 2 == 1
    lazyV := s.tick.choose 2 == 1
    lazyL := s.tick.tick.choose 2 == 1 }

/-- Put `n` elements of `w` bits at their positions. -/
def unpackElems (pos : Nat → Nat) (w x n reg : Nat) : Nat :=
  (List.range n).foldl (fun r i => putBits r (pos i) w (getBits x (i * w) w)) reg

/-- Write one marked register from its bytes. -/
def unpackReg (s : State) (c : VCtx) (bit : Nat) (bs : List Byte) : State :=
  let x := ofBytes (bs.take (regBytes c.vl c.sew c.vlen bit))
  let lim (i : Nat) : Nat := Nat.min i (c.cap c.sew)
  let k := s.vcore c.core
  if bit < 32 then s.putVreg c.core bit (unpackElems (c.vPos c.sew) c.sew x (lim c.vl) (vget 0 k.v bit).toNat)
  else if bit < 40 then s.putMreg c.core (bit - 32) (unpackElems c.mPos 1 x (lim c.vl) (vget 0 k.m (bit - 32)).toNat)
  else if bit < 48 then
    s.putTreg c.core (bit - 40) (unpackElems c.tPos 16 x (lim (Nat.min c.vl (c.vlen / 16))) (vget 0 k.t (bit - 40)).toNat)
  else s.updHart c.p (fun h => { h with pa := vset h.pa (bit - 48) (BitVec.ofNat 4096 x) })

/-- Write the marked registers in image order. -/
def unpackRegs (c : VCtx) : List Nat → List Byte → State → State
  | [], _, s => s
  | b :: rest, bs, s =>
    unpackRegs c rest (bs.drop (up64 (regBytes c.vl c.sew c.vlen b))) (unpackReg s c b bs)

/-- Every bit of a hart's lanes in the register files is zero (R101). -/
def clearLanes (s : State) (c : VCtx) : State :=
  s.updVcore c.core (fun k => { k with
    v := k.v.map (fun r => r &&& ~~~(BitVec.ofNat 32768 (c.inside 1024)))
    m := k.m.map (fun r => r &&& ~~~(BitVec.ofNat 16384 (c.inside 512)))
    t := k.t.map (fun r => r &&& ~~~(BitVec.ofNat 32768 (c.inside 1024))) })

/-- The suspended hart that an image restores: of its launch and slot, the one saved from this scalar core first. -/
def suspOf (s : State) (p n : Nat) : Option Susp :=
  match s.launch? n with
  | none => none
  | some l => match l.suspended.find? (fun u => u.p == p) with
    | some u => some u
    | none => l.suspended.find? (fun u => slotOf u.p == slotOf p)

/-- What a restored child's join will need (R23, R358): the split as it was when the children left; for an image of no
suspended hart the parent's values are free values (log 6). -/
def splitFor (s : State) (p : Nat) (bs : List Byte) : SplitRec :=
  let n := imgSiblings bs
  let fv (k : Nat) : Nat := (Config.freeWord (s.free + k)).toNat
  match (suspOf s p (imgN bs 24 8)).bind (·.split) with
  | some r => { r with parentSlot := slotOf p / n, n := n, parentPart := imgN bs 18 1 / n }
  | none => ⟨slotOf p / n, imgN bs 18 1 / n, n, BitVec.ofNat 16 (fv 0), BitVec.ofNat 4 (fv 1), BitVec.ofNat 18 (fv 2),
      BitVec.ofNat 3 (fv 3), imgN bs 24 8, coreOf p⟩

/-- Replies whose values the image holds reach their registers. -/
def heldReplies (s : State) (p : Nat) : State :=
  (List.range 16).foldl (fun s k => match (vget none (s.hart p).replies k).bind (·.value) with
    | some v => deliverReply s p k v
    | none => s) s

/-- A whole image is restored into the slot of scalar core p (R358). What the hart has seen elsewhere is newer than the die's copies
of peer lines (R208, R340). -/
def restoreImage (s : State) (p : Nat) (bs : List Byte) : State :=
  let core := coreOf p
  let n := imgN bs 24 8
  let split := if imgChild bs && (s.hartsOf core).isEmpty then some (splitFor s p bs) else (s.vcore core).split
  let part := slotPart s p bs
  let susp := suspOf s p n
  let s := ((s.updVcore core (fun k => { k with part := part, split := split })).dropCredit p).setHart p (imageHart s p bs)
  let s := dropPeerCopies (cleanHart s p) (dieOf core)
  let c := imageCtx s p
  let s := unpackRegs c (marked (imgVdirty bs))
    (bs.drop (1280 + 128 * (s.hart p).viq.length + up64 ((imgVl bs + 7) / 8))) (clearLanes s c)
  let s := heldReplies s p
  let s := s.updSup p (fun u => { u with
    scause := BitVec.ofNat 32 (imgN bs 760 8) &&& ~~~0xF800#32
    sepc := State.pcBits (BitVec.ofNat 64 (imgN bs 768 8))
    scpc := State.pcBits (BitVec.ofNat 64 (imgN bs 776 8))
    stval := BitVec.ofNat 64 (imgN bs 784 8)
    svc := true })
  let s := s.updLaunch n (fun l => { l with suspended := l.suspended.filter (fun u => some u != susp) })
  releaseBars s.tick.tick.tick.tick.tick

/-- What ctxload does: a code, a cause, a wait, or the state with the image restored (R141). -/
inductive Loaded where
  | code (n : Nat)
  | bad
  | wait
  | ok (s : State)

/-- ctxload of the image at `va` into the slot of scalar core p, the checks in R141's order; a header whose own sector is
uncorrectable cannot be read for steps 4 and 5 (log 33). -/
def loadImage (s : State) (p va : Nat) : Loaded :=
  if va % 4096 ≠ 0 then .code causeMisalign
  else if (s.hart? p).isSome && !(s.sup p).svc then .code ctxBusy
  else match imagePages s p .load va 1 with
    | .code n => .code n
    | .bad => .bad
    | .wait => .wait
    | .keys ks =>
      let head := pagesGet s ks
      if badAt s (ks.headD 0) 64 then .code causeUncorrectable
      else if !targetOk s p head then .code ctxBusy
      else if !headOk s p head then .code causeImage
      else
        let len := Nat.max 1280 (imgN head 4 4)
        match imagePages s p .load va (pagesFor len) with
        | .code n => .code n
        | .bad => .bad
        | .wait => .wait
        | .keys ks =>
          if ks.zipIdx.any (fun e => badAt s e.1 (Nat.min 4096 (len - 4096 * e.2))) then .code causeUncorrectable
          else
            let bs := (pagesGet s ks).take len
            if bodyOk bs then .ok (restoreImage s p bs) else .code causeImage

/-- CTXLOAD (R141, R358). -/
def execCtxload (d a : Reg) (s : State) : Out :=
  onSup (.ctxload d a) s (fun p => withRegs s { rx := [a], wx := [d] }
    (match loadImage (s.drainS (.sup p)) p (s.rx a).toNat with
     | .code n => ctxDone s d n
     | .bad => .next (s.trapHere causeUncorrectable 4 (s.rx a))
     | .wait => waits s
     | .ok s' => ctxDone s' d 0))

/-- A suspended hart that the dispatcher may restore: not held by the owner, its slot vacant and its core's partition its own
(R368). -/
def restorable (s : State) (u : Susp) : Bool :=
  !u.byOwner && (s.hart? u.p).isNone && (s.vcore (coreOf u.p)).part == u.part

/-- The hart suspended from scalar core p is the launch's next to be restored: the lowest that can be (R368). -/
def restoreTurn (s : State) (p n : Nat) : Bool :=
  match s.launch? n with
  | none => false
  | some l => l.suspended.any (fun u => u.p == p && restorable s u) && l.suspended.all (fun u => !restorable s u || p ≤ u.p)

/-- RESTORE_SUSPENDED (R368): the canvas firmware of a vacant slot's scalar core restores the hart that left it, in ascending
PCORE and HART as slots free. -/
def execRestoreSuspended (p : Nat) (va : Word) (s : State) : Out :=
  if (s.hart? p).isSome then .next s
  else match loadImage s p va.toNat with
    | .ok s' => .next (if restoreTurn s p (s'.hart p).launch then s' else s)
    | _ => .next s

end Sys2Proof.Machine
end

