-- ==== Sys2Proof/Machine/Device.lean ====
section
/-! DEFINITION. Machine/Device.lean: steps of the device that no word of a stream names: the push of a word (R266), waiting
stores and trains being performed (R235, R327, R341), replies and evictions of L2 (R206, R207, R219), scrubbing (R218),
arbitration (R369), pre-emption (R354), page-request responses (R353), and accesses that come from outside the package
(R339, R342, R391). A step of the device leaves the executing agent as it was. -/

namespace Sys2Proof.Machine

/-- A step of the device: who executes next is not its doing. -/
def deviceStep (s t : State) : Out := .next { t with agent := s.agent }

/-! ## The push (R17, R266) -/

/-- Bits 31:28 name a class that the scalar thread pushes: 0x6 to 0xD (R17). -/
def pushedClass (w : BitVec 32) : Bool := decide (6 ≤ w.toNat / 2 ^ 28) && decide (w.toNat / 2 ^ 28 ≤ 13)

/-- VIQ_PUSH (R266): the scalar thread decodes a word of a pushed class and pushes it; a word that it cannot decode takes its
decode cause (R84). A word of another class is no push. -/
def execViqPush (w : BitVec 32) (s : State) : Out :=
  let s := match s.agent with
    | .vec p => { s with agent := .user p }
    | _ => s
  if !pushedClass w then .next s
  else match s.decodeFor w with
    | .error code => execIllegalWord w code s
    | .ok i =>
      match s.agent with
      | .user p => withPush s p i .next
      | _ => .next (s.trapHere causeIllegal 0 (w.zeroExtend 64))

/-! ## Stores that wait (R235, R268, R327, R341) -/

/-- The elements of a queue that may be performed next: those of the oldest instruction in it, in any order (R233, R328). -/
def nextElems : List Pend → List Pend
  | [] => []
  | q :: rest => q :: rest.filter (fun r => r.acc == q.acc)

/-- VECTOR_STORE_PERFORMED (R233, R235, R268): an element of the oldest instruction in one slice's store queue is performed at
core scope. -/
def execVectorStorePerformed (p slice : Nat) (s : State) : Out :=
  let ps := vget [] (s.hart p).ssq slice
  let qs := nextElems ps
  match qs[s.choose qs.length]? with
  | none => .next s
  | some q => .next ((s.tick.perform (.vec p) q).updHart p (fun h => { h with ssq := vset h.ssq slice (ps.erase q) }))

/-- The stores of a scalar thread's queue that may be performed next: no earlier one comes before them, but for those of their
own instruction (R222, R327). -/
def nextStores : List Pend → List Pend → List Pend
  | _, [] => []
  | es, p :: rest =>
    (if es.all (fun e => !State.before e p || e.acc == p.acc) then [p] else []) ++ nextStores (es ++ [p]) rest

/-- SCALAR_STORE_PERFORMED (R222, R327, R341, R342): a store of a scalar thread's queue, the oldest of those to its place, is
performed, after the thread's loads. -/
def execScalarStorePerformed (p : Nat) (sup : Bool) (s : State) : Out :=
  let a := if sup then Agent.sup p else Agent.user p
  let s := s.settleLate a
  let ps := s.sbufOf a
  let qs := nextStores [] ps
  match qs[s.choose qs.length]? with
  | none => .next s
  | some q => .next ((s.tick.perform a q).setSbuf a (ps.erase q))

/-- A train's hart and destination. -/
def trainTo (p pkg : Nat) (t : Nat × Nat × List Pend) : Bool := t.1 == p && t.2.1 == pkg

/-- An earlier element writes a byte of a later one. -/
def metBy (es : List Pend) (q : Pend) : Bool := es.any (fun p => p.meets q)

/-- The elements of one train that may be performed next, `es` those before it: with O the first, else every one that no
earlier element of a byte of its own comes before (R233, R326, R341). -/
def nextInTrain : List Pend → List Pend → List Pend
  | _, [] => []
  | es, q :: rest =>
    if q.ord then (if metBy es q then [] else [q])
    else (if metBy es q then [] else [q]) ++ nextInTrain (es ++ [q]) rest

/-- The elements of a hart's trains to a package, or the host, that may be performed next (R341, R342): an element of one
instruction comes before one of a later instruction only where they write one byte (R326). -/
def nextTrains (p pkg : Nat) : List Pend → List (Nat × Nat × List Pend) → List ((Nat × Nat × List Pend) × Pend)
  | _, [] => []
  | es, t :: rest =>
    if trainTo p pkg t then (nextInTrain es t.2.2).map (fun q => (t, q)) ++ nextTrains p pkg (es ++ t.2.2) rest
    else nextTrains p pkg es rest

/-- A train without one of its elements; none is left of an empty one. -/
def lessOne (t : Nat × Nat × List Pend) (q : Pend) (ts : List (Nat × Nat × List Pend)) : List (Nat × Nat × List Pend) :=
  match t.2.2.erase q with
  | [] => ts.erase t
  | rest => ts.map (fun u => if u = t then (t.1, t.2.1, rest) else u)

/-- PEER_TRAIN_ACK (R341, R342): an element of a hart's trains to a package, or the host (256), is performed there; after its last
the train is acknowledged. -/
def execPeerTrainAck (p pkg : Nat) (s : State) : Out :=
  let qs := nextTrains p pkg [] s.trains
  match qs[s.choose qs.length]? with
  | none => .next s
  | some x => .next { s.tick.perform (.vec p) x.2 with trains := lessOne x.1 x.2 s.trains }

/-! ## L2 (R206, R207, R218, R219) -/

/-- MISS_REPLY (R207): one reply fills the die's L2, serves every merged requester and frees the miss register. -/
def execMissReply (die line : Nat) (s : State) : Out :=
  if (Tbl.get [] s.misses die).contains line then .next (fillL2 s die line) else .next s

/-- Home die of a sector of device memory (R210). -/
def homeOfSector (k : Nat) : Nat := 64 * k / Config.stackBytes

/-- Lost-sector records in use in a home directory (R219, R321). -/
def lostCount (s : State) (die : Nat) : Nat := (s.lostSectors.filter (fun k => homeOfSector k == die)).length

/-- A bad sector is recorded as lost; with 4,096 records in use the peg core reports a machine check and accepts no further
launch (R219). -/
def loseSector (s : State) (k : Nat) : State :=
  let die := homeOfSector k
  if lostCount s die < 4096 then
    { s with badSectors := s.badSectors.filter (· ≠ k), lostSectors := s.lostSectors ++ [k] }
  else (s.addEvent 2 die (lostCount s die) 0).updPeg (fun g => { g with machineCheck := true })

/-- DIRTY_EVICTION (R206, R219): a modified line leaves the L2 that holds it; its bad sectors are not written back. -/
def execDirtyEviction (die line : Nat) (s : State) : Out :=
  let e := Tbl.get (0, false) s.l2 line
  if e.2 && e.1.getLsbD die then
    let bad := s.badSectors.filter (fun k => k == 2 * line || k == 2 * line + 1)
    .next (bad.foldl loseSector { s with
      l2 := Tbl.del s.l2 line, l1 := l1Without s.l1 (fun core l => dieOf core == die && l == line) })
  else .next s

/-- Structure class of HBM among the corrected-error counts (R218, R321). -/
def classHbm : Nat := 9

/-- Add one to a corrected-error count, which saturates (R321). -/
def addCorrected (g : Peg) (cls unit : Nat) : Peg :=
  let k := 16 * cls + unit
  let n := Tbl.get 0 g.corrected k
  if n = BitVec.allOnes 32 then g else { g with corrected := Tbl.set g.corrected k (n + 1) }

/-- HBM_SCRUB (R218): the sector is read; a soft error found in it is corrected in place and counted, with no other effect.
Whether there is one is the environment's (log 6). -/
def execHbmScrub (die sector : Nat) (s : State) : Out :=
  if homeOfSector sector ≠ die ∨ s.badSectors.contains sector then .next s
  else if s.choose 2 = 1 then .next (s.tick.updPeg (fun g => addCorrected g classHbm die))
  else .next s.tick

/-! ## Arbitration (R369) -/

/-- UNIT_GRANT (R369): a shared unit of a core grants one request, if one is ready. -/
def execUnitGrant (core u : Nat) (s : State) : Out :=
  let d := unitOf s core u
  .next (putUnit s core u (d.grant (weightsOf s core) (s.vcore core).part).1)

/-! ## Pre-emption (R36, R354) -/

/-- A region is abandoned by a held request (R36, R359): no instruction caused it, so SCPC is the iopen (log 11). -/
def preemptRegion (s : State) (p opener d : Nat) : State :=
  let epc := match (s.vcore (coreOf p)).regions.find? (fun g => g.opener == opener) with
    | some g => g.openPc
    | none => (s.hart p).thr.pc
  (s.abandon p opener ⟨causePreempt, false, epc, epc, 0, d, false, false⟩).updHart opener (fun h => { h with preempt := none })

/-- The hart stops (R354 steps 1 and 2): a head that is not interrupted where it stands goes on first; one that may stop between
element groups may go on for `k` more; else PREEMPT is delivered. -/
def beginStop (s : State) (p k : Nat) : State :=
  let h := s.hart p
  match h.viq with
  | [] => deliverPreempt s p
  | e :: _ =>
    if State.midway h then s.updHart p (fun h => { h with stopAt := some 0 })
    else if 0 < k ∧ !h.vecStopped ∧ (vctx s p e e.instr).mayStop e.instr then
      s.updHart p (fun h => { h with stopAt := some k })
    else deliverPreempt s p

/-- PREEMPT_DELIVERY (R354): a held request is taken when no trap is in service, no page response is awaited, and no region
holds it back (R36, R350). -/
def execPreemptDelivery (p k : Nat) (s : State) : Out :=
  let h := s.hart p
  match h.preempt with
  | none => .next s
  | some d =>
    if (s.sup p).svc || h.pageWait.isSome || h.stopAt.isSome then .next s
    else match h.region with
      | some r => if s.regionParked (coreOf p) r then deviceStep s (preemptRegion s p r d) else .next s
      | none => deviceStep s (beginStop s p k)

/-! ## Page-request responses (R276, R353) -/

/-- Host pages that the granules of a hart's launch name, through its page tables. -/
def hostPages (s : State) (p : Nat) (gs : List Nat) : List Nat :=
  gs.filterMap (fun g => match walk s (s.actx (.user p)).asid (g * 65536) with
    | .leaf e _ => if e.loc = 2 then some ((e.frame + g * 65536 % e.bytes) / 65536) else none
    | .fails _ _ => none)

/-- A vector-stream cause held while the thread waited is delivered as the thread restarts (R350). -/
def State.giveHeld (s : State) (p : Nat) : State :=
  match (s.hart p).heldVec with
  | none => s
  | some c =>
    let s := s.updHart p (fun h => { h with heldVec := none, vecStopped := true })
    (s.stopUser p).deliver p { c with epc := (s.hart p).thr.pc }

/-- Every response reports success: the core's translations of the granules are removed, the pages are mapped, and the hart
restarts (R352), or takes the cause or the pre-emption that is held (R350, R354). -/
def pagesMapped (s : State) (p : Nat) (w : PageWait) : State :=
  let asid := (s.actx (.user p)).asid
  let pages := hostPages s p w.granules
  let s := s.updVcore (coreOf p) (fun k => k.forget (fun t => w.granules.any (fun g => t.covers asid g)))
  let s : State := { s with atsFail := s.atsFail.filter (fun a => !pages.contains a) }
  let s := ((s.updHart p (fun h => { h with pageWait := none })).resumeUser p).giveHeld p
  if (s.sup p).svc then s
  else if (s.hart p).preempt.isSome && (s.hart p).region.isNone then beginStop s p 0 else s

/-- A hart's last response has come: the hart restarts, or ACCESS is delivered at the lowest failed granule (R353). -/
def pagesDone (s : State) (p : Nat) (w : PageWait) : State :=
  match w.failed with
  | none => pagesMapped s p w
  | some g =>
    (s.updHart p (fun h => { h with pageWait := none })).deliver p
      { w.cause with code := causeAccess, tval := BitVec.ofNat 64 (g * 65536) }

/-- The lowest granule of the lowest failed batch after one more response. -/
def lowFailed (old : Option Nat) (batch : List Nat) (ok : Bool) : Option Nat :=
  if ok then old
  else match old with
    | none => batch.head?
    | some g => some (Nat.min g (batch.headD g))

/-- PRG_RESPONSE (R353): the response to the k-th batch outstanding on a die. While STATE is 0 the groups are held, and no owner
answers one (R387, R391). -/
def execPrgResponse (die k : Nat) (ok : Bool) (s : State) : Out :=
  match (s.outstanding die)[k]?, s.peg.state with
  | none, _ | _, .unowned => .next s
  | some (p, batch), _ =>
    let s1 := s.updPeg (fun g => { g with pageReqs := Tbl.set g.pageReqs die ((s.outstanding die).eraseIdx k) })
    match (s.hart p).pageWait with
    | none => .next s1
    | some w =>
      if !w.batches.contains batch then .next s1
      else
        let w' : PageWait := { w with batches := w.batches.erase batch, failed := lowFailed w.failed batch ok }
        if w'.batches = [] ∧ w'.unsent = [] then deviceStep s (pagesDone s1 p w')
        else .next (s1.updHart p (fun h => { h with pageWait := some w' }))

/-! ## From outside the package (R208, R339, R342, R391) -/

/-- Every store that waits is performed, but on a die whose clocks have stopped (R396). -/
def drainAll (s : State) : State :=
  let s := ((s.harts.map (·.1)).filter (fun p => s.clocked (coreOf p))).foldl (fun s p => (s.drainS (.user p)).drainV p) s
  ((s.sups.map (·.1)).filter (fun p => s.clocked (coreOf p))).foldl (fun s p => s.drainS (.sup p)) s

/-- A memory key lies in a host page. -/
def inHostPage (page k : Nat) : Bool := decide (hostKey 0 ≤ k) && decide (k < peerKey 0 0) && (k - hostKey 0) / 65536 == page

/-- A copy command in execution holds a host page by a translation made at issue (R298). -/
def copyHolds (page : Nat) (d : Cmd) : Bool :=
  match d.kind with
  | .copy _ _ ph rk vk =>
    let pages (tr : DstTrans) : Bool := tr.ok.any (fun t =>
      let e : Pte := ⟨t.leaf.toNat⟩
      e.loc == 2 && (e.frame + t.granule * 65536 % e.bytes) / 65536 == page)
    rk.any (inHostPage page) || vk.any (inHostPage page) || (match ph with
      | .queued => false
      | .issued tr _ _ => pages tr
      | .read tr _ _ _ => pages tr)
  | .mxa _ _ _ _ _ => false

/-- A store that waits on a die whose clocks have stopped goes to a host page (R396). -/
def stuckHost (s : State) (page : Nat) : Bool :=
  let far (ps : List Pend) : Bool := ps.any (fun q => match q.dest with
    | .key k => inHostPage page k
    | .tile _ _ _ _ => false)
  !s.tripped.isEmpty && (s.harts.any (fun e => !s.clocked (coreOf e.1) && far e.2.sbuf) ||
    s.sups.any (fun e => !s.clocked (coreOf e.1) && far e.2.sbuf) || s.trains.any (fun t => !s.clocked (coreOf t.1) && far t.2.2))

/-- An access uses the translation of a host page still (R391). -/
def pageUsed (s : State) (page : Nat) : Bool := s.ces.any (fun e => e.2.exec.any (copyHolds page)) || stuckHost s page

/-- ATS_INVALIDATION (R391): it completes once no access uses the old translation; whether the host's page translates
afterwards is the host's choice (log 6). -/
def execAtsInvalidation (va : Word) (s : State) : Out :=
  let page := va.toNat / 65536
  if pageUsed s page then .next s
  else
    let s1 := drainAll s
    let rest := s1.atsFail.filter (· ≠ page)
    deviceStep s { s1 with atsFail := if s1.choose 2 = 0 then rest else rest ++ [page] }.tick

/-- Lines that bytes at keys touch. -/
def cellLines (cells : List Host.Cell) : List Nat := sortSet (cells.map (fun c => lineOf c.1))

/-- A store that enters from outside is performed at the home directory (R206, R339, R342): every L2's copy is invalidated;
a part of a bad sector is not written (R219). -/
def homeStore (s : State) (cells : List Host.Cell) : State :=
  let whole := wholeSectors cells
  let bad := s.badSectors ++ s.lostSectors
  if cells.any (fun c => bad.contains (sectorOf c.1) && !whole.contains (sectorOf c.1)) then s
  else
    { s with
      badSectors := s.badSectors.filter (fun k => !whole.contains k)
      lostSectors := s.lostSectors.filter (fun k => !whole.contains k) }.poke cells

/-- A load that enters from outside takes a modified line from its holder (R206). -/
def homeLoad (s : State) (line : Nat) : State :=
  let e := Tbl.get (0, false) s.l2 line
  if e.2 then { s with l2 := Tbl.set s.l2 line (e.1, false) } else s

/-- An access from outside to device memory; it waits at the directory while an engine holds the line (R206). -/
def homeAccess (s : State) (addr : Nat) (data : List Byte) : State :=
  let cells := cellsAt (devKey addr) data
  if engineHeld s (lineOf (devKey addr)) || (cellLines cells).any (engineHeld s) then s
  else if data.isEmpty then homeLoad s (lineOf (devKey addr))
  else homeStore s cells

/-- HOST_ACCESS (R342): an access of a host agent to device memory at an address, a load when it carries no bytes. Above 2^61
the address is a key of host memory: the host's own store to its memory (R217; log 10). -/
def execHostAccess (addr : Nat) (data : List Byte) (s : State) : Out :=
  if addr + data.length ≤ Config.devBytes then .next (homeAccess s addr data)
  else if 2 ^ 61 ≤ addr ∧ addr + data.length ≤ 2 ^ 62 then .next (s.poke (cellsAt addr data))
  else .next s

/-- PEER_ACCESS (R339): an access of another package to this package's device memory. From 2^62 on the address is a key of
that package's own memory: a store that it makes there itself (R217, R339; log 10). -/
def execPeerAccess (pkg addr : Nat) (data : List Byte) (s : State) : Out :=
  if addr + data.length ≤ Config.devBytes then .next (homeAccess s addr data)
  else if peerKey pkg 0 ≤ addr ∧ addr + data.length ≤ peerKey (pkg + 1) 0 then .next (s.poke (cellsAt addr data))
  else .next s

/-! ## Events (R390) -/

/-- Key of an event-ring record. -/
def eventKey (g : Peg) : Nat := hostKey (g.eventBase.toNat + 32 * (g.eventPos % 256))

/-- A held event can be written: there is an owner, and the next record is free. -/
def eventReady (s : State) : Bool :=
  !s.peg.events.isEmpty && s.peg.state != OwnState.unowned && s.mem.num (eventKey s.peg) 8 == 0

/-- EVENT_RECORD (R390): the oldest held event is written to the next record as one write, and MSI-X vector 0 is signalled. -/
def execEventRecord (s : State) : Out :=
  if eventReady s then
    match s.peg.events with
    | e :: rest =>
      .next ((s.poke (cellsAt (eventKey s.peg) e)).updPeg (fun g => { g with
        events := rest, eventPos := (g.eventPos + 1) % 256, msi := g.msi + 1 }))
    | [] => .next s
  else .next s

end Sys2Proof.Machine
end

