-- ==== Sys2Proof/Machine/TentIns.lean ====
section
/-! DEFINITION. Machine/TentIns.lean: the tent instructions of class 0xC (R215, R253–R257). -/

namespace Sys2Proof.Machine

/-- A tile named by a pointer: its launch, tent region, tent and number. -/
structure TileRef where
  launch : Nat
  tent : Nat
  t : Tent
  tile : Nat

/-- The tile at a pointer, or the cause of R253. -/
def VCtx.tileAt (c : VCtx) (s : State) (a : Word) : Except Nat TileRef :=
  let o := a.toNat % 2 ^ 60
  if 5 < tagOf a ∨ offsetBound (tagOf a) ≤ o then .error causeNoncanon
  else if tagOf a ≠ 3 then .error causeAccess
  else match (c.actx s).launch, tentAt (tentsOf s (c.actx s).launch) o with
    | some n, some (j, t) => .ok ⟨n, j, t, (o - t.base) / t.size⟩
    | _, _ => .error causeAccess

/-- A tile's site-map entry, if its memory can be read (R219). -/
def TileRef.entry (r : TileRef) (s : State) : Option Nat := devRead s (r.t.entryKey r.tile) 8

/-- Every earlier access of the hart is performed at package scope (R253, R257, R336; log 2): not its stores at a peer or the
host. -/
def VCtx.release (c : VCtx) (s : State) : State := ((s.settleLate (.user c.p)).drainL (.user c.p)).drainQueues c.p

/-- A tile pointer's instruction fault (R246, R347). -/
def VCtx.tileTrap (c : VCtx) (s : State) (code detail : Nat) (a : Word) : VRes := .trap s (c.cause s code detail a)

/-- The address of a tile. -/
def TileRef.addr (r : TileRef) (k : Nat) : Word := BitVec.ofNat 64 (3 * 2 ^ 60 + r.t.base + k * r.t.size)

/-- `n` tiles from tile `k` on are struck in ascending order (R253), or the first whose entry or pool cannot be read (R219). -/
def TileRef.strikes (r : TileRef) : Nat → Nat → State → Except Nat State
  | 0, _, s => .ok s
  | n + 1, k, s => match strike? s r.launch r.tent k with
    | none => .error k
    | some s => r.strikes n (k + 1) s

/-- The strikes of an instruction in a region are deferred, together (R35, R253); JOURNAL_FULL when the list has no room. -/
def VCtx.deferStrikes (c : VCtx) (r : TileRef) (g : Nat) (s : State) : VRes :=
  let n := c.e.b.toNat
  if 1024 < (s.vcore c.core).deferred.length + n then .trap s (c.cause s causeJournal 1 0)
  else .ok (s.updVcore c.core (fun v => { v with
    deferred := v.deferred ++ (List.range n).map (fun j => Deferred.strike g r.launch r.tent (r.tile + j)) })) none

/-- The strikes of an instruction that has done some already, each an event of its own (R253): with a pause, only some now. Every
tile is checked before any is struck (R246; log 55). -/
def VCtx.strikeSome (c : VCtx) (r : TileRef) (s : State) : VRes :=
  let i := c.e.done.steps
  let left := c.e.b.toNat - i
  let n := Nat.min left (c.pause.getD left)
  match r.strikes left (r.tile + i) s, r.strikes n (r.tile + i) s with
  | .error k, _ | _, .error k => c.tileTrap s causeUncorrectable 4 (r.addr k)
  | .ok s, .ok s' => if n < left then .part s' { c.e.done with steps := i + n } else .ok s none

/-- STRIKE (R253). -/
def execStrike (a b : Reg) (s : State) : Out :=
  vecOp (.strike a b) (fun c s =>
    match c.tileAt s c.e.a with
    | .error code => c.tileTrap s code 1 c.e.a
    | .ok r =>
      if r.t.tiles < r.tile + c.e.b.toNat then c.tileTrap s causeStraddle 1 c.e.a
      else match (s.hart c.p).region with
        | some g => c.deferStrikes r g (c.release s)
        | none => c.strikeSome r (c.release s)) s

/-- TSITE (R256). -/
def execTsite (d a : Reg) (s : State) : Out :=
  vecOp (.tsite d a) (fun c s =>
    match c.tileAt s c.e.a with
    | .error code => c.tileTrap s code 0 c.e.a
    | .ok r =>
      let s := c.release s
      match r.entry s with
      | none => c.tileTrap s causeUncorrectable 4 c.e.a
      | some w => .ok s (some (BitVec.ofNat 64 w))) s

/-- TTAG (R256): the tag value is checked before the pointer. -/
def execTtag (a b : Reg) (s : State) : Out :=
  vecOp (.ttag a b) (fun c s =>
    if 7 ≤ c.e.b.toNat then c.illegal s
    else match c.tileAt s c.e.a with
      | .error code => c.tileTrap s code 1 c.e.a
      | .ok r =>
        let s := c.release s
        match r.entry s with
        | none => c.tileTrap s causeUncorrectable 4 c.e.a
        | some w =>
          .ok (if entPresent w then writeEntry s r.t r.tile (putBits w 59 4 c.e.b.toNat) else s) none) s

/-- What tremap writes to two distinct tiles' entries (R257): the new entries of a and b, none where unchanged. -/
def remapped (ea eb : Nat) : Option Nat × Option Nat :=
  if !entPresent ea && !entPresent eb then (none, none)
  else if entPresent eb then
    (some (entWord true (entTag eb) (entFrame eb) (entGen ea + 1)), some (entWord false 0 0 (entGen eb + 1)))
  else (some (entWord false 0 0 (entGen ea + 1)), none)

/-- Write a remapped entry: watchers of its tile are hit (R134). -/
def putEntry (s : State) (r : TileRef) (w : Option Nat) : State :=
  match w with
  | none => s
  | some w => hitTile (writeEntry s r.t r.tile w) r.launch r.tent r.tile

/-- A tremap has written one entry of its two: what it returns, whether the other is tile b's, and the word for it. -/
def halfRemap (e : VEntry) : Option (Nat × Bool × Nat) :=
  match e.instr, e.done.outs with
  | .tremap _ _ _, [(ea, isB, w)] => if e.done.steps = 1 then some (ea, isB, w) else none
  | _, _ => none

/-- The writes of a tremap as one event (R257), or, with a pause, one entry now and the other later: a tag-0x0 read may fall
between them, and nothing else (`settleRemaps`). -/
def VCtx.remap (c : VCtx) (ra rb : TileRef) (ea : Nat) (wa wb : Option Nat) (s : State) : VRes :=
  match wa, wb, c.pause with
  | some wa, some wb, some _ =>
    let bFirst := decide (s.choose 2 = 1)
    .part ((if bFirst then putEntry s rb (some wb) else putEntry s ra (some wa)).tick)
      { c.e.done with steps := 1, outs := [(ea, !bFirst, if bFirst then wa else wb)] }
  | wa, wb, _ => .ok (putEntry (putEntry s ra wa) rb wb) (some (BitVec.ofNat 64 ea))

/-- The second entry of a tremap at a VIQ head is written (R257). -/
def settleRemap (s : State) (p : Nat) : State :=
  match (s.hart p).viq with
  | [] => s
  | e :: _ => match halfRemap e with
    | none => s
    | some (ea, isB, w) =>
      let c := vctx s p e e.instr
      match c.tileAt s (if isB then e.b else e.a) with
      | .error _ => s
      | .ok r => (putEntry s r (some w)).updHart p (fun h => setDone h { e.done with steps := 2, outs := [(ea, isB, w)] })

/-- Every tremap that has written one entry writes the other: for tag-0x3 accesses the two writes are one event (R257). -/
def settleRemaps (s : State) : State := s.harts.foldl (fun s e => settleRemap s e.1) s

/-- TREMAP (R257). -/
def execTremap (d a b : Reg) (s : State) : Out :=
  vecOp (.tremap d a b) (fun c s =>
    if (s.hart c.p).region.isSome then .trap s (c.cause s causeIllegal 2 (wordOf c.e.instr))
    else if 0 < c.e.done.steps then .ok (settleRemap s c.p) ((c.e.done.outs.head?).map (fun o => BitVec.ofNat 64 o.1))
    else match c.tileAt s c.e.a, c.tileAt s c.e.b with
      | .error code, _ => c.tileTrap s code 1 c.e.a
      | _, .error code => c.tileTrap s code 1 c.e.b
      | .ok ra, .ok rb =>
        if ra.tent ≠ rb.tent then c.tileTrap s causeAccess 1 c.e.b
        else
        let s := c.release s
        match ra.entry s, rb.entry s with
          | some ea, some eb =>
            let (wa, wb) := if ra.tile = rb.tile then (none, none) else remapped ea eb
            match (if wa.isSome && entPresent ea then returnFrame s ra.t (entFrame ea) else some s) with
            | none => c.tileTrap s causeUncorrectable 4 c.e.a
            | some s => c.remap ra rb ea wa wb s
          | none, _ => c.tileTrap s causeUncorrectable 4 c.e.a
          | _, none => c.tileTrap s causeUncorrectable 4 c.e.b) s

/-! ## LDE (R255) -/

/-- What one element of lde gives: its bits and PRESENT, or its failure. -/
def VCtx.ldeElem (c : VCtx) (s : State) (i : Nat) : ELoad × Bool :=
  let addr := c.eaddr s .unit c.sew i
  if tagOf c.e.a ≠ 3 then (c.loadRefused s addr (c.sew / 8) i, false)
  else match c.check s .load addr (c.sew / 8) with
  | .error (.cause code dev) => (.fails (failOf i .load code dev addr), false)
  | .error .wait => (.fails (failOf i .load causeAccess false addr), false)
  | .ok pl => (.got (ofBytes (placeBytes s (dieOf c.core) pl (c.sew / 8))) 0, match pl with
      | .absent _ _ _ _ _ => false
      | .at_ _ _ => true)

/-- LDE (R255). -/
def execLde (d a : Reg) (b : MReg) (mk : Bool) (s : State) : Out :=
  vecOp (.lde d a b mk) (fun c s =>
    if c.sew < 8 then c.illegal s
    else c.guard s [] [(d.toNat, 1)] [] []
      (let s := (s.dirty c.p d.toNat).dirty c.p (32 + b.toNat)
       let is := c.todo s
       let as := is.map (c.eaddr s .unit c.sew)
       let s := drainSlices s c.p (slicesOf as)
       if tagOf c.e.a = 3 ∧ as.any (fun x => mustWait (c.check s .load x (c.sew / 8))) then .wait s
       else
         let rs := is.map (fun i => (i, c.ldeElem s i))
         let ls := rs.map (fun r => (r.1, r.2.1))
         let old := maskReg s c.core b.toNat
         let s1 := c.putV' (c.noteLoads s true as (c.sew / 8) .dflt []) d.toNat c.sew 1 0 c.vl (c.loadDest ls)
         let s2 := c.putM s1 b.toNat (fun i => match rs.find? (fun r => r.1 == i) with
           | some (_, .got _ _, p) => p
           | _ => old.testBit (c.mPos i))
         c.finishMem s2 (failsOf ls))) s

end Sys2Proof.Machine
end

