-- ==== Sys2Proof/Machine/Choices.lean ====
section
/-! DEFINITION. Machine/Choices.lean: what the environment may choose besides a thread or a row of the table (log 1): a part of a
vector instruction (R237, R251), a line access of a later vector load or a load performed late (R328), and errors (R218, R219,
R321). -/

namespace Sys2Proof.Machine

namespace State

/-- The vector half of hart p goes on with only `n` element groups or steps of its head (R237, R251, R253). -/
def pauseHead (s : State) (p n : Nat) : State :=
  if (s.hart? p).isNone then s else { s.updHart p (fun h => { h with pause := some n }) with agent := .vec p }

/-! ## Line accesses of later vector loads (R328) -/

/-- Scalar stores with a lower stamp still wait (R228). -/
def owes (h : Hart) (n : Nat) : Bool := h.sbuf.any (fun q => decide (q.acc < n) && q.chan == 0)

/-- A line access of a later vector load of hart p may be performed now: the vector half runs, no fence.sv, fence or lsync
stands before it (R227–R230), and nothing of the hart waits in its slice (R268). -/
def mayGoEarly (s : State) (p line : Nat) : Bool :=
  let h := s.hart p
  (s.hart? p).isSome && s.clocked (coreOf p) && !s.peg.waiting && !h.vecStopped && h.pageWait.isNone && !(s.sup p).svc &&
  h.park.isNone && !s.regionOver p && !owes h h.svNeed && !h.svJoin && h.viq.all (fun e => !e.joined && !owes h e.needs) &&
  (vget [] h.ssq (line % 8)).isEmpty && s.trains.all (fun t => !inTrain p (line % 8) t) &&
  h.early.all (fun e => e.va != line)

/-- The line of an address is read for a later vector load of hart p: of device memory, a scratchpad or a peer package, checked as
its elements will be. -/
def goEarly (s : State) (p : Nat) (va : Word) : State :=
  let line := va.toNat / 128
  if !s.mayGoEarly p line then s
  else match accPlace s (s.actx (.vec p)) .load .natural (tagOf va) (line * 128 : Nat) 128 with
    | .ok (.at_ key loc) =>
      if loc != .host && key % 128 == 0 then
        (s.as (.vec p) (fun s => noteLoad s (dieOf (coreOf p)) (.at_ key loc) 128 .dflt)).updHart p (fun h => { h with
          early := h.early ++ [⟨line, lineOf key, placeBytes s (dieOf (coreOf p)) (.at_ key loc) 128⟩] })
      else s
    | _ => s

/-- An instruction that no later vector load passes: the acquires, atomics, fences, joins and waits of R223–R230, and every word
of classes 0xA, 0xC and 0xD but the vector loads, stores and vamo, which give up lines of their own slices alone (R240, R328). -/
def dropsEarly (i : Instr) : Bool :=
  match i with
  | .lda _ _ _ _ | .cas _ _ _ _ _ _ | .amoswap _ _ _ _ _ _ | .amoadd _ _ _ _ _ _ | .amoand _ _ _ _ _ _
  | .amoor _ _ _ _ _ _ | .amoxor _ _ _ _ _ _ | .amomin _ _ _ _ _ _ | .amomax _ _ _ _ _ _ | .fence _ _ | .fenceSv
  | .vdrain | .lsync | .bar _ | .park _ | .waitge _ _ _ | .syscall _ _ | .tret | .split _ | .join | .iopen _ | .icommit
  | .iabort => true
  | .vld _ _ _ _ _ _ _ _ | .vlds _ _ _ _ _ _ _ _ _ | .vldx _ _ _ _ _ _ _ _ _ | .vldff _ _ _ _ _ _ _ _
  | .vldxff _ _ _ _ _ _ _ _ _ | .vst _ _ _ _ _ _ _ | .vsts _ _ _ _ _ _ _ _ | .vstx _ _ _ _ _ _ _ _
  | .vamo _ _ _ _ _ _ _ _ => false
  | i => (vuse i).mem

/-- Before an instruction that a later vector load does not pass, the line accesses performed early are given up. -/
def forget (s : State) (i : Instr) : State :=
  let drop (p : Nat) : State :=
    if dropsEarly i && !(s.hart p).early.isEmpty then s.updHart p (fun h => { h with early := [] }) else s
  match s.agent with
  | .user p | .vec p | .sup p => drop p
  | .mcc _ => s

/-! ## Instructions that pass a load (R257, R328) -/

/-- The word of an instruction, of a pushed one its own. -/
def ownWord (i : Instr) : Option (BitVec 32) :=
  match i with
  | .viqPush w => some w
  | i => encode i

/-- The class of an instruction's word (R71); 0 where it has none. -/
def wordClass (i : Instr) : Nat := ((ownWord i).map (fun w => w.toNat / 2 ^ 28)).getD 0

/-- A field of an instruction's word where some class holds a register number (R71) names a register. -/
def mayName (i : Instr) (r : Reg) : Bool :=
  match ownWord i with
  | none => true
  | some w => [20, 19, 17, 15, 14, 12, 9, 7, 2].any (fun k => w.toNat / 2 ^ k % 32 == r.toNat)

/-- The base register of a plain scalar load (R221). -/
def loadBase (i : Instr) : Option Reg :=
  match i with
  | .ldS8 _ a _ | .ldZ8 _ a _ | .ldS16 _ a _ | .ldZ16 _ a _ | .ldS32 _ a _ | .ldZ32 _ a _ | .ld64 _ a _ | .fld16 _ a _
  | .fld32 _ a _ | .fld64 _ a _ => some a
  | _ => none

/-- The base register, displacement and width in bytes of a plain scalar store (R221). -/
def storeAt (i : Instr) : Option (Reg × BitVec 12 × Nat) :=
  match i with
  | .st8 _ a m => some (a, m, 1)
  | .st16 _ a m | .fst16 _ a m => some (a, m, 2)
  | .st32 _ a m | .fst32 _ a m => some (a, m, 4)
  | .st64 _ a m | .fst64 _ a m => some (a, m, 8)
  | _ => none

/-- A plain store of the executing thread that waits in its queue, behind the thread's loads. -/
def storeWaits (s : State) (i : Instr) : Bool :=
  match storeAt i with
  | none => false
  | some (a, m, n) => match sPlace s .store .window a m n with
    | .ok pl => canWait s s.agent pl
    | .error _ => false

/-- A word of classes 0x1–0x3 or a prefix: it accesses no memory. -/
def noAccess (i : Instr) : Bool := [1, 2, 3, 14].contains (wordClass i)

/-- A word that a user thread pushes and that captures single registers. -/
def pushed (i : Instr) : Bool := decide (6 ≤ wordClass i) && decide (wordClass i ≤ 13) && (vuse i).b1.isNone

/-- An instruction passes the loads of its thread that are not performed yet (R328): a scalar one that names none of their
registers and does nothing that comes after a load, and a vector half's. -/
def passes (s : State) (i : Instr) : Bool :=
  match s.agent with
  | .mcc _ => true
  | .vec _ => decide (6 ≤ wordClass i) && decide (wordClass i ≤ 13)
  | .user _ => (s.latesOf s.agent).all (fun l => !mayName i l.reg) &&
      (noAccess i || ((loadBase i).isSome && lateOf s s.agent) || storeWaits s i || pushed i)
  | .sup _ => (s.latesOf s.agent).all (fun l => !mayName i l.reg) &&
      (noAccess i || ((loadBase i).isSome && lateOf s s.agent) || storeWaits s i)

/-- An instruction that may fall between the two writes of a tremap: no access, or a load from a tag-0x0 base (R257). -/
def seesHalf (s : State) (i : Instr) : Bool :=
  match s.agent with
  | .user _ | .sup _ => noAccess i || (loadBase i).any (fun a => tagOf (s.rx a) == 0)
  | _ => false

/-- Some load of a thread is not performed yet, or some tremap has written one of its two entries. -/
def unsettled (s : State) : Bool :=
  s.harts.any (fun e => !e.2.late.isEmpty || (e.2.viq.head?.bind halfRemap).isSome) || s.sups.any (fun e => !e.2.late.isEmpty)

/-- Every load is performed and every tremap finished. -/
def settled (s : State) : State := (settleRemaps s).settleLates

/-- What an instruction may not pass is done before it: of a system instruction all, of another its own thread's loads. -/
def ready (s : State) (i : Instr) : State :=
  if !s.unsettled then s
  else
    let s := if seesHalf s i then s else settleRemaps s
    if passes s i then s
    else if wordClass i = 5 then s.settleLates
    else match s.agent with
      | .vec p => s.settleLate (.user p)
      | a => s.settleLate a

/-- A supervisor thread has begun to serve a trap, or has halted, in a step. -/
def newTrap (s t : State) : Bool :=
  t.sups.any (fun e => (e.2.svc && !(s.sup e.1).svc) || (e.2.halted && !(s.sup e.1).halted))

/-! ## Rows of the device -/

/-- The die whose clocks a row of the device needs (R396); the peg core's rows, the host's and another package's need none. -/
def rowDie (i : Instr) : Option Nat :=
  match i with
  | .budgetExhausted p | .parkWake p _ | .waitgeReread p _ | .vectorStorePerformed p _ | .scalarStorePerformed p _
  | .streamFetch p _ | .preemptDelivery p _ | .restoreSuspended p _ => some (dieOf (coreOf p))
  | .mxaCommand c | .mxaCommandDone c => some (dieOf (c * 4))
  | .copyIssue e _ | .releasedAdd e _ | .visibleAdd e _ | .copyFailure e _ _ _ => some (dieOf (e * 8))
  | .unitGrant core _ => some (dieOf core)
  | .missReply die _ | .dirtyEviction die _ | .hbmScrub die _ | .prgResponse die _ _ => some die
  | _ => none

/-- A row that the environment may choose: one of the device's, the host's or another package's, and no word of a thread's
stream nor a part of one. -/
def deviceRow (i : Instr) : Bool :=
  (rowDie i).isSome || (match i with
  | .launchCompletion _ | .claim _ _ _ | .cmdProd _ _ | .registerBlockWrite _ _ _ | .peerTrainAck _ _
  | .atsInvalidation _ | .hostAccess _ _ | .launchPacket _ | .ringCons _ _ | .submitLaunch _ _ _ | .loadObject _ _ _ _
  | .unload _ _ | .readDescriptor _ _ _ _ | .registerAsid _ _ _ | .defaultAsid _ _ | .clusterMask _ _
  | .suspendLaunch _ _ | .terminateLaunch _ _ | .resume _ _ | .invalidate _ _ _ _ | .readCounters _ _ _
  | .handOver _ _ | .attest _ _ _ | .restartCanvas _ _ | .stageCanvas _ _ _ | .packageReset _ | .bootOffer _ _
  | .throttleStep _ _ | .thermalTrip _ | .peerAccess _ _ _ | .placementScan | .eventRecord | .linkDown => true
  | _ => false)

/-- A row that a load may pass, or be passed by: an access of another agent or of the memory system. -/
def passesLoads (i : Instr) : Bool :=
  match i with
  | .hostAccess _ _ | .peerAccess _ _ _ | .copyIssue _ _ | .releasedAdd _ _ | .visibleAdd _ _ | .mxaCommand _ | .mxaCommandDone _
  | .vectorStorePerformed _ _ | .streamFetch _ _ | .unitGrant _ _ | .missReply _ _ | .dirtyEviction _ _ | .hbmScrub _ _
  | .peerTrainAck _ _ | .copyFailure _ _ _ _ | .scalarStorePerformed _ _ => true
  | _ => false

/-- A row of the device that can come now: its die's clocks run (R396). -/
def mayAct (s : State) (i : Instr) : Bool := deviceRow i && (rowDie i).all (fun d => !s.tripped.contains d)

/-! ## Errors (R218, R219, R321) -/

/-- A soft error is corrected: counted for its structure class and die or stack (R321: ten classes, sixteen of each), and where
it is of a core's share by event code 0x0050 of the core's harts, with no other effect. -/
def correct (s : State) (cls unit : Nat) (core : Option Nat) : State :=
  if 10 ≤ cls ∨ 16 ≤ unit then s
  else
    let s := s.updPeg (fun g => addCorrected g cls unit)
    match core with
    | none => s
    | some k => { s with harts := s.harts.map (fun e => (e.1, if coreOf e.1 = k then countEv e.2 0x50 else e.2)) }

/-- An uncorrectable error appears. -/
def strikeAt (s : State) (u : Upset) : State :=
  match u with
  | .sector k => { s with badSectors := insertSet k s.badSectors }
  | .reg p file n => { s with badRegs := s.badRegs ++ [(p, file, n)] }
  | .entry p => s.updHart p (fun h => { h with viq := match h.viq.getLast? with
      | some e => h.viq.dropLast ++ [{ e with bad := true }]
      | none => [] })

end State

end Sys2Proof.Machine
end

