-- ==== Sys2Proof/Machine/Hash.lean ====
section
/-! DEFINITION. Machine/Hash.lean: the hash-table instructions of class 0xC (R203, R247–R252, R314). -/

namespace Sys2Proof.Machine

/-! ## The table and its overflow area (R248, R314) -/

/-- Why a step of the hash unit fails: a cause with its DETAIL and STVAL, or it cannot go on. -/
inductive HErr where
  | fails (code detail : Nat) (tval : Word)
  | wait
  deriving DecidableEq, Repr

/-- The table that the hash unit works on: where bucket 0 lies in memory, and what the unit holds of it. -/
structure HashCtx where
  base : Nat
  t : HashTbl
  c : ACtx
  die : Nat

/-- log2 of the bucket count. -/
def HashCtx.b (h : HashCtx) : Nat := shtB h.t.cfg
/-- An empty slot's key and a tombstone (R247, R249). -/
def emptyKey : Nat := 0xFFFFFFFFFFFFFFFF
def tombKey : Nat := 0xFFFFFFFFFFFFFFFE

/-- home (R248). -/
def HashCtx.home (h : HashCtx) (key : Nat) : Nat :=
  (mix64 (BitVec.ofNat 64 key ^^^ BitVec.ofNat 64 (shtSeed h.t.cfg))).toNat / 2 ^ (64 - h.b)

/-- Key of bucket number `bk`. -/
def HashCtx.bucket (h : HashCtx) (bk : Nat) : Nat := h.base + 128 * bk
/-- Key of the slot `n` of the 32 that a key may lie in, from its home bucket on. -/
def HashCtx.slot (h : HashCtx) (key n : Nat) : Nat := h.bucket ((h.home key + n / 8) % 2 ^ h.b) + 16 * (n % 8)

/-- Bytes of HEAD (R314). -/
def headBytes (b : Nat) : Nat := (4 * 2 ^ b + 63) / 64 * 64
/-- Offset of record r. -/
def HashCtx.recOff (h : HashCtx) (r : Nat) : Nat := 64 + headBytes h.b + 32 * r

/-- A read of the overflow area, with the issuing hart's rights (R250, R347). -/
def HashCtx.read (h : HashCtx) (s : State) (off n : Nat) : Except HErr Nat :=
  let addr : Int := (h.t.ovf.toNat : Int) + (off : Int)
  match accPlace s h.c .load .natural 0 addr n with
  | .error .wait => .error .wait
  | .error (.cause code _) => .error (.fails code 4 (addrWord addr))
  | .ok pl => .ok (ofBytes (placeBytes s h.die pl n))

/-- Where a write of the overflow area lands. -/
def HashCtx.where_ (h : HashCtx) (s : State) (off n : Nat) : Except HErr Nat :=
  let addr : Int := (h.t.ovf.toNat : Int) + (off : Int)
  match accPlace s h.c .store .natural 0 addr n with
  | .error .wait => .error .wait
  | .error (.cause code dev) => .error (.fails code (accDetail .store code dev) (addrWord addr))
  | .ok (.at_ key _) => .ok key
  | .ok _ => .error .wait

/-- Where a key is found (R248). -/
inductive HRef where
  | none
  | slot (key : Nat)
  | record (r : Nat)
  deriving DecidableEq, Repr

/-- The slot holding a key, in the buckets `js` from its home on; a bucket with an uncorrectable word fails (R219). -/
def HashCtx.findSlot (h : HashCtx) (s : State) (key : Nat) : List Nat → Except HErr HRef
  | [] => .ok .none
  | j :: rest =>
    let bk := (h.home key + j) % 2 ^ h.b
    if badAt s (h.bucket bk) 128 then
      .error (.fails causeUncorrectable 0 (BitVec.ofNat 64 (2 ^ 60 + shtBase h.t.cfg + 128 * bk)))
    else match (List.range 8).find? (fun k => s.mem.num (h.bucket bk + 16 * k) 8 == key) with
      | some k => .ok (.slot (h.bucket bk + 16 * k))
      | none => h.findSlot s key rest

/-- A record is live (R314: state 0). One whose resv bytes are not zero is invalid (R3): ACCESS, as for the area's header
(log 59). -/
def HashCtx.live (h : HashCtx) (s : State) (r : Nat) : Except HErr Bool := do
  let st ← h.read s (h.recOff r + 24) 8
  if st / 2 ^ 32 ≠ 0 then .error (.fails causeAccess 4 (addrWord ((h.t.ovf.toNat : Int) + ((h.recOff r + 28 : Nat) : Int))))
  else .ok (st % 2 ^ 32 == 0)

/-- The record holding a key along a chain of at most `fuel` records; a longer chain is a cycle that the unit never leaves
(R248). -/
def HashCtx.findRec (h : HashCtx) (s : State) (key used : Nat) : Nat → Nat → Except HErr HRef
  | fuel, r =>
    if used ≤ r then .ok .none
    else match fuel with
      | 0 => .error .wait
      | fuel + 1 => do
        let k ← h.read s (h.recOff r) 8
        let live ← h.live s r
        if k = key ∧ live = true then .ok (.record r)
        else
          let next ← h.read s (h.recOff r + 16) 4
          h.findRec s key used fuel next

/-- find (R248). -/
def HashCtx.find (h : HashCtx) (s : State) (key : Nat) : Except HErr HRef := do
  let r ← h.findSlot s key (List.range 4)
  match r with
  | .none =>
    if h.t.spilled.getLsbD (h.home key) then
      let used ← h.read s 8 8
      let head ← h.read s (64 + 4 * h.home key) 4
      h.findRec s key used used head
    else .ok .none
  | r => .ok r

/-- Where `n` bytes of the overflow area lie, if they can be read. -/
def HashCtx.spot (h : HashCtx) (s : State) (off n : Nat) : List (Place × Nat) :=
  match accPlace s h.c .load .natural 0 ((h.t.ovf.toNat : Int) + (off : Int)) n with
  | .ok pl => [(pl, n)]
  | .error _ => []

/-- The records of a chain, at most `fuel`. -/
def HashCtx.chain (h : HashCtx) (s : State) (key used : Nat) : Nat → Nat → List Nat
  | 0, _ => []
  | fuel + 1, r =>
    if used ≤ r then []
    else if (h.read s (h.recOff r) 8).toOption = some key ∧ (h.live s r).toOption = some true then [r]
    else r :: h.chain s key used fuel (((h.read s (h.recOff r + 16) 4).toOption).getD used)

/-- The places of the overflow area that find reads for a key (R248). -/
def HashCtx.reads (h : HashCtx) (s : State) (key : Nat) : List (Place × Nat) :=
  let used := (h.read s 8 8).toOption.getD 0
  if !h.t.spilled.getLsbD (h.home key) then []
  else h.spot s 8 8 ++ h.spot s (64 + 4 * h.home key) 4 ++
    (h.chain s key used used (((h.read s (64 + 4 * h.home key) 4).toOption).getD used)).flatMap (fun r => h.spot s (h.recOff r) 32)

/-- Mark a bucket as spilled. -/
def setSpilled (s : State) (launch core bk : Nat) : State :=
  s.updVcore core (fun k => { k with hash := k.hash.map (fun t =>
    if t.launch = launch then { t with spilled := t.spilled ||| (1#8192 <<< bk) } else t) })

/-- place (R248): `none` when there is no room. -/
def HashCtx.place (h : HashCtx) (s : State) (key val : Nat) : Except HErr (Option State) :=
  match (List.range 32).find? (fun n => tombKey ≤ s.mem.num (h.slot key n) 8) with
  | some n => .ok (some (s.write h.die (cellsAt (h.slot key n) (toBytes 8 key ++ toBytes 8 val))))
  | none =>
    if h.t.ovf = 0 then .ok none
    else do
      let used ← h.read s 8 8
      if used = h.t.cap then .ok none
      else
        let home := h.home key
        let head ← h.read s (64 + 4 * home) 4
        let kr ← h.where_ s (h.recOff used) 32
        let kh ← h.where_ s (64 + 4 * home) 4
        let ku ← h.where_ s 8 8
        let s := s.write h.die (cellsAt kr (toBytes 8 key ++ toBytes 8 val ++ toBytes 4 head ++ toBytes 4 home ++ toBytes 4 0))
        let s := s.write h.die (cellsAt kh (toBytes 4 used))
        .ok (some (setSpilled (s.write h.die (cellsAt ku (toBytes 8 (used + 1)))) h.t.launch h.c.core home))

/-- The value at a reference. -/
def HashCtx.value (h : HashCtx) (s : State) (r : HRef) : Except HErr Nat :=
  match r with
  | .none => .ok 0
  | .slot k => .ok (s.mem.num (k + 8) 8)
  | .record r => h.read s (h.recOff r + 8) 8

/-- r.value := a value. -/
def HashCtx.setValue (h : HashCtx) (s : State) (r : HRef) (v : Nat) : Except HErr State :=
  match r with
  | .none => .ok s
  | .slot k => .ok (s.write h.die (cellsAt (k + 8) (toBytes 8 v)))
  | .record r => do
    let k ← h.where_ s (h.recOff r + 8) 8
    .ok (s.write h.die (cellsAt k (toBytes 8 v)))

/-- Delete what a reference names (R249). -/
def HashCtx.delete (h : HashCtx) (s : State) (r : HRef) : Except HErr State :=
  match r with
  | .none => .ok s
  | .slot k => .ok (s.write h.die (cellsAt k (toBytes 8 tombKey ++ toBytes 8 0)))
  | .record r => do
    let k ← h.where_ s (h.recOff r + 24) 4
    .ok (s.write h.die (cellsAt k (toBytes 4 1)))

/-! ## Groups of equal keys (R249–R251) -/

/-- What a group's step gives: the state, whether the key was there before, its value, and flags. -/
structure GroupRes where
  s : State
  present : Bool
  value : Nat
  fl : Flags

/-- A hash instruction in progress. -/
structure Hashing where
  s : State
  outs : List (Nat × Bool × Nat)
  fl : Flags
  fs : List EFail
  wait : Bool

/-- The table of the executing hart's launch, when one is claimed (R247). -/
def VCtx.hashCtx (c : VCtx) (s : State) : Option HashCtx :=
  let a := c.actx s
  match hashOf s a.launch c.core, claimOf s a.launch c.core with
  | some t, some cl => if shtEn t.cfg then some ⟨spmKey c.core (cl.start + shtBase t.cfg), t, a, dieOf c.core⟩ else none
  | _, _ => none

/-- One group's step (R249): the elements presenting a key, ascending. -/
def VCtx.groupStep (c : VCtx) (f : HashCtx → State → Nat → List Nat → Except HErr (Option GroupRes)) (t : Hashing)
    (key : Nat) (is : List Nat) : Hashing :=
  let fail (code detail : Nat) (tval : Word) : Hashing :=
    { t with fs := t.fs ++ is.map (fun i => ⟨i, code, detail, tval⟩) }
  match c.hashCtx t.s with
  | none => t
  | some h => match f h t.s key is with
    | .error .wait => { t with wait := true }
    | .error (.fails code detail tval) => fail code detail tval
    | .ok none => fail causeHashFull 0 (BitVec.ofNat 64 key)
    | .ok (some r) =>
      { t with s := noteReads r.s h.die .dflt (h.reads t.s key), fl := t.fl ||| r.fl, outs := t.outs ++ is.map (fun i => (i, r.present, r.value)) }

/-- The distinct keys of a list, in order of first appearance. -/
def distinct : List Nat → List Nat → List Nat
  | seen, [] => seen.reverse
  | seen, k :: rest => distinct (if seen.contains k then seen else k :: seen) rest

/-- Write an m destination: what `f` gives at an active index, else nothing; bits at and above VL are zero (R95). -/
def VCtx.putMsome (c : VCtx) (s : State) (d : Nat) (f : Nat → Option Bool) : State :=
  let old := maskReg s c.core d
  c.putM s d (fun i => (f i).getD (old.testBit (c.mPos i)))

/-- ACCESS of a whole hash instruction with no claimed table (R250): the spec states no address (log 6). -/
def VCtx.noTable (c : VCtx) (s : State) : VRes :=
  .trap s.tick (c.cause s causeAccess 0 (Config.freeWord s.free))

/-- What a hash instruction has done before its next groups (R251). -/
def Partial.hashing (d : Partial) (s : State) : Hashing :=
  ⟨s, d.outs, d.fl, d.fails.map (fun f => ⟨f.1, f.2.1, f.2.2.1, f.2.2.2⟩), false⟩

/-- What a hash instruction has done after `n` groups. -/
def Hashing.partial_ (t : Hashing) (n : Nat) : Partial :=
  ⟨n, t.outs, t.fl, t.fs.map (fun f => (f.i, f.code, f.detail, f.tval))⟩

/-- A hash instruction over groups, each a step of its own (R251): `f` is one group's step, `put` writes the destinations
from the outcomes. -/
def hashOp (i : Instr) (a : Reg) (srcs dsts : List (Nat × Nat)) (marks : List Nat)
    (f : VCtx → State → HashCtx → State → Nat → List Nat → Except HErr (Option GroupRes))
    (put : VCtx → State → List (Nat × Bool × Nat) → State) (s : State) : Out :=
  vecOp i (fun c s =>
    if c.sew ≠ 64 then c.illegal s
    else c.guard s ((a.toNat, 1) :: srcs) dsts [] []
      (match c.hashCtx s with
       | none => c.noTable s
       | some _ =>
         let s := marks.foldl (fun s b => s.dirty c.p b) s
         let s := s.drainV c.p
         let es := (c.todo s).map (fun i => (i, c.ev s a.toNat 64 i))
         let ok := es.filter (fun e => e.2 < tombKey)
         let bad := es.filter (fun e => tombKey ≤ e.2)
         let left := (distinct [] (ok.map (·.2))).drop c.e.done.steps
         let n := (c.pause.getD left.length)
         let t := (left.take n).foldl (fun t key =>
           c.groupStep (f c s) t key ((ok.filter (fun e => e.2 == key)).map (·.1))) (c.e.done.hashing s)
         if t.wait then .wait s
         else if n < left.length then .part t.s (t.partial_ (c.e.done.steps + n))
         else c.finishMem (c.flag (put c t.s t.outs) t.fl)
           (t.fs ++ bad.map (fun e => ⟨e.1, causeReservedKey, 0, BitVec.ofNat 64 e.2⟩)))) s

/-- The outcome at an index. -/
def outAt (outs : List (Nat × Bool × Nat)) (i : Nat) : Option (Bool × Nat) := (outs.find? (fun o => o.1 == i)).map (·.2)

/-- HINS (R249): only a group's first element can report an absent key. -/
def execHins (d : MReg) (a b : Reg) (mk : Bool) (s : State) : Out :=
  hashOp (.hins d a b mk) a [(b.toNat, 1)] [] [32 + d.toNat]
    (fun c s0 h s key is => do
      let r ← h.find s key
      match r with
      | .none =>
        match (← h.place s key (c.ev s0 b.toNat 64 (is.headD 0))) with
        | none => .ok none
        | some s' => .ok (some ⟨s', false, is.headD 0, 0⟩)
      | _ => .ok (some ⟨s, true, 0, 0⟩))
    (fun c s outs => c.putMsome s d.toNat (fun i => (outAt outs i).map (fun o => o.1 || o.2 != i))) s

/-- HPRB (R249). -/
def execHprb (d a : Reg) (b : MReg) (mk : Bool) (s : State) : Out :=
  hashOp (.hprb d a b mk) a [] [(d.toNat, 1)] [d.toNat, 32 + b.toNat]
    (fun _ _ h s key _ => do
      let r ← h.find s key
      let v ← h.value s r
      .ok (some ⟨s, r != .none, v, 0⟩))
    (fun c s outs =>
      let s := c.putV' s d.toNat 64 1 0 c.vl (fun i => (outAt outs i).map (·.2))
      c.putMsome s b.toNat (fun i => (outAt outs i).map (·.1))) s

/-- HDEL (R249). -/
def execHdel (d : MReg) (a : Reg) (mk : Bool) (s : State) : Out :=
  hashOp (.hdel d a mk) a [] [] [32 + d.toNat]
    (fun _ _ h s key _ => do
      let r ← h.find s key
      let s' ← h.delete s r
      .ok (some ⟨s', r != .none, 0, 0⟩))
    (fun c s outs => c.putMsome s d.toNat (fun i => (outAt outs i).map (·.1))) s

/-- One step of hacc's operation (R249). -/
def haccStep (op : HaccOp) (x y : Nat) : Nat × Flags :=
  match op with
  | .add => ((x + y) % 2 ^ 64, 0)
  | .max => (if sgn 64 x < sgn 64 y then y else x, 0)
  | .min => (if sgn 64 y < sgn 64 x then y else x, 0)
  | .fadd => finish .f64 .rne (addX .rne (FFmt.f64.decode x) (FFmt.f64.decode y))

/-- The value that hacc places for a new key: a fold over one value delivers a NaN as the canonical one (R53). -/
def haccPlaced (op : HaccOp) (x : Nat) : Nat × Flags :=
  match op with
  | .fadd => (match FFmt.f64.decode x with
    | .nan sig => (FFmt.f64.nan, flagsIf sig fNV)
    | _ => (x, 0))
  | _ => (x, 0)

/-- HACC (R249). -/
def execHacc (d : MReg) (a b : Reg) (mk : Bool) (op : HaccOp) (s : State) : Out :=
  hashOp (.hacc d a b mk op) a [(b.toNat, 1)] [] [32 + d.toNat]
    (fun c s0 h s key is => do
      let vs := is.map (c.ev s0 b.toNat 64)
      let fold := (vs.drop 1).foldl (fun (t : Nat × Flags) v =>
        let r := haccStep op t.1 v
        (r.1, t.2 ||| r.2)) (vs.headD 0, 0)
      let r ← h.find s key
      match r with
      | .none =>
        let q := haccPlaced op fold.1
        match (← h.place s key q.1) with
        | none => .ok none
        | some s' => .ok (some ⟨s', false, 0, fold.2 ||| q.2⟩)
      | r =>
        let v ← h.value s r
        let q := haccStep op v fold.1
        let s' ← h.setValue s r q.1
        .ok (some ⟨s', true, 0, fold.2 ||| q.2⟩))
    (fun c s outs => c.putMsome s d.toNat (fun i => (outAt outs i).map (·.1))) s

/-! ## Claiming and releasing (R247) -/

/-- The failing check of a claim (R247), if any: its code, DETAIL and STVAL, or `none` in place of a cause while a line is
held. -/
def VCtx.hcfgFail (c : VCtx) (s : State) (cfg ovf : Word) : Option HErr :=
  let a := c.actx s
  let b := shtB cfg
  let base := shtBase cfg
  let inClaim := match claimOf s a.launch c.core with
    | some cl => decide (cl.size - cl.hash ≤ base) && decide (base + 128 * 2 ^ b ≤ cl.size)
    | none => false
  let h : HashCtx := ⟨0, ⟨0, cfg, ovf, 0, 0⟩, a, dieOf c.core⟩
  let sectors := (List.range (1 + headBytes b / 64)).findSome? (fun j => match h.where_ s (64 * j) 64 with
    | .error e => some e
    | .ok _ => none)
  if !inClaim then some (.fails causeAccess 1 (BitVec.ofNat 64 (2 ^ 60 + base)))
  else if ovf = 0 then none
  else if 5 < tagOf ovf ∨ offsetBound (tagOf ovf) ≤ ovf.toNat % 2 ^ 60 then some (.fails causeNoncanon 1 ovf)
  else if ovf.toNat % 64 ≠ 0 then some (.fails causeMisalign 1 ovf)
  else if tagOf ovf ≠ 0 then some (.fails causeAccess 1 ovf)
  else match h.read s 16 8, h.read s 24 8, h.read s 32 8, h.read s 40 8, h.read s 48 8, h.read s 56 8 with
    | .ok 0, .ok 0, .ok 0, .ok 0, .ok 0, .ok 0 => sectors
    | .error e, _, _, _, _, _ => some e
    | _, _, _, _, _, _ => some (.fails causeAccess 4 ovf)

/-- The hash unit's table of a launch replaced on a core. -/
def putTable (s : State) (core launch : Nat) (t : Option HashTbl) : State :=
  s.updVcore core (fun k => { k with hash := k.hash.filter (fun t => t.launch != launch) ++ t.toList })

/-- The bytes of a table with every slot empty (R247). -/
def emptyTable (b : Nat) : List Byte :=
  (List.range (8 * 2 ^ b)).flatMap (fun _ => toBytes 8 emptyKey ++ toBytes 8 0)

/-- HCFG (R247). -/
def execHcfg (a b : Reg) (s : State) : Out :=
  vecOp (.hcfg a b) (fun c s =>
    let cfg := c.e.a
    let ovf := c.e.b
    let n := (s.hart c.p).launch
    if !shtEn cfg then .ok (putTable s c.core n none) none
    else if Word.field cfg 30 1 ≠ 0 ∨ Word.field cfg 22 4 ≠ 0 ∨ shtB cfg < 4 ∨ 13 < shtB cfg ∨ shtBase cfg % 128 ≠ 0 then
      c.illegal s
    else
      let s := s.drainV c.p
      match c.hcfgFail s cfg ovf with
      | some .wait => .wait s
      | some (.fails code detail tval) => .trap s (c.cause s code detail tval)
      | none =>
        let t : HashTbl := ⟨n, cfg, ovf, 0, 0⟩
        let h : HashCtx := ⟨0, t, c.actx s, dieOf c.core⟩
        let s1 := match claimOf s (some n) c.core with
          | some cl => s.write h.die (cellsAt (spmKey c.core (cl.start + shtBase cfg)) (emptyTable (shtB cfg)))
          | none => s
        let put (s : State) (off : Nat) (bs : List Byte) : State := match h.where_ s off bs.length with
          | .ok k => s.write h.die (cellsAt k bs)
          | .error _ => s
        let cap := if ovf = 0 then 0 else (h.read s 0 8).toOption.getD 0
        let s2 := if ovf = 0 then s1
          else (List.range (2 ^ shtB cfg)).foldl (fun s k => put s (64 + 4 * k) (toBytes 4 0xFFFFFFFF)) (put s1 8 (toBytes 8 0))
        .ok ((putTable s2 c.core n (some { t with cap := cap })).updHart c.p (fun h => { h with shtcur := 0 })) none) s

/-! ## Reading out (R252) -/

/-- Live slots of a table from a slot number on, with their keys and values: at most `need`. -/
def HashCtx.liveSlots (h : HashCtx) (s : State) (need : Nat) : Nat → Nat → List (Nat × Nat × Nat)
  | 0, _ => []
  | fuel + 1, n =>
    match need with
    | 0 => []
    | need' + 1 =>
      let k := s.mem.num (h.base + 16 * n) 8
      if k < tombKey then (n, k, s.mem.num (h.base + 16 * n + 8) 8) :: h.liveSlots s need' fuel (n + 1)
      else h.liveSlots s (need' + 1) fuel (n + 1)

/-- Live records from a record number on: at most `need`. -/
def HashCtx.liveRecs (h : HashCtx) (s : State) (need : Nat) : Nat → Nat → Except HErr (List (Nat × Nat × Nat))
  | 0, _ => .ok []
  | fuel + 1, r =>
    match need with
    | 0 => .ok []
    | need' + 1 => do
      let live ← h.live s r
      if live = true then
        let k ← h.read s (h.recOff r) 8
        let v ← h.read s (h.recOff r + 8) 8
        let rest ← h.liveRecs s need' fuel (r + 1)
        .ok ((r, k, v) :: rest)
      else h.liveRecs s (need' + 1) fuel (r + 1)

/-- SHTCUR's fields (R111). -/
structure Cursor where
  bucket : Nat
  slot : Nat
  phase : Nat
  done : Bool
  record : Nat
  deriving DecidableEq, Repr

def Cursor.of (w : BitVec 52) : Cursor :=
  ⟨getBits w.toNat 0 13, getBits w.toNat 13 3, getBits w.toNat 16 1, w.getLsbD 17, getBits w.toNat 20 32⟩
def Cursor.word (k : Cursor) : BitVec 52 :=
  BitVec.ofNat 52 (k.bucket % 2 ^ 13 + k.slot % 8 * 2 ^ 13 + k.phase % 2 * 2 ^ 16 + bcode k.done * 2 ^ 17 +
    k.record % 2 ^ 32 * 2 ^ 20)

/-- The cursor past a slot: the first record follows the last slot. -/
def Cursor.afterSlot (k : Cursor) (b n : Nat) : Cursor :=
  if n + 1 = 8 * 2 ^ b then { k with bucket := 0, slot := 0, phase := 1 }
  else { k with bucket := (n + 1) / 8, slot := (n + 1) % 8, phase := 0 }

/-- The entries a read-out visits from a cursor on, at most `need`: those of phase 0 and those of phase 1 (R252). -/
def HashCtx.readOut (h : HashCtx) (s : State) (k : Cursor) (need : Nat) :
    Except HErr (List (Nat × Nat × Nat) × List (Nat × Nat × Nat)) := do
  let start := 8 * k.bucket + k.slot
  let slots := if k.phase = 0 then h.liveSlots s need (8 * 2 ^ h.b - start) start else []
  let last := if slots.length = need then (slots.getLast?.map (·.1)).getD start else 8 * 2 ^ h.b - 1
  let bad := if k.phase = 0 then ((List.range (last / 8 + 1)).filter (fun bk => k.bucket ≤ bk)).find? (fun bk =>
    badAt s (h.bucket bk) 128) else none
  match bad with
  | some bk => .error (.fails causeUncorrectable 0 (BitVec.ofNat 64 (2 ^ 60 + shtBase h.t.cfg + 128 * bk)))
  | none =>
    if slots.length = need ∨ h.t.ovf = 0 then .ok (slots, [])
    else
      let used ← h.read s 8 8
      let rs ← h.liveRecs s (need - slots.length) (used - k.record) k.record
      .ok (slots, rs)

/-- The cursor past the entries read. -/
def Cursor.past (k : Cursor) (b : Nat) (slots rs : List (Nat × Nat × Nat)) : Cursor :=
  let k1 := match slots.getLast? with
    | some e => k.afterSlot b e.1
    | none => k
  match rs.getLast? with
  | some e => { k1 with bucket := 0, slot := 0, phase := 1, record := e.1 + 1 }
  | none => k1

/-- The entries that an hdrn has read in its steps so far, as index, key and value, and its cursor (R252). -/
def Partial.drained (d : Partial) (start : BitVec 52) : List (Nat × Nat × Nat) × Cursor :=
  ((d.outs.filter (·.2.1)).map (fun o => (o.1, o.2.2, ((d.outs.find? (fun q => q.1 == o.1 && !q.2.1)).map (·.2.2)).getD 0)),
   Cursor.of ((d.fails.head?.map (fun f => f.2.2.2.setWidth 52)).getD start))

/-- HDRN (R252): its entries are read at one moment, or some of them at a time. -/
def execHdrn (d a : Reg) (s : State) : Out :=
  vecOp (.hdrn d a) (fun c s =>
    if c.sew ≠ 64 ∨ 30 < d.toNat then c.illegal s
    else c.guard s [] [(d.toNat, 2)] [] []
      (match c.hashCtx s with
       | none => c.noTable s
       | some h =>
         let s := (s.dirty c.p d.toNat).dirty c.p (d.toNat + 1)
         let s := s.drainV c.p
         let (had, k) := c.e.done.drained (s.hart c.p).shtcur
         let left := c.vl - had.length
         let need := match c.pause with
           | some n => if n < left then n else left + 1
           | none => left + 1
         if k.done then .ok s (some 0)
         else match h.readOut s k need with
           | .error .wait => .wait s
           | .error (.fails code detail tval) => .trap s (c.cause s code detail tval)
           | .ok (slots, rs) =>
             let all := slots ++ rs
             let s := noteReads s h.die .dflt (rs.flatMap (fun e => h.spot s (h.recOff e.1) 32))
             let out := had ++ all.take left
             let k2 := k.past h.b (slots.take left) (rs.take (left - slots.length))
             if need ≤ left ∧ all.length = need then
               .part s ⟨c.e.done.steps + 1, out.zipIdx.flatMap (fun e => [(e.2, true, e.1.2.1), (e.2, false, e.1.2.2)]), 0,
                 [(0, 0, 0, k2.word.zeroExtend 64)]⟩
             else
             let k3 : Cursor := { k2 with done := decide (all.length ≤ left) }
             let put (s : State) (r : Nat) (f : Nat × Nat × Nat → Nat) : State :=
               if out = [] then s else c.putV' s r 64 1 0 c.vl (fun i => (out[i]?).map f)
             let s := put (put s d.toNat (·.2.1)) (d.toNat + 1) (·.2.2)
             .ok (s.updHart c.p (fun h => { h with shtcur := k3.word })) (some (BitVec.ofNat 64 out.length)))) s

end Sys2Proof.Machine
end

