-- ==== Sys2Proof/Machine/Loader.lean ====
section
/-! DEFINITION. Machine/Loader.lean: ZLO objects (R373–R377): the checks of the loader and its refusal record (R86, R378–R380),
and the placement of an object's sections, with its finished launch descriptors (R374, R381). -/

namespace Sys2Proof.Machine

/-! ## The object (R373) -/

/-- An entry of the section table (R373), with its index and its own offset in the object. -/
structure ZSec where
  idx : Nat
  entry : Nat
  type : Nat
  flags : Nat
  align : Nat
  off : Nat
  size : Nat
  rangeOff : Nat
  rangeCount : Nat
  resvOk : Bool
  deriving DecidableEq, Repr

def ZSec.ignorable (c : ZSec) : Bool := c.flags.testBit 0
def ZSec.sup (c : ZSec) : Bool := c.flags.testBit 1
def ZSec.lendep (c : ZSec) : Bool := c.flags.testBit 2
/-- The loader knows the type. -/
def ZSec.known (c : ZSec) : Bool := decide (1 ≤ c.type) && decide (c.type ≤ 6)

/-- Section table offset and count of an object. -/
def zTable (o : List Byte) : Nat := bytesField o 16 8
def zCount (o : List Byte) : Nat := bytesField o 12 4

/-- Entry k of the section table. -/
def zSec (o : List Byte) (k : Nat) : ZSec :=
  let e := zTable o + 48 * k
  { idx := k, entry := e, type := bytesField o e 2, flags := bytesField o (e + 2) 2, align := bytesField o (e + 4) 4
    off := bytesField o (e + 8) 8, size := bytesField o (e + 16) 8, rangeOff := bytesField o (e + 24) 8
    rangeCount := bytesField o (e + 32) 4, resvOk := bytesField o (e + 2) 2 < 8 && bytesZero o (e + 36) 12 }

/-- The sections of an object whose header is sound. -/
def zSecs (o : List Byte) : List ZSec := (List.range (zCount o)).map (zSec o)

/-! ## Refusal items (R380) -/

/-- An item of a refusal record. -/
structure ZItem where
  reason : Nat
  sect : Nat
  off : Nat
  val : Nat
  prof : Nat
  deriving DecidableEq, Repr

/-- Section index of the header. -/
def zHeader : Nat := 0xFFFF

/-- A malformed structure at an offset of a section. -/
def zBad (sect off : Nat) : ZItem := ⟨5, sect, off, 0, 0⟩

/-- An item when a check fails. -/
def zNeed (ok : Bool) (i : ZItem) : List ZItem := if ok then [] else [i]

/-- An item's 32 bytes. -/
def ZItem.bytes (i : ZItem) : List Byte :=
  toBytes 2 i.reason ++ toBytes 2 i.sect ++ toBytes 4 0 ++ toBytes 8 i.off ++ toBytes 4 i.val ++ toBytes 1 i.prof ++
  toBytes 11 0

/-- A refusal record: at most 256 items (R379, R380). -/
def refusalBytes (items : List ZItem) : List Byte :=
  let is := items.take 256
  toBytes 4 is.length ++ toBytes 4 (bcode (decide (256 < items.length))) ++ toBytes 8 0 ++ is.flatMap ZItem.bytes

/-! ## Step 1: the header and the table -/

/-- Two byte ranges share a byte. -/
def overlap (a n b m : Nat) : Bool := decide (a < b + m) && decide (b < a + n)

/-- The header's fields, each failing one an item. -/
def zHeaderItems (o : List Byte) : List ZItem :=
  zNeed (decide (64 ≤ o.length)) (zBad zHeader 0) ++
  zNeed (bytesField o 0 4 == 0x014F4C5A) (zBad zHeader 0) ++
  zNeed (bytesField o 4 2 == 1) (zBad zHeader 4) ++
  zNeed (decide (bytesField o 6 2 < 2)) (zBad zHeader 6) ++
  zNeed (bytesField o 8 4 == 1) (zBad zHeader 8) ++
  zNeed (decide (1 ≤ zCount o) && decide (zCount o ≤ 4096)) (zBad zHeader 12) ++
  zNeed (zTable o % 64 == 0 && decide (zTable o + 48 * zCount o ≤ o.length)) (zBad zHeader 16) ++
  zNeed (bytesField o 24 8 == o.length) (zBad zHeader 24) ++
  zNeed (bytesZero o 32 32) (zBad zHeader 32)

/-- A section's entry is sound: its fields, and its place beside the table and the sections before it. -/
def zSecOk (o : List Byte) (cs : List ZSec) (c : ZSec) : Bool :=
  c.resvOk && decide (2 ≤ c.align) && decide (c.align ≤ 16) && decide (c.off + c.size ≤ o.length) &&
  (c.type == 1 || (c.rangeOff == 0)) && decide (c.rangeOff + 8 * c.rangeCount ≤ o.length) &&
  !overlap c.off c.size (zTable o) (48 * zCount o) &&
  cs.all (fun d => decide (c.idx ≤ d.idx) || !overlap c.off c.size d.off d.size)

/-- Items of step 1. -/
def zStep1 (o : List Byte) : List ZItem :=
  match zHeaderItems o with
  | [] => ((zSecs o).filter (fun c => !zSecOk o (zSecs o) c)).map (fun c => zBad c.idx c.entry)
  | is => is

/-! ## Steps 2 and 3: sections and notes -/

/-- Items of step 2, section by section, then the header's LENDEP (R377). -/
def zStep2 (o : List Byte) : List ZItem :=
  (zSecs o).flatMap (fun c =>
    zNeed (c.known || c.ignorable) ⟨2, c.idx, c.entry, c.type, 0⟩ ++
    zNeed (c.lendep == (c.type == 5)) ⟨6, c.idx, c.entry, 0, 0⟩) ++
  zNeed ((bytesField o 6 2).testBit 0 == (zSecs o).any ZSec.lendep) ⟨6, zHeader, 6, 0, 0⟩

/-- The bytes of "kva.profiles" (R376). -/
def zProfilesName : List Byte := [0x6B, 0x76, 0x61, 0x2E, 0x70, 0x72, 0x6F, 0x66, 0x69, 0x6C, 0x65, 0x73]

/-- `n` padded to a multiple of 8. -/
def up8 (n : Nat) : Nat := (n + 7) / 8 * 8

/-- The notes of a section from an offset on, `fuel` left (R376, R379 step 3). An ignorable kva.profiles is not refused
(R385). -/
def zNotes (o : List Byte) (c : ZSec) : Nat → Nat → List ZItem
  | 0, _ => []
  | fuel + 1, at_ =>
    let left := c.off + c.size - at_
    let m := bytesField o at_ 4
    let p := bytesField o (at_ + 4) 4
    let flags := bytesField o (at_ + 8) 2
    let len := 16 + up8 m + up8 p
    if left = 0 then []
    else if left < 16 ∨ m = 0 ∨ 64 < m ∨ 2 ≤ flags ∨ !bytesZero o (at_ + 10) 6 ∨ left < len then [zBad c.idx at_]
    else
      let name := (o.drop (at_ + 16)).take m
      let mask := bytesField o (at_ + 16 + up8 m) 8
      (if name = zProfilesName then
         (if p ≠ 8 then [zBad c.idx at_]
          else zNeed (flags == 0 || mask % 2 ^ 64 &&& Config.profiles == mask)
            ⟨4, c.idx, at_, mask % 2 ^ 32, mask &&& Config.profiles⟩)
       else zNeed (flags == 0) ⟨3, c.idx, at_, flags, 0⟩) ++ zNotes o c fuel (at_ + len)

/-- Items of step 3. -/
def zStep3 (o : List Byte) : List ZItem :=
  ((zSecs o).filter (fun c => c.type == 6)).flatMap (fun c => zNotes o c (c.size / 16 + 1) c.off)

/-! ## Step 4: code (R86, R378) -/

/-- The profile of an assigned op, by its word's class, op (bits 27:24 in class 0xA, R71) and the fields that R378 names (vfcvt's source code, setvl's FMT,
the x bit of vector loads): bit number. -/
def opProfile (w : Nat) : Nat :=
  let cls := w / 2 ^ 28
  let op := w / 2 ^ 22 % 64
  if cls = 8 ∧ (op = 0x10 ∨ op = 0x11) then 5
  else if cls = 8 ∧ op = 9 ∧ !w.testBit 5 ∧ 18 ≤ getBits w 7 5 ∧ getBits w 7 5 ≤ 20 then 5
  else if cls = 6 ∧ op = 0 ∧ 6 ≤ getBits w 3 4 ∧ getBits w 3 4 ≤ 8 then 5
  else if cls = 10 ∧ w / 2 ^ 24 % 16 < 5 ∧ w.testBit 0 then 2
  else if cls = 11 then 1
  else if cls = 12 then (if op < 6 then 3 else if op < 0x20 then 2 else 4)
  else if cls = 13 then (if op < 6 then 6 else 0)
  else 0

/-- The suggested replacement profile of an undecodable word (R380). -/
def wordProfile (w : BitVec 32) : Nat :=
  match decodeWord w with
  | .error .illegalClass => 0x80
  | .error .unassignedOp => 0x80
  | _ => 2 ^ opProfile w.toNat

/-- A word that some thread of the kind that executes a section does not refuse as ILLEGAL (R86). -/
def wordRuns (sup : Bool) (w : BitVec 32) : Bool :=
  match decodeWord w with
  | .error _ => false
  | .ok i =>
    if sup then denied .sup i != some .illegal
    else denied .user i != some .illegal || denied .mcc i != some .illegal

/-- The data ranges of a code section: offset and length (R373). -/
def zRanges (o : List Byte) (c : ZSec) : List (Nat × Nat) :=
  (List.range c.rangeCount).map (fun k => (bytesField o (c.rangeOff + 8 * k) 4, bytesField o (c.rangeOff + 8 * k + 4) 4))

/-- Items of one code section: its data ranges, then its words in order. -/
def zCode (o : List Byte) (c : ZSec) : List ZItem :=
  let rs := zRanges o c
  zNeed (c.size % 4 == 0) (zBad c.idx c.off) ++
  rs.zipIdx.flatMap (fun r => zNeed (r.1.1 % 4 == 0 && r.1.2 % 4 == 0 && decide (r.1.1 + r.1.2 ≤ c.size))
    (zBad c.idx (c.rangeOff + 8 * r.2))) ++
  (List.range (c.size / 4)).flatMap (fun k =>
    if rs.any (fun r => decide (r.1 ≤ 4 * k) && decide (4 * k < r.1 + r.2)) then []
    else
      let w := BitVec.ofNat 32 (bytesField o (c.off + 4 * k) 4)
      zNeed (wordRuns c.sup w) ⟨1, c.idx, c.off + 4 * k, w.toNat, wordProfile w⟩)

/-- Items of step 4. -/
def zStep4 (o : List Byte) : List ZItem := ((zSecs o).filter (fun c => c.type == 1)).flatMap (zCode o)

/-! ## Step 5: launch records and successor lists (R374, R375) -/

/-- The section index of a fixup: 0 entry point, 1 parameter, 2 tent list, 3 completion cell. -/
def fixIdx (r : List Byte) (k : Nat) : Nat := bytesField r (256 + 2 * k) 2
/-- Offset in the descriptor of a fixup's field. -/
def fixOff : Nat → Nat
  | 0 => 0
  | 1 => 32
  | 2 => 56
  | _ => 72

/-- A section that a fixup may name: code for the entry point, data or an image for the pointers. -/
def fixType (k type : Nat) : Bool := if k = 0 then type == 1 else type == 2 || type == 5

/-- A fixup is sound: absolute, or an offset inside a section of the right type. -/
def fixOk (cs : List ZSec) (r : List Byte) (k : Nat) : Bool :=
  let i := fixIdx r k
  let v := bytesField r (fixOff k) 8
  i == 0xFFFF || (match cs[i]? with
    | some c => fixType k c.type && decide (v < c.size)
    | none => false)

/-- Bytes with `n` of them replaced at an offset. -/
def putBytes (bs : List Byte) (off n v : Nat) : List Byte := bs.take off ++ toBytes n v ++ bs.drop (off + n)

/-- A record's descriptor with the fields that depend on placement zero. -/
def bareDesc (r : List Byte) : List Byte :=
  (List.range 4).foldl (fun d k => if fixIdx r k = 0xFFFF then d else putBytes d (fixOff k) 8 0) (r.take 256)

/-- A descriptor's ASID is 0 or one that the owner has registered (R309). -/
def asidOk (s : State) (a : Nat) : Bool := a == 0 || (a != Config.canvasAsid && (Tbl.find s.peg.roots a).isSome)

/-- A launch record is sound (R379 step 5). -/
def recordOk (s : State) (cs : List ZSec) (r : List Byte) : Bool :=
  (List.range 4).all (fixOk cs r) && bytesField r 0 8 % 4 == 0 && descResvOk (bareDesc r) &&
  descLimitsOk (descOf (bareDesc r)) && asidOk s (descOf (bareDesc r)).asid

/-- Items of a launch section. -/
def zRecords (s : State) (o : List Byte) (c : ZSec) : List ZItem :=
  zNeed (c.size % 288 == 0) (zBad c.idx c.off) ++
  (List.range (c.size / 288)).flatMap (fun k =>
    zNeed (recordOk s (zSecs o) ((o.drop (c.off + 288 * k)).take 288)) (zBad c.idx (c.off + 288 * k)))

/-- An offset of a code section where a function may begin. -/
def codeOffset (cs : List ZSec) (i v : Nat) : Bool :=
  match cs[i]? with
  | some c => c.type == 1 && v % 4 == 0 && decide (v < c.size)
  | none => false

/-- The records of a successor-list section from an offset on, `fuel` left. -/
def zSuccs (o : List Byte) (c : ZSec) : Nat → Nat → List ZItem
  | 0, _ => []
  | fuel + 1, at_ =>
    let left := c.off + c.size - at_
    let n := bytesField o (at_ + 6) 1
    if left = 0 then []
    else if left < 16 ∨ n = 0 ∨ 8 < n ∨ left < 16 + 8 * n then [zBad c.idx at_]
    else
      zNeed (codeOffset (zSecs o) (bytesField o (at_ + 4) 2) (bytesField o at_ 4) && bytesZero o (at_ + 7) 9 &&
        (List.range n).all (fun k =>
          let b := at_ + 16 + 8 * k
          codeOffset (zSecs o) (bytesField o (b + 4) 2) (bytesField o b 4) && bytesZero o (b + 6) 2)) (zBad c.idx at_) ++
      zSuccs o c fuel (at_ + 16 + 8 * n)

/-- Items of step 5. -/
def zStep5 (s : State) (o : List Byte) : List ZItem :=
  (zSecs o).flatMap (fun c =>
    match c.type with
    | 3 => zRecords s o c
    | 4 => zSuccs o c (c.size / 16 + 1) c.off
    | _ => [])

/-- Every item that the checks find, in their order (R379). -/
def zCheck (s : State) (o : List Byte) : List ZItem :=
  match zStep1 o with
  | [] => zStep2 o ++ zStep3 o ++ zStep4 o ++ zStep5 s o
  | is => is

/-! ## Placement (R374, R381) -/

/-- Write zero over `n` bytes from a key. -/
def zeroRange (s : State) (key n : Nat) : State :=
  { s with mem := ⟨s.mem.cells.filter (fun c => !(decide (key ≤ c.1) && decide (c.1 < key + n)))⟩ }

/-- The frames that a page table and those below it take, with their pages, as ranges (R303–R305), and the virtual ranges
that are mapped. -/
structure Mapped where
  frames : List (Nat × Nat)
  vas : List (Nat × Nat)
  deriving DecidableEq, Repr

def Mapped.join (a b : Mapped) : Mapped := ⟨a.frames ++ b.frames, a.vas ++ b.vas⟩

/-- What is mapped from a table at a level on, whose entries begin at a virtual address. -/
def mappedBelow (s : State) : Nat → Nat → Nat → Mapped
  | level, table, va =>
    (List.range (if level = 3 then 256 else 2048)).foldl (fun (m : Mapped) j =>
      let e : Pte := ⟨s.mem.num (devKey (table + 8 * j)) 8⟩
      let va := va + j * 2 ^ (16 + 11 * level)
      if !e.v then m
      else if e.nonLeaf then
        match level with
        | 0 => m
        | level + 1 => m.join (mappedBelow s level e.next va)
      else m.join ⟨[(e.frame, e.bytes)], [(va, 2 ^ (16 + 11 * level))]⟩) ⟨[(table, 16384)], []⟩

/-- The first multiple of `n` from `x` on that begins `len` bytes below `hi` outside every range; each range is passed once. -/
def nextFree (used : List (Nat × Nat)) (n len hi : Nat) : Nat → Nat → Option Nat
  | 0, _ => none
  | fuel + 1, x =>
    if hi < x + len then none
    else match used.find? (fun r => overlap r.1 r.2 x len) with
      | none => some x
      | some r => nextFree used n len hi fuel ((r.1 + r.2 + n - 1) / n * n)

/-- `len` free bytes at a multiple of `n` between two bounds: which ones is the loader's choice (log 12). -/
def freeRange (s : State) (used : List (Nat × Nat)) (n len lo hi : Nat) : Option Nat :=
  let x := lo + (Config.freeWord s.free).toNat % ((hi - lo) / n) * n
  match nextFree used n len hi (used.length + 1) x with
  | some a => some a
  | none => nextFree used n len hi (used.length + 1) lo

/-- A placement in progress: the state and the frames in use. -/
structure Placing where
  s : State
  used : List (Nat × Nat)

/-- A frame of `n` bytes, aligned to itself, below the canvas area, that no registered space uses (log 12). -/
def Placing.frame (p : Placing) (n : Nat) : Option (Placing × Nat) :=
  (freeRange p.s p.used n n 0 Config.canvasBase).map (fun f => (⟨p.s.tick, (f, n) :: p.used⟩, f))

/-- Map a page below a table at a level: missing tables are made. The loader is canvas firmware, whose supervisor threads may
write page tables (R307). -/
def mapFrom (va leaf : Nat) : Nat → Nat → Placing → Option Placing
  | 0, table, p => some { p with s := p.s.poke (cellsAt (devKey (table + 8 * (va / 65536 % 2048))) (toBytes 8 leaf)) }
  | level + 1, table, p =>
    let key := devKey (table + 8 * (va / 2 ^ (16 + 11 * (level + 1)) % (if level + 1 = 3 then 256 else 2048)))
    let e : Pte := ⟨p.s.mem.num key 8⟩
    if e.v && e.nonLeaf then mapFrom va leaf level e.next p
    else match p.frame 16384 with
      | none => none
      | some (p, t) =>
        mapFrom va leaf level t { p with s := (zeroRange p.s (devKey t) 16384).poke (cellsAt key (toBytes 8 (t + 1))) }

/-- Pages that a placed section takes. -/
def ZSec.pages (c : ZSec) : Nat := (c.size + 65535) / 65536

/-- The rights of a placed section's pages (R381): code R and X, data and images R and W; not for users when SUP is set. -/
def ZSec.rights (c : ZSec) : Nat := (if c.type = 1 then 0xB else 7) + (if c.sup then 0 else 16)

/-- Place `n` pages of a section from page k on: each takes a frame, its bytes and its mapping. -/
def placePages (o : List Byte) (c : ZSec) (root va : Nat) : Nat → Nat → Placing → Option Placing
  | _, 0, p => some p
  | k, n + 1, p =>
    match p.frame 65536 with
    | none => none
    | some (p, f) =>
      let bs := (o.drop (c.off + 65536 * k)).take (Nat.min 65536 (c.size - 65536 * k))
      match mapFrom (va + 65536 * k) (f + c.rights) 3 root { p with s := p.s.poke (cellsAt (devKey f) bs) } with
      | none => none
      | some p => placePages o c root va (k + 1) n p

/-- Place the sections of a layout, in order. -/
def placeSections (o : List Byte) (root : Nat) : List (ZSec × Nat) → Placing → Option Placing
  | [], p => some p
  | e :: rest, p => (placePages o e.1 root e.2 0 e.1.pages p).bind (placeSections o root rest)

/-- The sections that are placed: code, data and images. -/
def ZSec.placed (c : ZSec) : Bool := c.type == 1 || c.type == 2 || c.type == 5

/-- The placed sections of a list, one after another from a virtual address on. -/
def layout (va : Nat) : List ZSec → List (ZSec × Nat)
  | [] => []
  | c :: rest => if c.placed then (c, va) :: layout (va + 65536 * Nat.max 1 c.pages) rest else layout va rest

/-- A record's finished descriptor: placed addresses added, and the handle (R374). -/
def finishDesc (lay : List (ZSec × Nat)) (handle : Word) (r : List Byte) : List Byte :=
  let base (k : Nat) : Nat := match lay.find? (fun e => e.1.idx == fixIdx r k) with
    | some e => e.2
    | none => 0
  let d := (List.range 4).foldl (fun d k =>
    if fixIdx r k = 0xFFFF then d else putBytes d (fixOff k) 8 (bytesField d (fixOff k) 8 + base k)) (r.take 256)
  putBytes d 8 8 handle.toNat

/-- The finished descriptors of an object, by name. -/
def finishedDescs (o : List Byte) (lay : List (ZSec × Nat)) (handle : Word) : List (BitVec 192 × List Byte) :=
  ((zSecs o).filter (fun c => c.type == 3)).flatMap (fun c => (List.range (c.size / 288)).map (fun k =>
    let r := (o.drop (c.off + 288 * k)).take 288
    (BitVec.ofNat 192 (bytesField r 264 24), finishDesc lay handle r)))

/-- Virtual bytes that a layout takes. -/
def layoutSize (cs : List ZSec) : Nat :=
  (cs.filter ZSec.placed).foldl (fun n c => n + 65536 * Nat.max 1 c.pages) 0

/-- An object that passes every check is placed in a space and gets its handle (R381): where its sections lie in the space,
and in which frames, is the loader's choice among those that no registered space uses (log 12). `none`: there is no room. -/
def placeObject (s : State) (o : List Byte) (root : Nat) : Option (State × Word) :=
  let handle := BitVec.ofNat 64 s.peg.nextHandle
  let own := mappedBelow s 3 root 0
  let used := own.frames ++ (s.peg.roots.filter (fun r => r.1 != Config.canvasAsid)).flatMap (fun r =>
    (mappedBelow s 3 (r.2.toNat / 16384 * 16384) 0).frames)
  match freeRange s own.vas 65536 (layoutSize (zSecs o)) 65536 (2 ^ 57) with
  | none => none
  | some va =>
    let lay := layout va (zSecs o)
    (placeSections o root lay ⟨s.tick, used⟩).map (fun p =>
      let ob : Object := ⟨handle, lay.map (fun e => ⟨e.1.idx, BitVec.ofNat 64 e.2, e.1.size, e.1.type == 1⟩),
        finishedDescs o lay handle⟩
      (p.s.updPeg (fun g => { g with objects := g.objects ++ [ob], nextHandle := g.nextHandle + 1 }), handle))

end Sys2Proof.Machine
end

