-- ==== Sys2Proof/Machine/HostPort.lean ====
section
/-! DEFINITION. Machine/HostPort.lean: the host register block and the owner (R386, R387), the peg core's commands (R388–R394),
rack launch packets (R363), package reset and the pod's boot (R392), and throttling and thermal trips (R395, R396). -/

namespace Sys2Proof.Machine

/-! ## Masters and the owner (R386, R387) -/

/-- A write by a master reaches the block: each port records the first two requester IDs that write to it, and answers a third
with Unsupported Request (R386). -/
def recordMaster (s : State) (id : Nat) : Option State :=
  let m := BitVec.ofNat 32 id
  if s.peg.masters.contains m then some s
  else if ((s.peg.masters.filter (fun x => x.toNat / 65536 == id / 65536)).length < 2) then
    some (s.updPeg (fun g => { g with masters := g.masters ++ [m] }))
  else none

/-- Code of OWNER.STATE. -/
def OwnState.code : OwnState → Nat
  | .unowned => 0
  | .owned => 1
  | .handOver => 2

/-- The OWNER register (R386): in STATE 2 its ID is the nominated master's. -/
def ownerReg (g : Peg) : Word :=
  BitVec.ofNat 64 (g.bootFail.toNat * 2 ^ 34 + g.state.code * 2 ^ 32 +
    (match g.state with
     | .handOver => g.nominee.toNat
     | _ => g.owner.toNat))

/-- A die's clocks have been stopped by a thermal trip: the peg core refuses claims and commands (R396). -/
def anyTripped (s : State) : Bool := !s.tripped.isEmpty

/-- The caller that parked first on the full ring takes the freed slot (R275): its syscall is evaluated afresh. A hart whose die's
clocks have stopped takes none (R396). -/
def serveCaller (s : State) : State :=
  match s.peg.ringWait.find? (fun p => s.clocked (coreOf p)) with
  | none => s
  | some p =>
    if ringFull s then s
    else
      let s1 := s.updPeg (fun g => { g with ringWait := g.ringWait.filter (· ≠ p) })
      match (s.hart p).park with
      | some (.ring d a) =>
        (match syscallEval d a p { setPark s1 (.user p) none with agent := .user p } with
         | .next t => { t with agent := s.agent }
         | _ => s1)
      | _ => s1

/-- Serve parked callers in order, while the ring has room. -/
def serveRing : Nat → State → State
  | 0, s => s
  | n + 1, s => serveRing n (serveCaller s)

/-- Every caller that can be served. -/
def serveCallers (s : State) : State := serveRing s.peg.ringWait.length s

/-- A master becomes the owner (R387); the change is an event (R390). -/
def newOwner (s : State) (id : Nat) : State :=
  let s := s.updPeg (fun g => { g with state := .owned, owner := BitVec.ofNat 32 id, nominee := 0 })
  serveCallers (s.addEvent 4 (ownerReg s.peg).toNat 0 0)

/-- CLAIM (R387): a write of `v` to CLAIM through a port by a requester ID. A package that waits for its boot images accepts no
claim yet (R392 step 4). -/
def execClaim (port req : Nat) (v : Word) (s : State) : Out :=
  let id := req + port * 65536
  if 2 ≤ port ∨ 65536 ≤ req ∨ s.peg.waiting then .next s
  else match recordMaster s id with
    | none => .next s
    | some s1 =>
      if v.toNat ≠ id ∨ anyTripped s then .next s1
      else match s1.peg.state with
        | .unowned => deviceStep s (newOwner s1 id)
        | .owned => .next s1
        | .handOver => if s1.peg.nominee.toNat = id then deviceStep s (newOwner s1 id) else .next s1

/-- A master that is the owner writes a register: `k` acts; a write of any other master is discarded (R386), and so is one
before the package accepts claims (R392). -/
def ownerWrite (s : State) (master : Nat) (k : State → State) : Out :=
  match recordMaster s master with
  | none => .next s
  | some s1 =>
    if s1.peg.state ≠ .unowned ∧ s1.peg.owner.toNat = master ∧ s1.peg.waiting = false then deviceStep s (k s1) else .next s1

/-! ## The command ring (R386, R388) -/

/-- A command's 64 bytes are well formed: its resv bytes are zero (R388). -/
def cmdResvOk (bs : List Byte) : Bool := bytesZero bs 2 6 && bytesZero bs 56 8

/-- An argument word of a command: 64-bit fields from +8 on, in the order of R388's table (log 13). -/
def cmdArg (bs : List Byte) (k : Nat) : Word := BitVec.ofNat 64 (bytesField bs (8 + 8 * k) 8)

/-- A command of the peg core, with its arguments and the host address of its completion (R388). -/
inductive HostCmd where
  | submitLaunch (desc report cpl : Word)
  | loadObject (addr size refusal cpl : Word)
  | unload (handle cpl : Word)
  | readDescriptor (handle : Word) (name : BitVec 192) (buf cpl : Word)
  | registerAsid (asid root cpl : Word)
  | defaultAsid (asid cpl : Word)
  | clusterMask (mask : BitVec 128) (cpl : Word)
  | suspendLaunch (n cpl : Word)
  | terminateLaunch (n cpl : Word)
  | resume (n cpl : Word)
  | invalidate (asid va extent cpl : Word)
  | readCounters (buf flags cpl : Word)
  | handOver (master cpl : Word)
  | attest (nonce : BitVec 256) (buf cpl : Word)
  | restartCanvas (pscore cpl : Word)
  | stageCanvas (addr size cpl : Word)
  deriving DecidableEq, Repr

/-- The command that 64 bytes spell; `none` when it completes with status 1 (R388). -/
def cmdOf (bs : List Byte) : Option HostCmd :=
  let cpl := BitVec.ofNat 64 (bytesField bs 48 8)
  if !cmdResvOk bs then none
  else match bytesField bs 0 2 with
    | 0x01 => some (.submitLaunch (cmdArg bs 0) (cmdArg bs 1) cpl)
    | 0x02 => some (.loadObject (cmdArg bs 0) (cmdArg bs 1) (cmdArg bs 2) cpl)
    | 0x03 => some (.unload (cmdArg bs 0) cpl)
    | 0x04 => some (.readDescriptor (cmdArg bs 0) (BitVec.ofNat 192 (bytesField bs 16 24)) (cmdArg bs 4) cpl)
    | 0x05 => some (.registerAsid (cmdArg bs 0) (cmdArg bs 1) cpl)
    | 0x06 => some (.defaultAsid (cmdArg bs 0) cpl)
    | 0x07 => some (.clusterMask (BitVec.ofNat 128 (bytesField bs 8 16)) cpl)
    | 0x08 => (match bytesField bs 16 8 with
      | 0 => some (.suspendLaunch (cmdArg bs 0) cpl)
      | 1 => some (.terminateLaunch (cmdArg bs 0) cpl)
      | _ => none)
    | 0x09 => some (.resume (cmdArg bs 0) cpl)
    | 0x0A => some (.invalidate (cmdArg bs 0) (cmdArg bs 1) (cmdArg bs 2) cpl)
    | 0x0B => some (.readCounters (cmdArg bs 0) (cmdArg bs 1) cpl)
    | 0x0C => some (.handOver (cmdArg bs 0) cpl)
    | 0x0D => some (.attest (BitVec.ofNat 256 (bytesField bs 8 32)) (cmdArg bs 4) cpl)
    | 0x0E => some (.restartCanvas (cmdArg bs 0) cpl)
    | 0x0F => some (.stageCanvas (cmdArg bs 0) (cmdArg bs 1) cpl)
    | _ => none

/-- The next command of the ring, when one waits and there is an owner to answer (R386, R387). -/
def nextCommand (s : State) : Option (List Byte) :=
  let g := s.peg
  let n := (g.cmdProd - g.cmdCons).toNat
  if g.state = .unowned ∨ g.waiting ∨ n = 0 ∨ 256 < n then none
  else some (s.mem.gets (hostKey (g.cmdBase.toNat + 64 * (g.cmdCons.toNat % 256))) 64)

/-- Write a completion as one write (R388). A result that the command does not define is a free value (log 6). -/
def complete (s : State) (cpl : Word) (status : Nat) (result : Option Nat) : State :=
  let r := match result with
    | some r => r
    | none => (Config.freeWord s.free).toNat
  (s.poke (cellsAt (hostKey cpl.toNat) (toBytes 8 status ++ toBytes 8 r))).tick

/-- Commands at the ring's head that are malformed complete with status 1 and no effect (R388). -/
def skipBad : Nat → State → State
  | 0, s => s
  | n + 1, s =>
    match nextCommand s with
    | none => s
    | some bs => match cmdOf bs with
      | some _ => s
      | none =>
        skipBad n (complete (s.updPeg (fun g => { g with cmdCons := g.cmdCons + 1 }))
          (BitVec.ofNat 64 (bytesField bs 48 8)) 1 none)

/-- The peg core takes a command, the ring's next: CMD_CONS goes on (R386). -/
def takeCommand (s : State) : State := s.updPeg (fun g => { g with cmdCons := g.cmdCons + 1 })

/-- A status that reports a failure to which the spec gives no number: a free value other than 0 (log 6). -/
def freeStatus (s : State) : Nat := (Config.freeWord s.free).toNat % (2 ^ 64 - 1) + 1

/-- What a command does: the state, and its status and result, or nothing when it completes later. -/
abbrev CmdRes := State × Option (Nat × Option Nat)

/-- A command fails with a status that the spec does not number. -/
def cmdFails (s : State) : CmdRes := (s.tick, some (freeStatus s, none))
/-- A command is done, with no result of its own. -/
def cmdDone (s : State) : CmdRes := (s, some (0, none))

/-- The peg core executes a command when it is the ring's next (R387, R388): with a die tripped it refuses every command but 0x0B
(R396). -/
def command (i : HostCmd) (cpl : Word) (s : State) (k : State → CmdRes) : Out :=
  if (nextCommand s).bind cmdOf ≠ some i then .next s
  else
    let s1 := takeCommand s
    let refused := anyTripped s && (match i with
      | .readCounters _ _ _ => false
      | _ => true)
    let r := if refused then cmdFails s1 else k s1
    let s2 := match r.2 with
      | some (status, result) => complete r.1 cpl status result
      | none => r.1
    deviceStep s (skipBad 256 s2)

/-- CMD_PROD (R386): the owner's doorbell. -/
def execCmdProd (master : Nat) (v : Word) (s : State) : Out :=
  ownerWrite s master (fun s => skipBad 256 (s.updPeg (fun g => { g with cmdProd := v })))

/-- RING_CONS (R275, R386): slots free, and parked callers take them. -/
def execRingCons (master : Nat) (v : Word) (s : State) : Out :=
  ownerWrite s master (fun s => serveCallers (s.updPeg (fun g => { g with ringCons := v })))

/-- REGISTER_BLOCK_WRITE (R386): a read-only offset, or one without a register, keeps its value. -/
def execRegisterBlockWrite (master off : Nat) (v : Word) (s : State) : Out :=
  match off with
  | 0x000 => execClaim (master / 65536) (master % 65536) v s
  | 0x010 => ownerWrite s master (fun s => s.updPeg (fun g => { g with cmdBase := v }))
  | 0x018 => execCmdProd master v s
  | 0x028 => ownerWrite s master (fun s => s.updPeg (fun g => { g with ringBase := v }))
  | 0x030 => execRingCons master v s
  | 0x040 => ownerWrite s master (fun s => s.updPeg (fun g => { g with eventBase := v }))
  | _ => ownerWrite s master (fun s => s)

/-- LINK_DOWN (R387): the device becomes unowned. -/
def execLinkDown (s : State) : Out :=
  if s.peg.state = .unowned then .next s
  else
    let s1 := s.updPeg (fun g => { g with state := .unowned })
    .next (s1.addEvent 4 (ownerReg s1.peg).toNat 0 0)

/-! ## Submission from outside (R28, R363) -/

/-- A launch submitted by the owner or a rack node: queued, or answered by its report at once (R28, R139, R363). -/
def submit (s : State) (b : Submitter) (bs : List Byte) : State :=
  let (code, asid) := descCheck s .owner bs
  let d := descOf bs
  if code ≠ 0 then sendReport s b 0 code 0 []
  else match devPlace s asid .store d.cell.toNat with
    | .ok (.at_ cell _) =>
      if levelFull s d.prio then sendReport s b 0 5 0 [] else enqueueLaunch s bs asid cell b
    | _ => sendReport s b 0 1 0 []

/-- SUBMIT_LAUNCH (R388 command 0x01): the completion follows the residency report. -/
def execSubmitLaunch (desc report cpl : Word) (s : State) : Out :=
  command (.submitLaunch desc report cpl) cpl s (fun s =>
    (submit s (.owner report cpl) (s.mem.gets (hostKey desc.toNat) 256), none))

/-- LAUNCH_PACKET (R363): a 64-byte header, with the rack sequence number at +0 and resv bytes (R3), and a descriptor. -/
def execLaunchPacket (data : List Byte) (s : State) : Out :=
  if data.length ≠ 320 then .next s
  else
    let b : Submitter := .rack (BitVec.ofNat 64 (bytesField data 0 8))
    if bytesZero data 8 56 then .next (submit s b (data.drop 64)) else .next (sendReport s b 0 1 0 [])

/-! ## Objects (R374, R379, R381) -/

/-- LOAD_OBJECT (R379–R381): a refusal record and status 2, or a handle. An owner without a default space has no space to
place it in, and a full one no room: the status is a free one. -/
def execLoadObject (addr size refusal cpl : Word) (s : State) : Out :=
  command (.loadObject addr size refusal cpl) cpl s (fun s =>
    let o := s.mem.gets (hostKey addr.toNat) size.toNat
    match zCheck s o with
    | [] =>
      (match s.peg.defaultAsid.bind (rootOf s) with
       | none => cmdFails s
       | some root =>
         match placeObject s o (root / 16384 * 16384) with
         | none => cmdFails s
         | some r => (r.1, some (0, some r.2.toNat)))
    | is => (s.poke (cellsAt (hostKey refusal.toNat) (refusalBytes is)), some (2, none)))

/-- A launch that is Queued, Placing or Running names a handle (R381). -/
def handleUsed (s : State) (h : Word) : Bool :=
  s.peg.launches.any (fun l => l.desc.handle == h && (l.state == .queued || l.state == .placing || l.state == .running))

/-- UNLOAD (R381). -/
def execUnload (handle cpl : Word) (s : State) : Out :=
  command (.unload handle cpl) cpl s (fun s =>
    if (objectOf s handle).isNone then cmdFails s
    else if handleUsed s handle then (s, some (3, none))
    else cmdDone (s.updPeg (fun g => { g with objects := g.objects.filter (fun o => o.handle != handle) })))

/-- READ_DESCRIPTOR (R374). -/
def execReadDescriptor (handle : Word) (name : BitVec 192) (buf cpl : Word) (s : State) : Out :=
  command (.readDescriptor handle name buf cpl) cpl s (fun s =>
    match (objectOf s handle).bind (fun o => o.descs.find? (fun e => e.1 == name)) with
    | none => cmdFails s
    | some e => cmdDone (s.poke (cellsAt (hostKey buf.toNat) e.2)))

/-! ## Spaces and the mask (R364, R388, R389) -/

/-- REGISTER_ASID (R388): ASIDs 1 to 0xFFFE. -/
def execRegisterAsid (asid root cpl : Word) (s : State) : Out :=
  command (.registerAsid asid root cpl) cpl s (fun s =>
    if asid.toNat = 0 ∨ Config.canvasAsid ≤ asid.toNat then (s, some (1, none))
    else cmdDone (s.updPeg (fun g => { g with roots := Tbl.set g.roots asid.toNat root })))

/-- DEFAULT_ASID (R389). -/
def execDefaultAsid (asid cpl : Word) (s : State) : Out :=
  command (.defaultAsid asid cpl) cpl s (fun s =>
    if asid.toNat = 0 ∨ Config.canvasAsid ≤ asid.toNat then (s, some (1, none))
    else cmdDone (s.updPeg (fun g => { g with defaultAsid := some asid.toNat })))

/-- CLUSTER_MASK (R364, R389). -/
def execClusterMask (mask : BitVec 128) (cpl : Word) (s : State) : Out :=
  command (.clusterMask mask cpl) cpl s (fun s => cmdDone (s.updPeg (fun g => { g with mask := mask })))

/-! ## Launches (R367, R368, R397) -/

/-- A launch that has not ended. -/
def liveLaunch (s : State) (n : Word) : Option Launch :=
  match s.launch? n.toNat with
  | some l => if l.state = .completed ∨ l.state = .failed then none else some l
  | none => none

/-- SUSPEND_LAUNCH (R367, R388). -/
def execSuspendLaunch (n cpl : Word) (s : State) : Out :=
  command (.suspendLaunch n cpl) cpl s (fun s =>
    match liveLaunch s n with
    | none => cmdFails s
    | some l => cmdDone ((requestPreempt s l.n 1).updLaunch l.n (fun l => { l with held := true })))

/-- The owner's command that submitted a launch which ends before it runs completes without a report (R363, R388). -/
def endSubmit (s : State) (l : Launch) : State :=
  match l.by_ with
  | .owner _ cpl => if l.state = .running then s else complete s cpl 0 (some l.n)
  | _ => s

/-- TERMINATE_LAUNCH (R28, R397). DESIGN CHOICE (log 62): the owner's command alone terminates a launch; R28 gives a supervisor thread
no operation of its own for it. -/
def execTerminateLaunch (n cpl : Word) (s : State) : Out :=
  command (.terminateLaunch n cpl) cpl s (fun s =>
    match liveLaunch s n with
    | none => cmdFails s
    | some l => cmdDone (endSubmit (terminate s l 3) l))

/-- RESUME (R368): the harts that the owner has pre-empted, or is pre-empting, may be restored. -/
def execResume (n cpl : Word) (s : State) : Out :=
  command (.resume n cpl) cpl s (fun s =>
    match liveLaunch s n with
    | none => cmdFails s
    | some l => cmdDone (s.updLaunch l.n (fun l => { l with
        held := false
        suspended := l.suspended.map (fun u => { u with byOwner := false }) })))

/-! ## Translations and counters (R142, R321, R388) -/

/-- INVALIDATE (R388): the effect of tlbinv.pk, on the translations of one ASID. -/
def execInvalidate (asid va extent cpl : Word) (s : State) : Out :=
  command (.invalidate asid va extent cpl) cpl s (fun s =>
    let off := va.toNat % 2 ^ 60
    match TlbExtent.ofCode extent.toNat with
    | none => cmdFails s
    | some .page | some .pkPage => cmdDone (invalidate s .pkPage 0 (some asid.toNat) off)
    | some .all | some .pkAll => cmdDone (invalidate s .pkAll 0 (some asid.toNat) off))

/-- The buffer of READ_COUNTERS (R321, R388; log 14): the corrected-error counts by structure class and die, 16 of each, the
lost-sector records in use by die, the launch queue's eight levels, the ring, and the page-request queue by die. -/
def countersBytes (s : State) : List Byte :=
  (List.range 160).flatMap (fun k => toBytes 4 (Tbl.get 0 s.peg.corrected k).toNat) ++
  (List.range 16).flatMap (fun d => toBytes 4 (lostCount s d)) ++
  (List.range 8).flatMap (fun q => toBytes 4 (vget [] s.peg.levels q).length) ++
  toBytes 4 (s.peg.ringProd - s.peg.ringCons).toNat ++
  (List.range 16).flatMap (fun d => toBytes 4 (s.outstanding d).length)

/-- READ_COUNTERS (R321, R388). -/
def execReadCounters (buf flags cpl : Word) (s : State) : Out :=
  command (.readCounters buf flags cpl) cpl s (fun s =>
    let s1 := s.poke (cellsAt (hostKey buf.toNat) (countersBytes s))
    cmdDone (if flags.getLsbD 0 then s1.updPeg (fun g => { g with corrected := [] }) else s1))

/-! ## Ownership, attestation and canvas firmware (R387, R393, R394) -/

/-- HAND_OVER (R387). -/
def execHandOver (master cpl : Word) (s : State) : Out :=
  command (.handOver master cpl) cpl s (fun s =>
    if s.peg.state = .unowned then cmdFails s
    else cmdDone (s.updPeg (fun g => { g with state := .handOver, nominee := BitVec.ofNat 32 master.toNat })))

/-- The digest that a quote signs (R393). -/
def quoteDigest (g : Peg) (nonce : BitVec 256) : BitVec 256 :=
  Config.sm3 (toBytes 32 g.pegDigest.toNat ++ toBytes 32 g.canvasDigest.toNat ++ Config.fuseConfig ++
    toBytes 32 nonce.toNat)

/-- ATTEST (R393): the digest, its signature and the certificate (log 8). -/
def execAttest (nonce : BitVec 256) (buf cpl : Word) (s : State) : Out :=
  command (.attest nonce buf cpl) cpl s (fun s =>
    let q := quoteDigest s.peg nonce
    cmdDone (s.poke (cellsAt (hostKey buf.toNat) (toBytes 32 q.toNat ++ Config.sign q))))

/-- The bytes of a canvas image in the canvas area (R392; log 4). -/
def canvasCells (image : List Byte) : List Host.Cell :=
  cellsAt (devKey Config.canvasEntry) (image.take (Config.canvasRoot - Config.canvasEntry))

/-- A halted supervisor thread restarts at the canvas entry, its CSRs as they were, and takes the trap that could not be
delivered (R361, R394). -/
def restartSup (s : State) (p : Nat) : State :=
  let s := (s.drainS (.sup p)).dropWatch true p
  let s := s.poke (canvasCells s.peg.canvas)
  let s := s.updSup p (fun u => { u with
    thr := Thread.zeroAt (BitVec.ofNat 64 Config.canvasEntry), halted := false, park := none })
  match (s.hart p).undelivered with
  | some c => (s.updHart p (fun h => { h with undelivered := none })).deliver p c
  | none => s

/-- RESTART_CANVAS (R394). -/
def execRestartCanvas (pscore cpl : Word) (s : State) : Out :=
  command (.restartCanvas pscore cpl) cpl s (fun s =>
    if Config.scalarCores ≤ pscore.toNat ∨ !(s.sup pscore.toNat).halted then cmdFails s
    else cmdDone (restartSup s pscore.toNat))

/-- STAGE_CANVAS (R393): a verified image replaces the running one at the next package reset. -/
def execStageCanvas (addr size cpl : Word) (s : State) : Out :=
  command (.stageCanvas addr size cpl) cpl s (fun s =>
    let o := s.mem.gets (hostKey addr.toNat) size.toNat
    if Config.imageVerifies o then cmdDone (s.updPeg (fun g => { g with staged := some o })) else (s, some (4, none)))

/-! ## Package reset and the pod (R392) -/

/-- What a reset leaves: device memory and scratchpads zero, the rest as `State.reset` says; memory outside the package and
the host's translations are not the package's, and the model's own fields go on. -/
def resetBase (s : State) : State :=
  { State.reset with
    sched := s.sched
    free := s.free
    mem := ⟨s.mem.cells.filter (fun c => decide (2 ^ 61 ≤ c.1))⟩
    atsFail := s.atsFail }

/-- Canvas firmware is placed and its digest recorded (R392 steps 2 and 3). -/
def placeCanvas (s : State) (image : List Byte) : State :=
  (s.poke (canvasCells image)).updPeg (fun g => { g with canvas := image, canvasDigest := Config.sm3 image })

/-- The package halts with a boot failure in OWNER bits 63:34, whose code the spec does not give (R392; log 6). -/
def bootFails (s : State) : State :=
  ({ s with halted := true } : State).updPeg (fun g => { g with
    bootFail := BitVec.ofNat 30 ((Config.freeWord s.free).toNat % (2 ^ 30 - 1) + 1) })

/-- PACKAGE_RESET (R392, R393): the flash holds the canvas image given, unless one is staged; with no image the package is not
the boot root, and waits for an offer. -/
def execPackageReset (image : List Byte) (s : State) : Out :=
  let img := s.peg.staged.getD image
  let s1 := resetBase s
  if img.isEmpty then .next (s1.updPeg (fun g => { g with waiting := true }))
  else if !Config.imageVerifies Config.flashPeg || !Config.imageVerifies img then .next (bootFails s1)
  else .next (placeCanvas s1 img)

/-- The two images of an offer: the peg firmware's length (8 bytes), its bytes, and the canvas image (log 15). -/
def offerImages (images : List Byte) : List Byte × List Byte :=
  let n := bytesField images 0 8
  ((images.drop 8).take n, images.drop (8 + n))

/-- Every link neighbour's offer has failed: the package holds (R392). -/
def offersOver (s : State) : Bool :=
  !s.peg.offersFailed.isEmpty && Config.neighbours.all (fun g => s.peg.offersFailed.contains g)

/-- BOOT_OFFER (R392): the first offer that verifies names the parent; one that fails is discarded. A package that does not
wait ignores the offer (R397), and so does one that holds because every neighbour's offer has failed. -/
def execBootOffer (pkg : Nat) (images : List Byte) (s : State) : Out :=
  if !s.peg.waiting || offersOver s then .next s
  else
    let (peg, canvas) := offerImages images
    if Config.imageVerifies peg && Config.imageVerifies canvas then
      .next ((placeCanvas s canvas).updPeg (fun g => { g with
        pegDigest := Config.sm3 peg, waiting := false, parent := some pkg }))
    else .next (s.updPeg (fun g => { g with offersFailed := g.offersFailed ++ [pkg] }))

/-- The peg core executes a command of the ring (R388). -/
def runCommand (c : HostCmd) (s : State) : Out :=
  match c with
  | .submitLaunch d r l => execSubmitLaunch d r l s
  | .loadObject a n r l => execLoadObject a n r l s
  | .unload h l => execUnload h l s
  | .readDescriptor h n b l => execReadDescriptor h n b l s
  | .registerAsid a r l => execRegisterAsid a r l s
  | .defaultAsid a l => execDefaultAsid a l s
  | .clusterMask m l => execClusterMask m l s
  | .suspendLaunch n l => execSuspendLaunch n l s
  | .terminateLaunch n l => execTerminateLaunch n l s
  | .resume n l => execResume n l s
  | .invalidate a v e l => execInvalidate a v e l s
  | .readCounters b f l => execReadCounters b f l s
  | .handOver m l => execHandOver m l s
  | .attest n b l => execAttest n b l s
  | .restartCanvas p l => execRestartCanvas p l s
  | .stageCanvas a n l => execStageCanvas a n l s

/-! ## Throttling and thermal trips (R395, R396) -/

/-- A die's clock in MHz (R10). -/
def clockOf (s : State) (die : Nat) : Nat := Tbl.get 4000 s.clock die

/-- THROTTLE_STEP (R395) of one of the sixteen dies (R6): steps of 250 MHz between 1 GHz and 4 GHz; no result depends on the clock. -/
def execThrottleStep (die : Nat) (up : Bool) (s : State) : Out :=
  let c := clockOf s die
  if 16 ≤ die then .next s
  else .next { s with clock := Tbl.set s.clock die (if up then Nat.min 4000 (c + 250) else Nat.max 1000 (c - 250)) }

/-- THERMAL_TRIP (R396): the clocks of one of the sixteen dies (R6) stop until package reset. -/
def execThermalTrip (die : Nat) (s : State) : Out :=
  if s.tripped.contains die ∨ 16 ≤ die then .next s
  else .next (({ s with tripped := s.tripped ++ [die] } : State).addEvent 3 die 0 0)

end Sys2Proof.Machine
end

