-- ==== Sys2Proof/Machine/Pennant.lean ====
section
/-! DEFINITION. Machine/Pennant.lean: the pennant taps of class 0xC (R98, R110, R259–R262, R313). -/

namespace Sys2Proof.Machine

/-! ## The tables at PNTBASE (R259, R313) -/

/-- The Pennant Unit's rights: the hart's address space, a supervisor's rights (R259). -/
def VCtx.tapCtx (c : VCtx) (s : State) : ACtx := { c.actx s with user := false }

/-- The place of a table's 64-byte sector (R347 DETAIL 4). -/
def VCtx.tapPlace (c : VCtx) (s : State) (addr : Nat) : Except HErr Place :=
  match accPlace s (c.tapCtx s) .load .natural 0 (addr : Int) 64 with
  | .error .wait => .error .wait
  | .error (.cause code _) => .error (.fails code 4 (BitVec.ofNat 64 addr))
  | .ok pl => .ok pl

/-- The sectors of a table, `n` of them from a 64-byte boundary. -/
def VCtx.tapRead (c : VCtx) (s : State) : Nat → Nat → Except HErr (List Byte)
  | 0, _ => .ok []
  | n + 1, addr => do
    let pl ← c.tapPlace s addr
    let bs ← c.tapRead s n (addr + 64)
    .ok (placeBytes s (dieOf c.core) pl 64 ++ bs)

/-- Where a field's sectors begin, and how many there are. -/
def fieldSectors (f : Nat × Nat) : Nat × Nat := (f.1 / 64 * 64, (f.1 % 64 + f.2 + 63) / 64)

/-- A table field, `n` bytes from an address, as a number: read whole, now, unless the instruction has read it already (R259). -/
def VCtx.tapField (c : VCtx) (s : State) (addr n : Nat) : Except HErr Nat :=
  match c.e.done.outs.find? (fun o => o.1 == addr) with
  | some o => .ok o.2.2
  | none => do
    let f := fieldSectors (addr, n)
    let bs ← c.tapRead s f.2 f.1
    .ok (ofBytes ((bs.drop (addr % 64)).take n))

/-- A tap header's fields (R313). -/
structure Tap where
  n : Nat
  d : Nat
  probes : Nat
  steers : Nat
  deriving DecidableEq, Repr

/-- A failing limit of R313. -/
def tableBad (addr : Nat) : HErr := .fails causeAccess 4 (BitVec.ofNat 64 addr)

/-- Address of the header of tap t. -/
def VCtx.headAt (c : VCtx) (t : Nat) : Nat := c.e.pntbase.toNat + 64 * t

/-- The fields of a header: places and lengths (R313). -/
def VCtx.headFields (c : VCtx) (t : Nat) : List (Nat × Nat) :=
  [(0, 1), (1, 1), (2, 2), (4, 4), (8, 8), (16, 8), (24, 40)].map (fun f => (c.headAt t + f.1, f.2))

/-- The header of tap t; `none` when it is not enabled. -/
def VCtx.tapHead (c : VCtx) (s : State) (t : Nat) : Except HErr (Option Tap) := do
  let addr := c.headAt t
  if tagOf c.e.pntbase ≠ 0 then .error (tableBad addr)
  else
    let en ← c.tapField s addr 1
    if en % 2 = 0 then .ok none
    else
      let n ← c.tapField s (addr + 1) 1
      let d ← c.tapField s (addr + 2) 2
      let r0 ← c.tapField s (addr + 4) 4
      let probes ← c.tapField s (addr + 8) 8
      let steers ← c.tapField s (addr + 16) 8
      let r1 ← c.tapField s (addr + 24) 40
      if en = 1 ∧ n ≤ 16 ∧ 32 ≤ d ∧ d ≤ 16384 ∧ d % 32 = 0 ∧ r0 = 0 ∧ r1 = 0 ∧
          probes < 2 ^ 60 ∧ probes % 64 = 0 ∧ steers < 2 ^ 60 ∧ steers % 64 = 0 then .ok (some ⟨n, d, probes, steers⟩)
      else .error (tableBad addr)

/-- A probe's fields (R259, R313). -/
structure Probe where
  bias : Nat
  threshold : Nat
  below : Bool
  trap : Bool
  steer : Bool
  withhold : Bool
  deriving DecidableEq, Repr

/-- Address of entry k of an array. -/
def Tap.entry (t : Tap) (ptr k : Nat) : Nat := ptr + k * (64 + 2 * t.d)

/-- The fields of the probes of a tap (R313). -/
def Tap.probeFields (t : Tap) : List (Nat × Nat) :=
  (List.range t.n).flatMap (fun p => [(0, 4), (4, 4), (8, 1), (9, 1), (10, 54)].map (fun f => (t.entry t.probes p + f.1, f.2)))

/-- The vectors of `n` BF16 values from index `col` of an array's entries (R313). -/
def Tap.vecFields (t : Tap) (ptr count col n : Nat) : List (Nat × Nat) :=
  (List.range count).map (fun k => (t.entry ptr k + 64 + 2 * col, 2 * n))

/-- The other fields of the steering rows (R313). -/
def Tap.steerFields (t : Tap) (rows : Nat) : List (Nat × Nat) :=
  (List.range rows).flatMap (fun r => [(0, 4), (4, 1), (5, 59)].map (fun f => (t.entry t.steers r + f.1, f.2)))

/-- Probe p of a tap. -/
def VCtx.probe (c : VCtx) (s : State) (t : Tap) (p : Nat) : Except HErr Probe := do
  let addr := t.entry t.probes p
  let bias ← c.tapField s addr 4
  let threshold ← c.tapField s (addr + 4) 4
  let dir ← c.tapField s (addr + 8) 1
  let acts ← c.tapField s (addr + 9) 1
  let resv ← c.tapField s (addr + 10) 54
  if dir < 2 ∧ acts < 8 ∧ resv = 0 then
    .ok ⟨bias, threshold, dir == 1, acts.testBit 0, acts.testBit 1, acts.testBit 2⟩
  else .error (tableBad addr)

/-- Values of a list of table reads, or the first failure. -/
def allOf {α : Type} : List (Except HErr α) → Except HErr (List α)
  | [] => .ok []
  | x :: rest => do
    let a ← x
    let as ← allOf rest
    .ok (a :: as)

/-- The probes of a tap. -/
def VCtx.probes (c : VCtx) (s : State) (t : Tap) : Except HErr (List Probe) :=
  allOf ((List.range t.n).map (c.probe s t))

/-- `n` BF16 values of an array entry from index `col`, a multiple of 32. -/
def VCtx.tapVec (c : VCtx) (s : State) (t : Tap) (ptr k col n : Nat) : Except HErr (List Nat) := do
  let v ← c.tapField s (t.entry ptr k + 64 + 2 * col) (2 * n)
  .ok ((List.range n).map (fun j => getBits v (16 * j) 16))

/-! ## Accumulators (R98) -/

/-- pa.[r][p]. -/
def paGet (h : Hart) (d r p : Nat) : Nat := getBits (vget 0 h.pa d).toNat (32 * (16 * r + p)) 32
/-- pa.[r][p] := a value. -/
def paPut (h : Hart) (d r p v : Nat) : Hart :=
  { h with pa := vset h.pa d (BitVec.ofNat 4096 (putBits (vget 0 h.pa d).toNat (32 * (16 * r + p)) 32 v)) }

/-- The fields that a tap instruction reads: those of its header, and of an enabled tap those that `arrays` names. -/
def VCtx.tapFields (c : VCtx) (s : State) (t : Nat) (arrays : Tap → List (Nat × Nat)) : List (Nat × Nat) :=
  c.headFields t ++ (match c.tapHead s t with
    | .ok (some h) => arrays h
    | _ => [])

/-- What the memory system keeps of the fields that are read now. -/
def VCtx.noteFields (c : VCtx) (s : State) (fs : List (Nat × Nat)) : State :=
  let fresh := fs.filter (fun f => !c.e.done.outs.any (fun o => o.1 == f.1))
  let sectors := fresh.flatMap (fun f => (List.range (fieldSectors f).2).map (fun j => (fieldSectors f).1 + 64 * j))
  noteReads s (dieOf c.core) .dflt (sectors.filterMap (fun a => match c.tapPlace s a with
    | .ok pl => some (pl, 64)
    | .error _ => none))

/-- Some of the fields are read now and the others later: each is old or new independently (R259). -/
def VCtx.tapSome (c : VCtx) (s : State) (fs : List (Nat × Nat)) : VRes :=
  let now := fs.filter (fun f => !c.e.done.outs.any (fun o => o.1 == f.1) && s.chooseAt f.1 2 == 0)
  let got := now.filterMap (fun f => match c.tapField s f.1 f.2 with
    | .ok v => some (f.1, true, v)
    | .error _ => none)
  .part (c.noteFields s now).tick { c.e.done with steps := c.e.done.steps + 1, outs := c.e.done.outs ++ got }

/-- A tap instruction: its table reads, at one moment or, with a pause, at several, then `k`; with the tap not enabled it does
nothing (R259). -/
def VCtx.tapOp (c : VCtx) (s : State) (t : Nat) (arrays : Tap → List (Nat × Nat)) (k : State → Tap → Except HErr VRes) : VRes :=
  let s := s.drainV c.p
  let fs := c.tapFields s t arrays
  if c.pause.isSome then c.tapSome s fs
  else match (do
    match (← c.tapHead s t) with
    | none => .ok (VRes.ok s none)
    | some h => k (c.noteFields s fs) h : Except HErr VRes) with
  | .ok r => r
  | .error .wait => .wait s
  | .error (.fails code detail tval) => .trap s (c.cause s code detail tval)

/-- VTYPE is e16.ieee, e32.ieee or e16.bf16 (R260). -/
def VCtx.tapFmt (c : VCtx) : Bool := (c.fmt == 2 && (c.sew == 16 || c.sew == 32)) || c.fmt == 3

/-- The limits of R260 on VTYPE, the group, col and VL. -/
def VCtx.tapOk (c : VCtx) (t : Tap) (a col : Nat) : Bool :=
  c.tapFmt && decide (a + c.rows ≤ 32) && col % 32 == 0 && (c.vl % 32 == 0 || col + c.vl == t.d)

/-- ACCESS for a column past D (R260): the spec states no address (log 6). -/
def VCtx.pastD (c : VCtx) (s : State) : VRes := .trap s.tick (c.cause s causeAccess 0 (Config.freeWord s.free))

/-- A pa register holds an uncorrectable word (R219). -/
def VCtx.badPa (c : VCtx) (s : State) (d : Nat) (k : VRes) : VRes :=
  if c.bad s 5 d then .trap s (c.cause s causeUncorrectable 1 0) else k

/-! ## TAP_DOT (R260) -/

/-- The dot product of one row and probe, added to `acc` block by block. -/
def VCtx.tapSum (c : VCtx) (s : State) (v acc : Nat) (ws : List Nat) : Nat :=
  (List.range ((c.vl + 31) / 32)).foldl (fun acc b =>
    (blockAcc acc ((c.blockOf b).map (fun e => (c.fv s v e, FFmt.bf16.decode (ws.getD e 0))))).1) acc

/-- TAP_DOT (R260). -/
def execTapDot (d : PaReg) (a b : Reg) (mk : Bool) (tap : BitVec 3) (s : State) : Out :=
  vecOp (.tapDot d a b mk tap) (fun c s =>
    c.tapOp s tap.toNat (fun t => t.probeFields ++ t.vecFields t.probes t.n c.e.b.toNat c.vl) (fun s t =>
      let col := c.e.b.toNat
      if !c.tapOk t a.toNat col then .ok (c.illegal s)
      else if t.d < col + c.vl then .ok (c.pastD s)
      else do
        let _ ← c.probes s t
        let ws ← allOf ((List.range t.n).map (fun p => c.tapVec s t t.probes p col c.vl))
        let s1 := (s.dirty c.p (48 + d.toNat)).clean c.p 5 d.toNat
        let s2 := (List.range c.rows).foldl (fun s1 r => (List.range t.n).foldl (fun s1 p =>
          let acc := if col = 0 then 0 else paGet (s.hart c.p) d.toNat r p
          s1.updHart c.p (fun h => paPut h d.toNat r p (c.tapSum s (a.toNat + r) acc (ws.getD p [])))) s1) s1
        let r := c.guard s [(a.toNat, c.rows)] [] [] [] (.ok s2 none)
        .ok (if col = 0 then r else c.badPa s d.toNat r))) s

/-! ## TAP_FIN (R261) -/

/-- A score crosses its probe's threshold (R261). -/
def Probe.crosses (p : Probe) (sc : Nat) : Bool :=
  let x := FFmt.f32.decode sc
  let y := FFmt.f32.decode p.threshold
  !x.isNan && !y.isNan && (if p.below then cmpX x y == -1 else cmpX y x == -1)

/-- rne(pa + bias, FP32). -/
def scoreOf (x bias : Nat) : Nat := (finish .f32 .rne (addX .rne (FFmt.f32.decode x) (FFmt.f32.decode bias))).1

/-- Bits of the rows and probes of a list of crossings, in the layout of PNTSTAT bits 23:0 and of a trap word. -/
def crossBits (xs : List (Nat × Nat)) : Nat := bitsOf (xs.map (fun x => 16 + x.1)) ||| bitsOf (xs.map (·.2))

/-- PNTSTAT after the crossings of tap.fin (R110, R261). -/
def pntstatOf (w : BitVec 29) (tap : Nat) (xs : List (Nat × Nat)) : BitVec 29 :=
  BitVec.ofNat 29 (putBits w.toNat 24 3 tap ||| crossBits xs ||| (if xs = [] then 0 else 2 ^ 27))

/-- WITHHELD bits of rows in a hart of a SEQ (R261). -/
def withheldBits (seq : BitVec 3) (rows : List Nat) : BitVec 8 :=
  BitVec.ofNat 8 (bitsOf (rows.map (fun r => (seq.toNat + r) % 8)))

/-- TAP_FIN (R261). -/
def execTapFin (d : PaReg) (mk : Bool) (tap : BitVec 3) (s : State) : Out :=
  vecOp (.tapFin d mk tap) (fun c s =>
    c.tapOp s tap.toNat Tap.probeFields (fun s t => do
      let ps ← c.probes s t
      let rows := (List.range c.rows).filter c.pred
      let sc (r : Nat) (e : Probe × Nat) : Nat := scoreOf (paGet (s.hart c.p) d.toNat r e.2) e.1.bias
      let cells := rows.flatMap (fun r => ps.zipIdx.map (fun e => (r, e)))
      let s1 := cells.foldl (fun s1 x => s1.updHart c.p (fun h => paPut h d.toNat x.1 x.2.2 (sc x.1 x.2)))
        ((s.dirty c.p (48 + d.toNat)).clean c.p 5 d.toNat)
      let cross := cells.filter (fun x => x.2.1.crosses (sc x.1 x.2))
      let of_ (f : Probe → Bool) : List (Nat × Nat) := (cross.filter (fun x => f x.2.1)).map (fun x => (x.1, x.2.2))
      let s2 := s1.updHart c.p (fun h => { h with pntstat := pntstatOf h.pntstat tap.toNat (of_ (fun _ => true)) })
      let trapped := of_ Probe.trap
      let word := tap.toNat * 2 ^ 24 + crossBits trapped
      let res := match (s.hart c.p).region with
        | none => if trapped = [] then VRes.ok s2 none
          else .after s2 (c.cause s2 causePennant 0 (BitVec.ofNat 64 word))
        | some g =>
          let w := withheldBits (s.hart c.p).seq ((of_ Probe.withhold).map (·.1))
          let s3 := (s.regionHarts c.core g).foldl (fun s q => s.updHart q (fun h => { h with withheld := h.withheld ||| w })) s2
          if trapped = [] then .ok s3 none
          else .ok ((s3.updRegion c.core g (fun g => { g with pennant := g.pennant ||| BitVec.ofNat 27 word })).updHart c.p
            (fun h => { h with pntstat := h.pntstat ||| (1#29 <<< 28) })) none
      .ok (c.badPa s d.toNat (c.guard s [] [] [] [] res)))) s

/-! ## TAP_STEER (R262) -/

/-- A steering row: its scale and SEN (R313). -/
def VCtx.steerRow (c : VCtx) (s : State) (t : Tap) (r : Nat) : Except HErr (Nat × Bool) := do
  let addr := t.entry t.steers r
  let scale ← c.tapField s addr 4
  let sen ← c.tapField s (addr + 4) 1
  let resv ← c.tapField s (addr + 5) 59
  if sen < 2 ∧ resv = 0 then .ok (scale, sen == 1)
  else .error (tableBad addr)

/-- TAP_STEER (R262). -/
def execTapSteer (d : Reg) (a : PaReg) (b : Reg) (mk : Bool) (tap : BitVec 3) (s : State) : Out :=
  vecOp (.tapSteer d a b mk tap) (fun c s =>
    c.tapOp s tap.toNat (fun t => t.probeFields ++ t.steerFields c.rows ++ t.vecFields t.steers c.rows c.e.b.toNat c.vl) (fun s t =>
      let col := c.e.b.toNat
      if !c.tapOk t d.toNat col then .ok (c.illegal s)
      else if t.d < col + c.vl then .ok (c.pastD s)
      else do
        let ps ← c.probes s t
        let rs ← allOf ((List.range c.rows).map (c.steerRow s t))
        let vs ← allOf ((List.range c.rows).map (fun r => c.tapVec s t t.steers r col c.vl))
        let on (r : Nat) : Bool := ((rs[r]?).map (·.2)).getD false ||
          ps.zipIdx.any (fun e => e.1.steer && e.1.crosses (paGet (s.hart c.p) a.toNat r e.2))
        let f (r e : Nat) : Nat × Flags := finish c.ffmt .rne (fmaX .rne false false
          (FFmt.f32.decode (((rs[r]?).map (·.1)).getD 0)) (FFmt.bf16.decode ((vs.getD r []).getD e 0))
          (c.fv s (d.toNat + r) e))
        let rows := (List.range c.rows).filter on
        let s0 := (List.range c.rows).foldl (fun s r => s.dirty c.p (d.toNat + r)) s
        let s1 := rows.foldl (fun s1 r => c.putV' s1 d.toNat c.sew 1 r c.vl (c.dest (fun e => (f r e).1))) s0
        let fl := rows.foldl (fun t r => t ||| c.flagsOf (fun e => (f r e).2)) 0
        .ok (c.badPa s a.toNat (c.guard s [(d.toNat, c.rows)] [(d.toNat, c.rows)] [] [] (.ok (c.flag s1 fl) none))))) s

end Sys2Proof.Machine
end

