-- ==== Sys2Proof/Machine/ScalarFp.lean ====
section
/-! DEFINITION. Machine/ScalarFp.lean: the floating-point instructions of class 0x1 (R120–R126). An f register holds its value
in the low bits of the precision; a write zeroes the bits above (R120). -/

namespace Sys2Proof.Machine

/-- The format of a scalar precision (R73). -/
def Prec.fmt : Prec → FFmt
  | .b64 => .f64
  | .b32 => .f32
  | .b16 => .f16
  | .bf => .bf16

/-- The code that an f register holds in a precision (R120). -/
def fcode (s : State) (p : Prec) (r : Reg) : Nat := (s.rf r).toNat % 2 ^ (Prec.fmt p).width
/-- Its value. -/
def fval (s : State) (p : Prec) (r : Reg) : FVal := (Prec.fmt p).decode (fcode s p r)
/-- f[d] := a code of at most 64 bits (R120). -/
def putF (s : State) (d : Reg) (c : Nat) : State := s.wf d (BitVec.ofNat 64 c)

/-- f[d] := a rounded two-operand result, with its flags (R121). -/
def ffOp (d a b : Reg) (p : Prec) (rc : Rc) (op : RMode → FVal → FVal → FVal × Flags) (s : State) : Out :=
  withRegs s { rf := [a, b], wf := [d] }
    (let m := Rc.mode rc s.frmNow
     let r := finish (Prec.fmt p) m (op m (fval s p a) (fval s p b))
     done ((putF s d r.1).orFlags r.2))

/-- FADD (R121). -/
def execFadd (d a b : Reg) (p : Prec) (rc : Rc) (s : State) : Out := ffOp d a b p rc addX s
/-- FSUB (R121). -/
def execFsub (d a b : Reg) (p : Prec) (rc : Rc) (s : State) : Out :=
  ffOp d a b p rc (fun m x y => addX m x y.neg) s
/-- FMUL (R121). -/
def execFmul (d a b : Reg) (p : Prec) (rc : Rc) (s : State) : Out := ffOp d a b p rc (fun _ => mulX) s
/-- FDIV (R121). -/
def execFdiv (d a b : Reg) (p : Prec) (rc : Rc) (s : State) : Out := ffOp d a b p rc (fun _ => divX) s
/-- FSQRT (R121). -/
def execFsqrt (d a : Reg) (p : Prec) (rc : Rc) (s : State) : Out :=
  withRegs s { rf := [a], wf := [d] }
    (let r := finish (Prec.fmt p) (Rc.mode rc s.frmNow) (sqrtX (fval s p a))
     done ((putF s d r.1).orFlags r.2))
/-- FMADD (R122). -/
def execFmadd (d a b : Reg) (negp negc : Bool) (p : Prec) (rc : Rc) (s : State) : Out :=
  withRegs s { rf := [a, b, d], wf := [d] }
    (let m := Rc.mode rc s.frmNow
     let r := finish (Prec.fmt p) m (fmaX m negp negc (fval s p a) (fval s p b) (fval s p d))
     done ((putF s d r.1).orFlags r.2))

/-- f[d] := the minimum or maximum of two codes (R56). -/
def fmmOp (d a b : Reg) (p : Prec) (isMax : Bool) (s : State) : Out :=
  withRegs s { rf := [a, b], wf := [d] }
    (let r := minmax (Prec.fmt p) isMax (fcode s p a) (fcode s p b)
     done ((putF s d r.1).orFlags r.2))
/-- FMIN (R56, R121). -/
def execFmin (d a b : Reg) (p : Prec) (s : State) : Out := fmmOp d a b p false s
/-- FMAX (R56, R121). -/
def execFmax (d a b : Reg) (p : Prec) (s : State) : Out := fmmOp d a b p true s

/-- FCMP (R123). -/
def execFcmp (d a b : Reg) (p : Prec) (c : FCond) (s : State) : Out :=
  withRegs s { rf := [a, b], wx := [d] }
    (let r := fcond c (fval s p a) (fval s p b)
     done ((s.wx d (if r.1 then 1 else 0)).orFlags r.2))

/-- Signedness and width of an integer kind (R124). -/
def IKind.signed : IKind → Bool
  | .s32 | .s64 => true
  | .u32 | .u64 => false
def IKind.width : IKind → Nat
  | .s32 | .u32 => 32
  | .s64 | .u64 => 64

/-- The integer that an x register holds in a kind (R124). -/
def kindInt (k : IKind) (w : Word) : Int :=
  if IKind.signed k then sgn (IKind.width k) w.toNat else ((w.toNat % 2 ^ IKind.width k : Nat) : Int)

/-- FCVT (R124). -/
def execFcvt (d a : Reg) (k : FcvtKind) (p : Prec) (rc : Rc) (s : State) : Out :=
  let m := Rc.mode rc s.frmNow
  match k with
  | .ff src =>
    withRegs s { rf := [a], wf := [d] }
      (let r := finish (Prec.fmt p) m (fval s src a, 0)
       done ((putF s d r.1).orFlags r.2))
  | .fi kd =>
    withRegs s { rf := [a], wx := [d] }
      (let r := toIntX m (IKind.signed kd) (IKind.width kd) (fval s p a)
       done ((s.wx d (BitVec.ofInt 64 r.1)).orFlags r.2))
  | .xf kd =>
    withRegs s { rx := [a], wf := [d] }
      (let r := finish (Prec.fmt p) m (ofIntX (kindInt kd (s.rx a)), 0)
       done ((putF s d r.1).orFlags r.2))

/-- FMV (R125). -/
def execFmv (d a : Reg) (dir : FmvDir) (p : Prec) (s : State) : Out :=
  match dir with
  | .ff => withRegs s { rf := [a], wf := [d] } (done (putF s d (fcode s p a)))
  | .xf => withRegs s { rx := [a], wf := [d] } (done (putF s d ((s.rx a).toNat % 2 ^ (Prec.fmt p).width)))
  | .fx => withRegs s { rf := [a], wx := [d] } (done (s.wx d (BitVec.ofNat 64 (fcode s p a))))

/-- Whether m × 2^e is an integer. -/
def isIntX (m : Nat) (e : Int) : Bool := 0 ≤ e || m % 2 ^ (-e).toNat == 0

/-- The description word of a code (R126). -/
def classWord (f : FFmt) (c : Nat) : Nat :=
  let sign := bcode (c.testBit (f.width - 1)) * 8
  match f.decode c with
  | .nan sig => sign + (if sig then 5 else 4)
  | .inf _ => sign + 3
  | .fin _ m e =>
    if m = 0 then sign + 16
    else
      (if getBits c f.frac (f.width - 1 - f.frac) = 0 then 1 else 2) + sign + bcode (isIntX m e) * 16 +
        enc 16 (FVal.lg m e) * 256

/-- FCLASS (R126). -/
def execFclass (d a : Reg) (p : Prec) (s : State) : Out :=
  withRegs s { rf := [a], wx := [d] } (done (s.wx d (BitVec.ofNat 64 (classWord (Prec.fmt p) (fcode s p a)))))

end Sys2Proof.Machine
end

