-- ==== Sys2Proof/Machine/ScalarInt.lean ====
section
/-! DEFINITION. Machine/ScalarInt.lean: the integer instructions of class 0x1 (R117–R119), the immediates of class 0x2
(R127), and the branches and jumps of class 0x3 (R128). -/

namespace Sys2Proof.Machine

/-! ## Functions of R117–R119 -/

/-- 2^63 - 1, the largest signed value. -/
def maxS64 : Word := 0x7FFFFFFFFFFFFFFF#64
/-- -2^63. -/
def minS64 : Word := 0x8000000000000000#64

/-- High 64 bits of the signed product (R117). -/
def mulHigh (a b : Word) : Word := BitVec.ofInt 64 (a.toInt * b.toInt / 2 ^ 64)
/-- High 64 bits of the unsigned product (R117). -/
def mulHighU (a b : Word) : Word := BitVec.ofNat 64 (a.toNat * b.toNat / 2 ^ 64)
/-- Signed quotient (R118). -/
def divS (a b : Word) : Word :=
  if b = 0 then (if 0 ≤ a.toInt then maxS64 else minS64)
  else if a = minS64 ∧ b = -1 then maxS64
  else BitVec.ofInt 64 (a.toInt.tdiv b.toInt)
/-- Unsigned quotient (R118). -/
def divU (a b : Word) : Word := if b = 0 then -1 else BitVec.ofNat 64 (a.toNat / b.toNat)
/-- Signed remainder (R118). -/
def remS (a b : Word) : Word :=
  if b = 0 then a else if a = minS64 ∧ b = -1 then 0 else BitVec.ofInt 64 (a.toInt.tmod b.toInt)
/-- Unsigned remainder (R118). -/
def remU (a b : Word) : Word := if b = 0 then a else BitVec.ofNat 64 (a.toNat % b.toNat)
/-- The shift amount b & 63 (R117). -/
def shAmt (b : Word) : Nat := b.toNat % 64
/-- Left shift (R117). -/
def shl (a : Word) (n : Nat) : Word := a <<< n
/-- Logical right shift (R117). -/
def shr (a : Word) (n : Nat) : Word := a >>> n
/-- Arithmetic right shift (R117). -/
def sar (a : Word) (n : Nat) : Word := BitVec.ofInt 64 (a.toInt / 2 ^ n)
/-- Rotation to the left, n below 64 (R117). -/
def rotL (a : Word) (n : Nat) : Word := (a <<< n) ||| (a >>> (64 - n))
/-- Rotation to the right, n below 64 (R117). -/
def rotR (a : Word) (n : Nat) : Word := (a >>> n) ||| (a <<< (64 - n))
/-- 1 or 0. -/
def flag (b : Bool) : Word := if b then 1 else 0
/-- Signed minimum (R117). -/
def minS (a b : Word) : Word := if a.toInt ≤ b.toInt then a else b
/-- Signed maximum (R117). -/
def maxS (a b : Word) : Word := if a.toInt ≤ b.toInt then b else a
/-- Unsigned minimum (R117). -/
def minU (a b : Word) : Word := if a.toNat ≤ b.toNat then a else b
/-- Unsigned maximum (R117). -/
def maxU (a b : Word) : Word := if a.toNat ≤ b.toNat then b else a
/-- Leading zero bits, 64 for 0 (R117). -/
def leadZeros (a : Word) : Word := if a = 0 then 64 else BitVec.ofNat 64 (63 - lg a.toNat)
/-- Trailing zero bits of a number below bit `n`, counting from bit `k`. -/
def trailFrom (a k : Nat) : Nat → Nat
  | 0 => k
  | n + 1 => if a.testBit k then k else trailFrom a (k + 1) n
/-- Trailing zero bits, 64 for 0 (R117). -/
def trailZeros (a : Word) : Word := BitVec.ofNat 64 (trailFrom a.toNat 0 64)
/-- One bits of a number among its low `n`. -/
def onesIn (a : Nat) : Nat → Nat
  | 0 => 0
  | n + 1 => onesIn a n + bcode (a.testBit n)
/-- Number of one bits (R117). -/
def popCount (a : Word) : Word := BitVec.ofNat 64 (onesIn a.toNat 64)
/-- The bit field of R119: `len` bits from `pos`, sign- or zero-extended. -/
def extField (a : Word) (pos len : Nat) (sgnd : Bool) : Word :=
  let f := getBits a.toNat pos len
  if sgnd then BitVec.ofInt 64 (sgn len f) else BitVec.ofNat 64 f

/-! ## Shapes of execution -/

/-- x[d] := f(x[a], x[b]). -/
def xxOp (d a b : Reg) (f : Word → Word → Word) (s : State) : Out :=
  withRegs s { rx := [a, b], wx := [d] } (done (s.wx d (f (s.rx a) (s.rx b))))
/-- x[d] := f(x[a]). -/
def xOp (d a : Reg) (f : Word → Word) (s : State) : Out :=
  withRegs s { rx := [a], wx := [d] } (done (s.wx d (f (s.rx a))))
/-- x[d] := v. -/
def setOp (d : Reg) (v : Word) (s : State) : Out := withRegs s { wx := [d] } (done (s.wx d v))

/-! ## Class 0x1, integers (R117–R119) -/

/-- ADD (R117). -/
def execAdd (d a b : Reg) (s : State) : Out := xxOp d a b (· + ·) s
/-- SUB (R117). -/
def execSub (d a b : Reg) (s : State) : Out := xxOp d a b (· - ·) s
/-- MUL (R117). -/
def execMul (d a b : Reg) (s : State) : Out := xxOp d a b (· * ·) s
/-- MULH (R117). -/
def execMulh (d a b : Reg) (s : State) : Out := xxOp d a b mulHigh s
/-- MULHU (R117). -/
def execMulhu (d a b : Reg) (s : State) : Out := xxOp d a b mulHighU s
/-- DIV (R118). -/
def execDiv (d a b : Reg) (s : State) : Out := xxOp d a b divS s
/-- DIVU (R118). -/
def execDivu (d a b : Reg) (s : State) : Out := xxOp d a b divU s
/-- REM (R118). -/
def execRem (d a b : Reg) (s : State) : Out := xxOp d a b remS s
/-- REMU (R118). -/
def execRemu (d a b : Reg) (s : State) : Out := xxOp d a b remU s
/-- AND (R117). -/
def execAnd (d a b : Reg) (s : State) : Out := xxOp d a b (· &&& ·) s
/-- OR (R117). -/
def execOr (d a b : Reg) (s : State) : Out := xxOp d a b (· ||| ·) s
/-- XOR (R117). -/
def execXor (d a b : Reg) (s : State) : Out := xxOp d a b (· ^^^ ·) s
/-- SLL (R117). -/
def execSll (d a b : Reg) (s : State) : Out := xxOp d a b (fun x y => shl x (shAmt y)) s
/-- SRL (R117). -/
def execSrl (d a b : Reg) (s : State) : Out := xxOp d a b (fun x y => shr x (shAmt y)) s
/-- SRA (R117). -/
def execSra (d a b : Reg) (s : State) : Out := xxOp d a b (fun x y => sar x (shAmt y)) s
/-- SLT (R117). -/
def execSlt (d a b : Reg) (s : State) : Out := xxOp d a b (fun x y => flag (x.toInt < y.toInt)) s
/-- SLTU (R117). -/
def execSltu (d a b : Reg) (s : State) : Out := xxOp d a b (fun x y => flag (x.toNat < y.toNat)) s
/-- MIN (R117). -/
def execMin (d a b : Reg) (s : State) : Out := xxOp d a b minS s
/-- MAX (R117). -/
def execMax (d a b : Reg) (s : State) : Out := xxOp d a b maxS s
/-- MINU (R117). -/
def execMinu (d a b : Reg) (s : State) : Out := xxOp d a b minU s
/-- MAXU (R117). -/
def execMaxu (d a b : Reg) (s : State) : Out := xxOp d a b maxU s
/-- CLZ (R117). -/
def execClz (d a : Reg) (s : State) : Out := xOp d a leadZeros s
/-- CTZ (R117). -/
def execCtz (d a : Reg) (s : State) : Out := xOp d a trailZeros s
/-- POPC (R117). -/
def execPopc (d a : Reg) (s : State) : Out := xOp d a popCount s
/-- ROTL (R117). -/
def execRotl (d a b : Reg) (s : State) : Out := xxOp d a b (fun x y => rotL x (shAmt y)) s
/-- ROTR (R117). -/
def execRotr (d a b : Reg) (s : State) : Out := xxOp d a b (fun x y => rotR x (shAmt y)) s
/-- EXT (R119). -/
def execExt (d a b : Reg) (sgn : Bool) (len1 : BitVec 6) (s : State) : Out :=
  xxOp d a b (fun x y => extField x (shAmt y) (len1.toNat + 1) sgn) s

/-! ## Class 0x2 (R127) -/

/-- ADDI (R127). -/
def execAddi (d a : Reg) (imm : BitVec 12) (s : State) : Out := xOp d a (· + imm.signExtend 64) s
/-- ANDI (R127). -/
def execAndi (d a : Reg) (imm : BitVec 12) (s : State) : Out := xOp d a (· &&& imm.zeroExtend 64) s
/-- ORI (R127). -/
def execOri (d a : Reg) (imm : BitVec 12) (s : State) : Out := xOp d a (· ||| imm.zeroExtend 64) s
/-- XORI (R127). -/
def execXori (d a : Reg) (imm : BitVec 12) (s : State) : Out := xOp d a (· ^^^ imm.zeroExtend 64) s
/-- SLLI (R127). -/
def execSlli (d a : Reg) (sh : BitVec 6) (s : State) : Out := xOp d a (fun x => shl x sh.toNat) s
/-- SRLI (R127). -/
def execSrli (d a : Reg) (sh : BitVec 6) (s : State) : Out := xOp d a (fun x => shr x sh.toNat) s
/-- SRAI (R127). -/
def execSrai (d a : Reg) (sh : BitVec 6) (s : State) : Out := xOp d a (fun x => sar x sh.toNat) s
/-- SLTI (R127). -/
def execSlti (d a : Reg) (imm : BitVec 12) (s : State) : Out := xOp d a (fun x => flag (x.toInt < imm.toInt)) s
/-- SLTUI (R127). -/
def execSltui (d a : Reg) (imm : BitVec 12) (s : State) : Out :=
  xOp d a (fun x => flag (x.toNat < (imm.signExtend 64).toNat)) s
/-- LIH (R127). -/
def execLih (d : Reg) (imm : BitVec 17) (s : State) : Out := setOp d (imm.signExtend 64 <<< 12) s
/-- PCADD (R127): the address of this word plus the immediate. -/
def execPcadd (d : Reg) (imm : BitVec 17) (s : State) : Out := setOp d (s.pc + imm.signExtend 64 <<< 12) s

/-! ## Class 0x3 (R128, R129) -/

/-- A branch target: the control word's address plus 4 × offset (R72). -/
def relTarget {n : Nat} (s : State) (off : BitVec n) : Word := s.pc + off.signExtend 64 <<< 2
/-- A branch on a comparison of x[a] and x[b]. -/
def branchOp (a b : Reg) (off : BitVec 15) (c : Word → Word → Bool) (s : State) : Out :=
  withRegs s { rx := [a, b] }
    (if c (s.rx a) (s.rx b) then .next (s.jumpTo (relTarget s off)) else done s)

/-- BEQ (R128). -/
def execBeq (a b : Reg) (off : BitVec 15) (s : State) : Out := branchOp a b off (· == ·) s
/-- BNE (R128). -/
def execBne (a b : Reg) (off : BitVec 15) (s : State) : Out := branchOp a b off (· != ·) s
/-- BLT (R128). -/
def execBlt (a b : Reg) (off : BitVec 15) (s : State) : Out := branchOp a b off (fun x y => x.toInt < y.toInt) s
/-- BGE (R128). -/
def execBge (a b : Reg) (off : BitVec 15) (s : State) : Out := branchOp a b off (fun x y => y.toInt ≤ x.toInt) s
/-- BLTU (R128). -/
def execBltu (a b : Reg) (off : BitVec 15) (s : State) : Out := branchOp a b off (fun x y => x.toNat < y.toNat) s
/-- BGEU (R128). -/
def execBgeu (a b : Reg) (off : BitVec 15) (s : State) : Out := branchOp a b off (fun x y => y.toNat ≤ x.toNat) s
/-- JAL (R128). -/
def execJal (d : Reg) (off : BitVec 20) (s : State) : Out :=
  withRegs s { wx := [d] } (.next ((s.wx d (s.pc + 4)).jumpTo (relTarget s off)))
/-- JALR (R128): the target comes from the old x[a], bits 1:0 cleared (R72). -/
def execJalr (d a : Reg) (off : BitVec 15) (s : State) : Out :=
  withRegs s { rx := [a], wx := [d] }
    (.next ((s.wx d (s.pc + 4)).jumpTo (State.pcBits (s.rx a + off.signExtend 64 <<< 2))))

end Sys2Proof.Machine
end

