-- ==== Sys2Proof/Machine/Tree.lean ====
section
/-! DEFINITION. Machine/Tree.lean: topology registers and the tree instructions of class 0xB (R180–R193). A tree instruction
acts on row 0, is not interrupted, and reads every source before it writes (R183). -/

namespace Sys2Proof.Machine

/-! ## The forest in a register (R181, R182) -/

/-- What par (R181) answers for a node: the next node of its chain, and whether its entry is dangling. -/
structure Par where
  node : Nat
  dangling : Bool
  deriving DecidableEq, Repr

/-- par (R181) of node i with entry e. -/
def parOf (splitB vl i e : Nat) : Par :=
  if e = 0xFFFF then ⟨i, false⟩
  else if e < splitB ∨ vl ≤ e - splitB then ⟨i, true⟩
  else ⟨e - splitB, false⟩

/-- A resolved forest of nodes 0 to VL − 1 (R182). -/
structure Forest where
  pars : List Par
  anc : List Nat
  hop : List Nat
  deriving DecidableEq, Repr

/-- par of a node. -/
def Forest.par (f : Forest) (i : Nat) : Par := f.pars.getD i ⟨i, false⟩
/-- A node is a root of its chain. -/
def Forest.isRoot (f : Forest) (i : Nat) : Bool := (f.par i).node == i

/-- One doubling step for every node at once (R182). -/
def Forest.double (f : Forest) : Forest :=
  { f with
    anc := f.anc.map (fun a => f.anc.getD a 0)
    hop := (f.hop.zip f.anc).map (fun e => e.1 + f.hop.getD e.2 0) }

/-- `n` doubling steps. -/
def Forest.doubles : Nat → Forest → Forest
  | 0, f => f
  | n + 1, f => Forest.doubles n f.double

/-- ceil(log2 VL), 0 for VL = 1. -/
def clog2 (n : Nat) : Nat := if n ≤ 1 then 0 else Nat.log2 (n - 1) + 1

/-- The forest that entries form, resolved (R182). -/
def resolve (splitB : Nat) (es : List Nat) : Forest :=
  let ps := es.zipIdx.map (fun e => parOf splitB es.length e.2 e.1)
  Forest.doubles (clog2 es.length)
    ⟨ps, ps.map (·.node), ps.zipIdx.map (fun e => if e.1.node = e.2 then 0 else 1)⟩

/-- root(i) of an acyclic node. -/
def Forest.root (f : Forest) (i : Nat) : Nat := f.anc.getD i i
/-- depth(i) of an acyclic node. -/
def Forest.depth (f : Forest) (i : Nat) : Nat := f.hop.getD i 0
/-- A node whose chain never reaches a root (R182). -/
def Forest.cyclic (f : Forest) (i : Nat) : Bool := !f.isRoot (f.root i)
/-- An acyclic node whose root is dangling (R182). -/
def Forest.dangling (f : Forest) (i : Nat) : Bool := !f.cyclic i && (f.par (f.root i)).dangling

/-- The node reached from i by n steps of its chain. -/
def Forest.walk (f : Forest) : Nat → Nat → Nat
  | 0, i => i
  | n + 1, i => f.walk n (f.par i).node

/-- The nodes that n steps of a chain visit, the first included. -/
def Forest.chain (f : Forest) : Nat → Nat → List Nat
  | 0, i => [i]
  | n + 1, i => i :: f.chain n (f.par i).node

/-- path(i) of an acyclic node (R182). -/
def Forest.path (f : Forest) (i : Nat) : List Nat := f.chain (f.depth i) i
/-- subtree(i) of an acyclic node (R182). -/
def Forest.subtree (f : Forest) (i : Nat) : List Nat :=
  (List.range f.pars.length).filter (fun j => !f.cyclic j && (f.path j).contains i)

/-- The flags of a position whose result depends on the chain of node i (R183). -/
def Forest.flags (f : Forest) (i : Nat) : Flags := if f.cyclic i then fCYC else flagsIf (f.dangling i) fDNG

/-! ## The shape of a tree instruction (R180, R183) -/

/-- The forest of t[a], from entries 0 to VL − 1 whatever the predicate. -/
def VCtx.forest (c : VCtx) (s : State) (a : TReg) : Forest :=
  resolve (s.hart c.p).splitB.toNat ((List.range c.vl).map (c.et s a.toNat))

/-- A tree instruction: SEW is 16, 32 or 64; `k` gives the state after its writes and its flags; with CYC set and VTYPE.CYC
it retires and then takes TOPO_CYCLE (R183). -/
def treeOp (i : Instr) (srcs dsts : List Nat) (ts : List Nat) (ok : VCtx → Bool) (k : VCtx → State → State × Flags)
    (s : State) : Out :=
  vecOp i (fun c s =>
    if decide (c.sew < 16) || !ok c then c.illegal s
    else c.guard s (srcs.map (fun r => (r, 1))) (dsts.map (fun r => (r, 1))) [] ts
      (let r := k c s
       let s' := c.flag r.1 r.2
       if c.cyc && r.2 &&& fCYC != 0 then .after s' (c.cause s' causeTopoCycle 0 0) else .ok s' none)) s

/-- Every VTYPE format. -/
def anyFmt (_ : VCtx) : Bool := true

/-- All ones at SEW. -/
def VCtx.allOnes (c : VCtx) : Nat := 2 ^ c.sew - 1
/-- What a cyclic position's value reads as (R183). -/
def VCtx.cycValue (c : VCtx) : Nat := if c.isFp then c.ffmt.nan else c.allOnes

/-- Write per-node results to v[d]: a cyclic position receives `cyc`, an acyclic one what `f` gives with its flags. -/
def VCtx.nodeV (c : VCtx) (s : State) (t : Forest) (d : Reg) (cyc : Nat) (f : Nat → Nat × Flags) : State × Flags :=
  (c.putV s d.toNat c.sew (fun i => if t.cyclic i then cyc else (f i).1),
   c.flagsOf (fun i => t.flags i ||| (if t.cyclic i then 0 else (f i).2)))

/-! ## Entries in and out (R185) -/

/-- TSET (R185). -/
def execTset (d : TReg) (a : Reg) (mk : Bool) (s : State) : Out :=
  treeOp (.tset d a mk) [a.toNat] [] [] anyFmt (fun c s =>
    (c.putT s d.toNat (fun i => Nat.min (c.ev s a.toNat c.sew i) 0xFFFF),
     c.flagsOf (fun i => flagsIf (decide (0xFFFF ≤ c.ev s a.toNat c.sew i)) fDNG))) s

/-- TGET (R185). -/
def execTget (d : Reg) (a : TReg) (mk : Bool) (s : State) : Out :=
  treeOp (.tget d a mk) [] [d.toNat] [a.toNat] anyFmt (fun c s =>
    (c.putV s d.toNat c.sew (fun i => c.et s a.toNat i), 0)) s

/-! ## Sums along paths and subtrees (R66, R186) -/

/-- The combination of a set's values (R186). -/
def VCtx.combine (c : VCtx) (op : FoldOp) (xs : List Nat) : Nat × Flags :=
  match xs with
  | [] => (0, 0)
  | x :: rest =>
    if c.isFp && op == .sum then finish c.ffmt .rne (sumX .rne (xs.map c.ffmt.decode))
    else rest.foldl (fun m y =>
      let r := c.foldStep op m.1 y
      (r.1, m.2 ||| r.2)) (c.foldOne x)

/-- TUP (R186). -/
def execTup (d : Reg) (a : TReg) (b : Reg) (mk : Bool) (op : FoldOp) (s : State) : Out :=
  treeOp (.tup d a b mk op) [b.toNat] [d.toNat] [a.toNat] VCtx.plainFmt (fun c s =>
    let t := c.forest s a
    c.nodeV s t d c.cycValue (fun i => c.combine op ((t.subtree i).map (c.ev s b.toNat c.sew)))) s

/-- TDOWN (R186). -/
def execTdown (d : Reg) (a : TReg) (b : Reg) (mk : Bool) (op : FoldOp) (s : State) : Out :=
  treeOp (.tdown d a b mk op) [b.toNat] [d.toNat] [a.toNat] VCtx.plainFmt (fun c s =>
    let t := c.forest s a
    c.nodeV s t d c.cycValue (fun i => c.combine op ((t.path i).map (c.ev s b.toNat c.sew)))) s

/-- TBCAST (R187). -/
def execTbcast (d : Reg) (a : TReg) (b : Reg) (mk par : Bool) (s : State) : Out :=
  treeOp (.tbcast d a b mk par) [b.toNat] [d.toNat] [a.toNat] anyFmt (fun c s =>
    let t := c.forest s a
    c.nodeV s t d c.cycValue (fun i => (c.ev s b.toNat c.sew (if par then (t.par i).node else t.root i), 0))) s

/-! ## Depths, roots and ancestors (R188, R189) -/

/-- TDEPTH (R188). -/
def execTdepth (d : Reg) (a : TReg) (mk : Bool) (s : State) : Out :=
  treeOp (.tdepth d a mk) [] [d.toNat] [a.toNat] anyFmt (fun c s =>
    let t := c.forest s a
    c.nodeV s t d c.allOnes (fun i => (t.depth i, 0))) s

/-- TROOT (R188): the index is local. -/
def execTroot (d : Reg) (a : TReg) (mk : Bool) (s : State) : Out :=
  treeOp (.troot d a mk) [] [d.toNat] [a.toNat] anyFmt (fun c s =>
    let t := c.forest s a
    c.nodeV s t d c.allOnes (fun i => (t.root i, 0))) s

/-- TANC (R189): the chain of node k = u(x[b]). -/
def execTanc (d : MReg) (a : TReg) (b : Reg) (mk : Bool) (s : State) : Out :=
  treeOp (.tanc d a b mk) [] [] [a.toNat] anyFmt (fun c s =>
    let t := c.forest s a
    let k := c.e.b.toNat
    let nodes := if c.vl ≤ k then [] else if t.cyclic k then t.chain c.vl k else t.path k
    (c.putM s d.toNat (fun i => nodes.contains i), if c.vl ≤ k then 0 else t.flags k)) s

/-- TANC_UP (R189). -/
def execTancUp (d : Reg) (a : TReg) (b : Reg) (mk sb : Bool) (s : State) : Out :=
  treeOp (.tancUp d a b mk sb) (if sb then [] else [b.toNat]) [d.toNat] [a.toNat] anyFmt (fun c s =>
    let t := c.forest s a
    let dist (i : Nat) : Nat := if sb then c.e.b.toNat else c.ev s b.toNat c.sew i
    c.nodeV s t d c.allOnes (fun i => (t.walk (Nat.min (dist i) (t.depth i)) i, 0))) s

/-! ## Masks and orders (R190–R192) -/

/-- TLEAF (R190). -/
def execTleaf (d : MReg) (a : TReg) (mk : Bool) (s : State) : Out :=
  treeOp (.tleaf d a mk) [] [] [a.toNat] anyFmt (fun c s =>
    let t := c.forest s a
    (c.putM s d.toNat (fun i => (List.range c.vl).all (fun j => j == i || (t.par j).node != i)), 0)) s

/-- TCHECK (R191). -/
def execTcheck (d : MReg) (a : TReg) (mk dng : Bool) (s : State) : Out :=
  treeOp (.tcheck d a mk dng) [] [] [a.toNat] anyFmt (fun c s =>
    let t := c.forest s a
    (c.putM s d.toNat (fun i => if dng then t.dangling i else t.cyclic i), c.flagsOf t.flags)) s

/-- The nodes of torder's list (R192): the selected acyclic ones by depth, then the cyclic ones. -/
def Forest.order (t : Forest) (sel : List Nat) (vl : Nat) : List Nat :=
  (List.range vl).flatMap (fun dep => sel.filter (fun i => !t.cyclic i && t.depth i == dep)) ++ sel.filter t.cyclic

/-- TORDER (R192): the predicate selects the nodes listed. -/
def execTorder (d : Reg) (a : TReg) (mk : Bool) (s : State) : Out :=
  treeOp (.torder d a mk) [] [d.toNat] [a.toNat] anyFmt (fun c s =>
    let t := c.forest s a
    let out := t.order c.actives c.vl
    (c.putV' s d.toNat c.sew 1 0 c.vl (fun k => match out[k]? with
      | some i => some i
      | none => if c.zero then some 0 else none), c.flagsOf t.flags)) s

/-! ## Contracting a chunk (R193) -/

/-- An entry names a node of the chunk from `base` on. -/
def inChunk (base vl e : Nat) : Bool := e != 0xFFFF && decide (base ≤ e) && decide (e < base + vl)

/-- TCONTRACT (R193). -/
def execTcontract (d a : TReg) (b : Reg) (mk : Bool) (s : State) : Out :=
  treeOp (.tcontract d a b mk) [] [] [a.toNat] anyFmt (fun c s =>
    let base := c.e.b.toNat
    let f (i : Nat) : Nat :=
      let e := c.et s a.toNat i
      if inChunk base c.vl e then e - base + (s.hart c.p).splitB.toNat else 0xFFFF
    (c.putT s d.toNat f, 0)) s

/-- TCONTRACT_M (R193): the boundary nodes. -/
def execTcontractM (d : MReg) (a : TReg) (b : Reg) (mk : Bool) (s : State) : Out :=
  treeOp (.tcontractM d a b mk) [] [] [a.toNat] anyFmt (fun c s =>
    (c.putM s d.toNat (fun i =>
      let e := c.et s a.toNat i
      e != 0xFFFF && !inChunk c.e.b.toNat c.vl e), 0)) s

end Sys2Proof.Machine
end

