-- ==== Sys2Proof/Machine/Dispatch.lean ====
section
/-! DEFINITION. Machine/Dispatch.lean: the one match from an instruction or device step to its meaning. -/

namespace Sys2Proof.Machine

def exec (i : Instr) (s : State) : Host.Outcome State Fault Refusal :=
  match i with
  | .add d a b => Sys2Proof.Machine.execAdd d a b s
  | .sub d a b => Sys2Proof.Machine.execSub d a b s
  | .mul d a b => Sys2Proof.Machine.execMul d a b s
  | .mulh d a b => Sys2Proof.Machine.execMulh d a b s
  | .mulhu d a b => Sys2Proof.Machine.execMulhu d a b s
  | .div d a b => Sys2Proof.Machine.execDiv d a b s
  | .divu d a b => Sys2Proof.Machine.execDivu d a b s
  | .rem d a b => Sys2Proof.Machine.execRem d a b s
  | .remu d a b => Sys2Proof.Machine.execRemu d a b s
  | .and d a b => Sys2Proof.Machine.execAnd d a b s
  | .or d a b => Sys2Proof.Machine.execOr d a b s
  | .xor d a b => Sys2Proof.Machine.execXor d a b s
  | .sll d a b => Sys2Proof.Machine.execSll d a b s
  | .srl d a b => Sys2Proof.Machine.execSrl d a b s
  | .sra d a b => Sys2Proof.Machine.execSra d a b s
  | .slt d a b => Sys2Proof.Machine.execSlt d a b s
  | .sltu d a b => Sys2Proof.Machine.execSltu d a b s
  | .min d a b => Sys2Proof.Machine.execMin d a b s
  | .max d a b => Sys2Proof.Machine.execMax d a b s
  | .minu d a b => Sys2Proof.Machine.execMinu d a b s
  | .maxu d a b => Sys2Proof.Machine.execMaxu d a b s
  | .clz d a => Sys2Proof.Machine.execClz d a s
  | .ctz d a => Sys2Proof.Machine.execCtz d a s
  | .popc d a => Sys2Proof.Machine.execPopc d a s
  | .rotl d a b => Sys2Proof.Machine.execRotl d a b s
  | .rotr d a b => Sys2Proof.Machine.execRotr d a b s
  | .ext d a b sgn len1 => Sys2Proof.Machine.execExt d a b sgn len1 s
  | .fadd d a b p rc => Sys2Proof.Machine.execFadd d a b p rc s
  | .fsub d a b p rc => Sys2Proof.Machine.execFsub d a b p rc s
  | .fmul d a b p rc => Sys2Proof.Machine.execFmul d a b p rc s
  | .fdiv d a b p rc => Sys2Proof.Machine.execFdiv d a b p rc s
  | .fsqrt d a p rc => Sys2Proof.Machine.execFsqrt d a p rc s
  | .fmadd d a b negp negc p rc => Sys2Proof.Machine.execFmadd d a b negp negc p rc s
  | .fmin d a b p => Sys2Proof.Machine.execFmin d a b p s
  | .fmax d a b p => Sys2Proof.Machine.execFmax d a b p s
  | .fcmp d a b p c => Sys2Proof.Machine.execFcmp d a b p c s
  | .fcvt d a k p rc => Sys2Proof.Machine.execFcvt d a k p rc s
  | .fmv d a dir p => Sys2Proof.Machine.execFmv d a dir p s
  | .fclass d a p => Sys2Proof.Machine.execFclass d a p s
  | .addi d a imm => Sys2Proof.Machine.execAddi d a imm s
  | .andi d a imm => Sys2Proof.Machine.execAndi d a imm s
  | .ori d a imm => Sys2Proof.Machine.execOri d a imm s
  | .xori d a imm => Sys2Proof.Machine.execXori d a imm s
  | .slli d a sh => Sys2Proof.Machine.execSlli d a sh s
  | .srli d a sh => Sys2Proof.Machine.execSrli d a sh s
  | .srai d a sh => Sys2Proof.Machine.execSrai d a sh s
  | .slti d a imm => Sys2Proof.Machine.execSlti d a imm s
  | .sltui d a imm => Sys2Proof.Machine.execSltui d a imm s
  | .lih d imm => Sys2Proof.Machine.execLih d imm s
  | .pcadd d imm => Sys2Proof.Machine.execPcadd d imm s
  | .beq a b off => Sys2Proof.Machine.execBeq a b off s
  | .bne a b off => Sys2Proof.Machine.execBne a b off s
  | .blt a b off => Sys2Proof.Machine.execBlt a b off s
  | .bge a b off => Sys2Proof.Machine.execBge a b off s
  | .bltu a b off => Sys2Proof.Machine.execBltu a b off s
  | .bgeu a b off => Sys2Proof.Machine.execBgeu a b off s
  | .jal d off => Sys2Proof.Machine.execJal d off s
  | .jalr d a off => Sys2Proof.Machine.execJalr d a off s
  | .ldS8 d a imm => Sys2Proof.Machine.execLdS8 d a imm s
  | .ldZ8 d a imm => Sys2Proof.Machine.execLdZ8 d a imm s
  | .ldS16 d a imm => Sys2Proof.Machine.execLdS16 d a imm s
  | .ldZ16 d a imm => Sys2Proof.Machine.execLdZ16 d a imm s
  | .ldS32 d a imm => Sys2Proof.Machine.execLdS32 d a imm s
  | .ldZ32 d a imm => Sys2Proof.Machine.execLdZ32 d a imm s
  | .ld64 d a imm => Sys2Proof.Machine.execLd64 d a imm s
  | .st8 d a imm => Sys2Proof.Machine.execSt8 d a imm s
  | .st16 d a imm => Sys2Proof.Machine.execSt16 d a imm s
  | .st32 d a imm => Sys2Proof.Machine.execSt32 d a imm s
  | .st64 d a imm => Sys2Proof.Machine.execSt64 d a imm s
  | .fld16 d a imm => Sys2Proof.Machine.execFld16 d a imm s
  | .fld32 d a imm => Sys2Proof.Machine.execFld32 d a imm s
  | .fld64 d a imm => Sys2Proof.Machine.execFld64 d a imm s
  | .fst16 d a imm => Sys2Proof.Machine.execFst16 d a imm s
  | .fst32 d a imm => Sys2Proof.Machine.execFst32 d a imm s
  | .fst64 d a imm => Sys2Proof.Machine.execFst64 d a imm s
  | .lda d a sc w => Sys2Proof.Machine.execLda d a sc w s
  | .stl d a sc w => Sys2Proof.Machine.execStl d a sc w s
  | .cas d a b o sc w => Sys2Proof.Machine.execCas d a b o sc w s
  | .amoswap d a b o sc w => Sys2Proof.Machine.execAmoswap d a b o sc w s
  | .amoadd d a b o sc w => Sys2Proof.Machine.execAmoadd d a b o sc w s
  | .amoand d a b o sc w => Sys2Proof.Machine.execAmoand d a b o sc w s
  | .amoor d a b o sc w => Sys2Proof.Machine.execAmoor d a b o sc w s
  | .amoxor d a b o sc w => Sys2Proof.Machine.execAmoxor d a b o sc w s
  | .amomin d a b o sc w => Sys2Proof.Machine.execAmomin d a b o sc w s
  | .amomax d a b o sc w => Sys2Proof.Machine.execAmomax d a b o sc w s
  | .fence k sc => Sys2Proof.Machine.execFence k sc s
  | .csrr d n => Sys2Proof.Machine.execCsrr d n s
  | .csrw d a n => Sys2Proof.Machine.execCsrw d a n s
  | .csrs d a n => Sys2Proof.Machine.execCsrs d a n s
  | .csrc d a n => Sys2Proof.Machine.execCsrc d a n s
  | .trap imm => Sys2Proof.Machine.execTrap imm s
  | .syscall d a => Sys2Proof.Machine.execSyscall d a s
  | .park a => Sys2Proof.Machine.execPark a s
  | .split n => Sys2Proof.Machine.execSplit n s
  | .bar sc => Sys2Proof.Machine.execBar sc s
  | .launch d a => Sys2Proof.Machine.execLaunch d a s
  | .iopen a => Sys2Proof.Machine.execIopen a s
  | .waitge d a b => Sys2Proof.Machine.execWaitge d a b s
  | .ctxsave d a => Sys2Proof.Machine.execCtxsave d a s
  | .ctxload d a => Sys2Proof.Machine.execCtxload d a s
  | .tlbinv a e => Sys2Proof.Machine.execTlbinv a e s
  | .pfx m sense zero cf creg => Sys2Proof.Machine.execPfx m sense zero cf creg s
  | .setvl d a vt => Sys2Proof.Machine.execSetvl d a vt s
  | .setshape d a b => Sys2Proof.Machine.execSetshape d a b s
  | .vmand d a b mk => Sys2Proof.Machine.execVmand d a b mk s
  | .vmor d a b mk => Sys2Proof.Machine.execVmor d a b mk s
  | .vmxor d a b mk => Sys2Proof.Machine.execVmxor d a b mk s
  | .vmnot d a mk => Sys2Proof.Machine.execVmnot d a mk s
  | .vpopc d a mk => Sys2Proof.Machine.execVpopc d a mk s
  | .vfirst d a mk => Sys2Proof.Machine.execVfirst d a mk s
  | .vmspan d a mk v => Sys2Proof.Machine.execVmspan d a mk v s
  | .vmrank d a mk incl => Sys2Proof.Machine.execVmrank d a mk incl s
  | .vadd d a b mk sb => Sys2Proof.Machine.execVadd d a b mk sb s
  | .vsub d a b mk sb => Sys2Proof.Machine.execVsub d a b mk sb s
  | .vmul d a b mk sb => Sys2Proof.Machine.execVmul d a b mk sb s
  | .vmulh d a b mk sb v => Sys2Proof.Machine.execVmulh d a b mk sb v s
  | .vand d a b mk sb => Sys2Proof.Machine.execVand d a b mk sb s
  | .vor d a b mk sb => Sys2Proof.Machine.execVor d a b mk sb s
  | .vxor d a b mk sb => Sys2Proof.Machine.execVxor d a b mk sb s
  | .vsll d a b mk sb => Sys2Proof.Machine.execVsll d a b mk sb s
  | .vsrl d a b mk sb => Sys2Proof.Machine.execVsrl d a b mk sb s
  | .vsra d a b mk sb => Sys2Proof.Machine.execVsra d a b mk sb s
  | .vmin d a b mk sb => Sys2Proof.Machine.execVmin d a b mk sb s
  | .vmax d a b mk sb => Sys2Proof.Machine.execVmax d a b mk sb s
  | .vminu d a b mk sb => Sys2Proof.Machine.execVminu d a b mk sb s
  | .vmaxu d a b mk sb => Sys2Proof.Machine.execVmaxu d a b mk sb s
  | .vsadd d a b mk sb uns => Sys2Proof.Machine.execVsadd d a b mk sb uns s
  | .vssub d a b mk sb uns => Sys2Proof.Machine.execVssub d a b mk sb uns s
  | .vcmp d a b mk sb uns c => Sys2Proof.Machine.execVcmp d a b mk sb uns c s
  | .vmerge d a b mk sb => Sys2Proof.Machine.execVmerge d a b mk sb s
  | .vmv d b mk sb => Sys2Proof.Machine.execVmv d b mk sb s
  | .vmvX d a b mk => Sys2Proof.Machine.execVmvX d a b mk s
  | .vwadd d a b mk sb uns => Sys2Proof.Machine.execVwadd d a b mk sb uns s
  | .vwmul d a b mk sb uns => Sys2Proof.Machine.execVwmul d a b mk sb uns s
  | .vnarrow d a mk sat uns => Sys2Proof.Machine.execVnarrow d a mk sat uns s
  | .vext d a mk f zero => Sys2Proof.Machine.execVext d a mk f zero s
  | .vfadd d a b mk sb rc => Sys2Proof.Machine.execVfadd d a b mk sb rc s
  | .vfsub d a b mk sb rc => Sys2Proof.Machine.execVfsub d a b mk sb rc s
  | .vfmul d a b mk sb rc => Sys2Proof.Machine.execVfmul d a b mk sb rc s
  | .vfdiv d a b mk sb rc => Sys2Proof.Machine.execVfdiv d a b mk sb rc s
  | .vfsqrt d a mk rc => Sys2Proof.Machine.execVfsqrt d a mk rc s
  | .vfmadd d a b mk sb negp negc rc => Sys2Proof.Machine.execVfmadd d a b mk sb negp negc rc s
  | .vfmin d a b mk sb => Sys2Proof.Machine.execVfmin d a b mk sb s
  | .vfmax d a b mk sb => Sys2Proof.Machine.execVfmax d a b mk sb s
  | .vfcmp d a b mk sb c => Sys2Proof.Machine.execVfcmp d a b mk sb c s
  | .vfcvt d a mk src rc => Sys2Proof.Machine.execVfcvt d a mk src rc s
  | .vfexp2 d a mk rc => Sys2Proof.Machine.execVfexp2 d a mk rc s
  | .vflog2 d a mk rc => Sys2Proof.Machine.execVflog2 d a mk rc s
  | .vfrecip d a mk rc => Sys2Proof.Machine.execVfrecip d a mk rc s
  | .vfscale d a b mk sb rc => Sys2Proof.Machine.execVfscale d a b mk sb rc s
  | .vmxdot d a b mk scb sca => Sys2Proof.Machine.execVmxdot d a b mk scb sca s
  | .vquant d a mk src rc => Sys2Proof.Machine.execVquant d a mk src rc s
  | .vredsum d a b mk sb v => Sys2Proof.Machine.execVredsum d a b mk sb v s
  | .vredmax d a b mk sb uns => Sys2Proof.Machine.execVredmax d a b mk sb uns s
  | .vredmin d a b mk sb uns => Sys2Proof.Machine.execVredmin d a b mk sb uns s
  | .vredbit d a b mk sb op => Sys2Proof.Machine.execVredbit d a b mk sb op s
  | .vfredsum d a b mk sb => Sys2Proof.Machine.execVfredsum d a b mk sb s
  | .vfredmax d a b mk sb => Sys2Proof.Machine.execVfredmax d a b mk sb s
  | .vargmax d a mk => Sys2Proof.Machine.execVargmax d a mk s
  | .vcompress d a mk => Sys2Proof.Machine.execVcompress d a mk s
  | .vexpand d a mk => Sys2Proof.Machine.execVexpand d a mk s
  | .vslideup d a b mk => Sys2Proof.Machine.execVslideup d a b mk s
  | .vslidedn d a b mk => Sys2Proof.Machine.execVslidedn d a b mk s
  | .vperm d a b mk sb => Sys2Proof.Machine.execVperm d a b mk sb s
  | .vscan d a mk op => Sys2Proof.Machine.execVscan d a mk op s
  | .vrand d a b mk uni => Sys2Proof.Machine.execVrand d a b mk uni s
  | .vsample d a b mk sb => Sys2Proof.Machine.execVsample d a b mk sb s
  | .vgmax d a b mk => Sys2Proof.Machine.execVgmax d a b mk s
  | .vld d base w o h pol mk x => Sys2Proof.Machine.execVld d base w o h pol mk x s
  | .vlds d base ix w o h pol mk x => Sys2Proof.Machine.execVlds d base ix w o h pol mk x s
  | .vldx d base ix w o h pol mk x => Sys2Proof.Machine.execVldx d base ix w o h pol mk x s
  | .vldff d base w o h pol mk x => Sys2Proof.Machine.execVldff d base w o h pol mk x s
  | .vldxff d base ix w o h pol mk x => Sys2Proof.Machine.execVldxff d base ix w o h pol mk x s
  | .vst d base w o h pol mk => Sys2Proof.Machine.execVst d base w o h pol mk s
  | .vsts d base ix w o h pol mk => Sys2Proof.Machine.execVsts d base ix w o h pol mk s
  | .vstx d base ix w o h pol mk => Sys2Proof.Machine.execVstx d base ix w o h pol mk s
  | .vamo d base ix w o h op mk => Sys2Proof.Machine.execVamo d base ix w o h op mk s
  | .vlock d base ix s_ h mk => Sys2Proof.Machine.execVlock d base ix s_ h mk s
  | .vunlock d ix h mk => Sys2Proof.Machine.execVunlock d ix h mk s
  | .vsave d base h pol => Sys2Proof.Machine.execVsave d base h pol s
  | .vrestore d base h pol => Sys2Proof.Machine.execVrestore d base h pol s
  | .tset d a mk => Sys2Proof.Machine.execTset d a mk s
  | .tget d a mk => Sys2Proof.Machine.execTget d a mk s
  | .tup d a b mk op => Sys2Proof.Machine.execTup d a b mk op s
  | .tdown d a b mk op => Sys2Proof.Machine.execTdown d a b mk op s
  | .tbcast d a b mk par => Sys2Proof.Machine.execTbcast d a b mk par s
  | .tdepth d a mk => Sys2Proof.Machine.execTdepth d a mk s
  | .tanc d a b mk => Sys2Proof.Machine.execTanc d a b mk s
  | .tancUp d a b mk sb => Sys2Proof.Machine.execTancUp d a b mk sb s
  | .troot d a mk => Sys2Proof.Machine.execTroot d a mk s
  | .tcontract d a b mk => Sys2Proof.Machine.execTcontract d a b mk s
  | .tcontractM d a b mk => Sys2Proof.Machine.execTcontractM d a b mk s
  | .tleaf d a mk => Sys2Proof.Machine.execTleaf d a mk s
  | .tcheck d a mk dng => Sys2Proof.Machine.execTcheck d a mk dng s
  | .torder d a mk => Sys2Proof.Machine.execTorder d a mk s
  | .hcfg a b => Sys2Proof.Machine.execHcfg a b s
  | .hins d a b mk => Sys2Proof.Machine.execHins d a b mk s
  | .hprb d a b mk => Sys2Proof.Machine.execHprb d a b mk s
  | .hdel d a mk => Sys2Proof.Machine.execHdel d a mk s
  | .hacc d a b mk op => Sys2Proof.Machine.execHacc d a b mk op s
  | .hdrn d a => Sys2Proof.Machine.execHdrn d a s
  | .strike a b => Sys2Proof.Machine.execStrike a b s
  | .lde d a b mk => Sys2Proof.Machine.execLde d a b mk s
  | .tsite d a => Sys2Proof.Machine.execTsite d a s
  | .ttag a b => Sys2Proof.Machine.execTtag a b s
  | .tremap d a b => Sys2Proof.Machine.execTremap d a b s
  | .tapDot d a b mk tap => Sys2Proof.Machine.execTapDot d a b mk tap s
  | .tapFin d mk tap => Sys2Proof.Machine.execTapFin d mk tap s
  | .tapSteer d a b mk tap => Sys2Proof.Machine.execTapSteer d a b mk tap s
  | .mlds d a push pop late fmt => Sys2Proof.Machine.execMlds d a push pop late fmt s
  | .mswap d push pop late => Sys2Proof.Machine.execMswap d push pop late s
  | .mmac d a b push pop late op => Sys2Proof.Machine.execMmac d a b push pop late op s
  | .mfeed a push pop mk => Sys2Proof.Machine.execMfeed a push pop mk s
  | .mpull d push pop mk => Sys2Proof.Machine.execMpull d push pop mk s
  | .vopacc d a b push pop mk n1 => Sys2Proof.Machine.execVopacc d a b push pop mk n1 s
  | .xcopy a push pop => Sys2Proof.Machine.execXcopy a push pop s
  | .xred a push pop => Sys2Proof.Machine.execXred a push pop s
  | .strcfg d a b push pop w => Sys2Proof.Machine.execStrcfg d a b push pop w s
  | .vldS d a push pop mk => Sys2Proof.Machine.execVldS d a push pop mk s
  | .tokpush d => Sys2Proof.Machine.execTokpush d s
  | .tokpop d => Sys2Proof.Machine.execTokpop d s
  | .viqPush w => Sys2Proof.Machine.execViqPush w s
  | .illegalWord w code => Sys2Proof.Machine.execIllegalWord w code s
  | .fetchFault addr code => Sys2Proof.Machine.execFetchFault addr code s
  | .budgetExhausted p => Sys2Proof.Machine.execBudgetExhausted p s
  | .parkWake p sup => Sys2Proof.Machine.execParkWake p sup s
  | .waitgeReread p sup => Sys2Proof.Machine.execWaitgeReread p sup s
  | .vectorStorePerformed p slice => Sys2Proof.Machine.execVectorStorePerformed p slice s
  | .scalarStorePerformed p sup => Sys2Proof.Machine.execScalarStorePerformed p sup s
  | .mxaCommand c => Sys2Proof.Machine.execMxaCommand c s
  | .mxaCommandDone c => Sys2Proof.Machine.execMxaCommandDone c s
  | .copyIssue ce k => Sys2Proof.Machine.execCopyIssue ce k s
  | .releasedAdd ce k => Sys2Proof.Machine.execReleasedAdd ce k s
  | .visibleAdd ce k => Sys2Proof.Machine.execVisibleAdd ce k s
  | .copyFailure ce k code item => Sys2Proof.Machine.execCopyFailure ce k code item s
  | .streamFetch p k => Sys2Proof.Machine.execStreamFetch p k s
  | .missReply die line => Sys2Proof.Machine.execMissReply die line s
  | .preemptDelivery p k => Sys2Proof.Machine.execPreemptDelivery p k s
  | .restoreSuspended p va => Sys2Proof.Machine.execRestoreSuspended p va s
  | .launchCompletion n => Sys2Proof.Machine.execLaunchCompletion n s
  | .prgResponse die k ok => Sys2Proof.Machine.execPrgResponse die k ok s
  | .claim port req v => Sys2Proof.Machine.execClaim port req v s
  | .cmdProd master v => Sys2Proof.Machine.execCmdProd master v s
  | .registerBlockWrite master off v => Sys2Proof.Machine.execRegisterBlockWrite master off v s
  | .fflagsWrite v => Sys2Proof.Machine.execFflagsWrite v s
  | .vtypeWrite v => Sys2Proof.Machine.execVtypeWrite v s
  | .vlWrite v => Sys2Proof.Machine.execVlWrite v s
  | .fmaskWrite v => Sys2Proof.Machine.execFmaskWrite v s
  | .vdirtyWrite v => Sys2Proof.Machine.execVdirtyWrite v s
  | .shtcurWrite v => Sys2Proof.Machine.execShtcurWrite v s
  | .shtovfWrite v => Sys2Proof.Machine.execShtovfWrite v s
  | .pntbaseWrite v => Sys2Proof.Machine.execPntbaseWrite v s
  | .pfxsWrite v => Sys2Proof.Machine.execPfxsWrite v s
  | .peerTrainAck p pkg => Sys2Proof.Machine.execPeerTrainAck p pkg s
  | .dirtyEviction die line => Sys2Proof.Machine.execDirtyEviction die line s
  | .hbmScrub die sector => Sys2Proof.Machine.execHbmScrub die sector s
  | .unitGrant core u => Sys2Proof.Machine.execUnitGrant core u s
  | .atsInvalidation va => Sys2Proof.Machine.execAtsInvalidation va s
  | .hostAccess addr data => Sys2Proof.Machine.execHostAccess addr data s
  | .launchPacket data => Sys2Proof.Machine.execLaunchPacket data s
  | .ringCons master v => Sys2Proof.Machine.execRingCons master v s
  | .submitLaunch desc report cpl => Sys2Proof.Machine.execSubmitLaunch desc report cpl s
  | .loadObject addr size refusal cpl => Sys2Proof.Machine.execLoadObject addr size refusal cpl s
  | .unload handle cpl => Sys2Proof.Machine.execUnload handle cpl s
  | .readDescriptor handle name buf cpl => Sys2Proof.Machine.execReadDescriptor handle name buf cpl s
  | .registerAsid asid root cpl => Sys2Proof.Machine.execRegisterAsid asid root cpl s
  | .defaultAsid asid cpl => Sys2Proof.Machine.execDefaultAsid asid cpl s
  | .clusterMask mask cpl => Sys2Proof.Machine.execClusterMask mask cpl s
  | .suspendLaunch n cpl => Sys2Proof.Machine.execSuspendLaunch n cpl s
  | .terminateLaunch n cpl => Sys2Proof.Machine.execTerminateLaunch n cpl s
  | .resume n cpl => Sys2Proof.Machine.execResume n cpl s
  | .invalidate asid va extent cpl => Sys2Proof.Machine.execInvalidate asid va extent cpl s
  | .readCounters buf flags cpl => Sys2Proof.Machine.execReadCounters buf flags cpl s
  | .handOver master cpl => Sys2Proof.Machine.execHandOver master cpl s
  | .attest nonce buf cpl => Sys2Proof.Machine.execAttest nonce buf cpl s
  | .restartCanvas pscore cpl => Sys2Proof.Machine.execRestartCanvas pscore cpl s
  | .stageCanvas addr size cpl => Sys2Proof.Machine.execStageCanvas addr size cpl s
  | .packageReset image => Sys2Proof.Machine.execPackageReset image s
  | .bootOffer pkg images => Sys2Proof.Machine.execBootOffer pkg images s
  | .throttleStep die up => Sys2Proof.Machine.execThrottleStep die up s
  | .thermalTrip die => Sys2Proof.Machine.execThermalTrip die s
  | .peerAccess pkg addr data => Sys2Proof.Machine.execPeerAccess pkg addr data s
  | .fenceSv => Sys2Proof.Machine.execFenceSv s
  | .vdrain => Sys2Proof.Machine.execVdrain s
  | .lsync => Sys2Proof.Machine.execLsync s
  | .tret => Sys2Proof.Machine.execTret s
  | .join => Sys2Proof.Machine.execJoin s
  | .exit => Sys2Proof.Machine.execExit s
  | .icommit => Sys2Proof.Machine.execIcommit s
  | .iabort => Sys2Proof.Machine.execIabort s
  | .placementScan => Sys2Proof.Machine.execPlacementScan s
  | .eventRecord => Sys2Proof.Machine.execEventRecord s
  | .linkDown => Sys2Proof.Machine.execLinkDown s

end Sys2Proof.Machine
end

