-- ==== Sys2Proof/Machine/Due.lean ====
section
/-! DEFINITION. Machine/Due.lean: the device work that a step does before any thread goes on, when the environment has made no
choice (log 1): each is one of the device's own rows, done as soon as it can be. -/

namespace Sys2Proof.Machine

/-- A region whose budget is spent is abandoned (R36). -/
def dueBudget (s : State) : Option Out :=
  s.spentRegion.bind (fun p => if s.clocked (coreOf p) then some (execBudgetExhausted p s) else none)

/-- A held pre-emption request can be taken (R36, R350, R354). -/
def canPreempt (s : State) (p : Nat) (h : Hart) : Bool :=
  h.preempt.isSome && s.clocked (coreOf p) && !(s.sup p).svc && h.pageWait.isNone && h.stopAt.isNone && (match h.region with
    | some r => s.regionParked (coreOf p) r
    | none => true)

/-- A request that can be taken is. -/
def duePreempt (s : State) : Option Out :=
  (s.harts.find? (fun e => canPreempt s e.1 e.2)).map (fun e => execPreemptDelivery e.1 0 s)

/-- A parked thread whose line was written goes on, or reads its cell again (R134, R135). -/
def wake (s : State) (w : Watch) : Option Out :=
  if !w.hit || !s.clocked (coreOf w.p) || overFor s w.sup w.p then none
  else match parkOf s (threadAgent w.sup w.p) with
    | some .line => some (execParkWake w.p w.sup s)
    | some (.cell _ _ _) => some (execWaitgeReread w.p w.sup s)
    | _ => none

/-- A launch whose harts and commands have ended completes (R28). -/
def dueLaunch (s : State) : Option Out :=
  (s.peg.launches.find? (launchDone s)).map (fun l => execLaunchCompletion l.n s)

/-- The MXA of a cluster begins its next command, or goes on with one (R288). -/
def dueMxa (s : State) (c : Nat) : Option Out :=
  if !s.clocked (c * 4) then none
  else if (mxaBegins s c).isSome then some (execMxaCommand c s)
  else ((s.cluster c).mxa.find? (fun d => (runMxa s c d).cluster c ≠ s.cluster c)).map (fun d =>
    .next (s.as (.mcc c) (fun s => runMxa s c d)))

/-- A cluster's copy command moves to its engine (R271). -/
def dueTake (s : State) (c : Nat) : Option Out :=
  if (s.ce (c / 2)).queue.length < 32 ∧ (readyCopy s c).isSome ∧ s.clocked (c * 4) then some (execCopyIssue (c / 2) 0 s) else none

/-- A copy engine goes on with its oldest command, or issues one (R271, R298). -/
def dueCopy (s : State) (e : Nat) : Option Out :=
  let k := s.ce e
  if !s.clocked (e * 8) then none
  else match k.exec with
  | d :: _ =>
    (match d.kind with
     | .copy _ _ (.issued _ _ _) _ _ => some (execReleasedAdd e 0 s)
     | _ => some (execVisibleAdd e 0 s))
  | [] => (k.queue.findIdx? (fun d => (issueCopy s e d).isSome)).map (fun j => execCopyIssue e j s)

/-- The peg core takes the ring's next command (R386, R388). -/
def dueCommand (s : State) : Option Out :=
  (nextCommand s).map (fun bs => match cmdOf bs with
    | some c => runCommand c s
    | none => .next (skipBad 256 s))

/-- Whether an agent is a half of the hart on scalar core p, or its supervisor thread. -/
def actsOn (a : Agent) (p : Nat) : Bool := a == .user p || a == .vec p || a == .sup p

/-- The first slice of a hart with a waiting access. -/
def waitingSlice (h : Hart) : Option Nat := (List.range 8).find? (fun k => !(vget [] h.ssq k).isEmpty)

/-- The hart or supervisor thread of scalar core p does not execute now: none of its halves does, or the one whose turn it is
cannot go on (R40). -/
def idle (s : State) (p : Nat) : Bool := s.clocked (coreOf p) && !(actsOn s.agent p && s.runnable s.agent)

/-- A store that waits in a queue of a thread that does not execute now is performed (R40, R235, R327, R341). -/
def dueStore (s : State) : Option Out :=
  let hs := s.harts.filter (fun e => idle s e.1)
  ((hs.find? (fun e => !e.2.sbuf.isEmpty)).map (fun e => execScalarStorePerformed e.1 false s)) <|>
  ((s.sups.find? (fun e => !e.2.sbuf.isEmpty && idle s e.1)).map (fun e => execScalarStorePerformed e.1 true s)) <|>
  (hs.findSome? (fun e => (waitingSlice e.2).map (fun k => execVectorStorePerformed e.1 k s))) <|>
  ((s.trains.find? (fun t => idle s t.1)).map (fun t => execPeerTrainAck t.1 t.2.1 s))

/-- The device work that is due, in a fixed order (log 1). -/
def due (s : State) : Option Out :=
  dueBudget s <|> duePreempt s <|> s.watches.findSome? (wake s) <|> dueLaunch s <|>
  s.clusters.findSome? (fun e => dueMxa s e.1) <|> s.clusters.findSome? (fun e => dueTake s e.1) <|>
  s.ces.findSome? (fun e => dueCopy s e.1) <|>
  (if eventReady s then some (execEventRecord s) else none) <|> dueCommand s <|> (offer s).map .next <|> dueStore s

end Sys2Proof.Machine
end

