-- ==== Sys2Proof/Machine/Step.lean ====
section
/-! DEFINITION. Machine/Step.lean: one step of the machine. The step performs one row of the opcode table: the next choice of
`sched`; with none, device work that is due; else the executing agent's next instruction; and an agent that cannot go on, or
that goes backward, lets another run (log 1). -/

namespace Sys2Proof.Machine

/-- A row is performed: what it may not be passed by has not passed it, and what it may not pass is done (R257, R328); before an
exception every load is performed. -/
def perform (i : Instr) (s : State) : Host.Outcome State Fault Refusal :=
  let s := (s.ready i).forget i
  match exec i s with
  | .next t => if s.unsettled && s.newTrap t then exec i s.settled else .next t
  | o => o

/-- The executing agent's next row: the head of its VIQ for a vector half, its next word for a thread. -/
def stepAgent (s : State) : Host.Outcome State Fault Refusal :=
  match s.agent with
  | .vec p =>
    match (s.hart p).viq with
    | e :: _ => perform e.instr s
    | [] => .next { s with agent := .user p }
  | _ => if s.fetchWaits then waits s else perform s.nextInstr s.noteFetch

/-- A chosen agent goes on; a chosen user thread pushes its vector words (R266). -/
def runAgent (s : State) : Host.Outcome State Fault Refusal :=
  if !s.runnable s.agent then .next s
  else match s.agent with
    | .user _ => if s.fetchWaits then waits s else perform (pushForm s.nextInstr) s.noteFetch
    | _ => stepAgent s

/-- A row of the device is performed: loads stay late past the rows that accesses of other agents, of copy engines and of the
memory system are. -/
def performRow (i : Instr) (s : State) : Host.Outcome State Fault Refusal :=
  if s.mayAct i then exec i (if !s.unsettled then s else if State.passesLoads i then settleRemaps s else s.settled) else .next s

/-- The environment's choice. -/
def takeChoice (c : Choice) (s : State) : Host.Outcome State Fault Refusal :=
  match c with
  | .ev i => performRow i s
  | .run a => runAgent { s with agent := a }
  | .groups p n => runAgent (s.pauseHead p n)
  | .early p va => .next (s.goEarly p va)
  | .late a j => .next ((settleRemaps s).readLate a j)
  | .corrected cls unit core => .next (s.correct cls unit core)
  | .upset u => .next ((if s.unsettled then s.settled else s).strikeAt u)

/-- The step of a package that has halted at boot (R392): only a package reset ends it. -/
def haltedStep (s : State) : Host.Outcome State Fault Refusal :=
  match s.sched with
  | .ev (.packageReset image) :: rest => Sys2Proof.Machine.execPackageReset image { s with sched := rest }
  | _ => .fault .bootFailure

/-- One step. -/
def step (s : State) : Host.Outcome State Fault Refusal :=
  if s.halted then haltedStep s
  else match s.sched with
    | c :: rest => takeChoice c { s with sched := rest }
    | [] =>
      match due s with
      | some o => if s.unsettled then .next s.settled else o
      | none => if s.runnable s.agent then s.turn (stepAgent s) else .next { s with agent := s.rotate }

/-- `s` with a word stored where `step` fetches its next instruction (log 9). -/
def State.withFetchWord (s : State) (nbits w : Nat) : State := placeWord s (w % 2 ^ nbits)

end Sys2Proof.Machine
end

