-- ==== Sys2Proof/Safety.lean ====
section
/-! DEFINITION. Safety.lean: what counts as a safe run, and the terms in which claims say what a step leaves as it was. -/

namespace Sys2Proof.Machine

/-- Memory keeps its canonical form. -/
def State.memOk (s : State) : Prop := s.mem.wf = true

/-- A step goes on. -/
def goesOn (s : State) : Prop := ∃ t, step s = .next t

/-! ## Who executes, and with which registers -/

/-- A scalar thread executes: a user thread, a supervisor thread or an MCC, and not a vector half. -/
def State.isScalar (s : State) : Prop := ∀ p, s.agent ≠ .vec p

/-- The registers of the thread that executes. -/
def State.me (s : State) : Thread := s.thread s.agent

/-- None of the registers that an instruction names is pending (R94), and none that it reads is uncorrectable (R219). -/
structure Ready (s : State) (u : Uses) : Prop where
  x : s.pendingX (u.rx ++ u.wx) = false
  f : s.pendingF (u.rf ++ u.wf) = false
  badX : s.badX u.rx = false
  badF : s.badF u.rf = false

/-! ## Frames of scalar instructions -/

/-- One instruction off a region's budget (R36): the one that brings it to zero is named, by hart slot and address. -/
def Region.charged (g : Region) (slot : Nat) (addr : Word) : Region :=
  if g.budget = 0 then g
  else if g.budget = 1 then { g with budget := 0, spent := some (slot, addr) }
  else { g with budget := g.budget - 1 }

/-- Core k after an instruction at `addr` of hart p: one off the budget of the region that the hart is in (R36). -/
def State.chargedFor (s : State) (p : Nat) (addr : Word) (k : Nat) : VCore :=
  match (s.hart p).region with
  | none => s.vcore k
  | some r =>
    if k = coreOf p then
      { s.vcore k with
        regions := (s.vcore k).regions.map (fun g => if g.opener = r then g.charged (slotOf p) addr else g) }
    else s.vcore k

/-- Core k after an instruction at `addr` of the executing thread; only a user thread's counts. -/
def State.chargedAt (s : State) (addr : Word) (k : Nat) : VCore :=
  match s.agent with
  | .user p => s.chargedFor p addr k
  | _ => s.vcore k

/-- Core k after the executing thread's next instruction (R36). -/
def State.charged (s : State) (k : Nat) : VCore := s.chargedAt s.pc k

/-- Two states of a core that differ in its cached translations at most. -/
def sameButTlb (a b : VCore) : Prop := b = { a with tlb := b.tlb }

/-- The state with a register of the executing thread freed of an uncorrectable error, as a write of it does (R219; log 66). -/
def State.cleaned (s : State) (toF : Bool) (r : Reg) : State := s.cleanReg s.agent toF r

/-- The executing scalar thread has retired one instruction with the registers `th`; a user thread's hart changes by `hf`
and counts the retirement, a supervisor changes by `uf`; every other hart, supervisor and cluster is as before. -/
structure Threads (s t : State) (th : Thread) (hf : Hart → Hart) (uf : Sup → Sup) : Prop where
  hart : ∀ q, t.hart q =
    if s.agent = .user q then { hf (s.hart q) with thr := th, retired := (s.hart q).retired + 1 } else s.hart q
  sup : ∀ q, t.sup q = if s.agent = .sup q then { uf (s.sup q) with thr := th } else s.sup q
  cluster : ∀ c, t.cluster c = if s.agent = .mcc c then { s.cluster c with mcc := th } else s.cluster c

/-- Everything outside the harts, supervisors, clusters and cores is as before: memory, the L2 caches, the peg core, the
watchers and the queues of the device. -/
def sameOutside (s t : State) : Prop :=
  t = { s with harts := t.harts, sups := t.sups, clusters := t.clusters, cores := t.cores }

/-- A scalar instruction that touches registers only: `th` holds the thread's registers and pc after it, and the region that its
hart is in pays for it (R36). -/
structure Stepped (s t : State) (th : Thread) (hf : Hart → Hart) (uf : Sup → Sup) : Prop where
  threads : Threads s t th hf uf
  outside : sameOutside s t
  cores : ∀ k, t.vcore k = s.charged k

/-- `t` is `s` after an instruction that writes one x register and goes on to the next word. -/
def WroteX (s t : State) (d : Reg) (v : Word) : Prop :=
  Stepped (s.cleaned false d) t { s.me.wx d v with pc := s.pc + 4 } id id

/-- The sticky flags of a hart or supervisor with further ones set (R58). -/
def hartFlags (f : Flags) (h : Hart) : Hart := { h with fflags := h.fflags ||| f }
def supFlags (f : Flags) (u : Sup) : Sup := { u with fflags := u.fflags ||| f }

/-- A control instruction has set the pc of a hart (R129). -/
def jumped (h : Hart) : Hart := { h with viaTret := false }

/-- A hart's event counters after accesses (R320): as they were while EVSEL selects nothing. -/
def countsOnly (a b : Hart) : Prop := a.evsel = 0 → b.evcnt = a.evcnt

/-- A scalar load: beside the thread, the hart's event counters and its loads performed late, only what the memory system
remembers of the access may change: L2 holders, miss registers, copies of peer lines, cached translations, and the free-value
counter. No byte of memory changes. -/
structure LoadStepped (s t : State) (th : Thread) (ls : List Late) : Prop where
  hart : ∀ q, if s.agent = .user q then
      t.hart q = { s.hart q with
        thr := th, retired := (s.hart q).retired + 1, evcnt := (t.hart q).evcnt, late := ls } ∧ countsOnly (s.hart q) (t.hart q)
    else t.hart q = s.hart q
  sup : ∀ q, t.sup q = if s.agent = .sup q then { s.sup q with thr := th, late := ls } else s.sup q
  cluster : ∀ c, t.cluster c = if s.agent = .mcc c then { s.cluster c with mcc := th } else s.cluster c
  outside : t = { s with
    harts := t.harts, sups := t.sups, clusters := t.clusters, cores := t.cores, l2 := t.l2, misses := t.misses
    peerCopies := t.peerCopies, free := t.free }
  cores : ∀ k, sameButTlb (s.charged k) (t.vcore k)

/-- Two states of a hart that differ in its registers, its count of retirements, its event counters and its queue of scalar
stores (with what waits for it) at most. -/
def sameButStores (a b : Hart) : Prop :=
  b = { a with
    thr := b.thr, retired := b.retired, evcnt := b.evcnt, sbuf := b.sbuf, stamp := b.stamp, svNeed := b.svNeed
    dNeed := b.dNeed, dNeedFar := b.dNeedFar }

/-- Two states of a hart that differ in its registers, its count of retirements, its event counters, its slice store queues and
what an lsync joins at most. -/
def sameButSlices (a b : Hart) : Prop :=
  b = { a with
    thr := b.thr, retired := b.retired, evcnt := b.evcnt, ssq := b.ssq, svJoin := b.svJoin, hold := b.hold }

/-- Two states of a core that differ in its cached translations and its journal of births at most. -/
def sameButBirths (a b : VCore) : Prop := b = { a with tlb := b.tlb, journal := b.journal }

/-- A scalar store, atomic or fence: beside the thread and its queue of stores, only memory and what the memory system
remembers may change. Which bytes of memory change, the claim says. -/
structure StoreStepped (s t : State) (th : Thread) : Prop where
  hart : ∀ q, if s.agent = .user q then
      sameButStores (s.hart q) (t.hart q) ∧ (t.hart q).thr = th ∧ (t.hart q).retired = (s.hart q).retired + 1
    else t.hart q = s.hart q
  sup : ∀ q, t.sup q = if s.agent = .sup q then { s.sup q with thr := th, sbuf := (t.sup q).sbuf } else s.sup q
  cluster : ∀ c, t.cluster c = if s.agent = .mcc c then { s.cluster c with mcc := th } else s.cluster c
  outside : t = { s with
    harts := t.harts, sups := t.sups, clusters := t.clusters, cores := t.cores, mem := t.mem, watches := t.watches
    l2 := t.l2, misses := t.misses, peerCopies := t.peerCopies, badSectors := t.badSectors
    lostSectors := t.lostSectors, free := t.free }
  cores : ∀ k, sameButBirths (s.charged k) (t.vcore k)

/-- A drain of the executing hart's vector stores: beside its thread, only its slice store queues and element trains, memory and
what the memory system remembers may change. Which bytes of memory change, the claim says. -/
structure DrainStepped (s t : State) (p : Nat) (th : Thread) : Prop where
  hart : sameButSlices (s.hart p) (t.hart p) ∧ (t.hart p).thr = th ∧ (t.hart p).retired = (s.hart p).retired + 1
  others : ∀ q, q ≠ p → t.hart q = s.hart q
  outside : t = { s with
    harts := t.harts, cores := t.cores, mem := t.mem, watches := t.watches, l2 := t.l2, misses := t.misses
    peerCopies := t.peerCopies, badSectors := t.badSectors, lostSectors := t.lostSectors, free := t.free
    trains := t.trains }
  cores : ∀ k, sameButBirths (s.charged k) (t.vcore k)

end Sys2Proof.Machine
end

