-- ==== Sys2Proof/Certificates/Slice0/Obligations.lean ====
section
/-! DEFINITION. Certificates/Slice0/Obligations.lean: the statements about the machine, each formalising rules of the spec, and
the terms they are written in. -/

namespace Sys2Proof.Claims

open Sys2Proof.Machine

/-! ## Class 0x1 and 0x2 integers (R117–R119, R127), in the spec's own terms -/

/-- The low n bits set. -/
def lowMask (n : Nat) : Word := BitVec.ofNat 64 (2 ^ n - 1)

/-- R119's bit field. -/
def extOf (a b : Word) (len : Nat) (sgnd : Bool) : Word :=
  let field := (a >>> (b &&& 63).toNat) &&& lowMask len
  if sgnd && field.getLsbD (len - 1) then field ||| ~~~(lowMask len) else field

/-- R118's quotients and remainders. -/
def quotS (a b : Word) : Word :=
  if b = 0 then (if a.msb then 0x8000000000000000#64 else 0x7FFFFFFFFFFFFFFF#64)
  else if a = 0x8000000000000000#64 ∧ b = BitVec.allOnes 64 then 0x7FFFFFFFFFFFFFFF#64
  else a.sdiv b
def quotU (a b : Word) : Word := if b = 0 then BitVec.allOnes 64 else a / b
def remainS (a b : Word) : Word := if b = 0 then a else a.srem b
def remainU (a b : Word) : Word := if b = 0 then a else a % b

/-- How many of bits 63:0 hold, from one end, before the first that does not. -/
def runLength (f : Nat → Bool) : Nat := ((List.range 64).takeWhile f).length

/-- 1 or 0. -/
def oneIf (c : Bool) : Word := if c then 1 else 0

/-- The registers that an integer instruction of class 0x1 reads, the one it writes, and the value (R117). -/
def intResult (i : Instr) (x : Reg → Word) : Option (List Reg × Reg × Word) :=
  match i with
  | .add d a b => some ([a, b], d, x a + x b)
  | .sub d a b => some ([a, b], d, x a - x b)
  | .mul d a b => some ([a, b], d, x a * x b)
  | .mulh d a b => some ([a, b], d, ((x a).signExtend 128 * (x b).signExtend 128).extractLsb' 64 64)
  | .mulhu d a b => some ([a, b], d, ((x a).zeroExtend 128 * (x b).zeroExtend 128).extractLsb' 64 64)
  | .div d a b => some ([a, b], d, quotS (x a) (x b))
  | .divu d a b => some ([a, b], d, quotU (x a) (x b))
  | .rem d a b => some ([a, b], d, remainS (x a) (x b))
  | .remu d a b => some ([a, b], d, remainU (x a) (x b))
  | .and d a b => some ([a, b], d, x a &&& x b)
  | .or d a b => some ([a, b], d, x a ||| x b)
  | .xor d a b => some ([a, b], d, x a ^^^ x b)
  | .sll d a b => some ([a, b], d, x a <<< (x b &&& 63))
  | .srl d a b => some ([a, b], d, x a >>> (x b &&& 63))
  | .sra d a b => some ([a, b], d, (x a).sshiftRight' (x b &&& 63))
  | .rotl d a b => some ([a, b], d, (x a).rotateLeft (x b &&& 63).toNat)
  | .rotr d a b => some ([a, b], d, (x a).rotateRight (x b &&& 63).toNat)
  | .slt d a b => some ([a, b], d, oneIf ((x a).slt (x b)))
  | .sltu d a b => some ([a, b], d, oneIf ((x a).ult (x b)))
  | .min d a b => some ([a, b], d, if (x b).slt (x a) then x b else x a)
  | .max d a b => some ([a, b], d, if (x a).slt (x b) then x b else x a)
  | .minu d a b => some ([a, b], d, if (x b).ult (x a) then x b else x a)
  | .maxu d a b => some ([a, b], d, if (x a).ult (x b) then x b else x a)
  | .clz d a => some ([a], d, BitVec.ofNat 64 (runLength (fun i => !(x a).getLsbD (63 - i))))
  | .ctz d a => some ([a], d, BitVec.ofNat 64 (runLength (fun i => !(x a).getLsbD i)))
  | .popc d a => some ([a], d, BitVec.ofNat 64 ((List.range 64).filter (x a).getLsbD).length)
  | .ext d a b sgnd len1 => some ([a, b], d, extOf (x a) (x b) (len1.toNat + 1) sgnd)
  | _ => none

/-- The same of class 0x2 (R127); `pc` is the address of the word. -/
def immResult (i : Instr) (x : Reg → Word) (pc : Word) : Option (List Reg × Reg × Word) :=
  match i with
  | .addi d a imm => some ([a], d, x a + imm.signExtend 64)
  | .andi d a imm => some ([a], d, x a &&& imm.zeroExtend 64)
  | .ori d a imm => some ([a], d, x a ||| imm.zeroExtend 64)
  | .xori d a imm => some ([a], d, x a ^^^ imm.zeroExtend 64)
  | .slli d a sh => some ([a], d, x a <<< sh.toNat)
  | .srli d a sh => some ([a], d, x a >>> sh.toNat)
  | .srai d a sh => some ([a], d, (x a).sshiftRight sh.toNat)
  | .slti d a imm => some ([a], d, oneIf ((x a).slt (imm.signExtend 64)))
  | .sltui d a imm => some ([a], d, oneIf ((x a).ult (imm.signExtend 64)))
  | .lih d imm => some ([], d, imm.signExtend 64 <<< 12)
  | .pcadd d imm => some ([], d, pc + (imm.signExtend 64 <<< 12))
  | _ => none

end Sys2Proof.Claims

open Sys2Proof Sys2Proof.Machine Sys2Proof.Claims

/-- R117 (with R118 for division and R119 for ext): an integer instruction of class 0x1 writes x[d] with the table's value,
goes on to the next word and leaves everything else as it was: every other register (x0 included: writes to it are
discarded), every flag, all of memory. No operand value traps.
R118: what the division instructions leave in x[d], d other than x0: in the borderline cases the table's values, in every
other case a quotient and a remainder with a = b × quotient + remainder, the remainder smaller in magnitude than b. -/
def Obligations.IntegerRegisterResults : Prop :=
  (∀ (i : Instr) (s : State) (us : List Reg) (d : Reg) (v : Word), intResult i s.rx = some (us, d, v) →
      s.isScalar → Ready s { rx := us, wx := [d] } → ∃ t, exec i s = .next t ∧ WroteX s t d v ∧
        t.rx d = (if d = 0 then 0 else v) ∧ ∀ r, r ≠ d → t.rx r = s.rx r) ∧
  (∀ (s : State) (d a b : Reg), s.isScalar → Ready s { rx := [a, b], wx := [d] } → d ≠ 0 →
      ∃ q r qu ru, exec (.div d a b) s = .next q ∧ exec (.rem d a b) s = .next r ∧
        exec (.divu d a b) s = .next qu ∧ exec (.remu d a b) s = .next ru ∧
        (if s.rx b = 0 then
          ((q.rx d).toInt = if 0 ≤ (s.rx a).toInt then 2 ^ 63 - 1 else -2 ^ 63) ∧ (qu.rx d).toNat = 2 ^ 64 - 1 ∧
            r.rx d = s.rx a ∧ ru.rx d = s.rx a
        else
          ((s.rx a).toNat = (s.rx b).toNat * (qu.rx d).toNat + (ru.rx d).toNat ∧ (ru.rx d).toNat < (s.rx b).toNat) ∧
          (if (s.rx a).toInt = -2 ^ 63 ∧ (s.rx b).toInt = -1 then (q.rx d).toInt = 2 ^ 63 - 1 ∧ r.rx d = 0
           else (s.rx a).toInt = (s.rx b).toInt * (q.rx d).toInt + (r.rx d).toInt ∧
             (r.rx d).toInt.natAbs < (s.rx b).toInt.natAbs ∧ 0 ≤ (r.rx d).toInt * (s.rx a).toInt)))

/-- R127: the class 0x2 instructions write x[d] with the table's value, go on to the next word and leave everything else as it
was; a word of slli, srli or srai with a bit of 11:6 set decodes to nothing. -/
def Obligations.ImmediateResults : Prop :=
  (∀ (i : Instr) (s : State) (us : List Reg) (d : Reg) (v : Word), immResult i s.rx s.pc = some (us, d, v) →
    s.isScalar → Ready s { rx := us, wx := [d] } → ∃ t, exec i s = .next t ∧ WroteX s t d v ∧
      t.rx d = (if d = 0 then 0 else v) ∧ ∀ r, r ≠ d → t.rx r = s.rx r) ∧
  ∀ w : BitVec 32, w.toNat / 2 ^ 28 = 2 → 4 ≤ w.toNat / 2 ^ 22 % 2 ^ 6 → w.toNat / 2 ^ 22 % 2 ^ 6 ≤ 6 →
    w.toNat / 2 ^ 6 % 2 ^ 6 ≠ 0 → ∀ i, decodeWord w ≠ .ok i

namespace Sys2Proof.Claims

/-! ## Control instructions (R128) -/

/-- The registers a branch compares, whether it is taken, and its offset in bytes (R72, R128). -/
def branchOf (i : Instr) (x : Reg → Word) : Option (List Reg × Bool × Word) :=
  match i with
  | .beq a b off => some ([a, b], x a == x b, off.signExtend 64 <<< 2)
  | .bne a b off => some ([a, b], x a != x b, off.signExtend 64 <<< 2)
  | .blt a b off => some ([a, b], (x a).slt (x b), off.signExtend 64 <<< 2)
  | .bge a b off => some ([a, b], !(x a).slt (x b), off.signExtend 64 <<< 2)
  | .bltu a b off => some ([a, b], (x a).ult (x b), off.signExtend 64 <<< 2)
  | .bgeu a b off => some ([a, b], !(x a).ult (x b), off.signExtend 64 <<< 2)
  | _ => none

/-- The registers a jump reads, its link register and its target (R72, R128). -/
def jumpOf (i : Instr) (x : Reg → Word) (pc : Word) : Option (List Reg × Reg × Word) :=
  match i with
  | .jal d off => some ([], d, pc + (off.signExtend 64 <<< 2))
  | .jalr d a off => some ([a], d, (x a + (off.signExtend 64 <<< 2)) &&& 0xFFFFFFFFFFFFFFFC#64)
  | _ => none

/-! ## Scalar floating point (R120–R126) -/

/-- f[r] := a code of at most 64 bits, the bits above it zero (R120). -/
def putCode (th : Thread) (d : Reg) (c : Nat) : Thread := th.wf d (BitVec.ofNat 64 c)

/-- The description word of a code (R126). -/
def describe (f : FFmt) (c : Nat) : Nat :=
  let v := f.decode c
  let kind := match v with
    | .nan sig => if sig then 5 else 4
    | .inf _ => 3
    | .fin _ m _ => if m = 0 then 0 else if getBits c f.frac (f.width - 1 - f.frac) = 0 then 1 else 2
  let whole := match v with
    | .fin _ m e => decide (m = 0) || decide (0 ≤ e) || decide (2 ^ (-e).toNat ∣ m)
    | _ => false
  let ex : Int := match v with
    | .fin _ m e => if m = 0 then 0 else e + (Nat.log2 m : Int)
    | _ => 0
  kind + (if c.testBit (f.width - 1) then 8 else 0) + (if whole then 16 else 0) + 256 * (ex % 65536).toNat

/-- What a floating-point instruction of class 0x1 reads and writes, the thread's registers after it, and the flags it sets.
`s.frmNow` is FRM.MODE (R49); `finish` is the one rounding into a format (R52–R57). -/
def fpResult (i : Instr) (s : State) : Option (Uses × Thread × Flags) :=
  let two (p : Prec) (rc : Rc) (d a b : Reg) (r : FVal × Flags) : Option (Uses × Thread × Flags) :=
    let q := finish (Prec.fmt p) (Rc.mode rc s.frmNow) r
    some ({ rf := [a, b], wf := [d] }, putCode s.me d q.1, q.2)
  match i with
  | .fadd d a b p rc => two p rc d a b (addX (Rc.mode rc s.frmNow) (fval s p a) (fval s p b))
  | .fsub d a b p rc => two p rc d a b (addX (Rc.mode rc s.frmNow) (fval s p a) (fval s p b).neg)
  | .fmul d a b p rc => two p rc d a b (mulX (fval s p a) (fval s p b))
  | .fdiv d a b p rc => two p rc d a b (divX (fval s p a) (fval s p b))
  | .fsqrt d a p rc =>
    let q := finish (Prec.fmt p) (Rc.mode rc s.frmNow) (sqrtX (fval s p a))
    some ({ rf := [a], wf := [d] }, putCode s.me d q.1, q.2)
  | .fmadd d a b negp negc p rc =>
    let q := finish (Prec.fmt p) (Rc.mode rc s.frmNow)
      (fmaX (Rc.mode rc s.frmNow) negp negc (fval s p a) (fval s p b) (fval s p d))
    some ({ rf := [a, b, d], wf := [d] }, putCode s.me d q.1, q.2)
  | .fmin d a b p =>
    let q := minmax (Prec.fmt p) false (fcode s p a) (fcode s p b)
    some ({ rf := [a, b], wf := [d] }, putCode s.me d q.1, q.2)
  | .fmax d a b p =>
    let q := minmax (Prec.fmt p) true (fcode s p a) (fcode s p b)
    some ({ rf := [a, b], wf := [d] }, putCode s.me d q.1, q.2)
  | .fcmp d a b p c =>
    let q := fcond c (fval s p a) (fval s p b)
    some ({ rf := [a, b], wx := [d] }, s.me.wx d (oneIf q.1), q.2)
  | .fcvt d a (.ff src) p rc =>
    let q := finish (Prec.fmt p) (Rc.mode rc s.frmNow) (fval s src a, 0)
    some ({ rf := [a], wf := [d] }, putCode s.me d q.1, q.2)
  | .fcvt d a (.fi k) p rc =>
    let q := toIntX (Rc.mode rc s.frmNow) (IKind.signed k) (IKind.width k) (fval s p a)
    some ({ rf := [a], wx := [d] }, s.me.wx d (BitVec.ofInt 64 q.1), q.2)
  | .fcvt d a (.xf k) p rc =>
    let q := finish (Prec.fmt p) (Rc.mode rc s.frmNow) (ofIntX (kindInt k (s.rx a)), 0)
    some ({ rx := [a], wf := [d] }, putCode s.me d q.1, q.2)
  | .fmv d a .ff p => some ({ rf := [a], wf := [d] }, putCode s.me d (fcode s p a), 0)
  | .fmv d a .xf p => some ({ rx := [a], wf := [d] }, putCode s.me d ((s.rx a).toNat % 2 ^ (Prec.fmt p).width), 0)
  | .fmv d a .fx p => some ({ rf := [a], wx := [d] }, s.me.wx d (BitVec.ofNat 64 (fcode s p a)), 0)
  | .fclass d a p => some ({ rf := [a], wx := [d] }, s.me.wx d (BitVec.ofNat 64 (describe (Prec.fmt p) (fcode s p a))), 0)
  | _ => none

/-- The state with the registers that an instruction writes freed of uncorrectable errors (R219; log 66). -/
def cleanedFor (s : State) (u : Uses) : State :=
  u.wf.foldl (fun s r => s.cleaned true r) (u.wx.foldl (fun s r => s.cleaned false r) s)

/-- The precision, destination and operands of fadd, fsub, fmul, fdiv and fsqrt (R121). -/
def roundsOf (i : Instr) : Option (Prec × Reg × List Reg) :=
  match i with
  | .fadd d a b p _ | .fsub d a b p _ | .fmul d a b p _ | .fdiv d a b p _ => some (p, d, [a, b])
  | .fsqrt d a p _ => some (p, d, [a])
  | _ => none

/-! ## Scalar memory accesses (R221–R225) -/

/-- A plain load: destination, whether it is an f register, base, offset, bytes and sign extension (R221). -/
def loadOf (i : Instr) : Option (Reg × Bool × Reg × BitVec 12 × Nat × Bool) :=
  match i with
  | .ldS8 d a imm => some (d, false, a, imm, 1, true)
  | .ldZ8 d a imm => some (d, false, a, imm, 1, false)
  | .ldS16 d a imm => some (d, false, a, imm, 2, true)
  | .ldZ16 d a imm => some (d, false, a, imm, 2, false)
  | .ldS32 d a imm => some (d, false, a, imm, 4, true)
  | .ldZ32 d a imm => some (d, false, a, imm, 4, false)
  | .ld64 d a imm => some (d, false, a, imm, 8, false)
  | .fld16 d a imm => some (d, true, a, imm, 2, false)
  | .fld32 d a imm => some (d, true, a, imm, 4, false)
  | .fld64 d a imm => some (d, true, a, imm, 8, false)
  | _ => none

/-- The registers of a load. -/
def loadUses (d a : Reg) (toF : Bool) : Uses := if toF then { rx := [a], wf := [d] } else { rx := [a], wx := [d] }

/-- A number of n bytes sign- or zero-extended to 64 bits. -/
def extend (n v : Nat) (sgnd : Bool) : Word :=
  BitVec.ofNat 64 (if sgnd && v.testBit (8 * n - 1) then v + 2 ^ 64 - 2 ^ (8 * n) else v)

/-- A plain store: data register, whether it is an f register, base, offset and bytes (R221). -/
def storeOf (i : Instr) : Option (Reg × Bool × Reg × BitVec 12 × Nat) :=
  match i with
  | .st8 d a imm => some (d, false, a, imm, 1)
  | .st16 d a imm => some (d, false, a, imm, 2)
  | .st32 d a imm => some (d, false, a, imm, 4)
  | .st64 d a imm => some (d, false, a, imm, 8)
  | .fst16 d a imm => some (d, true, a, imm, 2)
  | .fst32 d a imm => some (d, true, a, imm, 4)
  | .fst64 d a imm => some (d, true, a, imm, 8)
  | _ => none

/-- Byte `j` of what memory holds at a place: an absent tile holds its tent's default, least significant byte first (R213). -/
def heldByte (s : State) (pl : Place) (j : Nat) : Byte :=
  match pl with
  | .at_ key _ => s.mem.get (key + j)
  | .absent _ _ _ o d => BitVec.ofNat 8 (d.toNat >>> (8 * ((o + j) % 8)))

/-- The oldest load of a thread that is not performed yet is performed: its register takes the bytes that memory holds now, with
the stores over them that stand before the load in the thread's queue. -/
def Performed (s t : State) (a : Agent) (l : Late) (rest : List Late) : Prop :=
  let pl := s.placeOf l.dest
  let before := (s.sbufOf a).filter (fun p => decide (p.acc < l.acc))
  let v := extend l.n (ofBytes (overlay s before pl (placeBytes s (dieOf (State.coreFor a)) pl l.n))) l.sgnd
  t.latesOf a = rest ∧ t.mem = s.mem ∧ t.sbufOf a = s.sbufOf a ∧
  t.thread a = (if l.toF then (s.thread a).wf l.reg v else (s.thread a).wx l.reg v)

/-- Every event counter of a hart that selects a code has counted it `n` times (R320). -/
def Counted (a b : Hart) (code n : Nat) : Prop :=
  ∀ k, k < 4 → a.evsel.toNat / 2 ^ (16 * k) % 2 ^ 16 = code → vget 0 b.evcnt k = vget 0 a.evcnt k + BitVec.ofNat 64 n

/-- The core in whose L1D a line lies that a core's threads access: their own, and under a launch with the L1 fusion flag core
(P >> 10) & 3 of the cluster (R204, R205). -/
def LiesIn (s : State) (core line home : Nat) : Prop :=
  let fused : Prop := ∃ c ∈ (s.vcore core).claims, ∃ l, s.launch? c.launch = some l ∧ l.desc.fuse = true
  (fused → home = core / 4 * 4 + line / 8 % 4) ∧ (¬fused → home = core)

/-- The L1D of a core holds 64-byte sector `k` of device memory. -/
def HoldsSector (s : State) (core k : Nat) : Prop :=
  ∃ x ∈ Tbl.get [] s.l1 core, x.line = k / 2 ∧ x.sectors.getLsbD (k % 2) = true

/-- A die holds no copy of a line of a peer's memory that `n` bytes of a place touch (R208). -/
def noCopy (s : State) (die : Nat) (pl : Place) (n : Nat) : Prop :=
  match pl with
  | .at_ key (.peer _) => ∀ j, j < n → peerCopy s die (lineOf (key + j)) = none
  | _ => True

/-- A waiting store but for the fences behind it. -/
def unfenced (p : Pend) : Pend := { p with fences := 0 }

/-- A scalar atomic: registers, order, scope and width, and what it leaves in memory of an old value, its operand and cas's
comparand, at w bits (R224, R225). -/
def atomicOf (i : Instr) : Option (Reg × Reg × Reg × Scope × MWidth × (Nat → Nat → Nat → Nat → Nat)) :=
  match i with
  | .cas d a b _ sc w => some (d, a, b, sc, w, fun _ old b c => if old = c then b else old)
  | .amoswap d a b _ sc w => some (d, a, b, sc, w, fun _ _ b _ => b)
  | .amoadd d a b _ sc w => some (d, a, b, sc, w, fun w old b _ => (old + b) % 2 ^ w)
  | .amoand d a b _ sc w => some (d, a, b, sc, w, fun _ old b _ => old &&& b)
  | .amoor d a b _ sc w => some (d, a, b, sc, w, fun _ old b _ => old ||| b)
  | .amoxor d a b _ sc w => some (d, a, b, sc, w, fun _ old b _ => old ^^^ b)
  | .amomin d a b _ sc w => some (d, a, b, sc, w, fun w old b _ => if sgn w b < sgn w old then b else old)
  | .amomax d a b _ sc w => some (d, a, b, sc, w, fun w old b _ => if sgn w old < sgn w b then b else old)
  | _ => none

/-- The registers an atomic reads: cas reads x[d] as well. -/
def atomicReads (i : Instr) (d a b : Reg) : List Reg :=
  match i with
  | .cas _ _ _ _ _ _ => [a, b, d]
  | _ => [a, b]

/-- A host port performs cas, swap and add only (R226). -/
def hostPerforms (i : Instr) : Bool :=
  match i with
  | .cas _ _ _ _ _ _ | .amoswap _ _ _ _ _ _ | .amoadd _ _ _ _ _ _ => true
  | _ => false

/-- Memory after a store of the low n bytes of a number at a key: those bytes are stored, every other byte is as in `base`. -/
def StoredAt (t : State) (base : Memory) (key n v : Nat) : Prop :=
  t.mem.num key n = v % 256 ^ n ∧ ∀ k, k < key ∨ key + n ≤ k → t.mem.get k = base.get k

end Sys2Proof.Claims

/-- R128: branches go to the target or on to the next word, jumps link and go to the target; nothing else changes. -/
def Obligations.ControlTransfers : Prop :=
  (∀ (i : Instr) (s : State) (us : List Reg) (taken : Bool) (off : Word), branchOf i s.rx = some (us, taken, off) →
    s.isScalar → Ready s { rx := us } →
    ∃ t, exec i s = .next t ∧
      (if taken then Stepped s t { s.me with pc := s.pc + off } jumped id
       else Stepped s t { s.me with pc := s.pc + 4 } id id)) ∧
  (∀ (i : Instr) (s : State) (us : List Reg) (d : Reg) (target : Word), jumpOf i s.rx s.pc = some (us, d, target) →
    s.isScalar → Ready s { rx := us, wx := [d] } →
    ∃ t, exec i s = .next t ∧
      Stepped (s.cleaned false d) t { s.me.wx d (s.pc + 4) with pc := target } jumped id)

/-- R120–R126: every scalar floating-point instruction writes its one destination register, sets its flags in FFLAGS, where
earlier flags stay, goes on to the next word and leaves everything else as it was. -/
def Obligations.ScalarFloatResults : Prop :=
  ∀ (i : Instr) (s : State) (u : Uses) (th : Thread) (f : Flags), fpResult i s = some (u, th, f) →
    s.isScalar → Ready s u →
    ∃ t, exec i s = .next t ∧ Stepped (cleanedFor s u) t { th with pc := s.pc + 4 } (hartFlags f) (supFlags f)

/-- R53 of fadd, fsub, fmul, fdiv and fsqrt: with a NaN among the operands f[d] becomes the canonical NaN of the precision,
and NV is set when an operand is signalling, and no other flag.
R54, R57: a finite value that a format holds is delivered to that format unchanged, in every mode, with or without the
saturate option, and raises no flag. R52: a sum of zeros is −0 when every term is −0 and has the mode's sign otherwise, and so
has a sum whose terms cancel. -/
def Obligations.FloatOperandsAndExactResults : Prop :=
  (∀ (i : Instr) (s : State) (p : Prec) (d : Reg) (rs : List Reg) (q : Nat), roundsOf i = some (p, d, rs) →
      s.agent = .user q → Ready s { rf := rs, wf := [d] } → (∃ r ∈ rs, (fval s p r).isNan = true) →
      ∃ t, exec i s = .next t ∧ t.rf d = BitVec.ofNat 64 (Prec.fmt p).nan ∧
        (t.hart q).fflags = (s.hart q).fflags ||| (if rs.any (fun r => (fval s p r).isSig) then fNV else 0)) ∧
  ((∀ (f : FFmt) (m : RMode) (sat : Bool) (c : Nat), c < 2 ^ f.width →
      (∃ neg k e, f.decode c = .fin neg k e) → roundTo f m sat (f.decode c) = (c, 0)) ∧
    (∀ (m : RMode) (a b : Bool) (e g : Int), ∃ q, addX m (.fin a 0 e) (.fin b 0 g) = (.fin (a && b || m == .rdn) 0 q, 0)) ∧
    ∀ (m : RMode) (a : Bool) (k : Nat) (e : Int), k ≠ 0 → ∃ q, addX m (.fin a k e) (.fin (!a) k e) = (.fin (m == .rdn) 0 q, 0))

/-- R221, R327: a plain load whose address passes the checks puts the bytes read, sign- or zero-extended, into its register, and
changes no byte of memory; only before a load of host memory the thread's earlier host stores are performed there (R342). The
bytes read are those at the place the checks give, with the thread's own waiting stores over them, oldest first. Of a thread whose
loads are performed late (R328 leaves the moment open; that they are is the model's choice, log 2) the load is noted and the
register written when it is performed. R200, R204, R205, R320: a load of device memory hits or misses in L1D, an event either way,
and its sector is there afterwards, unless a reply comes meanwhile to a full set; a line whose own reply has not come to L2 is a
miss (log 65). -/
def Obligations.PlainLoads : Prop :=
  (∀ (i : Instr) (s : State) (d a : Reg) (toF : Bool) (imm : BitVec 12) (n : Nat) (sgnd : Bool) (pl : Place),
    loadOf i = some (d, toF, a, imm, n, sgnd) → s.isScalar → Ready s (loadUses d a toF) → held s = false →
    sPlace s .load .window a imm n = .ok pl →
    let s0 := hostFirst s s.agent pl
    let v := extend n (ofBytes (loadBytes s0 pl n)) sgnd
    ∃ t, exec i s = .next t ∧ t.mem = s0.mem ∧
      (if lateOf s0 s.agent then
        LoadStepped s0 t { s0.me with pc := s.pc + 4 } (s0.latesOf s.agent ++
          [⟨toF, d, sgnd, n, destOf s0 (s0.actx s.agent) (sAddr s a imm) pl, addrWord (sAddr s a imm), stampOf s0 s.agent, []⟩])
       else
        LoadStepped (s0.cleaned toF d) t { (if toF then s0.me.wf d v else s0.me.wx d v) with pc := s.pc + 4 }
          (s0.latesOf s.agent))) ∧
  (∀ (i : Instr) (s : State) (p : Nat) (d a : Reg) (toF : Bool) (imm : BitVec 12) (n : Nat) (sgnd : Bool) (key home : Nat),
    loadOf i = some (d, toF, a, imm, n, sgnd) → s.agent = .user p → Ready s (loadUses d a toF) → held s = false →
    sPlace s .load .window a imm n = .ok (.at_ key .dev) → key / 64 = (key + n - 1) / 64 → lateOf s s.agent = false →
    LiesIn s (coreOf p) (key / 128) home → (∀ die, Tbl.get [] s.misses die = []) →
    let hit : Prop := (Tbl.get (0, false) s.l2 (key / 128)).1.getLsbD (dieOf (coreOf p)) = true ∧ HoldsSector s home (key / 64)
    ∃ t, exec i s = .next t ∧ HoldsSector t home (key / 64) ∧
      (hit → Counted (s.hart p) (t.hart p) 0x20 1 ∧ Counted (s.hart p) (t.hart p) 0x21 0) ∧
      (¬hit → Counted (s.hart p) (t.hart p) 0x20 0 ∧ Counted (s.hart p) (t.hart p) 0x21 1)) ∧
  (∀ (s : State) (a : Agent) (l : Late) (rest : List Late) (c : List Choice), s.halted = false → s.sched = .late a l.n :: c →
    s.latesOf a = l :: rest → l.got = [] → 0 < l.n → (∀ e ∈ s.harts, e.2.viq.head?.bind halfRemap = none) →
    ∃ t, step s = .next t ∧ t.sched = c ∧ Performed s t a l rest) ∧
  (∀ (s : State) (pl : Place), (∀ k, pl ≠ .at_ k .host) → hostFirst s s.agent pl = s) ∧
  ∀ (s : State) (pl : Place) (n : Nat), noCopy s (dieOf (State.coreFor s.agent)) pl n →
    loadBytes s pl n = (List.range n).map (fun j =>
      (s.sbufOf s.agent).foldl (fun b p => p.over s (pl.byte j) b) (heldByte s pl j))

/-- R221, R327: a plain store whose address passes the checks goes on to the next word. Where the thread's stores may wait (log 2)
it stands last in the thread's store queue, and memory is as before; elsewhere its bytes are stored, after the thread's earlier
stores of the same channel and after the birth of an absent tile (`landing`), and no other byte of memory changes; the thread's
loads are performed before it (log 2). -/
def Obligations.PlainStores : Prop :=
  ∀ (i : Instr) (s : State) (d a : Reg) (fromF : Bool) (imm : BitVec 12) (n : Nat) (pl : Place),
    storeOf i = some (d, fromF, a, imm, n) → s.isScalar → s.memOk →
    Ready s (if fromF then { rx := [a], rf := [d] } else { rx := [a, d] }) → held s = false →
    sPlace s .store .window a imm n = .ok pl →
    let v := (if fromF then s.rf d else s.rx d).toNat
    let addr := sAddr s a imm
    (canWait s s.agent pl = true →
      ∃ t, exec i s = .next t ∧ StoreStepped s t { s.me with pc := s.pc + 4 } ∧ t.mem = s.mem ∧
        t.latesOf s.agent = s.latesOf s.agent ∧
        t.sbufOf t.agent = s.sbufOf s.agent ++
          pendsOf (stampOf s s.agent) addr (destOf s (s.actx s.agent) addr pl) (toBytes n v)) ∧
    (∀ (s' : State) (key : Nat), canWait s s.agent pl = false → landing s s.agent pl = .ok (s', key) →
      s'.latesOf s'.agent = [] →
      ∃ t, exec i s = .next t ∧ StoreStepped s' t { s.me with pc := s.pc + 4 } ∧
        StoredAt t (s'.drainSel s'.agent (fun p => p.chan == chanOf key)).mem key n v ∧
        ∀ p ∈ t.sbufOf t.agent, p.chan ≠ chanOf key)

/-- R223: lda writes x[d] with the bytes read, after the stores of the thread that its scope orders (R336); stl stores after
them. That they perform those stores, and that the thread's late loads are performed before them, are the model's choices
(log 2).
R224, R225: a scalar atomic writes x[d] with the old value, sign-extended, and leaves the new value in memory; no other
byte of memory changes but by the thread's earlier stores that its scope orders and the birth of an absent tile. -/
def Obligations.OrderedAndAtomicAccesses : Prop :=
  ((∀ (s : State) (d a : Reg) (sc : Scope) (w : MWidth) (pl : Place), s.isScalar →
      Ready s { rx := [a], wx := [d] } → held s = false → s.latesOf s.agent = [] →
      sPlace s .load .natural a 0 (MWidth.bytes w) = .ok pl →
      let s0 := s.drainAt s.agent sc pl.chan
      ∃ t, exec (.lda d a sc w) s = .next t ∧ t.mem = s0.mem ∧
        StoreStepped (s.cleaned false d) t { s.me.wx d (BitVec.ofNat 64 (ofBytes (loadBytes (acquireAt s0 sc) pl
          (MWidth.bytes w)))) with pc := s.pc + 4 }) ∧
    (∀ (s s' : State) (d a : Reg) (sc : Scope) (w : MWidth) (pl : Place) (key : Nat), s.isScalar → s.memOk →
      Ready s { rx := [a, d] } → held s = false → sPlace s .store .natural a 0 (MWidth.bytes w) = .ok pl →
      landing s s.agent pl = .ok (s', key) → s'.latesOf s'.agent = [] →
      ∃ t, exec (.stl d a sc w) s = .next t ∧ StoreStepped s' t { s.me with pc := s.pc + 4 } ∧
        StoredAt t (s'.drainAt s'.agent sc (chanOf key)).mem key (MWidth.bytes w) (s.rx d).toNat ∧
        ∀ p ∈ t.sbufOf t.agent, sc ≠ .system ∧ p.chan ≠ 0 ∧ p.chan ≠ chanOf key)) ∧
  (∀ (i : Instr) (s s' : State) (d a b : Reg) (sc : Scope) (w : MWidth) (new : Nat → Nat → Nat → Nat → Nat) (pl : Place)
      (key : Nat),
      atomicOf i = some (d, a, b, sc, w, new) → s.isScalar → s.memOk →
      Ready s { rx := atomicReads i d a b, wx := [d] } → held s = false →
      sPlace s .atomic .natural a 0 (MWidth.bytes w) = .ok pl → (∀ k, pl = .at_ k .host → hostPerforms i = true) →
      landing s s.agent pl = .ok (s', key) → s'.latesOf s'.agent = [] →
      let n := MWidth.bytes w
      let base := (s'.drainAt s'.agent sc (chanOf key)).mem
      let old := base.num key n
      ∃ t, exec i s = .next t ∧ StoreStepped (s'.cleaned false d) t { s.me.wx d (extend n old true) with pc := s.pc + 4 } ∧
        StoredAt t base key n (new (8 * n) old ((s.rx b).toNat % 256 ^ n) ((s.rx d).toNat % 256 ^ n)) ∧
        ∀ p ∈ t.sbufOf t.agent, sc ≠ .system ∧ p.chan ≠ 0 ∧ p.chan ≠ chanOf key)

/-- R227–R230, R336: the fences and drains go on to the next word with every register as it was, and change memory only by
performing stores that wait: a fence of loads and stores at core scope or wider performs the thread's scalar stores to the
device's own memory, at system scope all of them; vdrain and lsync with no entry left that makes an access perform the hart's
line accesses and element trains. An lsync with such entries joins them. Nothing else changes. That a fence, a vdrain or an lsync
performs what it orders, where the rules only put it before what comes later, is the model's choice (log 2); the thread's late
loads are performed before a fence (log 2). -/
def Obligations.FencesAndDrains : Prop :=
  (∀ (s : State) (k : Kinds) (sc : Scope), s.isScalar → s.latesOf s.agent = [] →
    ∃ t, exec (.fence k sc) s = .next t ∧ StoreStepped s t { s.me with pc := s.pc + 4 } ∧
      (if k = .both ∧ sc ≠ .hart then t.mem = (s.drainAt s.agent sc 0).mem ∧
         ∀ p ∈ t.sbufOf t.agent, sc ≠ .system ∧ p.chan ≠ 0
       else t.mem = s.mem ∧ (t.sbufOf t.agent).map unfenced = (s.sbufOf s.agent).map unfenced)) ∧
  (∀ (s : State), s.isScalar →
    ∃ t, exec .fenceSv s = .next t ∧ StoreStepped s t { s.me with pc := s.pc + 4 } ∧ t.mem = s.mem ∧
      t.sbufOf t.agent = s.sbufOf s.agent ∧ ∀ p, s.agent = .user p → (t.hart p).svNeed = (s.hart p).stamp) ∧
  (∀ (i : Instr) (s : State) (p : Nat), s.agent = .user p →
    (i = .vdrain ∧ (s.hart p).viq = [] ∨ i = .lsync ∧ accessing (s.hart p).viq = 0) →
    ∃ t, exec i s = .next t ∧ DrainStepped s t p { s.me with pc := s.pc + 4 } ∧ t.mem = (s.drainV p).mem ∧
      (∀ k, k < 8 → vget [] (t.hart p).ssq k = []) ∧ ∀ x ∈ t.trains, x.1 = p → x.2.2 = []) ∧
  (∀ (s : State) (p : Nat), s.agent = .user p → accessing (s.hart p).viq ≠ 0 →
    ∃ t, exec .lsync s = .next t ∧ DrainStepped s t p { s.me with pc := s.pc + 4 } ∧ t.mem = s.mem ∧
      (t.hart p).ssq = (s.hart p).ssq ∧ t.trains = s.trains ∧ (t.hart p).svJoin = true ∧
      (t.hart p).hold = Nat.max (s.hart p).hold (accessing (s.hart p).viq))

namespace Sys2Proof.Claims

/-! ## CSRs (R103, R130) -/

/-- A csr instruction: destination, CSR number, and the registers it names (R130). -/
def csrOf (i : Instr) : Option (Reg × BitVec 12 × Uses) :=
  match i with
  | .csrr d n => some (d, n, { wx := [d] })
  | .csrw d a n | .csrs d a n | .csrc d a n => some (d, n, { rx := [a], wx := [d] })
  | _ => none

/-- What a csr instruction writes over an old value, if anything (R130). -/
def csrNew (i : Instr) (x : Reg → Word) (old : Word) : Option Word :=
  match i with
  | .csrw _ a _ => some (x a)
  | .csrs _ a _ => if x a = 0 then none else some (old ||| x a)
  | .csrc _ a _ => if x a = 0 then none else some (old &&& ~~~(x a))
  | _ => none

/-- The instruction writes its CSR, or may. -/
def csrWrites (i : Instr) : Bool :=
  match i with
  | .csrr _ _ => false
  | _ => true

/-- The thread of scalar core p that executes, a supervisor's or the user's. -/
def threadOf (sup : Bool) (p : Nat) : Agent := if sup then .sup p else .user p

/-- The thread may access a CSR now (R84, R103): a user thread no supervisor CSR and no write of PFXS; and the VIQ is empty,
or stopped for a supervisor, where the access acts after it. -/
def CsrOpen (s : State) (sup : Bool) (p n : Nat) (writes : Bool) : Prop :=
  (sup = false → ¬(0x400 ≤ n ∧ n ≤ 0x4FF) ∧ (writes = true → n ≠ 0x103)) ∧
  (afterViq n = true → (s.hart p).viq = [] ∨ (sup = true ∧ (s.hart p).vecStopped = true))

/-- The assigned CSR numbers (R104–R113). -/
def assigned : List Nat :=
  [0x000, 0x001, 0x002, 0x003, 0x004, 0x005, 0x006, 0x007, 0x100, 0x101, 0x102, 0x103, 0x104, 0x105, 0x106, 0x107, 0x108,
   0x109, 0x10A, 0x110, 0x111, 0x112, 0x114, 0x115, 0x116, 0x117, 0x400, 0x401, 0x402, 0x403, 0x404, 0x405, 0x406, 0x800,
   0x801, 0x802, 0x803, 0x804, 0x805, 0x808, 0x809, 0x80A, 0x80B, 0x80C, 0x80D]

/-- The other CSRs that show what a CSR holds: VL in VSHAPE, FMASK's window by FSTAT.WIN (R108), and the counters by EVSEL
(R320). -/
def shownBy (n : Nat) : List Nat :=
  if n = 0x000 then [0x003] else if n = 0x003 then [0x000] else if n = 0x006 then [0x007]
  else if n = 0x112 then [0x114, 0x115, 0x116, 0x117] else []

/-- A write of CSR n left every other CSR of the thread as it was, and everything but the thread's CSRs: its registers and pc, the
other harts, memory. -/
def WroteOnly (s u : State) (p n : Nat) : Prop :=
  (∀ m ∈ assigned, m ≠ n → m ∉ shownBy n → csrVal u p m = csrVal s p m) ∧
  (u.hart p).thr = (s.hart p).thr ∧ (u.sup p).thr = (s.sup p).thr ∧ (∀ q, q ≠ p → u.hart q = s.hart q ∧ u.sup q = s.sup q) ∧
  u = { s with harts := u.harts, sups := u.sups, cores := u.cores, free := u.free }

/-- The fields of a CSR that a user thread writes, as a mask (R58, R49, R100, R33, R108–R111, R320). -/
def userFields : List (Nat × Word) :=
  [(0x005, 0x3FFFFFFFFFFFF), (0x006, 0xFF00000000), (0x100, 0xFF), (0x101, 3), (0x102, 0xFFFFFFFFFFFFFFFF), (0x104, 0xE0),
   (0x106, 0x8FFFFFF), (0x108, 0xFFFFFFFF3FFFF), (0x10A, 1), (0x111, 0xFFFFFFFFFFFFFFFF), (0x112, 0xFFFFFFFFFFFFFFFF)]

/-- The same of a supervisor thread, where its fields are more (R107, R108) or its own (R113). -/
def supFields : List (Nat × Word) :=
  [(0x001, 0xFFFF), (0x005, 0x3FFFFFFFFFFFF), (0x006, 0xFFFF03FFFF), (0x100, 0xFF), (0x101, 3), (0x102, 0xFFFFFFFFFFFFFFFF),
   (0x104, 0xE0), (0x106, 0x8FFFFFF), (0x108, 0xFFFFFFFF3FFFF), (0x10A, 1), (0x111, 0xFFFFFFFFFFFFFFFF),
   (0x112, 0xFFFFFFFFFFFFFFFF), (0x401, 0xFFFFFFFFFFFFFFFC), (0x405, 0xFFFFFFFFFFFFF000), (0x406, 0xFFFFFFFFFFFFFFFF)]

/-- CSRs in whose every field a user thread's write is discarded (R103, R107, R108, R111, R112). -/
def userReadOnly : List Nat :=
  [0x000, 0x001, 0x003, 0x004, 0x007, 0x105, 0x107, 0x110, 0x800, 0x801, 0x802, 0x803, 0x804, 0x805, 0x808, 0x809, 0x80A,
   0x80B, 0x80C, 0x80D]

/-- CSRs in whose every field a supervisor thread's write is discarded (R103, R107, R111–R113). -/
def supReadOnly : List Nat :=
  [0x004, 0x105, 0x107, 0x110, 0x400, 0x402, 0x403, 0x404, 0x800, 0x801, 0x802, 0x803, 0x804, 0x805, 0x808, 0x809, 0x80A,
   0x80B, 0x80C, 0x80D]

/-! ## Taking an exception (R347, R348) -/

/-- The fields of SCAUSE (R113). -/
def scauseFields (c : Cause) : Nat :=
  c.code % 256 + (if c.vec then 256 else 0) + (if c.abandoned then 512 else 0) + (if c.deferred then 1024 else 0) +
    65536 * (c.detail % 65536)

/-- PFXS for a prefix that waits for its successor (R80). -/
def recorded (l : Option (Pfx × Word)) : BitVec 13 :=
  match l with
  | some (x, _) => State.pfxsOf x
  | none => 0

/-- `t` is `s` after the user thread of scalar core p has taken a scalar cause: the supervisor CSRs hold its values, the
supervisor thread executes next, out of a `park` when it was parked in one; the user thread's registers are as they were, it
waits no more, and a prefix that waited is recorded; its scalar stores to the device's own memory are performed (R332, R336; that they are performed then is the model's choice, log
2); nothing else changes. -/
structure TrapTaken (s t : State) (p : Nat) (c : Cause) : Prop where
  agent : t.agent = .sup p
  scause : (t.sup p).scause.toNat = scauseFields c
  sepc : (t.sup p).sepc = c.epc &&& 0xFFFFFFFFFFFFFFFC#64
  scpc : (t.sup p).scpc = c.cpc &&& 0xFFFFFFFFFFFFFFFC#64
  stval : (t.sup p).stval = c.tval
  svc : (t.sup p).svc = true
  park : (t.sup p).park = if (s.sup p).park = some .line then none else (s.sup p).park
  supPc : (t.sup p).thr = if (s.sup p).park = some .line then { (s.sup p).thr with pc := (s.sup p).thr.pc + 4 }
    else (s.sup p).thr
  hart : sameButStores { s.hart p with park := none, latch := none, pfxs := recorded (s.hart p).latch } (t.hart p)
  thr : (t.hart p).thr = (s.hart p).thr ∧ (t.hart p).retired = (s.hart p).retired
  others : (∀ q, q ≠ p → t.hart q = s.hart q ∧ t.sup q = s.sup q) ∧ (∀ k, t.vcore k = s.vcore k) ∧
    (∀ c, t.cluster c = s.cluster c)
  mem : t.mem = (s.drainL (.user p)).mem
  outside : t = { s with
    agent := t.agent, harts := t.harts, sups := t.sups, cores := t.cores, clusters := t.clusters, mem := t.mem
    watches := t.watches, l2 := t.l2, l1 := t.l1, misses := t.misses, peerCopies := t.peerCopies, badSectors := t.badSectors
    lostSectors := t.lostSectors, free := t.free, peg := t.peg }
  peg : t.peg = { s.peg with ringWait := s.peg.ringWait.filter (· ≠ p) }

/-- A user thread executes outside a region, awaiting no page, its supervisor serving no trap and not halted, and its loads all
performed, as the step sees to before a trap (log 2). -/
structure UserAtWork (s : State) (p : Nat) : Prop where
  agent : s.agent = .user p
  region : (s.hart p).region = none
  pageWait : (s.hart p).pageWait = none
  svc : (s.sup p).svc = false
  halted : (s.sup p).halted = false
  late : (s.hart p).late = []

/-- The 64 KiB granules that a tret for PAGE requests (R353): those kept at an abandonment; of an element fault those of the PAGE
elements whose FMASK bits are still set, ascending and each once; else STVAL's. -/
def requestedGranules (h : Hart) (u : Sup) : List Nat :=
  if u.scause.getLsbD 9 then h.keptGranules
  else if u.scause.getLsbD 8 && State.awaitsReplay h then
    sortSet ((h.elemFaults.filter (fun e => e.2.1 == 8 && h.fmask.getLsbD e.1)).map
      (fun e => e.2.2.toNat % 2 ^ 60 / 2 ^ 16))
  else [u.stval.toNat % 2 ^ 60 / 2 ^ 16]

/-- Instructions of the supervisor alone (R116). -/
def supervisorOnly (i : Instr) : Bool :=
  match i with
  | .tret | .ctxsave _ _ | .ctxload _ _ | .tlbinv _ _ => true
  | _ => false

/-- A region's registers, lengths and key as the snapshot of its iopen (R34, R39). -/
def Restored (h : Hart) (g : Region) (pc : Word) : Prop :=
  h.thr = ⟨g.x, g.f, pc⟩ ∧ h.vl = g.vl ∧ h.vtype = g.vtype ∧ h.rows = g.rows ∧ h.rngkey = g.rngkey ∧ h.vstart = 0 ∧
    h.region = none ∧ h.withheld = 0 ∧ h.viq = []

end Sys2Proof.Claims

/-- R130, R103: a csr instruction puts the old value into x[d], writes what the rule says through the fields the thread may
write (`csrPut`), and goes on to the next word. -/
def Obligations.CsrInstructions : Prop :=
  ∀ (i : Instr) (s u : State) (d : Reg) (n : BitVec 12) (us : Uses) (sup : Bool) (p : Nat), csrOf i = some (d, n, us) →
    s.agent = threadOf sup p → Ready s us → CsrOpen s sup p n.toNat (csrWrites i) →
    let s1 := csrTouch s p n.toNat
    let old := csrVal s1 p n.toNat
    (match csrNew i s.rx old with
     | none => some s1
     | some v => csrPut s1 sup p n.toNat v) = some u →
    exec i s = .next (u.wx d old).advance

/-- R103: a write changes the fields that the thread may write and no other bit, and nothing but that CSR: every other CSR of the
thread, its registers, the other threads and memory are as before. A write to a CSR without such a field changes nothing. A write
of a counter that shows a queue's depth is discarded (the model's reading of R320, log 7). R107: a supervisor's VL is at most
VLMAX. R113: a write of PNTBASE is in force for every hart of the core, while each supervisor thread reads its own (the model's
reading, log 64). R80: PFXS is written while its trap is in service.
R60, R100, R106–R108, R111, R113, R247: the write of a value to one of these CSRs, inside its csr instruction: the
register takes the fields that the thread may write, the pc does not move. -/
def Obligations.CsrWritesReachTheirFields : Prop :=
  ((∀ (s u : State) (sup : Bool) (p n : Nat) (mask v : Word), (n, mask) ∈ (if sup then supFields else userFields) →
      (s.hart? p).isSome = true → csrPut s sup p n v = some u →
      csrVal u p n = (csrVal s p n &&& ~~~mask) ||| (v &&& mask) ∧ WroteOnly s u p n) ∧
    (∀ (s u : State) (sup : Bool) (p n : Nat) (v : Word), n ∈ (if sup then supReadOnly else userReadOnly) →
      csrPut s sup p n v = some u → u = s) ∧
    (∀ (s u : State) (sup : Bool) (p k : Nat) (v : Word), k < 4 → (s.hart? p).isSome = true →
      csrPut s sup p (0x114 + k) v = some u →
      if gauge s p (evCode (s.hart p) k) = none then csrVal u p (0x114 + k) = v ∧ WroteOnly s u p (0x114 + k) else u = s) ∧
    (∀ (s u : State) (sup : Bool) (p : Nat) (v : Word), (s.hart? p).isSome = true → csrPut s sup p 0x002 v = some u →
      (csrVal u p 0x002).toNat = v.toNat % 512 ∧ WroteOnly s u p 0x002) ∧
    (∀ (s u : State) (p : Nat) (v : Word), (s.hart? p).isSome = true →
      (csrPut s true p 0x000 v = some u →
        (csrVal u p 0x000).toNat = Nat.min (v.toNat % 2 ^ 16) (vlmaxOf s p (s.hart p).vtype) % 2 ^ 16 ∧ WroteOnly s u p 0x000) ∧
      (csrPut s true p 0x003 v = some u →
        (csrVal u p 0x000).toNat = Nat.min (v.toNat % 2 ^ 16) (vlmaxOf s p (s.hart p).vtype) % 2 ^ 16 ∧
        (csrVal u p 0x003).toNat = v.toNat / 2 ^ 16 % 16 * 2 ^ 16 + (csrVal u p 0x000).toNat ∧ WroteOnly s u p 0x003) ∧
      (csrPut s true p 0x007 v = some u →
        (if 64 * getBits (s.hart p).fstat.toNat 32 8 < vlenOf s p / 2 then csrVal u p 0x007 = v else u = s) ∧
        WroteOnly s u p 0x007) ∧
      (csrPut s true p 0x103 v = some u →
        if (s.sup p).svc then (csrVal u p 0x103).toNat = v.toNat % 2 ^ 13 ∧ WroteOnly s u p 0x103 else u = s)) ∧
    (∀ (s u : State) (sup : Bool) (p : Nat) (v : Word), (s.hart? p).isSome = true → csrPut s sup p 0x109 v = some u →
      csrVal u p 0x109 = (if (csrVal s p 0x107).getLsbD 31 && !sup then csrVal s p 0x109 else v) ∧ WroteOnly s u p 0x109) ∧
    (∀ (s u : State) (p : Nat) (v : Word), csrPut s true p 0x405 v = some u →
      (u.vcore (coreOf p)).pntbase = csrVal u p 0x405 ∧ ∀ q, q ≠ p → csrVal u q 0x405 = csrVal s q 0x405)) ∧
  ((∀ (s : State) (p : Nat) (v : Word), s.agent = .user p → (s.hart? p).isSome = true → (s.hart p).viq = [] →
      (∃ t, exec (.fflagsWrite v) s = .next t ∧ t = s.updHart p (fun h => { h with fflags := v.setWidth 8 })) ∧
      (∃ t, exec (.vdirtyWrite v) s = .next t ∧ t = s.updHart p (fun h => { h with vdirty := v.setWidth 50 })) ∧
      (∃ t, exec (.shtcurWrite v) s = .next t ∧ (t.hart p).shtcur = (v &&& 0xFFFFFFFF3FFFF).setWidth 52 |||
        ((s.hart p).shtcur &&& 0xC0000)) ∧
      (∃ t, exec (.shtovfWrite v) s = .next t ∧ WroteOnly s t p 0x109 ∧
        csrVal t p 0x109 = if (csrVal s p 0x107).getLsbD 31 then csrVal s p 0x109 else v) ∧
      (∃ t, exec (.vlWrite v) s = .next t ∧ t = s) ∧ (∃ t, exec (.fmaskWrite v) s = .next t ∧ t = s) ∧
      (vtypeOk (v.toNat % 512) = true → ∃ t, exec (.vtypeWrite v) s = .next t ∧ (t.hart p).vtype = v.setWidth 9 ∧
        (t.hart p).thr = (s.hart p).thr)) ∧
    (∀ (s : State) (p : Nat) (v : Word), s.agent = .sup p →
      (∃ t, exec (.pntbaseWrite v) s = .next t ∧ WroteOnly s t p 0x405 ∧
        csrVal t p 0x405 = (v &&& ~~~0xFFF#64) ||| (csrVal s p 0x405 &&& 0xFFF#64) ∧
        (t.vcore (coreOf p)).pntbase = csrVal t p 0x405) ∧
      ((s.hart? p).isSome = true → (s.hart p).viq = [] →
        (∃ t, exec (.shtovfWrite v) s = .next t ∧ WroteOnly s t p 0x109 ∧ csrVal t p 0x109 = v) ∧
        (∃ t, exec (.pfxsWrite v) s = .next t ∧
          t = if (s.sup p).svc then s.updHart p (fun h => { h with pfxs := v.setWidth 13 }) else s) ∧
        (∃ t, exec (.vlWrite v) s = .next t ∧
          (t.hart p).vl.toNat = Nat.min (v.toNat % 65536) (vlmaxOf s p (s.hart p).vtype) % 65536) ∧
        (64 * getBits (s.hart p).fstat.toNat 32 8 < vlenOf s p / 2 →
          ∃ t, exec (.fmaskWrite v) s = .next t ∧ fmaskWindow t p = v.toNat))))

/-- R131, R347, R348: trap raises BREAK: the trap itself has executed, SEPC is the following word and STVAL its immediate,
sign-extended.
R84, R116: a supervisor's instruction in a user thread takes PRIV, at the word itself and with none of its effect. -/
def Obligations.TrapAndPrivilegeCauses : Prop :=
  (∀ (s : State) (p : Nat) (imm : BitVec 17), UserAtWork s p →
      ∃ t, exec (.trap imm) s = .next t ∧
        TrapTaken (s.retireAt s.pc) t p ⟨20, false, s.pc + 4, s.pc, imm.signExtend 64, 0, false, false⟩) ∧
  (∀ (i : Instr) (s : State) (p : Nat) (w : BitVec 32), supervisorOnly i = true → encode i = some w → UserAtWork s p →
      ∃ t, exec i s = .next t ∧ TrapTaken s t p ⟨2, false, s.pc, s.pc, w.zeroExtend 64, 0, false, false⟩)

/-- R81, R84, R129: what a user thread takes for a word it cannot decode, ILLEGAL or PRIV at the word, PREFIX at the prefix
word with PFXS.V = 0, and for a target it cannot fetch, with SEPC, SCPC and STVAL equal to the target.
R361: a supervisor thread that takes a cause halts, its registers as they were, and the peg core is told; no trap is
delivered. The layout of the event's record, a type word and three words, is the model's reading of R390 (log 19). -/
def Obligations.DecodeCausesAndHaltedSupervisors : Prop :=
  ((∀ (s : State) (p : Nat) (w : BitVec 32) (code : Nat), UserAtWork s p → code = 1 ∨ code = 2 →
      ∃ t, exec (.illegalWord w code) s = .next t ∧
        TrapTaken s t p ⟨code, false, s.pc, s.pc, w.zeroExtend 64, 0, false, false⟩) ∧
    (∀ (s : State) (p : Nat) (w pw : BitVec 32) (x : Pfx) (addr : Word), UserAtWork s p →
      (s.hart p).latch = some (x, addr) → encode (.pfx x.m x.sense x.zero x.cfile x.creg) = some pw →
      ∃ t, exec (.illegalWord w 3) s = .next t ∧ (t.hart p).pfxs = 0 ∧
        TrapTaken (s.updHart p (fun h => { h with latch := none })) t p
          ⟨3, false, addr, addr, pw.zeroExtend 64, 0, false, false⟩) ∧
    (∀ (s : State) (p : Nat) (addr : Word) (code : Nat), UserAtWork s p → s.fetchFail (.user p) addr = some (code, false) →
      code ≠ 17 → ∃ t, exec (.fetchFault addr code) s = .next t ∧
        TrapTaken s t p ⟨code, false, addr, addr, addr, 3, false, false⟩)) ∧
  (∀ (s : State) (p : Nat) (imm : BitVec 17), s.agent = .sup p →
      ∃ t, exec (.trap imm) s = .next t ∧ (t.sup p).halted = true ∧ (t.sup p).thr = (s.sup p).thr ∧
        (t.sup p).svc = (s.sup p).svc ∧ (∀ q, t.hart q = s.hart q) ∧ t.mem = s.mem ∧
        t.peg.events = s.peg.events ++ [toBytes 8 1 ++ toBytes 8 20 ++ toBytes 8 p ++ toBytes 8 s.pc.toNat])

/-- R132, R352: tret for a delivered cause other than PAGE resumes the user thread at SEPC with the recorded prefix and ends the
service; with SVC = 0 it only goes on to the next word. The supervisor's own pc advances in both cases. R276, R353: for a PAGE
cause it sends the cause's granules, in batches of at most 32, while fewer than 64 are outstanding on the die, and the hart awaits
them; with all of them sent the service ends, and else the tret waits with the rest. -/
def Obligations.TretResumesTheUserThread : Prop :=
  (∀ (s : State) (p : Nat), s.agent = .sup p → (s.sup p).svc = true → (s.hart? p).isSome = true →
    (s.hart p).needSiblings = false → (s.hart p).heldVec = none → (s.hart p).preempt = none → (s.hart p).pageWait = none →
    (s.sup p).scause.toNat % 256 ≠ 8 → (s.sup p).late = [] →
    (State.awaitsReplay (s.hart p) = true → (s.hart p).fstat.getLsbD 17 = true) →
    ∃ t, exec .tret s = .next t ∧ t.agent = .user p ∧ (t.sup p).svc = false ∧
      (t.sup p).thr = { (s.sup p).thr with pc := s.pc + 4 } ∧
      (t.hart p).thr = { (s.hart p).thr with pc := (s.sup p).sepc } ∧
      (t.hart p).viq = (s.hart p).viq ∧ (t.hart p).vecStopped = false ∧
      (t.hart p).latch = (State.pfxOf (s.hart p).pfxs).map (fun x => (x, (s.sup p).sepc)) ∧
      t.mem = (s.drainS (.sup p)).mem ∧ (∀ q, q ≠ p → t.hart q = s.hart q ∧ t.sup q = s.sup q)) ∧
  (∀ (s : State) (p : Nat), s.agent = .sup p → (s.sup p).svc = false →
    ∃ t, exec .tret s = .next t ∧ t.agent = .sup p ∧ t = s.setPc (s.pc + 4)) ∧
  (∀ (s : State) (p : Nat), s.agent = .sup p → (s.sup p).svc = true → (s.hart? p).isSome = true →
    (s.hart p).needSiblings = false → (s.hart p).heldVec = none → (s.hart p).preempt = none → (s.hart p).pageWait = none →
    (s.sup p).scause.toNat % 256 = 8 → (s.sup p).late = [] →
    (State.awaitsReplay (s.hart p) = true → (s.hart p).fstat.getLsbD 17 = true) →
    let die := dieOf (coreOf p)
    let gs := requestedGranules (s.hart p) (s.sup p)
    let bs := State.batchesOf gs.length gs
    let room := 64 - (s.outstanding die).length
    gs ≠ [] → bs.flatten = gs ∧ (∀ b ∈ bs, 1 ≤ b.length ∧ b.length ≤ 32) ∧
    ∃ t, exec .tret s = .next t ∧ t.outstanding die = s.outstanding die ++ (bs.take room).map (fun b => (p, b)) ∧
      (∃ w, (t.hart p).pageWait = some w ∧ w.batches = bs.take room ∧ w.unsent = bs.drop room) ∧
      (t.hart p).thr = (s.hart p).thr ∧ (t.hart p).viq = (s.hart p).viq ∧ t.mem = (s.drainS (.sup p)).mem ∧
      (∀ q, q ≠ p → t.hart q = s.hart q ∧ t.sup q = s.sup q) ∧
      (if bs.length ≤ room then (t.sup p).svc = false ∧ (t.sup p).thr = { (s.sup p).thr with pc := s.pc + 4 }
       else (t.sup p).svc = true ∧ (t.sup p).thr = (s.sup p).thr))

/-- R133, R275: a system call with room in the ring puts the request and its sequence number into the next slot, writes
x[d] with the number, and takes SYSCALL with SEPC at the following word and STVAL the number. -/
def Obligations.SyscallEntersTheRing : Prop :=
  ∀ (s : State) (p : Nat) (d a : Reg) (pl : Place), UserAtWork s p → s.memOk → Ready s { rx := [a], wx := [d] } →
    held s = false → ringFull s = false → tagOf (s.rx a) = 0 →
    accPlace s (s.actx (.user p)) .load .natural 0 ((s.rx a).toNat : Int) 64 = .ok pl →
    let q := s.peg.ringProd
    let slot := hostKey (s.peg.ringBase.toNat + 128 * (q.toNat % 1024))
    let bytes := loadBytes (s.drainS (.user p)) pl 64 ++ toBytes 8 q.toNat ++ toBytes 2 p ++ toBytes 2 (p % 8) ++
      toBytes 52 0
    ∃ t, exec (.syscall d a) s = .next t ∧ t.agent = .sup p ∧ (t.sup p).svc = true ∧
      (t.sup p).scause.toNat = 19 ∧ (t.sup p).sepc = (s.pc + 4) &&& 0xFFFFFFFFFFFFFFFC#64 ∧ (t.sup p).stval = q ∧
      (t.hart p).thr = s.me.wx d q ∧ t.peg.ringProd = q + 1 ∧ t.mem.gets slot 128 = bytes ∧
      ∀ k, k < slot ∨ slot + 128 ≤ k → t.mem.get k = (s.drainS (.user p)).mem.get k

/-- R134, R135: park parks the thread on its line; waitge goes on, with x[d] the status word, when the count has reached the
target or the status is non-zero, and else parks on the cell. A park ends after a write to its line; a waitge reads its cell again
then, and ends or goes on waiting. That a park, a waitge and its re-read perform every waiting store of the thread is the model's
choice (log 2, log 63). -/
def Obligations.WaitingOnMemory : Prop :=
  (∀ (s : State) (p : Nat) (sup : Bool) (a : Reg) (pl pl' : Place), s.agent = threadOf sup p → Ready s { rx := [a] } →
    held s = false → s.latesOf s.agent = [] → checkPtr s (s.actx s.agent) .load .none (s.rx a) 1 = .ok pl →
    let s1 := s.drainS s.agent
    checkPtr s1 (s1.actx s.agent) .load .none (s.rx a) 1 = .ok pl' →
    ∃ t, exec (.park a) s = .next t ∧ parkOf t s.agent = some .line ∧ t.thread s.agent = s.me ∧ t.mem = s1.mem ∧
      (∀ k l, pl' = .at_ k l → ∃ w ∈ t.watches, w.sup = sup ∧ w.p = p ∧ w.line = k / 128 ∧ w.hit = false)) ∧
  (∀ (s : State) (p : Nat) (sup : Bool) (d a b : Reg) (key : Nat) (l : Loc), s.agent = threadOf sup p →
    Ready s { rx := [a, b], wx := [d] } → held s = false → s.sbufOf s.agent = [] →
    cellPlace s (s.rx a) = .ok (.at_ key l) → l = .dev ∨ l = .spm ∨ l = .host →
    ∃ t, exec (.waitge d a b) s = .next t ∧ t.mem = s.mem ∧
      (if (s.rx b).toNat ≤ s.mem.num key 8 ∨ s.mem.num (key + 8) 8 ≠ 0 then
        parkOf t s.agent = none ∧
          t.thread s.agent = { s.me.wx d (BitVec.ofNat 64 (s.mem.num (key + 8) 8)) with pc := s.pc + 4 }
       else parkOf t s.agent = some (.cell d (s.rx a) (s.rx b)) ∧ t.thread s.agent = s.me ∧
        ∃ w ∈ t.watches, w.sup = sup ∧ w.p = p ∧ w.line = key / 128 ∧ w.hit = false)) ∧
  (∀ (s : State) (p : Nat) (sup : Bool), watchHit s sup p = true → parkOf s (threadOf sup p) = some .line →
    (sup = false → s.regionOver p = false) →
    ∃ t, exec (.parkWake p sup) s = .next t ∧ parkOf t (threadOf sup p) = none ∧ t.agent = s.agent ∧ t.mem = s.mem ∧
      t.thread (threadOf sup p) = { s.thread (threadOf sup p) with pc := (s.thread (threadOf sup p)).pc + 4 }) ∧
  (∀ (s : State) (p : Nat) (sup : Bool) (d : Reg) (va target : Word) (key : Nat) (l : Loc),
    watchHit s sup p = true → parkOf s (threadOf sup p) = some (.cell d va target) → s.sbufOf (threadOf sup p) = [] →
    (sup = false → s.regionOver p = false) →
    cellPlace { setPark s (threadOf sup p) none with agent := threadOf sup p } va = .ok (.at_ key l) →
    l = .dev ∨ l = .spm ∨ l = .host →
    ∃ t, exec (.waitgeReread p sup) s = .next t ∧ t.mem = s.mem ∧
      (if target.toNat ≤ s.mem.num key 8 ∨ s.mem.num (key + 8) 8 ≠ 0 then
        parkOf t (threadOf sup p) = none ∧
        t.thread (threadOf sup p) = { (s.thread (threadOf sup p)).wx d (BitVec.ofNat 64 (s.mem.num (key + 8) 8)) with
          pc := (s.thread (threadOf sup p)).pc + 4 }
       else parkOf t (threadOf sup p) = some (.cell d va target) ∧ t.thread (threadOf sup p) = s.thread (threadOf sup p) ∧
        ∃ w ∈ t.watches, w.sup = sup ∧ w.p = p ∧ w.line = key / 128 ∧ w.hit = false)) ∧
  (∀ (s : State) (p : Nat) (sup : Bool) (d : Reg) (va target : Word) (code : Nat) (dev : Bool),
    watchHit s sup p = true → parkOf s (threadOf sup p) = some (.cell d va target) → sup = true →
    cellPlace { setPark s (threadOf sup p) none with agent := threadOf sup p } va = .error (.cause code dev) →
    ∃ t, exec (.waitgeReread p sup) s = .next t ∧ (t.sup p).halted = true ∧ t.mem = s.mem)

namespace Sys2Proof.Claims

/-! ## Splits, joins, barriers, ends (R20–R24, R31, R137) -/

/-- R20, R24: the first condition that refuses a split of n, numbered as its DETAIL (R347). -/
def splitRefusal (s : State) (p n : Nat) : Option Nat :=
  let lanes := 32 / (s.vcore (coreOf p)).part
  let veff := Nat.min (1024 * lanes) (s.hart p).vcap.toNat
  if ¬(n = 2 ∨ n = 4 ∨ n = 8) then some 1
  else if lanes / n < 4 then some 2
  else if (s.hart p).isChild = true ∨ 1 < (s.hartsOf (coreOf p)).length then some 3
  else if veff / n < 512 then some 4
  else if veff < lanes * sewBits (s.hart p).pushVtype then some 5
  else none

/-- The scalar cores of the n children of the hart in a slot. -/
def children (core slot n : Nat) : List Nat := (List.range n).map (fun j => core * 8 + slot * n + j)

/-- What R22 gives child j of n of a hart, its queues aside. R269: the token counts stay with child 0. The stream slots are copied
to every child: the model's choice, since R22 has no row for them (log 32); and no line read early for a later vector load is kept
(log 2). -/
def ChildOf (h : Hart) (veff n j : Nat) (c : Hart) : Prop :=
  let most := veff / n / sewBits h.vtype
  c = { h with
    thr := { h.thr with pc := h.thr.pc + 4 }, retired := h.retired + 1
    vl := BitVec.ofNat 16 (Nat.min (h.vl.toNat - j * most) most)
    pushVl := BitVec.ofNat 16 (Nat.min (h.vl.toNat - j * most) most)
    vcap := BitVec.ofNat 18 (veff / n), vstart := 0, seq := BitVec.ofNat 3 j, splitB := BitVec.ofNat 16 (j * most)
    isChild := true, siblings := n, tokIn := if j = 0 then h.tokIn else 0, tokOut := if j = 0 then h.tokOut else 0
    sbuf := [], ssq := c.ssq, evcnt := c.evcnt, early := [] } ∧
  ∀ k, k < 8 → vget [] c.ssq k = []

/-- No hart holds credit at a shared unit of a core (R369). -/
def noCredit : Vector (Vector Nat 8) 3 := Vector.replicate 3 (Vector.replicate 8 0)

/-- Every scalar core has one hart at most. -/
def OneHartEach (s : State) : Prop := (s.harts.map Prod.fst).Nodup

/-- No hart waits at a barrier. -/
def NoBarriers (s : State) : Prop := ∀ e ∈ s.harts, ∀ sc, e.2.park ≠ some (.bar sc)

/-- A core after the next instruction of each of several harts, in order: each takes one off the budget of its region (R36). -/
def chargedAll (s : State) (k : VCore) (ps : List Nat) : VCore :=
  ps.foldl (fun k q => match (s.hart q).region with
    | none => k
    | some r => { k with
        regions := k.regions.map (fun g => if g.opener = r then g.charged (slotOf q) (s.hart q).thr.pc else g) }) k

/-- The region of a hart, if it is in one, goes on: its budget is not spent, and no request waits to abandon it (R36). -/
def GoesOn (s : State) (q : Nat) : Prop :=
  s.budgetSpent q = false ∧
    ∀ e ∈ s.harts, (s.hart q).region.isSome → e.2.region = (s.hart q).region → e.2.preempt = none

/-- What R23 gives the parent of a split from its children, child 0 first; their queues aside. R269: the token counts are child
0's. So are the stream slots: the model's choice (log 32). -/
def ParentOf (r : SplitRec) (c0 : Hart) (cs : List Hart) (h : Hart) : Prop :=
  h = { c0 with
    thr := { c0.thr with pc := c0.thr.pc + 4 }, retired := c0.retired + 1
    vl := r.vl, rows := r.rows, vcap := r.vcap, seq := r.seq, vstart := 0
    fflags := cs.foldl (fun a c => a ||| c.fflags) 0, pntstat := cs.foldl (fun a c => a ||| c.pntstat) 0
    vdirty := h.vdirty, splitB := 0, isChild := false, siblings := 0, pushVl := r.vl, pushVtype := c0.vtype, park := none
    sbuf := h.sbuf, ssq := h.ssq, evcnt := h.evcnt, early := [] } ∧
  ∀ k, k < 50 → h.vdirty.getLsbD k = if k < 48 then cs.any (fun c => c.vdirty.getLsbD k) else c0.vdirty.getLsbD k

/-- A hart takes part in a barrier of a hart of launch n on a core (R31). -/
def takesPart (n core : Nat) (sc : BarScope) (launch c : Nat) : Prop :=
  launch = n ∧ (match sc with
    | .core => c = core
    | .cluster => c / 4 = core / 4
    | .die => c / 32 = core / 32
    | .package => True)

/-! ## Regions (R34–R39) -/

/-- The harts that belong to an open region: its opener, with no split since, or the children of the one split since. -/
structure RegionHarts (s : State) (p : Nat) (g : Region) : Prop where
  core : coreOf g.opener = coreOf p
  harts : (g.split = (s.vcore (coreOf p)).split ∧ (s.hart? g.opener).isSome = true ∧
      (s.hart g.opener).region = some g.opener) ∨
    (∃ r, g.split = none ∧ (s.vcore (coreOf p)).split = some r ∧ g.opener = coreOf p * 8 + r.parentSlot ∧ 0 < r.n ∧
      r.parentSlot * r.n + r.n ≤ 8 ∧
      ∀ q ∈ children (coreOf p) r.parentSlot r.n, (s.hart? q).isSome = true ∧ (s.hart q).region = some g.opener)

/-- A core after its region of an opener has ended: no region, birth or deferred entry of it is left. -/
def RegionGone (a b : VCore) (opener : Nat) : Prop :=
  b.regions = a.regions.filter (fun g => g.opener != opener) ∧ b.journal = a.journal.filter (fun j => j.region != opener) ∧
    b.deferred = a.deferred.filter (fun d => Deferred.region d != opener)

/-- After a region of an opener on a core has ended without committing, its partition is as it was at the iopen: of a split since, no
child is left (R38, R39). -/
def Unsplit (s t : State) (core opener : Nat) (g : Region) : Prop :=
  match g.split, (s.vcore core).split with
  | none, some r => (∀ q ∈ children core r.parentSlot r.n, q ≠ opener → t.hart? q = none) ∧
    (t.vcore core).part = r.parentPart ∧ (t.vcore core).split = none
  | _, _ => (t.vcore core).part = (s.vcore core).part ∧ (t.vcore core).split = (s.vcore core).split

/-- A hart of an open region executes, and the supervisor thread of the region's opener is not halted. -/
structure InRegion (s : State) (p : Nat) (g : Region) : Prop where
  agent : s.agent = .user p
  region : s.regionOf p = some g
  harts : RegionHarts s p g
  halted : (s.sup g.opener).halted = false

/-- `t` is `s` after a cause of hart p has abandoned its region g (R35, R39): the opener stands at its iopen with the snapshot
restored and LAST 3, the region's harts, births and deferred work are gone and its births struck, the partition is the opener's
again, and the opener's supervisor thread serves the cause, with the cause's own address in SCPC and the hart that took it in
DETAIL. That the harts' waiting stores are performed first is the model's choice (log 2). -/
structure AbandonedBy (s t : State) (p : Nat) (g : Region) (c : Cause) : Prop where
  agent : t.agent = .sup g.opener
  opener : Restored (t.hart g.opener) g g.openPc ∧ (t.hart g.opener).last = 3
  split : Unsplit s t (coreOf p) g.opener g
  gone : RegionGone (s.vcore (coreOf p)) (t.vcore (coreOf p)) g.opener
  scause : (t.sup g.opener).scause.toNat =
    scauseFields { c with abandoned := true, detail := slotOf p * 8192 + c.detail % 8192 }
  sepc : (t.sup g.opener).sepc = g.openPc &&& 0xFFFFFFFFFFFFFFFC#64
  scpc : (t.sup g.opener).scpc = c.cpc &&& 0xFFFFFFFFFFFFFFFC#64
  stval : (t.sup g.opener).stval = c.tval
  svc : (t.sup g.opener).svc = true
  mem : t.mem = (State.strikeBirths (State.stopHarts s (s.regionHarts (coreOf p) g.opener))
    ((s.vcore (coreOf p)).journal.filter (fun b => b.region == g.opener))).mem

/-- The two instructions that end a region. -/
def endsRegion (i : Instr) : Bool :=
  match i with
  | .icommit | .iabort => true
  | _ => false

end Sys2Proof.Claims

/-- R20–R22, R269: an allowed split with the VIQ empty performs the hart's accesses, multiplies the partition by n, and leaves n
children in the slots that divide the parent's, each as R22 says, child 0 with the token counts and every child with the stream
slots (these the model's reading, log 32; the performing log 2); the register files do not change. A refused split takes
SPLIT_STATE with the failing check as DETAIL, every register as it was. -/
def Obligations.SplitMakesChildren : Prop :=
  (∀ (s : State) (p : Nat) (n : BitVec 4), s.agent = .user p → splitRefusal s p n.toNat = none → (s.hart p).viq = [] →
    (s.hart p).late = [] →
    let core := coreOf p
    let cs := children core (slotOf p) n.toNat
    let k := s.chargedFor p s.pc core
    let veff := vlenEff s p
    ∃ t, exec (.split n) s = .next t ∧
      t.vcore core = { k with
        part := k.part * n.toNat
        split := some ⟨slotOf p, k.part, n.toNat, (s.hart p).vl, (s.hart p).rows, (s.hart p).vcap, (s.hart p).seq,
          (s.hart p).launch, core⟩
        unitTlb := Vector.replicate 8 none
        deficit := noCredit } ∧
      (∀ j, j < n.toNat → ∃ c, t.hart? (core * 8 + slotOf p * n.toNat + j) = some c ∧ ChildOf (s.hart p) veff n.toNat j c) ∧
      (p ∉ cs → t.hart? p = none) ∧ (∀ q, q ≠ p → q ∉ cs → t.hart? q = s.hart? q) ∧
      (∀ c, c ≠ core → t.vcore c = s.vcore c) ∧ (∀ q, t.sup q = s.sup q) ∧
      t.mem = ((s.drainS (.user p)).drainV p).mem ∧ t.agent = .user (core * 8 + slotOf p * n.toNat)) ∧
  (∀ (s : State) (p k : Nat) (n : BitVec 4), UserAtWork s p → splitRefusal s p n.toNat = some k →
    ∃ t, exec (.split n) s = .next t ∧ TrapTaken s t p ⟨4, false, s.pc, s.pc, 0, k, false, false⟩)

/-- R23, R24, R269: the last sibling's join ends the children, restores the partition and leaves the parent in its slot, after child
0's join and with child 0's token counts and stream slots (the slots are the model's reading, log 32; that a join
performs its hart's waiting stores is its choice, log 2); a join before the last parks; a hart that is no child takes SPLIT_STATE. -/
def Obligations.JoinReassemblesTheParent : Prop :=
  (∀ (s : State) (p : Nat) (r : SplitRec), s.agent = .user p → (s.hart p).isChild = true → (s.hart p).viq = [] →
    (s.vcore (coreOf p)).split = some r → 0 < r.n → p ∈ children (coreOf p) r.parentSlot r.n → (s.hart p).late = [] →
    NoBarriers s → (∀ q ∈ children (coreOf p) r.parentSlot r.n, (s.hart? q).isSome = true ∧
      (q ≠ p → (s.hart q).park = some .join)) →
    let cs := children (coreOf p) r.parentSlot r.n
    let parent := coreOf p * 8 + r.parentSlot
    ∃ t h, exec .join s = .next t ∧ t.hart? parent = some h ∧
      ParentOf r (s.hart (cs.headD 0)) (cs.map s.hart) h ∧
      t.vcore (coreOf p) = { chargedAll s (s.vcore (coreOf p)) cs with
        part := r.parentPart, split := none, unitTlb := Vector.replicate 8 none, deficit := noCredit } ∧
      (∀ q ∈ cs, q ≠ parent → t.hart? q = none) ∧ (∀ q, q ∉ cs → q ≠ parent → t.hart? q = s.hart? q) ∧
      t.mem = ((s.drainS (.user p)).drainV p).mem ∧ t.agent = .user parent) ∧
  (∀ (s : State) (p : Nat) (r : SplitRec), s.agent = .user p → (s.hart p).isChild = true → (s.hart p).viq = [] →
    (s.vcore (coreOf p)).split = some r → (s.hart p).late = [] →
    (∃ q ∈ children (coreOf p) r.parentSlot r.n, q ≠ p ∧ (s.hart q).park ≠ some .join) →
    ∃ t, exec .join s = .next t ∧ (t.hart p).park = some .join ∧ (t.hart p).thr = (s.hart p).thr ∧
      (∀ q, q ≠ p → t.hart q = s.hart q) ∧ (∀ c, t.vcore c = s.vcore c) ∧
      t.mem = ((s.drainS (.user p)).drainV p).mem) ∧
  (∀ (s : State) (p : Nat), UserAtWork s p → (s.hart p).isChild = false →
    ∃ t, exec .join s = .next t ∧ TrapTaken s t p ⟨4, false, s.pc, s.pc, 0, 6, false, false⟩)

/-- R31, R138: a bar parks its hart until every participant has arrived, and then each goes on at the following word; a hart
whose region is over (R36) does not take part any more. R24, R34, R137, R283: an exit ends its hart, and the launch's MCCs with its
last hart; its slot has no credit at the shared units then (R369). A child's exit takes SPLIT_STATE with DETAIL 7; one in an open
region takes ILLEGAL with DETAIL 2 and abandons the region. On an MCC exit ends the stream. The model's readings: the registers of
the slot, which a supervisor may still read, are as the hart left them (log 58, DEDUCED: R103 says only that such an access
reaches the user thread's registers); a bar and an exit perform the hart's waiting stores (log 2); a child in a region takes
SPLIT_STATE (log 63). -/
def Obligations.BarriersAndExits : Prop :=
  (∀ (s : State) (p : Nat) (sc : BarScope), s.agent = .user p → held s = false → OneHartEach s →
    (s.hart? p).isSome = true → (s.hart p).late = [] →
    (∀ e ∈ s.harts, takesPart (s.hart p).launch (coreOf p) sc e.2.launch (coreOf e.1) → GoesOn s e.1) →
    (∀ e ∈ s.harts, e.1 ≠ p → takesPart (s.hart p).launch (coreOf p) sc e.2.launch (coreOf e.1) →
      e.2.park = some (.bar sc)) →
    (∀ l, s.launch? (s.hart p).launch = some l → ∀ u ∈ l.suspended, ¬takesPart l.n (coreOf p) sc l.n (coreOf u.p)) →
    ∃ t, exec (.bar sc) s = .next t ∧ t.mem = (s.drainL (.user p)).mem ∧
      ∀ e ∈ s.harts, takesPart (s.hart p).launch (coreOf p) sc e.2.launch (coreOf e.1) →
        (t.hart e.1).park = none ∧ (t.hart e.1).thr = { e.2.thr with pc := e.2.thr.pc + 4 } ∧
        (t.hart e.1).retired = e.2.retired + 1) ∧
  (∀ (s : State) (p : Nat) (sc : BarScope), s.agent = .user p → held s = false → NoBarriers s → (s.hart p).late = [] →
    (∃ e ∈ s.harts, e.1 ≠ p ∧ takesPart (s.hart p).launch (coreOf p) sc e.2.launch (coreOf e.1)) →
    ∃ t, exec (.bar sc) s = .next t ∧ (t.hart p).park = some (.bar sc) ∧ (t.hart p).thr = (s.hart p).thr ∧
      (∀ q, q ≠ p → t.hart q = s.hart q) ∧ t.mem = (s.drainL (.user p)).mem) ∧
  (∀ (s : State) (p : Nat), s.agent = .user p → (s.hart p).isChild = false → (s.hart p).region = none → held s = false →
    (s.hart p).viq = [] → (s.hart p).late = [] → NoBarriers s →
    let last : Prop := (∀ e ∈ s.harts, e.1 ≠ p → e.2.launch ≠ (s.hart p).launch) ∧
      ∀ l, s.launch? (s.hart p).launch = some l → l.suspended = []
    ∃ t, exec .exit s = .next t ∧ t.hart? p = none ∧ (∀ q, q ≠ p → t.hart? q = s.hart? q) ∧
      (∀ c, c ≠ coreOf p → t.vcore c = s.vcore c) ∧
      t.vcore (coreOf p) = { s.vcore (coreOf p) with deficit := (t.vcore (coreOf p)).deficit } ∧
      (∀ u, u < 3 → vget 0 (vget (Vector.replicate 8 0) (t.vcore (coreOf p)).deficit u) (slotOf p) = 0) ∧
      sameButSlices { s.hart p with sbuf := [] } ((t.withLast p).hart p) ∧
      ((t.withLast p).hart p).thr = (s.hart p).thr ∧ ((t.withLast p).hart p).retired = (s.hart p).retired ∧
      t.mem = ((s.drainS (.user p)).drainV p).mem ∧
      (∀ c, (s.cluster c).holder = some (s.hart p).launch → (s.cluster c).mccRun = .running → last →
        t.cluster c = { s.cluster c with mccRun := .stopped }) ∧
      (∀ c, ¬((s.cluster c).holder = some (s.hart p).launch ∧ (s.cluster c).mccRun = .running ∧ last) →
        t.cluster c = s.cluster c)) ∧
  (∀ (s : State) (p : Nat), UserAtWork s p → (s.hart p).isChild = true →
    ∃ t, exec .exit s = .next t ∧ TrapTaken s t p ⟨4, false, s.pc, s.pc, 0, 7, false, false⟩) ∧
  (∀ (s : State) (p : Nat) (g : Region) (w : BitVec 32), InRegion s p g → encode .exit = some w →
    ∃ t, exec .exit s = .next t ∧ AbandonedBy s t p g (if (s.hart p).isChild
      then ⟨4, false, s.pc, s.pc, 0, 7, false, false⟩ else ⟨1, false, s.pc, s.pc, w.zeroExtend 64, 2, false, false⟩)) ∧
  (∀ (s : State) (c : Nat), s.agent = .mcc c →
    ∃ t, exec .exit s = .next t ∧ t.cluster c = { s.cluster c with mccRun := .stopped } ∧
      (∀ d, d ≠ c → t.cluster d = s.cluster d) ∧ t.mem = s.mem ∧ (∀ q, t.hart q = s.hart q))

/-- R34, R140: an iopen takes the snapshot and the budget, the smaller of x[a] and the launch's, a zero x[a] giving the
launch's, and goes on to the next word inside the region; in an open region it takes ILLEGAL with DETAIL 2 and abandons the region
(R35). That the hart's waiting stores to the device's own memory are performed first is the model's choice (log 2).
R36: in an open region each instruction that retires takes 1 from the budget, and the one that brings it to 0 is named by hart
and address; then no hart of the region goes on, and the region is abandoned before anything else of it (that this is the next step
is the model's choice, log 1). -/
def Obligations.RegionsOpenAndSpendABudget : Prop :=
  ((∀ (s : State) (p : Nat) (a : Reg), s.agent = .user p → Ready s { rx := [a] } → (s.hart p).region = none →
      (s.hart p).viq = [] → (s.hart p).late = [] →
      let h := s.hart p
      let k := s.vcore (coreOf p)
      let limit := ((s.launch? h.launch).map (·.desc.budget.toNat)).getD 0
      ∃ t g, exec (.iopen a) s = .next t ∧ (t.vcore (coreOf p)) = { k with regions := k.regions ++ [g] } ∧
        g = ⟨p, s.pc, h.thr.x, h.thr.f, h.vl, h.vtype, h.rows, h.rngkey, k.part, k.split, g.budget, none, 0⟩ ∧
        g.budget.toNat = (if s.rx a = 0 then limit else Nat.min (s.rx a).toNat limit) ∧
        t.hart p = { h with
          thr := { h.thr with pc := s.pc + 4 }, retired := h.retired + 1, region := some p, withheld := 0
          sbuf := (t.hart p).sbuf, ssq := (t.hart p).ssq, evcnt := (t.hart p).evcnt } ∧
        (∀ q, q ≠ p → t.hart q = s.hart q) ∧ (∀ q, t.sup q = s.sup q) ∧
        t.mem = ((s.drainL (.user p)).drainV p).mem ∧ t.agent = s.agent) ∧
    ∀ (s : State) (p : Nat) (a : Reg) (g : Region) (w : BitVec 32), InRegion s p g → Ready s { rx := [a] } →
      encode (.iopen a) = some w →
      ∃ t, exec (.iopen a) s = .next t ∧ AbandonedBy s t p g ⟨1, false, s.pc, s.pc, w.zeroExtend 64, 2, false, false⟩) ∧
  ((∀ (i : Instr) (s : State) (p : Nat) (us : List Reg) (d : Reg) (v : Word) (g : Region),
      intResult i s.rx = some (us, d, v) ∨ immResult i s.rx s.pc = some (us, d, v) → s.agent = .user p →
      Ready s { rx := us, wx := [d] } → s.regionOf p = some g →
      ∃ t h, exec i s = .next t ∧ t.regionOf p = some h ∧ h.budget.toNat = g.budget.toNat - 1 ∧
        h.spent = (if g.budget = 1 then some (slotOf p, s.pc) else g.spent) ∧
        h = { g with budget := h.budget, spent := h.spent }) ∧
    (∀ (s : State) (p : Nat) (g : Region), s.regionOf p = some g → g.spent.isSome →
      s.runnable (.user p) = false ∧ s.runnable (.vec p) = false) ∧
    ∀ (s : State) (p : Nat), s.halted = false → s.sched = [] → s.unsettled = false → s.spentRegion = some p →
      s.clocked (coreOf p) = true → step s = exec (.budgetExhausted p) s)

/-- R38: iabort leaves the opener after itself with the snapshot of its iopen, the children made inside the region gone, the
partition the opener's again, the region's births struck and LAST 2. R35, R36, R39: the budget's end, and a fault, a trap or a
system call of any of its harts, abandon the region instead, the opener at its iopen with LAST 3; the budget's end is PREEMPT with
DETAIL 2 and the HART of the instruction that spent it; STVAL of a system call is a free value (log 6). Outside a region icommit
and iabort take ILLEGAL with DETAIL 2. The model's readings: the opener's own VIQ is emptied, WITHHELD and VSTART are zero after an
iabort too (log 61: R38 lists none of these), and the harts' waiting stores are performed (log 2). -/
def Obligations.AbandonedRegionsRestoreTheSnapshot : Prop :=
  (∀ (s : State) (p : Nat) (g : Region), s.agent = .user p → s.regionOf p = some g → RegionHarts s p g →
    let s1 := s.retireOf p s.pc
    ∃ t, exec .iabort s = .next t ∧ t.agent = .user g.opener ∧ Restored (t.hart g.opener) g (s.pc + 4) ∧
      (t.hart g.opener).last = 2 ∧ Unsplit s t (coreOf p) g.opener g ∧ RegionGone (s.vcore (coreOf p)) (t.vcore (coreOf p)) g.opener ∧
      t.mem = (State.strikeBirths (State.stopHarts s1 (s1.regionHarts (coreOf p) g.opener))
        ((s.vcore (coreOf p)).journal.filter (fun b => b.region == g.opener))).mem) ∧
  (∀ (s : State) (p slot : Nat) (g : Region) (addr : Word), RegionHarts s p g → g.opener = p → g.spent = some (slot, addr) →
    slot < 8 → (s.sup p).halted = false →
    (s.vcore (coreOf p)).regions.find? (fun r => r.opener == p) = some g →
    ∃ t, exec (.budgetExhausted p) s = .next t ∧ (t.hart p).preempt = none ∧
      AbandonedBy s t (coreOf p * 8 + slot) g ⟨21, false, addr, addr, 0, 2, false, false⟩) ∧
  (∀ (i : Instr) (s : State) (p : Nat) (g : Region) (d a : Reg) (toF : Bool) (imm : BitVec 12) (n code : Nat) (sgnd dev : Bool),
    loadOf i = some (d, toF, a, imm, n, sgnd) → InRegion s p g → Ready s (loadUses d a toF) → held s = false →
    sPlace s .load .window a imm n = .error (.cause code dev) →
    ∃ t, exec i s = .next t ∧ AbandonedBy s t p g
      ⟨code, false, s.pc, s.pc, addrWord (sAddr s a imm), accDetail .load code dev, false, false⟩) ∧
  (∀ (i : Instr) (s : State) (p : Nat) (g : Region) (w : BitVec 32), InRegion s p g →
    (∃ t, exec (.illegalWord w 1) s = .next t ∧
      AbandonedBy s t p g ⟨1, false, s.pc, s.pc, w.zeroExtend 64, 0, false, false⟩) ∧
    (supervisorOnly i = true → encode i = some w → ∃ t, exec i s = .next t ∧
      AbandonedBy s t p g ⟨2, false, s.pc, s.pc, w.zeroExtend 64, 0, false, false⟩)) ∧
  (∀ (s : State) (p : Nat) (g : Region) (imm : BitVec 17), InRegion s p g →
    ∃ t, exec (.trap imm) s = .next t ∧
      AbandonedBy (s.retireAt s.pc) t p g ⟨20, false, s.pc + 4, s.pc, imm.signExtend 64, 0, false, false⟩) ∧
  (∀ (s : State) (p : Nat) (g : Region) (d a : Reg), InRegion s p g → Ready s { rx := [a], wx := [d] } →
    ∃ t v, exec (.syscall d a) s = .next t ∧ AbandonedBy s.tick t p g ⟨19, false, s.pc + 4, s.pc, v, 0, false, false⟩) ∧
  (∀ (i : Instr) (s : State) (p : Nat) (w : BitVec 32), endsRegion i = true → encode i = some w → UserAtWork s p →
    ∃ t, exec i s = .next t ∧ TrapTaken s t p ⟨1, false, s.pc, s.pc, w.zeroExtend 64, 2, false, false⟩)

namespace Sys2Proof.Claims

/-! ## The commit of a region and launches (R37, R139) -/

/-- The deferred strikes of a region, in order: launch, tent and tile (R35). -/
def deferredStrikes (ds : List Deferred) (p : Nat) : List (Nat × Nat × Nat) :=
  ds.filterMap (fun d => match d with
    | .strike r n t i => if r = p then some (n, t, i) else none
    | .launch _ _ _ _ _ => none)

/-- Its deferred launches, in order: descriptor, address space, cell and hart. -/
def deferredLaunches (ds : List Deferred) (p : Nat) : List (List Byte × Nat × Nat × Nat) :=
  ds.filterMap (fun d => match d with
    | .launch r bs a c q => if r = p then some (bs, a, c, q) else none
    | .strike _ _ _ _ => none)

/-- The code of the second check of a deferred launch (R37, R139): 4 when its object has gone or its entry is not executable any
more, 5 when its level is full, else 0. A machine check is answered as a full level (the model's choice, log 20). -/
def recheckCode (s : State) (bs : List Byte) (asid : Nat) : Nat :=
  let d := descOf bs
  if (∀ o ∈ s.peg.objects, o.handle ≠ d.handle) ∨ entryRuns s asid d.entry = false then 4
  else if s.peg.machineCheck = true ∨ 32 ≤ (vget [] s.peg.levels d.prio).length then 5
  else 0

/-- What the peg core holds after a launch has been put at the tail of its level (R274). -/
def submitted (g : Peg) (bs : List Byte) (asid cell : Nat) (b : Submitter) : Peg :=
  let d := descOf bs
  { g with
    launches := g.launches ++ [⟨g.nextLaunch, d, .queued, asid, cell, b, [], [], [], false, 0⟩]
    nextLaunch := g.nextLaunch + 1
    levels := vset g.levels d.prio (vget [] g.levels d.prio ++ [g.nextLaunch]) }

/-- `u` is `s` after the second check of a deferred launch: it is submitted, or its completion cell's status word takes the code
with 0xFFFF above it (R28, R317). -/
def Rechecked (s u : State) (x : List Byte × Nat × Nat × Nat) : Prop :=
  let code := recheckCode s x.1 x.2.1
  if code = 0 then u = { s with peg := submitted s.peg x.1 x.2.1 x.2.2.1 (.hart x.2.2.2) }
  else StoredAt u s.mem (x.2.2.1 + 8) 8 (code + 0xFFFF * 2 ^ 16) ∧ u.peg = s.peg ∧ (∀ q, u.hart q = s.hart q)

/-- Deferred launches are checked and submitted one after the other. -/
def RecheckedAll : State → List (List Byte × Nat × Nat × Nat) → State → Prop
  | s, [], u => u = s
  | s, x :: rest, u => ∃ m, Rechecked s m x ∧ RecheckedAll m rest u

end Sys2Proof.Claims

/-- R37: icommit strikes the births of withheld rows, performs the deferred strikes and then checks the deferred launches again and
queues them or writes 4 or 5 into their cells, ends the region with LAST 1, and goes on to the next word; a deferred pennant word is
then delivered as PENNANT with the following word as SEPC. A hart that is not the opener, or has split since, takes ILLEGAL with
DETAIL 2 and abandons the region. The order of the withheld strikes, the cleared WITHHELD and the icommit's address in SCPC are the
model's choices (log 61), and so is the performing of the hart's waiting stores (log 2). -/
def Obligations.IcommitCommits : Prop :=
  (∀ (s : State) (p : Nat) (g : Region), s.agent = .user p → s.regionOf p = some g → g.opener = p → s.memOk →
    g.split = (s.vcore (coreOf p)).split → (s.hart p).viq = [] → (s.hart p).late = [] →
    let k := s.vcore (coreOf p)
    let s1 := (s.drainS (.user p)).drainV p
    let s2 := (k.journal.filter (fun b => b.region == p && (s.hart p).withheld.getLsbD b.seq.toNat)).foldl
      (fun s b => strikeTile s b.launch b.tent b.tile) s1
    let s3 := (deferredStrikes k.deferred p).foldl (fun s x => strikeTile s x.1 x.2.1 x.2.2) s2
    ∃ t s4, exec .icommit s = .next t ∧ RecheckedAll s3 (deferredLaunches k.deferred p) s4 ∧
      RegionGone k (t.vcore (coreOf p)) p ∧ (t.hart p).region = none ∧
      (t.hart p).withheld = 0 ∧ (t.hart p).last = 1 ∧ (t.hart p).thr = { s.me with pc := s.pc + 4 } ∧
      t.mem = s4.mem ∧ t.peg.launches = s4.peg.launches ∧ t.peg.levels = s4.peg.levels ∧
      t.peg.nextLaunch = s4.peg.nextLaunch ∧
      (g.pennant = 0 → t.agent = .user p ∧ t.sup p = s.sup p) ∧
      (g.pennant ≠ 0 → (s.sup p).svc = false → (s.sup p).halted = false →
        (s.hart p).pageWait = none →
        t.agent = .sup p ∧ (t.sup p).svc = true ∧ (t.sup p).sepc = (s.pc + 4) &&& 0xFFFFFFFFFFFFFFFC#64 ∧
        (t.sup p).stval = g.pennant.zeroExtend 64 ∧
        (t.sup p).scause.toNat = scauseFields ⟨15, true, 0, 0, 0, 0, false, true⟩)) ∧
  ∀ (s : State) (p : Nat) (g : Region) (w : BitVec 32), InRegion s p g →
    g.opener ≠ p ∨ g.split ≠ (s.vcore (coreOf p)).split → encode .icommit = some w →
    ∃ t, exec .icommit s = .next t ∧ AbandonedBy s t p g ⟨1, false, s.pc, s.pc, w.zeroExtend 64, 2, false, false⟩

/-- R139: a launch writes its code into x[d] and goes on to the next word: the code of a descriptor that fails step 3, 5 when
its level is full, or 0 with the launch at the tail of its level; inside a region the launch is deferred with code 0. A supervisor
thread's launch is submitted in the same way, for the address space that R310 gives it, and is never deferred. A machine check is
answered as a full level (the model's choice, log 20), and the thread's waiting stores are performed first (log 2). -/
def Obligations.LaunchSubmits : Prop :=
  (∀ (s : State) (p : Nat) (d a : Reg) (pl : Place) (code asid cell : Nat) (l : Loc), s.agent = .user p →
    Ready s { rx := [a], wx := [d] } → held s = false → (s.hart p).late = [] →
    accPlace s (s.actx (.user p)) .load .natural (tagOf (s.rx a)) ((s.rx a).toNat : Int) 256 = .ok pl →
    let s1 := s.drainS (.user p)
    let bs := loadBytes s1 pl 256
    let s2 := loaded s1 pl ((s.rx a).toNat : Int) 256
    let ds := descOf bs
    descCheck s2 (.hart (s.actx (.user p)).asid) bs = (code, asid) →
    (code = 0 → checkAddr s2 ⟨asid, false, none, coreOf p⟩ .store .natural 0 (ds.cell.toNat : Int) 16 = .ok (.at_ cell l)) →
    ds.prio < 8 →
    let free := s.peg.machineCheck = false ∧ (vget [] s.peg.levels ds.prio).length < 32
    ((s.hart p).region ≠ none → (s.vcore (coreOf p)).deferred.length < 1024) →
    ∃ t, exec (.launch d a) s = .next t ∧ t.mem = s1.mem ∧ t.agent = s.agent ∧
      (t.hart p).thr = { s.me.wx d (BitVec.ofNat 64
        (if code ≠ 0 then code else if (s.hart p).region = none ∧ ¬free then 5 else 0)) with pc := s.pc + 4 } ∧
      t.peg = (if code = 0 ∧ (s.hart p).region = none ∧ free then submitted s.peg bs asid cell (.hart p) else s.peg) ∧
      (t.vcore (coreOf p)).deferred = (s.vcore (coreOf p)).deferred ++
        (match (s.hart p).region with
         | some r => if code = 0 then [.launch r bs asid cell p] else []
         | none => [])) ∧
  ∀ (s : State) (p : Nat) (d a : Reg) (pl : Place) (code asid cell : Nat) (l : Loc), s.agent = .sup p →
    Ready s { rx := [a], wx := [d] } → (s.sup p).late = [] →
    accPlace s (s.actx (.sup p)) .load .natural (tagOf (s.rx a)) ((s.rx a).toNat : Int) 256 = .ok pl →
    let s1 := s.drainS (.sup p)
    let bs := loadBytes s1 pl 256
    let s2 := loaded s1 pl ((s.rx a).toNat : Int) 256
    let ds := descOf bs
    descCheck s2 (.sup p) bs = (code, asid) →
    (code = 0 → checkAddr s2 ⟨asid, false, none, coreOf p⟩ .store .natural 0 (ds.cell.toNat : Int) 16 = .ok (.at_ cell l)) →
    ds.prio < 8 →
    let free := s.peg.machineCheck = false ∧ (vget [] s.peg.levels ds.prio).length < 32
    ∃ t, exec (.launch d a) s = .next t ∧ t.mem = s1.mem ∧ t.agent = s.agent ∧
      (t.sup p).thr = { s.me.wx d (BitVec.ofNat 64 (if code ≠ 0 then code else if free then 0 else 5)) with pc := s.pc + 4 } ∧
      t.peg = (if code = 0 ∧ free then submitted s.peg bs asid cell (.hart p) else s.peg) ∧
      (∀ k, (t.vcore k).deferred = (s.vcore k).deferred) ∧ (∀ q, t.hart q = s.hart q)

namespace Sys2Proof.Claims

/-! ## Context images (R355–R358) -/

/-- A VIQ entry as an image keeps it (R356): not what the model alone notes of it. -/
def savedEntry (e : VEntry) : VEntry := { e with needs := 0, joined := (vuse e.instr).mem, bad := false, done := .zero }

/-- A VIQ entry that a push has made: its word and its prefix have encodings, which decode to them. -/
def EncodedEntry (e : VEntry) : Prop :=
  (∃ w, encode e.instr = some w ∧ decodeWord w = .ok e.instr ∧ 6 ≤ w.toNat / 2 ^ 28 ∧ w.toNat / 2 ^ 28 ≤ 13) ∧
  denied .user e.instr = none ∧ (∀ k, e.slot = some k → k < 16) ∧
  ∀ x, e.pfx = some x → pfxOk x.zero x.cfile e.instr = true ∧
    ∃ w, encode (.pfx x.m x.sense x.zero x.cfile x.creg) = some w ∧ w ≠ 0 ∧
      decodeWord w = .ok (.pfx x.m x.sense x.zero x.cfile x.creg)

/-- The user state of a hart that a context image holds (R355): its registers, CSRs, token counts, stream slots (what they have
fetched aside), Reply Queue, FMASK bits 0 to VL − 1 and VIQ entries. -/
def SameUser (a b : Hart) : Prop :=
  a.launch = b.launch ∧ (∀ k : Nat, 0 < k → k < 32 → vget 0 a.thr.x k = vget 0 b.thr.x k) ∧ a.thr.f = b.thr.f ∧
  a.vl = b.vl ∧ a.vstart = b.vstart ∧ a.vtype = b.vtype ∧ a.rows = b.rows ∧ a.vcap = b.vcap ∧ a.vdirty = b.vdirty ∧
  a.fstat = b.fstat ∧ a.fflags = b.fflags ∧ a.frm = b.frm ∧ a.rngkey = b.rngkey ∧ a.pfxs = b.pfxs ∧
  a.withheld = b.withheld ∧ a.seq = b.seq ∧ a.last = b.last ∧ a.pntstat = b.pntstat ∧ a.shtcur = b.shtcur ∧ a.ovr = b.ovr ∧
  a.retired = b.retired ∧ a.evsel = b.evsel ∧ a.splitB = b.splitB ∧ a.isChild = b.isChild ∧ a.tokIn = b.tokIn ∧
  a.tokOut = b.tokOut ∧ a.replies = b.replies ∧ a.fmask.toNat = b.fmask.toNat % 2 ^ b.vl.toNat ∧
  a.viq = b.viq.map savedEntry ∧
  ∀ k, k < 4 → vget Stream.none a.streams k = { vget Stream.none b.streams k with strip := [], failed := [] }

/-- Bytes padded to a multiple of 64. -/
def padded (n : Nat) : Nat := (n + 63) / 64 * 64

/-- Bytes of a register in the vector area (R357), by its VDIRTY bit. -/
def areaBytes (vl sew vlen k : Nat) : Nat :=
  if k < 32 then (vl * sew + 7) / 8
  else if k < 40 then (vl + 7) / 8
  else if k < 48 then 2 * Nat.min vl (vlen / 16)
  else 512

/-- The number that the bytes of register k of an image spell (R355, R357): behind the entries and FMASK, after every marked
register before it. -/
def areaNum (bs : List Byte) (vdirty : BitVec 50) (vl sew vlen k : Nat) : Nat :=
  let off := 1280 + 128 * bytesField bs 16 2 + padded ((vl + 7) / 8) +
    (((List.range k).filter (fun j => vdirty.getLsbD j)).map (fun j => padded (areaBytes vl sew vlen j))).foldl (· + ·) 0
  bytesField bs off (areaBytes vl sew vlen k)

/-- The vector registers of a hart are what an image holds (R101): of each marked register the elements, mask bits and entries 0 to
VL − 1 (the entries while SEW is 16 or more, R180), of a marked pa register everything; `rest`: every other one is zero. -/
def HoldsArea (s : State) (p : Nat) (bs : List Byte) (rest : Bool) : Prop :=
  let h := s.hart p
  let c := vctx s p noEntry .vdrain
  let num := areaNum bs h.vdirty c.vl c.sew c.vlen
  let k := s.vcore (coreOf p)
  (∀ r i, r < 32 → i < c.eff / c.sew → (h.vdirty.getLsbD r = true ∧ i < c.vl) ∨ rest = true →
    getBits (vget 0 k.v r).toNat (c.vPos c.sew i) c.sew =
      if h.vdirty.getLsbD r ∧ i < c.vl then getBits (num r) (i * c.sew) c.sew else 0) ∧
  (∀ r i, r < 8 → i < c.eff / c.sew → (h.vdirty.getLsbD (32 + r) = true ∧ i < c.vl) ∨ rest = true →
    (vget 0 k.m r).toNat.testBit (c.mPos i) = (h.vdirty.getLsbD (32 + r) && decide (i < c.vl) && (num (32 + r)).testBit i)) ∧
  (∀ r i, r < 8 → 16 ≤ c.sew → i < c.eff / c.sew → (h.vdirty.getLsbD (40 + r) = true ∧ i < c.vl) ∨ rest = true →
    getBits (vget 0 k.t r).toNat (c.tPos i) 16 =
      if h.vdirty.getLsbD (40 + r) ∧ i < c.vl then getBits (num (40 + r)) (i * 16) 16 else 0) ∧
  (∀ r, r < 2 → h.vdirty.getLsbD (48 + r) = true ∨ rest = true →
    (vget 0 h.pa r).toNat = if h.vdirty.getLsbD (48 + r) then num (48 + r) else 0)

/-- A partition, slot, configuration and VCAP that a hart can have (R18, R107, R309). -/
def SoundHart (s : State) (p : Nat) : Prop :=
  ((s.vcore (coreOf p)).part = 1 ∨ (s.vcore (coreOf p)).part = 2 ∨ (s.vcore (coreOf p)).part = 4 ∨
    (s.vcore (coreOf p)).part = 8) ∧
  slotOf p < (s.vcore (coreOf p)).part ∧ vtypeOk (s.hart p).vtype.toNat = true ∧
  (∃ j, 9 ≤ j ∧ j ≤ 15 ∧ (s.hart p).vcap.toNat = 2 ^ j) ∧ (s.hart p).vl.toNat ≤ vlmaxOf s p (s.hart p).vtype

/-- A hart with the values that its Reply Queue holds written to their registers, lowest slot first, and those slots free (R267). -/
def repliesDone (h : Hart) : Hart :=
  (List.range 16).foldl (fun h k => match vget none h.replies k with
    | some ⟨toF, r, copy, some v⟩ =>
      let th := if toF then h.thr.wf r v else h.thr.wx r v
      { h with
        thr := (match copy with
          | some x => th.wx x v
          | none => th)
        replies := vset h.replies k none }
    | _ => h) h

/-- The slot of scalar core p holds the hart of an image, `s` the state before it (R355, R358): its registers, CSRs and queues, its
vector registers, its trap in service with the image's SCAUSE, SEPC, SCPC and STVAL, and every bit of its lanes that the image does
not hold zero (R101). -/
def FromImage (s t : State) (p : Nat) (bs : List Byte) : Prop :=
  t.hart? p = some { repliesDone (imageHart s p bs) with pa := (t.hart p).pa } ∧ HoldsArea t p bs true ∧
  (t.sup p).scause.toNat = bytesField bs 760 4 &&& 0xFFFF07FF ∧
  (t.sup p).sepc.toNat = bytesField bs 768 8 / 4 * 4 ∧ (t.sup p).scpc.toNat = bytesField bs 776 8 / 4 * 4 ∧
  (t.sup p).stval.toNat = bytesField bs 784 8 ∧ (t.sup p).svc = true

/-- The bytes of an image on the pages from an address, as long as its LENGTH says. -/
def ImageBytesAt (s : State) (p va : Nat) (bs : List Byte) : Prop :=
  bytesField bs 4 4 = bs.length ∧
    ∃ ks, imagePages s p .load va ((bs.length + 4095) / 4096) = .keys ks ∧ bs = (pagesGet s ks).take bs.length

/-- A translation that a tlbinv names, by its extent and address (R142). -/
def namedBy (e : TlbExtent) (va : Nat) (x : TlbEntry) : Bool :=
  match e with
  | .all | .pkAll => true
  | .page | .pkPage => x.covers x.asid (va / 65536)

/-- No store waits anywhere. -/
def NothingWaits (s : State) : Prop :=
  (∀ e ∈ s.harts, e.2.sbuf = [] ∧ ∀ k, k < 8 → vget [] e.2.ssq k = []) ∧ (∀ e ∈ s.sups, e.2.sbuf = []) ∧ s.trains = []

end Sys2Proof.Claims

/-- R141, R355: ctxsave writes the image of the hart to memory and its length to x[d], and after PREEMPT empties the slot;
ctxload with a sound image fills the slot with the image's hart and its vector registers (R101, R358) and answers 0, its trap in
service; both answer the MISALIGN code for an address that is no multiple of 4096. R368: the firmware's own restore fills the vacant
slot of the launch's lowest suspended hart that can be restored in the same way. A ctxsave performs the hart's and the supervisor
thread's waiting stores first, and both instructions the supervisor's: the model's choice (log 33). -/
def Obligations.ContextSaveAndLoad : Prop :=
  (∀ (s : State) (p : Nat) (d a : Reg) (ks : List Nat), s.agent = .sup p → Ready s { rx := [a], wx := [d] } →
    (s.rx a).toNat % 4096 = 0 → (s.sup p).svc = true → (s.hart? p).isSome = true → (s.sup p).late = [] →
    (s.hart p).late = [] → (s.hart p).vecStopped = true ∨ State.midway (s.hart p) = false →
    imagePages s p .store (s.rx a).toNat (pagesFor (imageOf s p).length) = .keys ks → imageBad s p = false →
    ∃ t, exec (.ctxsave d a) s = .next t ∧
      (t.sup p).thr = { s.me.wx d (BitVec.ofNat 64 (imageOf s p).length) with pc := s.pc + 4 } ∧
      t.mem = (((s.drainS (.sup p)).drainS (.user p)).drainV p).mem.puts (pagesPut ks (imageOf s p)) ∧
      (if (s.sup p).scause.toNat % 256 = 21 then t.hart? p = none ∧ (t.sup p).svc = false
       else (t.hart? p).isSome = true ∧ (t.hart p).thr = (s.hart p).thr ∧ (t.sup p).svc = true)) ∧
  (∀ (s s' : State) (p : Nat) (d a : Reg), s.agent = .sup p → Ready s { rx := [a], wx := [d] } → (s.sup p).late = [] →
    let s1 := s.drainS (.sup p)
    loadImage s1 p (s.rx a).toNat = .ok s' →
    ∃ t bs, exec (.ctxload d a) s = .next t ∧ (t.sup p).thr = { s.me.wx d 0 with pc := s.pc + 4 } ∧
      ImageBytesAt s1 p (s.rx a).toNat bs ∧ FromImage s1 t p bs ∧ t.mem = s1.mem) ∧
  (∀ (i : Instr) (s : State) (p : Nat) (d a : Reg), i = .ctxsave d a ∨ i = .ctxload d a → s.agent = .sup p →
    Ready s { rx := [a], wx := [d] } → (s.rx a).toNat % 4096 ≠ 0 →
    ∃ t, exec i s = .next t ∧ WroteX s t d 7) ∧
  (∀ (s s' : State) (p : Nat) (va : Word), s.hart? p = none →
    loadImage s p va.toNat = .ok s' →
    (∃ l, s.launch? (s'.hart p).launch = some l ∧
      (∃ u ∈ l.suspended, u.p = p ∧ u.byOwner = false ∧ (s.vcore (coreOf p)).part = u.part) ∧
      ∀ u ∈ l.suspended, u.byOwner = false → s.hart? u.p = none → (s.vcore (coreOf u.p)).part = u.part → p ≤ u.p) →
    ∃ t bs, exec (.restoreSuspended p va) s = .next t ∧ ImageBytesAt s p va.toNat bs ∧ FromImage s t p bs ∧
      t.agent = s.agent ∧ t.mem = s.mem)

/-- R355–R358, R101: the image of a hart, its reserved CSR bits zero (R3), holds its user state: the hart made from it has the same
registers, CSRs, queues and slots, its counters as they read, and goes on at the recorded SEPC; and the vector area holds the v, m,
t and pa registers that VDIRTY marks. -/
def Obligations.ContextImagesHoldTheUserState : Prop :=
  ∀ (s : State) (p : Nat), SoundHart s p → (s.hart p).viq.length ≤ 256 → (∀ e ∈ (s.hart p).viq, EncodedEntry e) →
    (∀ k, k < 4 → (vget Stream.none (s.hart p).streams k).pr.toNat ≤ (vget Stream.none (s.hart p).streams k).len.toNat) →
    ((s.hart p).isChild = false → (s.hart p).splitB = 0) →
    (s.hart p).launch < 2 ^ 64 → (s.hart p).siblings < 16 → (s.hart p).tokIn < 256 → (s.hart p).tokOut < 256 →
    (s.hart p).fstat &&& 0xFC0000#40 = 0 → (s.hart p).shtcur &&& 0xC0000#52 = 0 →
    let h := imageHart s p (imageOf s p)
    SameUser h (s.hart p) ∧ (∀ k, k < 4 → vget 0 h.evcnt k = csrVal s p (0x114 + k)) ∧ h.thr.pc = (s.sup p).sepc ∧
      HoldsArea s p (imageOf s p) false

/-- R142: tlbinv removes the named translations of its core, or of the package, and no other, and goes on to the next word. That it
removes them whatever address space they are of is the model's reading (log 42: R142 names none). -/
def Obligations.TlbinvRemovesTranslations : Prop :=
  ∀ (s : State) (p : Nat) (a : Reg) (e : TlbExtent), s.agent = .sup p → Ready s { rx := [a] } → NothingWaits s →
    let here := fun k => e = .pkPage ∨ e = .pkAll ∨ k = coreOf p
    ∃ t, exec (.tlbinv a e) s = .next t ∧
      (∀ k, (here k → t.vcore k = { s.vcore k with
          tlb := (s.vcore k).tlb.filter (fun x => !namedBy e ((s.rx a).toNat % 2 ^ 60) x)
          unitTlb := (s.vcore k).unitTlb.map (fun o => o.filter (fun x => !namedBy e ((s.rx a).toNat % 2 ^ 60) x)) }) ∧
        (¬here k → t.vcore k = s.vcore k)) ∧
      (∀ q, t.hart q = s.hart q) ∧ t.mem = s.mem ∧
      (∀ q, t.sup q = if q = p then { s.sup p with thr := { s.me with pc := s.pc + 4 } } else s.sup q)

/-- R77, R79, R80: a prefix word waits for the next word of the thread, which it does not retire before. That the two are fetched one
after the other, the prefix in a latch between and the pc past it, is the model's choice (log 52: R79 decodes the pair together). -/
def Obligations.PrefixesWaitForTheirWord : Prop :=
  ∀ (s : State) (p : Nat) (m : MReg) (sense zero : Bool) (cf : CFile) (creg : Reg), s.agent = .user p →
    ∃ t, exec (.pfx m sense zero cf creg) s = .next t ∧
      t.hart p = { s.hart p with
        thr := { s.me with pc := s.pc + 4 }, latch := some (⟨m, sense, zero, cf, creg⟩, s.pc) } ∧
      (∀ q, q ≠ p → t.hart q = s.hart q) ∧ t = { s with harts := t.harts }

namespace Sys2Proof.Claims

/-! ## Pushing (R17, R149, R266, R267) -/

/-- The word of a vector, tree, structure or engine instruction that a user thread may push. -/
def UserPushes (i : Instr) : Prop :=
  ∃ w, encode i = some w ∧ 6 ≤ w.toNat / 2 ^ 28 ∧ w.toNat / 2 ^ 28 ≤ 13 ∧ denied .user i = none

/-- The length that the scalar thread knows after pushing setvl or setshape, with the register that receives it. -/
def pushGrants (i : Instr) (s : State) (p : Nat) : Option (Reg × Nat) :=
  match i with
  | .setvl d a vt => some (d, Nat.min (s.rx a).toNat (vlmaxOf s p vt))
  | .setshape d a _ => some (d, Nat.min (s.rx a).toNat (vlmaxOf s p (s.hart p).pushVtype))
  | _ => none

/-- `t` is `s` after the user thread of scalar core p has pushed a word: the entry with its captured operands stands at the
queue's tail, the prefix is used up, the thread goes on at the next word and counts it, and its region pays for it (R36). Before a
class 0xD word the scalar stores that a fence names are performed (R227); nothing else outside the hart changes, but that a register
that the push writes is clean (R219). -/
structure Pushed (s t : State) (p : Nat) (i : Instr) (e : VEntry) : Prop where
  viq : (t.hart p).viq = (s.hart p).viq ++ [e]
  word : e.instr = i ∧ e.addr = (((s.hart p).latch.map (·.2)).getD s.pc) ∧ e.pfx = (s.hart p).latch.map (·.1) ∧
    e.st = .fresh
  captured : e.a = capVal s (vuse i).a ∧ e.b = capVal s (vuse i).b ∧ e.rngkey = (s.hart p).rngkey ∧
    e.frm = (s.hart p).frm ∧ e.ovr = (s.hart p).ovr ∧ e.pntbase = (s.vcore (coreOf p)).pntbase
  slot : e.slot.isSome = (vuse i).ret.isSome
  latch : (t.hart p).latch = none
  thr : (t.hart p).thr = (match pushGrants i s p with
    | some (d, n) => { s.me.wx d (BitVec.ofNat 64 (n % 65536)) with pc := s.pc + 4 }
    | none => { s.me with pc := s.pc + 4 })
  retired : (t.hart p).retired = (s.hart p).retired + 1
  others : (∀ q, q ≠ p → t.hart q = s.hart q) ∧ ∀ k, t.vcore k = s.chargedFor p s.pc k
  outside : t = { performFenced s p i with harts := t.harts, cores := t.cores, badRegs := t.badRegs }
  clean : t.badRegs = (match pushGrants i s p with
    | some (d, _) => s.cleaned false d
    | none => s).badRegs

/-! ## Executing at the VIQ head (R18, R19, R95, R100, R144–R147) -/

/-- A configuration that the spec lets a hart have. -/
structure Legal (s : State) (p : Nat) : Prop where
  part : (s.vcore (coreOf p)).part = 1 ∨ (s.vcore (coreOf p)).part = 2 ∨ (s.vcore (coreOf p)).part = 4 ∨
    (s.vcore (coreOf p)).part = 8
  slot : slotOf p < (s.vcore (coreOf p)).part
  vcap : ∃ k, 9 ≤ k ∧ (s.hart p).vcap.toNat = 2 ^ k
  vtype : vtypeOk (s.hart p).vtype.toNat = true
  vl : (s.hart p).vl.toNat ≤ vlmaxOf s p (s.hart p).vtype
  rows : 1 ≤ (s.hart p).rows.toNat ∧ (s.hart p).rows.toNat ≤ 8

/-- Entry e stands at the VIQ head of the hart of scalar core p, whose vector half executes it: nothing that a fence.sv or an
lsync names is left to wait for, it is not executed part by part (log 1), no pre-emption is being taken, and neither the entry
nor a register of the hart is uncorrectable. -/
structure AtHead (s : State) (p : Nat) (e : VEntry) : Prop where
  agent : s.agent = .vec p
  head : (s.hart p).viq.head? = some e
  needs : e.needs = 0
  joined : e.joined = false
  stopAt : (s.hart p).stopAt = none
  pause : (s.hart p).pause = none
  bad : e.bad = false
  done : e.done = .zero
  good : ∀ b ∈ s.badRegs, b.1 ≠ p
  legal : Legal s p

/-- What an instruction leaves in the registers that it writes: by v register the element width and the elements, by m
register the bits, by t register the entries. -/
structure Writes where
  v : Nat → Option (Nat × (Nat → Nat)) := fun _ => none
  m : Nat → Option (Nat → Bool) := fun _ => none
  t : Nat → Option (Nat → Nat) := fun _ => none

/-- A bit position of a core's register lies outside the hart's lanes, of `lw` bits each. -/
def Outside (c : VCtx) (lw b : Nat) : Prop := ¬(c.lane0 ≤ b / lw ∧ b / lw < c.lane0 + c.lanes)

/-- The register files of the hart's core hold what `w` says, every other register and every other lane as before. -/
structure InRegs (s t : State) (c : VCtx) (w : Writes) : Prop where
  v : ∀ r, r < 32 → match w.v r with
    | none => vreg t c.core r = vreg s c.core r
    | some (n, f) => (∀ i, i < c.cap n → c.ev t r n i = f i) ∧
        ∀ b, Outside c 1024 b → (vreg t c.core r).testBit b = (vreg s c.core r).testBit b
  m : ∀ r, r < 8 → match w.m r with
    | none => maskReg t c.core r = maskReg s c.core r
    | some f => (∀ i, i < c.cap c.sew → c.em t r i = f i) ∧
        ∀ b, Outside c 512 b → (maskReg t c.core r).testBit b = (maskReg s c.core r).testBit b
  t : ∀ r, r < 8 → match w.t r with
    | none => vget 0 (t.vcore c.core).t r = vget 0 (s.vcore c.core).t r
    | some f => (∀ i, i < c.cap c.sew → c.et t r i = f i) ∧
        ∀ b, Outside c 1024 b → (vget 0 (t.vcore c.core).t r).getLsbD b = (vget 0 (s.vcore c.core).t r).getLsbD b

/-- The registers that an instruction marks in VDIRTY (R100). -/
def Writes.marks (w : Writes) (k : Nat) : Bool :=
  if k < 32 then (w.v k).isSome else if k < 40 then (w.m (k - 32)).isSome else if k < 48 then (w.t (k - 40)).isSome else false

/-- A hart whose Reply Queue slot has delivered a value to its register and its copy register (R77, R94, R267). -/
def replied (h : Hart) (slot : Option Nat) (v : Option Word) : Hart :=
  match slot, v with
  | some k, some v =>
    (match vget none h.replies k with
     | some r =>
       { h with
         thr := (match r.copy with
           | some x => (if r.toF then h.thr.wf r.reg v else h.thr.wx r.reg v).wx x v
           | none => if r.toF then h.thr.wf r.reg v else h.thr.wx r.reg v)
         replies := vset h.replies k none }
     | none => h)
  | _, _ => h

/-- A core's credit at the shared units has changed at most in the slot of scalar core p, and in nothing else has it changed
(R369). -/
def settled (a b : VCore) (p : Nat) : Prop :=
  b = { a with deficit := b.deficit } ∧
  ∀ u j, u < 3 → j < 8 → j ≠ slotOf p →
    vget 0 (vget (Vector.replicate 8 0) b.deficit u) j = vget 0 (vget (Vector.replicate 8 0) a.deficit u) j

/-- The head has retired: `fl` are the flags it raised, `reply` its reply, `w` its writes. Beside that, the queue is one
entry shorter, the retirement is counted, VSTART is 0, the hart's credit at the shared units may lapse, and, where later scalar
accesses wait for this entry (R234), the hart's line accesses are performed. Nothing else changes. -/
structure VDone (s t : State) (p : Nat) (e : VEntry) (c : VCtx) (fl : Flags) (reply : Option Word) (w : Writes) : Prop where
  agent : t.agent = if (s.hart p).viq.drop 1 = [] then .user p else .vec p
  hart : t.hart p = { replied (State.countEv (s.hart p) 3) e.slot reply with
    viq := (s.hart p).viq.drop 1, hold := (s.hart p).hold - 1, vstart := 0, fflags := (s.hart p).fflags ||| fl
    vdirty := (t.hart p).vdirty, served := Vector.replicate 3 0, ssq := (t.hart p).ssq, evcnt := (t.hart p).evcnt }
  marks : ∀ k, k < 50 → (t.hart p).vdirty.getLsbD k = ((s.hart p).vdirty.getLsbD k || w.marks k)
  regs : InRegs s t c w
  core : settled { s.vcore c.core with
    v := (t.vcore c.core).v, m := (t.vcore c.core).m, t := (t.vcore c.core).t } (t.vcore c.core) p
  others : (∀ q, q ≠ p → t.hart q = s.hart q) ∧ ∀ k, k ≠ c.core → t.vcore k = s.vcore k
  mem : t.mem = (if (s.hart p).hold = 1 then s.drainV p else s).mem
  quiet : (s.hart p).hold ≠ 1 → (t.hart p).ssq = (s.hart p).ssq ∧
    (t.hart p).evcnt = (State.countEv (s.hart p) 3).evcnt ∧ t = { s with agent := t.agent, harts := t.harts, cores := t.cores }
  sups : t.sups = s.sups ∧ t.clusters = s.clusters ∧ t.peg = s.peg

/-- The head has retired and left the hart `h`: the queue one entry shorter, the retirement counted, VSTART 0, and as with
`VDone` the hart's credit and, where later scalar accesses wait for this entry, its line accesses. -/
structure VShaped (s t : State) (p : Nat) (h : Hart) : Prop where
  hart : t.hart p = { State.countEv h 3 with
    viq := h.viq.drop 1, hold := h.hold - 1, vstart := 0, served := Vector.replicate 3 0
    ssq := (t.hart p).ssq, evcnt := (t.hart p).evcnt }
  others : (∀ q, q ≠ p → t.hart q = s.hart q) ∧ settled (s.vcore (coreOf p)) (t.vcore (coreOf p)) p ∧
    ∀ k, k ≠ coreOf p → t.vcore k = s.vcore k
  mem : t.mem = (if (s.hart p).hold = 1 then s.drainV p else s).mem
  quiet : (s.hart p).hold ≠ 1 → (t.hart p).ssq = h.ssq ∧ (t.hart p).evcnt = (State.countEv h 3).evcnt ∧
    t = { s with agent := t.agent, harts := t.harts, cores := t.cores }
  sups : t.sups = s.sups ∧ t.clusters = s.clusters ∧ t.peg = s.peg

/-- R95: what a destination element becomes, `none` where it keeps its value. -/
def r95 (c : VCtx) (f : Nat → Nat) (i : Nat) : Option Nat :=
  if c.vstart ≤ i ∧ i < c.vl then (if c.pred i then some (f i) else if c.zero then some 0 else none) else none

/-- The v registers from d on, n of them at width w, and those of the copy group (R77): register j of the group receives
`new j`. -/
def newV (c : VCtx) (s : State) (d n w : Nat) (new : Nat → Nat → Option Nat) (r : Nat) : Option (Nat × (Nat → Nat)) :=
  let filled (b : Nat) : Nat × (Nat → Nat) := (w, fun i => ((new (r - b) i).map (· % 2 ^ w)).getD (c.ev s r w i))
  if d ≤ r ∧ r < d + n then some (filled d)
  else match c.copy .v with
    | some x => if x ≤ r ∧ r < x + n then some (filled x) else none
    | none => none

/-- An m destination: R95 below VL, zeros from VL on. -/
def newM (c : VCtx) (s : State) (d : Nat) (f : Nat → Bool) (r : Nat) : Option (Nat → Bool) :=
  if r = d then some (fun i => decide (i < c.vl) && (match r95 c (fun i => (f i).toNat) i with
    | some v => v == 1
    | none => c.em s d i))
  else none

/-- The destination group and its copy group end at v31 and are the same or apart. -/
def Fits (c : VCtx) (d n : Nat) : Prop :=
  d + n ≤ 32 ∧ ∀ x, c.copy .v = some x → x + n ≤ 32 ∧ (x = d ∨ x + n ≤ d ∨ d + n ≤ x)

/-- Operand b: the captured scalar's low bits, or an element of v[b] (R144). -/
def operandB (c : VCtx) (s : State) (sb : Bool) (b w i : Nat) : Nat := if sb then c.e.b.toNat % 2 ^ w else c.ev s b w i

/-- Operand b's register, when it is one, ends its group at v31. -/
def FitsB (sb : Bool) (b n : Nat) : Prop := sb = true ∨ b + n ≤ 32

/-! ## Masks and integers (R151–R159) -/

/-- A mask instruction of two or one sources: destination, sources, and the bit (R151). -/
def maskOf (i : Instr) : Option (MReg × MReg × MReg × (Bool → Bool → Bool)) :=
  match i with
  | .vmand d a b _ => some (d, a, b, fun x y => x && y)
  | .vmor d a b _ => some (d, a, b, fun x y => x || y)
  | .vmxor d a b _ => some (d, a, b, fun x y => xor x y)
  | .vmnot d a _ => some (d, a, a, fun x _ => !x)
  | _ => none

/-- Indices below VL, from VSTART on, where the predicate and m[a] hold, ascending (R144, R152). -/
def setBits (c : VCtx) (s : State) (a : Nat) : List Nat :=
  (List.range c.vl).filter (fun i => decide (c.vstart ≤ i) && c.pred i && c.em s a i)

/-- A signed or unsigned integer at w bits. -/
def asInt (sgnd : Bool) (w x : Nat) : Int :=
  if sgnd ∧ x % 2 ^ w ≥ 2 ^ (w - 1) then ((x % 2 ^ w : Nat) : Int) - 2 ^ w else ((x % 2 ^ w : Nat) : Int)

/-- The w-bit code of an integer. -/
def bitsFor (w : Nat) (z : Int) : Nat := (z % 2 ^ w).toNat

/-- R48: an integer saturated to w bits, with SAT when that changes it. -/
def saturated (sgnd : Bool) (w : Nat) (z : Int) : Nat × Flags :=
  let hi : Int := if sgnd then 2 ^ (w - 1) - 1 else 2 ^ w - 1
  let lo : Int := if sgnd then -2 ^ (w - 1) else 0
  (bitsFor w (max lo (min hi z)), if lo ≤ z ∧ z ≤ hi then 0 else fSAT)

/-- A same-width integer instruction (R154): destination, sources, and an element's result with its flags. -/
def intElement (i : Instr) : Option (Reg × Reg × Reg × Bool × (Nat → Nat → Nat → Nat × Flags)) :=
  let pure (f : Nat → Nat → Nat → Nat) (w x y : Nat) : Nat × Flags := (f w x y, 0)
  match i with
  | .vadd d a b _ sb => some (d, a, b, sb, pure (fun _ x y => x + y))
  | .vsub d a b _ sb => some (d, a, b, sb, pure (fun w x y => bitsFor w ((x : Int) - y)))
  | .vmul d a b _ sb => some (d, a, b, sb, pure (fun _ x y => x * y))
  | .vmulh d a b _ sb v => some (d, a, b, sb, pure (fun w x y =>
      bitsFor w (asInt (v != .uu) w x * asInt (v == .ss) w y / 2 ^ w)))
  | .vand d a b _ sb => some (d, a, b, sb, pure (fun _ x y => x &&& y))
  | .vor d a b _ sb => some (d, a, b, sb, pure (fun _ x y => x ||| y))
  | .vxor d a b _ sb => some (d, a, b, sb, pure (fun _ x y => x ^^^ y))
  | .vsll d a b _ sb => some (d, a, b, sb, pure (fun w x y => x <<< (y % w)))
  | .vsrl d a b _ sb => some (d, a, b, sb, pure (fun w x y => x >>> (y % w)))
  | .vsra d a b _ sb => some (d, a, b, sb, pure (fun w x y => bitsFor w (asInt true w x / 2 ^ (y % w))))
  | .vmin d a b _ sb => some (d, a, b, sb, pure (fun w x y => bitsFor w (min (asInt true w x) (asInt true w y))))
  | .vmax d a b _ sb => some (d, a, b, sb, pure (fun w x y => bitsFor w (max (asInt true w x) (asInt true w y))))
  | .vminu d a b _ sb => some (d, a, b, sb, pure (fun _ x y => min x y))
  | .vmaxu d a b _ sb => some (d, a, b, sb, pure (fun _ x y => max x y))
  | .vsadd d a b _ sb uns => some (d, a, b, sb, fun w x y => saturated (!uns) w (asInt (!uns) w x + asInt (!uns) w y))
  | .vssub d a b _ sb uns => some (d, a, b, sb, fun w x y => saturated (!uns) w (asInt (!uns) w x - asInt (!uns) w y))
  | _ => none

/-- Whether an integer condition holds (R155). -/
def condition (c : ICond) (x y : Int) : Bool :=
  match c with
  | .eq => x == y
  | .ne => x != y
  | .lt => decide (x < y)
  | .le => decide (x ≤ y)
  | .gt => decide (x > y)
  | .ge => decide (x ≥ y)

/-- Every flag that the elements of n rows raise (R59): of each row, those of its active elements. -/
def rowFlags (c : VCtx) (n : Nat) (f : Nat → Nat → Flags) : Flags :=
  (List.range n).foldl (fun a j => a ||| (c.actives.foldl (fun b i => b ||| f j i) 0)) 0

end Sys2Proof.Claims

/-- R17, R266, R149: a user thread pushes every word of classes 0x6 to 0xD that it may execute, capturing its operands. That, with
nothing before it in the VIQ, its vector half executes it as the head in the same step, unless the push has spent the region's budget
(R36), is the model's scheduling (log 1, log 47): R266 says only that it is pushed, and the row VIQ_PUSH pushes it alone. -/
def Obligations.VectorWordsArePushed : Prop :=
  (∀ (i : Instr) (s : State) (p : Nat), UserPushes i → s.agent = .user p → Ready s (pushUses i) →
    pushWaits s p i = false → (s.hart p).late = [] → (s.hart p).viq ≠ [] → ∃ t e, exec i s = .next t ∧ Pushed s t p i e) ∧
  (∀ (i : Instr) (s : State) (p : Nat), UserPushes i → s.agent = .user p → Ready s (pushUses i) →
    pushWaits s p i = false → (s.hart p).late = [] → (s.hart p).viq = [] → (s.hart p).svNeed = 0 → (s.hart p).svJoin = false →
    ∃ t e, Pushed s t p i e ∧ exec i s = if t.budgetSpent p then .next t else exec i { t with agent := .vec p }) ∧
  (∀ (w : BitVec 32) (i : Instr) (s : State) (p : Nat), 6 ≤ w.toNat / 2 ^ 28 → w.toNat / 2 ^ 28 ≤ 13 →
    s.agent = .user p → s.decodeFor w = .ok i → Ready s (pushUses i) → pushWaits s p i = false → (s.hart p).late = [] →
    ∃ t e, exec (.viqPush w) s = .next t ∧ Pushed s t p i e)

/-- R149, R150: at the VIQ head setvl sets VTYPE, VL to the smaller of the captured count and VLMAX, one row and VSTART 0;
setshape sets VL at the VTYPE in force and the row count, between 1 and 8.
R151–R153: the mask instructions. -/
def Obligations.LengthAndMaskInstructions : Prop :=
  ((∀ (s : State) (p : Nat) (e : VEntry) (d a : Reg) (vt : BitVec 9), AtHead s p e → e.slot = none → vtypeOk vt.toNat = true →
      ∃ t, exec (.setvl d a vt) s = .next t ∧ VShaped s t p { s.hart p with
        vtype := vt, rows := 1, vl := BitVec.ofNat 16 (Nat.min e.a.toNat (vlmaxOf s p vt)) }) ∧
    (∀ (s : State) (p : Nat) (e : VEntry) (d a b : Reg), AtHead s p e → e.slot = none →
      ∃ t, exec (.setshape d a b) s = .next t ∧ VShaped s t p { s.hart p with
        rows := BitVec.ofNat 4 (max 1 (min e.b.toNat 8))
        vl := BitVec.ofNat 16 (Nat.min e.a.toNat (vlmaxOf s p (s.hart p).vtype)) })) ∧
  ((∀ (i : Instr) (s : State) (p : Nat) (e : VEntry) (d a b : MReg) (f : Bool → Bool → Bool), maskOf i = some (d, a, b, f) →
      AtHead s p e → e.slot = none →
      let c := vctx s p e i
      ∃ t, exec i s = .next t ∧
        VDone s t p e c 0 none { m := newM c s d.toNat (fun k => f (c.em s a.toNat k) (c.em s b.toNat k)) }) ∧
    (∀ (s : State) (p : Nat) (e : VEntry) (d : Reg) (a : MReg) (mk : Bool), AtHead s p e →
      (∃ k r, k < 16 ∧ e.slot = some k ∧ vget none (s.hart p).replies k = some r) →
      (∃ t, exec (.vpopc d a mk) s = .next t ∧
        let c := vctx s p e (.vpopc d a mk)
        VDone s t p e c 0 (some (BitVec.ofNat 64 (setBits c s a.toNat).length)) {}) ∧
      (∃ t, exec (.vfirst d a mk) s = .next t ∧
        let c := vctx s p e (.vfirst d a mk)
        VDone s t p e c 0 (some (BitVec.ofNat 64 ((setBits c s a.toNat).headD c.vl))) {})) ∧
    (∀ (s : State) (p : Nat) (e : VEntry) (d a : MReg) (mk : Bool) (v : SpanVar), AtHead s p e → e.slot = none →
      let c := vctx s p e (.vmspan d a mk v)
      let before (k : Nat) : Bool := (setBits c s a.toNat).any (fun i => decide (i < k))
      let after (k : Nat) : Bool := (setBits c s a.toNat).any (fun i => decide (k < i))
      let here (k : Nat) : Bool := (setBits c s a.toNat).any (fun i => i == k)
      ∃ t, exec (.vmspan d a mk v) s = .next t ∧
        VDone s t p e c 0 none { m := newM c s d.toNat (fun k => match v with
          | .pre => !before k && !here k
          | .thru => !before k
          | .post => !after k && !here k
          | .span => (before k || here k) && (after k || here k)) }) ∧
    (∀ (s : State) (p : Nat) (e : VEntry) (d : Reg) (a : MReg) (mk incl : Bool), AtHead s p e → e.slot = none →
      let c := vctx s p e (.vmrank d a mk incl)
      Fits c d.toNat 1 →
      ∃ t, exec (.vmrank d a mk incl) s = .next t ∧
        VDone s t p e c 0 none { v := newV c s d.toNat 1 c.sew (fun _ => r95 c (fun k =>
          ((setBits c s a.toNat).filter (fun i => decide (i < k) || (incl && i == k))).length)) }))

/-- R154, R148: the same-width integer instructions, in every row of the group.
R155–R159: comparison, merge, moves, widening, narrowing and extension. -/
def Obligations.VectorIntegerInstructions : Prop :=
  (∀ (i : Instr) (s : State) (p : Nat) (e : VEntry) (d a b : Reg) (sb : Bool) (f : Nat → Nat → Nat → Nat × Flags),
      intElement i = some (d, a, b, sb, f) → AtHead s p e → e.slot = none →
      let c := vctx s p e i
      Fits c d.toNat c.rows → a.toNat + c.rows ≤ 32 → FitsB sb b.toNat c.rows →
      let g (j k : Nat) : Nat × Flags :=
        f c.sew (c.ev s (a.toNat + j) c.sew k) (operandB c s sb (b.toNat + j) c.sew k)
      ∃ t, exec i s = .next t ∧
        VDone s t p e c (rowFlags c c.rows (fun j k => (g j k).2)) none
          { v := newV c s d.toNat c.rows c.sew (fun j => r95 c (fun k => (g j k).1)) }) ∧
  ((∀ (s : State) (p : Nat) (e : VEntry) (d : MReg) (a b : Reg) (mk sb uns : Bool) (cc : ICond), AtHead s p e → e.slot = none →
      let c := vctx s p e (.vcmp d a b mk sb uns cc)
      ∃ t, exec (.vcmp d a b mk sb uns cc) s = .next t ∧
        VDone s t p e c 0 none { m := newM c s d.toNat (fun k => condition cc
          (asInt (!uns) c.sew (c.ev s a.toNat c.sew k)) (asInt (!uns) c.sew (operandB c s sb b.toNat c.sew k))) }) ∧
    (∀ (s : State) (p : Nat) (e : VEntry) (d a b : Reg) (mk sb : Bool), AtHead s p e → e.slot = none →
      let c := vctx s p e (.vmerge d a b mk sb)
      Fits c d.toNat c.rows → a.toNat + c.rows ≤ 32 → FitsB sb b.toNat c.rows →
      ∃ t, exec (.vmerge d a b mk sb) s = .next t ∧
        VDone s t p e c 0 none { v := newV c s d.toNat c.rows c.sew (fun j k => if c.vstart ≤ k ∧ k < c.vl then
          some (if c.pred k then operandB c s sb (b.toNat + j) c.sew k else c.ev s (a.toNat + j) c.sew k) else none) }) ∧
    (∀ (s : State) (p : Nat) (e : VEntry) (d b : Reg) (mk sb : Bool), AtHead s p e → e.slot = none →
      let c := vctx s p e (.vmv d b mk sb)
      Fits c d.toNat c.rows → FitsB sb b.toNat c.rows →
      ∃ t, exec (.vmv d b mk sb) s = .next t ∧
        VDone s t p e c 0 none { v := newV c s d.toNat c.rows c.sew (fun j =>
          r95 c (operandB c s sb (b.toNat + j) c.sew)) }) ∧
    (∀ (s : State) (p : Nat) (e : VEntry) (d a b : Reg) (mk : Bool), AtHead s p e →
      (∃ k r, k < 16 ∧ e.slot = some k ∧ vget none (s.hart p).replies k = some r) →
      let c := vctx s p e (.vmvX d a b mk)
      let x := if e.b.toNat < c.vl then c.ev s a.toNat c.sew e.b.toNat else 0
      ∃ t, exec (.vmvX d a b mk) s = .next t ∧
        VDone s t p e c 0 (some (BitVec.ofInt 64 (asInt (c.fmt == 0) c.sew x))) {}) ∧
    (∀ (i : Instr) (s : State) (p : Nat) (e : VEntry) (d a b : Reg) (sb uns : Bool) (f : Int → Int → Int) (mk : Bool),
      (i = .vwadd d a b mk sb uns ∧ f = (· + ·)) ∨ (i = .vwmul d a b mk sb uns ∧ f = (· * ·)) → AtHead s p e → e.slot = none →
      let c := vctx s p e i
      let w := 2 * c.sew
      c.sew < 64 → Fits c d.toNat 2 → ¬(d ≤ a ∧ a.toNat < d.toNat + 2) → (sb = false → ¬(d ≤ b ∧ b.toNat < d.toNat + 2)) →
      ∃ t, exec i s = .next t ∧
        VDone s t p e c 0 none { v := newV c s d.toNat 2 w (fun j k => r95 c (fun n => bitsFor w
          (f (asInt (!uns) c.sew (c.ev s a.toNat c.sew n)) (asInt (!uns) c.sew (operandB c s sb b.toNat c.sew n))))
          (j * c.cap w + k)) }) ∧
    (∀ (s : State) (p : Nat) (e : VEntry) (d a : Reg) (mk sat uns : Bool), AtHead s p e → e.slot = none →
      let c := vctx s p e (.vnarrow d a mk sat uns)
      let g (k : Nat) : Nat × Flags :=
        if sat then saturated (!uns) c.sew (asInt (!uns) (2 * c.sew) (c.ev s a.toNat (2 * c.sew) k))
        else (c.ev s a.toNat (2 * c.sew) k, 0)
      c.sew < 64 → Fits c d.toNat 1 → a.toNat + 2 ≤ 32 → ¬(a ≤ d ∧ d.toNat < a.toNat + 2) →
      ∃ t, exec (.vnarrow d a mk sat uns) s = .next t ∧
        VDone s t p e c (rowFlags c 1 (fun _ k => (g k).2)) none
          { v := newV c s d.toNat 1 c.sew (fun _ => r95 c (fun k => (g k).1)) }) ∧
    (∀ (s : State) (p : Nat) (e : VEntry) (d a : Reg) (mk zero : Bool) (f : ExtF), AtHead s p e → e.slot = none →
      let c := vctx s p e (.vext d a mk f zero)
      let n := c.sew / (match f with
        | .x2 => 2
        | .x4 => 4
        | .x8 => 8)
      2 ≤ n → a ≠ d → Fits c d.toNat 1 →
      ∃ t, exec (.vext d a mk f zero) s = .next t ∧
        VDone s t p e c 0 none { v := newV c s d.toNat 1 c.sew (fun _ => r95 c (fun k =>
          bitsFor c.sew (asInt (!zero) n (c.ev s a.toNat n k)))) }))

namespace Sys2Proof.Claims

/-! ## Floating point (R160–R168) -/

/-- An elementwise floating-point instruction (R160, R161, R164): the registers whose groups it reads, its destination, and an
element's result with its flags. -/
def fpElement (i : Instr) (c : VCtx) (s : State) : Option (List Reg × Reg × (Nat → Nat → Nat × Flags)) :=
  let va (a : Reg) (j k : Nat) : FVal := c.ffmt.decode (c.ev s (a.toNat + j) c.sew k)
  let vb (sb : Bool) (b : Reg) (j k : Nat) : FVal := c.ffmt.decode (operandB c s sb (b.toNat + j) c.sew k)
  let rd (a b : Reg) (sb : Bool) : List Reg := if sb then [a] else [a, b]
  let round (rc : Rc) (r : FVal × Flags) : Nat × Flags := finish c.ffmt (Rc.mode rc c.e.frm) r
  match i with
  | .vfadd d a b _ sb rc => some (rd a b sb, d, fun j k => round rc (addX (Rc.mode rc c.e.frm) (va a j k) (vb sb b j k)))
  | .vfsub d a b _ sb rc => some (rd a b sb, d, fun j k => round rc (addX (Rc.mode rc c.e.frm) (va a j k) (vb sb b j k).neg))
  | .vfmul d a b _ sb rc => some (rd a b sb, d, fun j k => round rc (mulX (va a j k) (vb sb b j k)))
  | .vfdiv d a b _ sb rc => some (rd a b sb, d, fun j k => round rc (divX (va a j k) (vb sb b j k)))
  | .vfsqrt d a _ rc => some ([a], d, fun j k => round rc (sqrtX (va a j k)))
  | .vfmadd d a b _ sb negp negc rc => some (d :: rd a b sb, d, fun j k =>
      round rc (fmaX (Rc.mode rc c.e.frm) negp negc (va a j k) (vb sb b j k) (va d j k)))
  | .vfmin d a b _ sb => some (rd a b sb, d, fun j k =>
      minmax c.ffmt false (c.ev s (a.toNat + j) c.sew k) (operandB c s sb (b.toNat + j) c.sew k))
  | .vfmax d a b _ sb => some (rd a b sb, d, fun j k =>
      minmax c.ffmt true (c.ev s (a.toNat + j) c.sew k) (operandB c s sb (b.toNat + j) c.sew k))
  | .vfscale d a b _ sb rc => some (rd a b sb, d, fun j k =>
      let n := asInt true c.sew (operandB c s sb (b.toNat + j) c.sew k)
      round rc (if (va a j k).isNan then .nan false else (va a j k).scale n, if (va a j k).isSig then fNV else 0))
  | _ => none

/-- The correctly rounded functions of one operand (R163). -/
def fpFunction (i : Instr) : Option (Reg × Reg × Rc × (FVal → FVal × Flags)) :=
  match i with
  | .vfexp2 d a _ rc => some (d, a, rc, exp2X)
  | .vflog2 d a _ rc => some (d, a, rc, log2X)
  | .vfrecip d a _ rc => some (d, a, rc, divX .one)
  | _ => none

/-- The vfcvt of an entry is one that R165 allows, its source group apart from its destination (R146). -/
def CvtAllowed (c : VCtx) (f : ElemFmt) (rc : Rc) (d a : Reg) : Prop :=
  (c.fmt < 2 → rc ≠ .sr ∧ ∀ g w, f ≠ .int g w) ∧ (c.fmt = 7 ∨ c.fmt = 8 → ∀ k, f ≠ .block k) ∧ f.width / c.sew ≤ 8 ∧
  (f.width ≠ c.sew → ¬(a ≤ d ∧ d.toNat < a.toNat + max 1 (f.width / c.sew))) ∧ a.toNat + max 1 (f.width / c.sew) ≤ 32

/-! ## Reductions and permutations (R169–R177) -/

/-- The active elements of v[a], ascending: index and bits. -/
def activeOf (c : VCtx) (s : State) (a : Reg) : List (Nat × Nat) := c.actives.map (fun k => (k, c.ev s a.toNat c.sew k))

/-- A partial sum of R4, a code of the format or absent, with the flags of the roundings below it. -/
abbrev PartSum := Option Nat × Flags

/-- R4's pair: an absent side passes the other through, two present ones are added and rounded to nearest. -/
def pairOf (f : FFmt) : PartSum → PartSum → PartSum
  | (none, a), (y, b) => (y, a ||| b)
  | (some x, a), (none, b) => (some x, a ||| b)
  | (some x, a), (some y, b) =>
    let r := finish f .rne (addX .rne (f.decode x) (f.decode y))
    (some r.1, a ||| b ||| r.2)

/-- Node j at a level of R4's tree over leaves. -/
def nodeAt (f : FFmt) (leaf : Nat → PartSum) : Nat → Nat → PartSum
  | 0, j => leaf j
  | n + 1, j => pairOf f (nodeAt f leaf n (2 * j)) (nodeAt f leaf n (2 * j + 1))

/-- A leaf: the element when it is active and below n, a NaN as the canonical one (R53). -/
def leafAt (f : FFmt) (act : Nat → Bool) (val : Nat → Nat) (n k : Nat) : PartSum :=
  if k < n ∧ act k then
    (some (if (f.decode (val k)).isNan then f.nan else val k), if (f.decode (val k)).isSig then fNV else 0)
  else (none, 0)

/-- R4's canonical_sum: the blocks of 32 elements in order, each a tree of five levels. -/
def canonicalOf (f : FFmt) (act : Nat → Bool) (val : Nat → Nat) (n : Nat) : PartSum :=
  (List.range ((n + 31) / 32)).foldl (fun acc b =>
    pairOf f acc (nodeAt f (fun j => leafAt f act val n (32 * b + j)) 5 0)) (none, 0)

/-- R62's fast_sum over 2^g lanes of e elements: each lane in order, then a tree over the lanes. -/
def fastOf (f : FFmt) (act : Nat → Bool) (val : Nat → Nat) (n g e : Nat) : PartSum :=
  nodeAt f (fun j => (List.range e).foldl (fun acc i => pairOf f acc (leafAt f act val n (j * e + i))) (none, 0)) g 0

/-- What vfredsum writes (R61, R62, R170): the starting value added last, rounded to nearest; with no active element itself. -/
def sumResult (c : VCtx) (s : State) (a : Reg) (s0 : Nat) : Nat × Flags :=
  let val (k : Nat) : Nat := c.ev s a.toNat c.sew k
  let t := if c.lar then canonicalOf c.ffmt c.act val c.vl
    else fastOf c.ffmt c.act val c.vl (Nat.log2 c.lanes) (max 1 (c.eff / (c.lanes * c.sew)))
  if c.actives = [] then
    (if (c.ffmt.decode s0).isNan then c.ffmt.nan else s0, if (c.ffmt.decode s0).isSig then fNV else 0)
  else
    let r := finish c.ffmt .rne (addX .rne (c.ffmt.decode s0) (c.ffmt.decode (t.1.getD 0)))
    (r.1, t.2 ||| r.2)

/-- R176's loop over the first n elements: the rounded running sum, the last index of a weight above 0, whether a weight is a NaN or
negative, and the running sum at each active index. -/
def weightLoop (c : VCtx) (w : Nat → Nat) : Nat → Nat × Nat × Bool × List (Nat × Nat)
  | 0 => (0, c.vl, false, [])
  | n + 1 =>
    let r := weightLoop c w n
    if c.act n then
      let v := FFmt.f32.decode (w n)
      let acc := (finish .f32 .rne (addX .rne (FFmt.f32.decode r.1) v)).1
      (acc, if cmpX (.zero false) v = -1 then n else r.2.1, r.2.2.1 || v.isNan || cmpX v (.zero false) == -1,
        r.2.2.2 ++ [(n, acc)])
    else r

/-- What vsample answers and the flag it sets (R176), for u. -/
def sampleResult (c : VCtx) (w : Nat → Nat) (u : Nat) : Nat × Flags :=
  let r := weightLoop c w c.vl
  let val (x : Nat) : FVal := FFmt.f32.decode x
  let badU := (val u).isNan = true ∨ cmpX (val u) (.zero false) = -1 ∨ cmpX (val u) .one ≠ -1
  if c.actives = [] then (c.vl, 0)
  else if badU ∨ r.2.2.1 = true ∨ (val r.1).isZero = true ∨ (val r.1 = .inf false ∨ val r.1 = .inf true) then (c.vl, fNV)
  else
    let t := val (finish .f32 .rne (mulX (val u) (val r.1))).1
    (((r.2.2.2.find? (fun e => cmpX t (val e.2) == -1)).map (·.1)).getD r.2.1, 0)

/-- A reduction (R169, R170): destination, source, starting operand, whether it needs a floating-point VTYPE, and the result
of the starting value and the active elements; vfredsum aside. -/
def reduction (i : Instr) (c : VCtx) : Option (Reg × Reg × Reg × Bool × Bool × (Nat → List (Nat × Nat) → Nat × Flags)) :=
  let total (sgnd : Bool) (s0 : Nat) (xs : List (Nat × Nat)) : Int :=
    (xs.map (fun x => asInt sgnd c.sew x.2)).sum + asInt sgnd c.sew s0
  match i with
  | .vredsum d a b _ sb .wrap => some (d, a, b, sb, false, fun s0 xs => (bitsFor c.sew (total false s0 xs), 0))
  | .vredsum d a b _ sb .satS => some (d, a, b, sb, false, fun s0 xs => saturated true c.sew (total true s0 xs))
  | .vredsum d a b _ sb .satU => some (d, a, b, sb, false, fun s0 xs => saturated false c.sew (total false s0 xs))
  | .vredmax d a b _ sb uns => some (d, a, b, sb, false, fun s0 xs =>
      (bitsFor c.sew (xs.foldl (fun m x => max m (asInt (!uns) c.sew x.2)) (asInt (!uns) c.sew s0)), 0))
  | .vredmin d a b _ sb uns => some (d, a, b, sb, false, fun s0 xs =>
      (bitsFor c.sew (xs.foldl (fun m x => min m (asInt (!uns) c.sew x.2)) (asInt (!uns) c.sew s0)), 0))
  | .vredbit d a b _ sb .and => some (d, a, b, sb, false, fun s0 xs => (xs.foldl (fun m x => m &&& x.2) s0, 0))
  | .vredbit d a b _ sb .or => some (d, a, b, sb, false, fun s0 xs => (xs.foldl (fun m x => m ||| x.2) s0, 0))
  | .vredbit d a b _ sb .xor => some (d, a, b, sb, false, fun s0 xs => (xs.foldl (fun m x => m ^^^ x.2) s0, 0))
  | .vfredmax d a b _ sb => some (d, a, b, sb, true, fun s0 xs => foldMinmax c.ffmt true s0 (xs.map (·.2)))
  | _ => none

/-- A permutation (R172, R173): destination, source, and what each destination element becomes. -/
def permutation (i : Instr) (c : VCtx) (s : State) : Option (Reg × Reg × (Nat → Option Nat)) :=
  let off := c.e.b.toNat
  let below (a : Reg) (k : Nat) : Nat := if k < c.vl then c.ev s a.toNat c.sew k else 0
  match i with
  | .vcompress d a _ => some (d, a, fun k => if k < c.vl then (match c.actives[k]? with
      | some j => some (c.ev s a.toNat c.sew j)
      | none => if c.zero then some 0 else none) else none)
  | .vexpand d a _ => some (d, a, r95 c (fun k => c.ev s a.toNat c.sew (c.actives.filter (fun j => decide (j < k))).length))
  | .vslideup d a _ _ => some (d, a, fun k => if c.pred k = true ∧ k < off then none
      else r95 c (fun k => c.ev s a.toNat c.sew (k - off)) k)
  | .vslidedn d a _ _ => some (d, a, r95 c (fun k => below a (k + off)))
  | .vperm d a b _ sb => some (d, a, r95 c (fun k => below a (operandB c s sb b.toNat c.sew k)))
  | _ => none

/-- A fold of values in VTYPE's format, from the first on, with every flag raised (R174, R186). -/
def foldAll (c : VCtx) (op : FoldOp) (xs : List Nat) : Nat × Flags :=
  match xs with
  | [] => (0, 0)
  | x :: rest => rest.foldl (fun m y => ((c.foldStep op m.1 y).1, m.2 ||| (c.foldStep op m.1 y).2)) (c.foldOne x)

/-- r is the first index of a list whose value no other exceeds. -/
def FirstGreatest {α : Type} (lt : α → α → Bool) (xs : List (Nat × α)) (r : Nat) : Prop :=
  ∃ v, (r, v) ∈ xs ∧ ∀ k w, (k, w) ∈ xs → lt v w = false ∧ (k < r → lt w v = true)

/-- The reply of an index search that leaves NaNs out, and the flag that NaNs alone set (R171, R177). -/
def FpSearch (vl : Nat) (xs : List (Nat × FVal)) (r : Nat) (fl : Flags) : Prop :=
  let ys := xs.filter (fun x => !x.2.isNan)
  if ys = [] then r = vl ∧ fl = (if xs = [] then 0 else fNV) else FirstGreatest ltMM ys r ∧ fl = 0

/-- The entry has a Reply Queue slot that awaits its reply (R267). -/
def Awaits (s : State) (p : Nat) (e : VEntry) : Prop :=
  ∃ k r, k < 16 ∧ e.slot = some k ∧ vget none (s.hart p).replies k = some r

/-! ## Trees (R180–R193) -/

/-- A tree instruction on the resolved forest of its t register: the registers it reads, whether it needs an int, uns, ieee or
bf16 VTYPE, its writes and its flags (R183–R193). -/
def treeResult (i : Instr) (c : VCtx) (s : State) : Option (Bool × Option Reg × Writes × Flags) :=
  let forest (a : TReg) : Forest := resolve (s.hart c.p).splitB.toNat ((List.range c.vl).map (c.et s a.toNat))
  let bad := if c.isFp then c.ffmt.nan else 2 ^ c.sew - 1
  let ones := 2 ^ c.sew - 1
  let nodes (t : Forest) (d : Reg) (cyc : Nat) (f : Nat → Nat × Flags) : Writes × Flags :=
    ({ v := newV c s d.toNat 1 c.sew (fun _ => r95 c (fun k => if t.cyclic k then cyc else (f k).1)) },
     rowFlags c 1 (fun _ k => t.flags k ||| (if t.cyclic k then 0 else (f k).2)))
  let bits (d : MReg) (f : Nat → Bool) : Writes := { m := newM c s d.toNat f }
  let entries (d : TReg) (f : Nat → Nat) : Writes :=
    { t := fun r =>
        let filled := fun k => ((r95 c f k).map (· % 65536)).getD (c.et s r k)
        if r = d.toNat ∨ c.copy .t = some r then some filled else none }
  let value (b : Reg) (k : Nat) : Nat := c.ev s b.toNat c.sew k
  let inside (base k : Nat) : Bool := k != 0xFFFF && decide (base ≤ k ∧ k < base + c.vl)
  let combine (op : FoldOp) (xs : List Nat) : Nat × Flags :=
    if c.isFp ∧ op = .sum ∧ xs ≠ [] then finish c.ffmt .rne (sumX .rne (xs.map c.ffmt.decode)) else foldAll c op xs
  match i with
  | .tset d a _ => some (false, none, entries d (fun k => min (value a k) 0xFFFF),
      rowFlags c 1 (fun _ k => if 0xFFFF ≤ value a k then fDNG else 0))
  | .tget d a _ => some (false, some d, { v := newV c s d.toNat 1 c.sew (fun _ => r95 c (c.et s a.toNat)) }, 0)
  | .tup d a b _ op =>
    let t := forest a
    let r := nodes t d bad (fun k => combine op ((t.subtree k).map (value b)))
    some (true, some d, r.1, r.2)
  | .tdown d a b _ op =>
    let t := forest a
    let r := nodes t d bad (fun k => combine op ((t.path k).map (value b)))
    some (true, some d, r.1, r.2)
  | .tbcast d a b _ par =>
    let t := forest a
    let r := nodes t d bad (fun k => (value b (if par then (t.par k).node else t.root k), 0))
    some (false, some d, r.1, r.2)
  | .tdepth d a _ =>
    let t := forest a
    let r := nodes t d ones (fun k => (t.depth k, 0))
    some (false, some d, r.1, r.2)
  | .troot d a _ =>
    let t := forest a
    let r := nodes t d ones (fun k => (t.root k, 0))
    some (false, some d, r.1, r.2)
  | .tanc d a _ _ =>
    let t := forest a
    let k := c.e.b.toNat
    some (false, none, bits d (fun j => decide (k < c.vl) && (if t.cyclic k then t.chain c.vl k else t.path k).contains j),
      if k < c.vl then t.flags k else 0)
  | .tancUp d a b _ sb =>
    let t := forest a
    let up (k : Nat) : Nat := if sb then c.e.b.toNat else value b k
    let r := nodes t d ones (fun k => (t.walk (min (up k) (t.depth k)) k, 0))
    some (false, some d, r.1, r.2)
  | .tleaf d a _ =>
    let t := forest a
    some (false, none, bits d (fun k => !((List.range c.vl).any (fun j => j != k && (t.par j).node == k))), 0)
  | .tcheck d a _ dng =>
    let t := forest a
    some (false, none, bits d (fun k => if dng then t.dangling k else t.cyclic k), rowFlags c 1 (fun _ => t.flags))
  | .torder d a _ =>
    let t := forest a
    let out := (List.range c.vl).flatMap (fun n => c.actives.filter (fun k => !t.cyclic k && t.depth k == n)) ++
      c.actives.filter t.cyclic
    some (false, some d, { v := newV c s d.toNat 1 c.sew (fun _ k => if k < c.vl then (match out[k]? with
      | some j => some j
      | none => if c.zero then some 0 else none) else none) }, rowFlags c 1 (fun _ => t.flags))
  | .tcontract d a _ _ =>
    let base := c.e.b.toNat
    some (false, none, entries d (fun k => let x := c.et s a.toNat k
      if inside base x then x - base + (s.hart c.p).splitB.toNat else 0xFFFF), 0)
  | .tcontractM d a _ _ =>
    some (false, none, bits d (fun k => let x := c.et s a.toNat k
      x != 0xFFFF && !inside c.e.b.toNat x), 0)
  | _ => none

/-! ## Causes in the vector stream (R145, R183, R347, R348) -/

/-- A condition of VTYPE or of register groups under which a vector instruction takes ILLEGAL (R145): a floating-point instruction
under another format than ieee or bf16 (R160, R170; for vfmadd, vfcmp, vfscale, vfexp2, vflog2 and vfrecip under FMT 4 to 6 the
model's reading, log 63); a group past v31; a source more than 8 times as wide as the destination; an overlap of a wide operand with
one of another width. -/
def Forbidden (i : Instr) (c : VCtx) : Prop :=
  match i with
  | .vfadd d a b _ sb _ | .vfsub d a b _ sb _ | .vfmul d a b _ sb _ | .vfdiv d a b _ sb _ | .vfmin d a b _ sb
  | .vfmax d a b _ sb | .vfmadd d a b _ sb _ _ _ | .vfscale d a b _ sb _ =>
    c.fmt < 2 ∨ 4 ≤ c.fmt ∨ 32 < d.toNat + c.rows ∨ 32 < a.toNat + c.rows ∨ (sb = false ∧ 32 < b.toNat + c.rows)
  | .vfsqrt d a _ _ => c.fmt < 2 ∨ 4 ≤ c.fmt ∨ 32 < d.toNat + c.rows ∨ 32 < a.toNat + c.rows
  | .vfcmp _ _ _ _ _ _ | .vfexp2 _ _ _ _ | .vflog2 _ _ _ _ | .vfrecip _ _ _ _ | .vfredsum _ _ _ _ _ | .vfredmax _ _ _ _ _ =>
    c.fmt < 2 ∨ 4 ≤ c.fmt
  | .vadd d a b _ sb | .vsub d a b _ sb | .vmul d a b _ sb | .vand d a b _ sb | .vor d a b _ sb | .vxor d a b _ sb =>
    32 < d.toNat + c.rows ∨ 32 < a.toNat + c.rows ∨ (sb = false ∧ 32 < b.toNat + c.rows)
  | .vwadd d a b _ sb _ | .vwmul d a b _ sb _ =>
    (d ≤ a ∧ a.toNat < d.toNat + 2) ∨ (sb = false ∧ d ≤ b ∧ b.toNat < d.toNat + 2)
  | .vnarrow d a _ _ _ => a ≤ d ∧ d.toNat < a.toNat + 2
  | .vext d a _ _ _ => a = d
  | .vfcvt _ _ _ src _ => 8 < (srcFmt src).width / c.sew
  | _ => False

/-- The hart of scalar core p is outside a region and awaits no page, its supervisor serving no trap and not halted, and its scalar
loads are all performed, as the step sees to before a trap (log 2). -/
structure VecAtWork (s : State) (p : Nat) : Prop where
  region : (s.hart p).region = none
  pageWait : (s.hart p).pageWait = none
  svc : (s.sup p).svc = false
  halted : (s.sup p).halted = false
  late : (s.hart p).late = []

/-- `t` is `s` after the hart of scalar core p has taken a cause in its vector stream: the supervisor CSRs hold its values and
the supervisor thread executes next; the vector half is stopped, its queue, its registers and the hart's as they were; every
line access of the hart, and its scalar stores to the device's own memory, are performed (R332; that they are performed then is the
model's choice, log 2). -/
structure VecTrap (s t : State) (p : Nat) (c : Cause) : Prop where
  agent : t.agent = .sup p
  scause : (t.sup p).scause.toNat = scauseFields c
  sepc : (t.sup p).sepc = c.epc &&& 0xFFFFFFFFFFFFFFFC#64
  scpc : (t.sup p).scpc = c.cpc &&& 0xFFFFFFFFFFFFFFFC#64
  stval : (t.sup p).stval = c.tval
  svc : (t.sup p).svc = true
  stopped : (t.hart p).vecStopped = true ∧ (t.hart p).viq.map (·.instr) = (s.hart p).viq.map (·.instr)
  regs : ∀ k, (t.vcore k).v = (s.vcore k).v ∧ (t.vcore k).m = (s.vcore k).m ∧ (t.vcore k).t = (s.vcore k).t
  hart : (t.hart p).thr = (s.hart p).thr ∧ (t.hart p).fflags = (s.hart p).fflags ∧ (t.hart p).vdirty = (s.hart p).vdirty ∧
    (t.hart p).vl = (s.hart p).vl ∧ (t.hart p).vtype = (s.hart p).vtype ∧ (t.hart p).vstart = (s.hart p).vstart
  stores : ∀ k, k < 8 → vget [] (t.hart p).ssq k = []
  mem : t.mem = ((s.drainL (.user p)).drainV p).mem
  others : ∀ q, q ≠ p → t.hart q = s.hart q ∧ t.sup q = s.sup q

/-! ## Resolving a forest (R181, R182) -/

/-- n steps along the parents of a forest's entries. -/
def climb (splitB : Nat) (es : List Nat) : Nat → Nat → Nat
  | 0, i => i
  | n + 1, i => climb splitB es n (parOf splitB es.length i (es.getD i 0xFFFF)).node

/-- A node is its own parent. -/
def isTop (splitB : Nat) (es : List Nat) (i : Nat) : Prop := climb splitB es 1 i = i

end Sys2Proof.Claims

/-- R160, R161, R164, R148: the elementwise floating-point instructions, in every row of the group. -/
def Obligations.FloatElements : Prop :=
  ∀ (i : Instr) (s : State) (p : Nat) (e : VEntry) (rs : List Reg) (d : Reg) (g : Nat → Nat → Nat × Flags),
    AtHead s p e → e.slot = none →
    let c := vctx s p e i
    fpElement i c s = some (rs, d, g) → c.fmt = 2 ∨ c.fmt = 3 → Fits c d.toNat c.rows → (∀ r ∈ rs, r.toNat + c.rows ≤ 32) →
    ∃ t, exec i s = .next t ∧
      VDone s t p e c (rowFlags c c.rows (fun j k => (g j k).2)) none
        { v := newV c s d.toNat c.rows c.sew (fun j => r95 c (fun k => (g j k).1)) }

/-- R162, R163, R165–R168: comparison, the functions of one operand, conversion, quantisation and block dot products. That
quantisation keeps inactive elements under a zeroing prefix too is the model's reading (log 23), and so are the flags of a block
dot product and what it does with VL = 0 (log 38). A widening conversion between floating formats sets no flag, whatever it reads. -/
def Obligations.FloatComparisonsAndConversions : Prop :=
  (∀ (s : State) (p : Nat) (e : VEntry) (d : MReg) (a b : Reg) (mk sb : Bool) (cc : FCond), AtHead s p e → e.slot = none →
    let c := vctx s p e (.vfcmp d a b mk sb cc)
    let g (k : Nat) : Bool × Flags := fcond cc (c.ffmt.decode (c.ev s a.toNat c.sew k))
      (c.ffmt.decode (operandB c s sb b.toNat c.sew k))
    c.fmt = 2 ∨ c.fmt = 3 →
    ∃ t, exec (.vfcmp d a b mk sb cc) s = .next t ∧
      VDone s t p e c (rowFlags c 1 (fun _ k => (g k).2)) none { m := newM c s d.toNat (fun k => (g k).1) }) ∧
  (∀ (i : Instr) (s : State) (p : Nat) (e : VEntry) (d a : Reg) (rc : Rc) (f : FVal → FVal × Flags),
    fpFunction i = some (d, a, rc, f) → AtHead s p e → e.slot = none →
    let c := vctx s p e i
    let g (k : Nat) : Nat × Flags := finish c.ffmt (Rc.mode rc e.frm) (f (c.ffmt.decode (c.ev s a.toNat c.sew k)))
    c.fmt = 2 ∨ c.fmt = 3 → Fits c d.toNat 1 →
    ∃ t, exec i s = .next t ∧
      VDone s t p e c (rowFlags c 1 (fun _ k => (g k).2)) none
        { v := newV c s d.toNat 1 c.sew (fun _ => r95 c (fun k => (g k).1)) }) ∧
  (∀ (s : State) (p : Nat) (e : VEntry) (d a : Reg) (mk : Bool) (src : CvtSrc) (rc : Rc), AtHead s p e → e.slot = none →
    let c := vctx s p e (.vfcvt d a mk src rc)
    let f := srcFmt src
    let g (k : Nat) : Nat × Flags := c.cvtTo (Rc.mode rc e.frm) (if rc = .sr then some (srBits e.rngkey e.b k) else none)
      (c.ev s 31 16 (k / 32)) (f.value (c.ev s 31 16 (k / 32)) (c.ev s a.toNat f.width k))
    let widens : Bool := (match f with
      | .fp _ => true
      | _ => false) && decide (2 ≤ c.fmt ∧ c.fmt ≠ 7 ∧ c.fmt ≠ 8 ∧ f.width < c.sew)
    CvtAllowed c f rc d a → Fits c d.toNat 1 →
    ∃ t, exec (.vfcvt d a mk src rc) s = .next t ∧
      VDone s t p e c (if widens then 0 else rowFlags c 1 (fun _ k => (g k).2)) none
        { v := newV c s d.toNat 1 c.sew (fun _ => r95 c (fun k => (g k).1)) }) ∧
  (∀ (s : State) (p : Nat) (e : VEntry) (d a : Reg) (mk : Bool) (src : CvtSrc) (rc : Rc), AtHead s p e → e.slot = none →
    let c := vctx s p e (.vquant d a mk src rc)
    let f := srcFmt src
    let x (k : Nat) : FVal := f.value (c.ev s 31 16 (k / 32)) (c.ev s a.toNat f.width k)
    let block (b : Nat) : List Nat := c.actives.filter (fun k => k / 32 == b)
    let desc (b : Nat) : Nat := quantDesc c.fmt ((block b).map x)
    let g (k : Nat) : Nat × Flags := c.quantElem (Rc.mode rc e.frm) (if rc = .sr then some (srBits e.rngkey e.b k) else none)
      (desc (k / 32)) (x k)
    c.fmt = 4 ∨ c.fmt = 5 ∨ c.fmt = 7 ∨ c.fmt = 8 → f.width / c.sew ≤ 8 →
    (f.width ≠ c.sew → ¬(a ≤ d ∧ d.toNat < a.toNat + max 1 (f.width / c.sew))) →
    a.toNat + max 1 (f.width / c.sew) ≤ 31 → d ≠ 31 → Fits c d.toNat 1 → c.copy .v ≠ some 31 →
    ∃ t, exec (.vquant d a mk src rc) s = .next t ∧
      VDone s t p e c (rowFlags c 1 (fun _ k => (g k).2)) none
        { v := fun r =>
            if r = 31 then some (16, fun b => if b < (c.vl + 31) / 32 ∧ block b ≠ [] then desc b % 65536 else c.ev s 31 16 b)
            else newV c s d.toNat 1 c.sew (fun _ => r95 { c with zero := false } (fun k => (g k).1)) r }) ∧
  (∀ (s : State) (p : Nat) (e : VEntry) (d a b : Reg) (mk scb sca : Bool), AtHead s p e → e.slot = none →
    let c := vctx s p e (.vmxdot d a b mk scb sca)
    let block (k : Nat) : List Nat := c.actives.filter (fun i => i / 32 == k)
    let g (k : Nat) : Nat × Flags := blockAcc (c.ev s d.toNat 32 k) ((block k).map (fun i =>
      (c.mxVal sca (c.ev s 31 16 k) (c.ev s a.toNat c.sew i),
       c.mxVal scb (c.ev s 31 16 (c.eff / 32 + k)) (c.ev s b.toNat c.sew i))))
    c.mxOk = true → d ≠ 31 → d ≠ a → d ≠ b → Fits c d.toNat 1 →
    let fl := ((List.range ((c.vl + 31) / 32)).filter (fun k => !(block k).isEmpty)).foldl (fun x k => x ||| (g k).2) 0
    ∃ t, exec (.vmxdot d a b mk scb sca) s = .next t ∧
      VDone s t p e c fl none { v := newV c s d.toNat 1 32 (fun _ k => if k < c.cap 32 then
        (if block k ≠ [] then some (g k).1 else if c.zero = true ∧ c.vl ≠ 0 then some 0 else none) else none) })

/-- R169–R174, R61, R62: reductions leave their result in element 0 of v[d], the other elements below VL kept or, under a zeroing
prefix, zero, vfredsum's the canonical sum with LAR = 1 and the fast sum with LAR = 0; permutations and scans write the elements that
their rules give, a scan keeping inactive elements under a zeroing prefix too (the model's reading, log 23).
R171, R175–R177: random elements, and the index searches that answer in x[d]. That the roundings inside vsample set neither NX
nor OF is the model's reading (log 38, DEDUCED: R176 names NV alone). -/
def Obligations.ReductionsPermutationsAndSearches : Prop :=
  ((∀ (i : Instr) (s : State) (p : Nat) (e : VEntry) (d a b : Reg) (sb fp : Bool) (f : Nat → List (Nat × Nat) → Nat × Flags),
      AtHead s p e → e.slot = none →
      let c := vctx s p e i
      reduction i c = some (d, a, b, sb, fp, f) → (fp = true → c.fmt = 2 ∨ c.fmt = 3) → Fits c d.toNat 1 →
      let r := f (operandB c s sb b.toNat c.sew 0) (activeOf c s a)
      ∃ t, exec i s = .next t ∧
        VDone s t p e c (if c.vl = 0 then 0 else r.2) none { v := newV c s d.toNat 1 c.sew (fun _ k =>
          if c.vl ≤ k then none else if k = 0 then some r.1 else if c.zero then some 0 else none) }) ∧
    (∀ (s : State) (p : Nat) (e : VEntry) (d a b : Reg) (mk sb : Bool), AtHead s p e → e.slot = none →
      let c := vctx s p e (.vfredsum d a b mk sb)
      c.fmt = 2 ∨ c.fmt = 3 → Fits c d.toNat 1 →
      let r := sumResult c s a (operandB c s sb b.toNat c.sew 0)
      ∃ t, exec (.vfredsum d a b mk sb) s = .next t ∧
        VDone s t p e c (if c.vl = 0 then 0 else r.2) none { v := newV c s d.toNat 1 c.sew (fun _ k =>
          if c.vl ≤ k then none else if k = 0 then some r.1 else if c.zero then some 0 else none) }) ∧
    (∀ (i : Instr) (s : State) (p : Nat) (e : VEntry) (d a : Reg) (f : Nat → Option Nat), AtHead s p e → e.slot = none →
      let c := vctx s p e i
      permutation i c s = some (d, a, f) → Fits c d.toNat 1 →
      ∃ t, exec i s = .next t ∧ VDone s t p e c 0 none { v := newV c s d.toNat 1 c.sew (fun _ => f) }) ∧
    (∀ (s : State) (p : Nat) (e : VEntry) (d a : Reg) (mk : Bool) (op : FoldOp), AtHead s p e → e.slot = none →
      let c := vctx s p e (.vscan d a mk op)
      let upTo (k : Nat) : Nat × Flags :=
        foldAll c op ((c.actives.filter (fun j => decide (j ≤ k))).map (c.ev s a.toNat c.sew))
      c.fmt < 4 → Fits c d.toNat 1 →
      ∃ t, exec (.vscan d a mk op) s = .next t ∧
        VDone s t p e c (upTo c.vl).2 none
          { v := newV c s d.toNat 1 c.sew (fun _ => r95 { c with zero := false } (fun k => (upTo k).1)) })) ∧
  ((∀ (s : State) (p : Nat) (e : VEntry) (d a b : Reg) (mk uni : Bool), AtHead s p e → e.slot = none →
      let c := vctx s p e (.vrand d a b mk uni)
      (if uni then c.sew = 32 ∧ c.fmt = 2 else c.sew = 64 ∧ c.fmt < 2) → Fits c d.toNat 1 →
      ∃ t, exec (.vrand d a b mk uni) s = .next t ∧
        VDone s t p e c 0 none { v := newV c s d.toNat 1 c.sew (fun _ => r95 c (fun k =>
          if uni then rneTo .f32 (uniformX (rngWord e.rngkey e.a e.b k)) else (rngWord e.rngkey e.a e.b k).toNat)) }) ∧
    (∀ (s : State) (p : Nat) (e : VEntry) (d a : Reg) (mk : Bool), AtHead s p e → Awaits s p e →
      let c := vctx s p e (.vargmax d a mk)
      c.fmt ≠ 7 → c.fmt ≠ 8 →
      ∃ t r fl, exec (.vargmax d a mk) s = .next t ∧ VDone s t p e c fl (some (BitVec.ofNat 64 r)) {} ∧
        (if c.fmt < 2 then fl = 0 ∧ (if c.actives = [] then r = c.vl else
            FirstGreatest (fun x y => decide (x < y)) (c.actives.map (fun k =>
              (k, asInt (c.fmt == 0) c.sew (c.ev s a.toNat c.sew k)))) r)
         else
          let xs := c.actives.map (fun k => (k, c.ffmt.decode (c.ev s a.toNat c.sew k)))
          ∃ all, FpSearch c.vl xs r all ∧ fl = all ||| (if xs.any (fun x => x.2.isSig) then fNV else 0))) ∧
    (∀ (s : State) (p : Nat) (e : VEntry) (d a b : Reg) (mk sb : Bool), AtHead s p e → Awaits s p e →
      let c := vctx s p e (.vsample d a b mk sb)
      let r := sampleResult c (c.ev s a.toNat 32) (operandB c s sb b.toNat 32 0)
      c.sew = 32 → c.fmt = 2 →
      ∃ t, exec (.vsample d a b mk sb) s = .next t ∧ VDone s t p e c r.2 (some (BitVec.ofNat 64 r.1)) {}) ∧
    (∀ (s : State) (p : Nat) (e : VEntry) (d a b : Reg) (mk : Bool), AtHead s p e → Awaits s p e →
      let c := vctx s p e (.vgmax d a b mk)
      let score (k : Nat) : FVal := FFmt.f32.decode (finish .f32 .rne (addX .rne (c.ffmt.decode (c.ev s a.toNat c.sew k))
        (gumbel (uniformX (rngWord e.rngkey e.b e.b1 k))))).1
      (c.sew = 32 ∧ c.fmt = 2) ∨ c.fmt = 3 →
      ∃ t r fl, exec (.vgmax d a b mk) s = .next t ∧ VDone s t p e c fl (some (BitVec.ofNat 64 r)) {} ∧
        FpSearch c.vl (c.actives.map (fun k => (k, score k))) r fl))

/-- R183–R193: the tree instructions at SEW 16, 32 or 64, unless the cyclic trap of R183 is due. -/
def Obligations.TreeInstructions : Prop :=
  ∀ (i : Instr) (s : State) (p : Nat) (e : VEntry) (plain : Bool) (d : Option Reg) (w : Writes) (fl : Flags),
    AtHead s p e → e.slot = none →
    let c := vctx s p e i
    treeResult i c s = some (plain, d, w, fl) → 16 ≤ c.sew → (plain = true → c.fmt < 4) →
    (∀ r, d = some r → Fits c r.toNat 1) →
    (∀ x, c.copy .t = some x → x < 8) → (c.cyc = true → fl &&& fCYC = 0) →
    ∃ t, exec i s = .next t ∧ VDone s t p e c fl none w

/-- R145, R160, R183: outside a region, a vector word under a condition that its description forbids takes ILLEGAL in the vector
stream with nothing written; with VTYPE.CYC a tree instruction that sets CYC completes its writes, retires, and then takes
TOPO_CYCLE. -/
def Obligations.VectorStreamCauses : Prop :=
  (∀ (i : Instr) (s : State) (p : Nat) (e : VEntry), AtHead s p e → VecAtWork s p →
    Forbidden i (vctx s p e i) →
    ∃ t, exec i s = .next t ∧
      VecTrap s t p ⟨1, true, (s.hart p).thr.pc, e.addr, wordOf e.instr, 1, false, false⟩) ∧
  (∀ (i : Instr) (s : State) (p : Nat) (e : VEntry) (plain : Bool) (d : Option Reg) (w : Writes) (fl : Flags),
    AtHead s p e → VecAtWork s p → e.slot = none →
    let c := vctx s p e i
    treeResult i c s = some (plain, d, w, fl) → 16 ≤ c.sew → (plain = true → c.fmt < 4) →
    (∀ r, d = some r → Fits c r.toNat 1) → (∀ x, c.copy .t = some x → x < 8) → c.cyc = true → fl &&& fCYC ≠ 0 →
    ∃ u t, VDone s u p e c fl none w ∧ exec i s = .next t ∧
      VecTrap u t p ⟨14, true, (s.hart p).thr.pc, e.addr, 0, 0, false, false⟩)

/-- R181, R182: the doubling that resolves a forest finds, for every node, whether its chain of parents reaches a root, and
then that root and the number of steps to it. -/
def Obligations.DoublingFindsRoots : Prop :=
  ∀ (splitB : Nat) (es : List Nat) (i : Nat), i < es.length →
    let t := resolve splitB es
    (t.cyclic i = true ↔ ∀ n, ¬isTop splitB es (climb splitB es n i)) ∧
    (t.cyclic i = false → t.root i = climb splitB es (t.depth i) i ∧ isTop splitB es (t.root i) ∧
      ∀ n, n < t.depth i → ¬isTop splitB es (climb splitB es n i))

namespace Sys2Proof.Claims

/-! ## Vector memory (R199, R231–R243, R258) -/

/-- Two states of a hart that differ in its event counters and in what the shared units have granted it at most (R369). -/
def sameButGrants (a b : Hart) : Prop := b = { a with evcnt := b.evcnt, served := b.served }

/-- The harts other than that of scalar core p are as before, but that shared units may have granted requests of those on its
core (R369). -/
def othersServed (s t : State) (p : Nat) : Prop :=
  ∀ q, q ≠ p → sameButGrants (s.hart q) (t.hart q) ∧ (coreOf q ≠ coreOf p → t.hart q = s.hart q)

/-- The head has retired after accesses to memory: `s1` is the state before them, with the hart's earlier line accesses
performed as R268 asks, `m` the memory after them, `hf` what the instruction does to the hart and `kf` what it does to the core
beside that. Only what the memory system remembers, and what the shared units grant, may change further. -/
structure CoreDone (s s1 t : State) (p : Nat) (e : VEntry) (c : VCtx) (m : Memory) (fl : Flags) (reply : Option Word)
    (hf : Hart → Hart) (kf : VCore → VCore) : Prop where
  agent : t.agent = if (s.hart p).viq.drop 1 = [] then .user p else .vec p
  hart : t.hart p = { replied (State.countEv (hf (s.hart p)) 3) e.slot reply with
    viq := (hf (s.hart p)).viq.drop 1, hold := (s.hart p).hold - 1, vstart := 0, fflags := (s.hart p).fflags ||| fl
    vdirty := (t.hart p).vdirty, ssq := (t.hart p).ssq, served := Vector.replicate 3 0, evcnt := (t.hart p).evcnt
    early := (t.hart p).early, stamp := (t.hart p).stamp }
  core : t.vcore c.core = { kf (s.vcore c.core) with
    v := (t.vcore c.core).v, m := (t.vcore c.core).m, t := (t.vcore c.core).t, tlb := (t.vcore c.core).tlb
    unitTlb := (t.vcore c.core).unitTlb, deficit := (t.vcore c.core).deficit, turn := (t.vcore c.core).turn }
  mem : if (s.hart p).hold = 1 then
      ∃ bad lost, t.mem = ({ s1 with mem := m, badSectors := bad, lostSectors := lost }.drainV p).mem ∧
        (∀ k ∈ bad, k ∈ s1.badSectors) ∧ ∀ k ∈ lost, k ∈ s1.lostSectors
    else t.mem = m
  others : othersServed s t p ∧ ∀ k, k ≠ c.core → t.vcore k = s.vcore k
  sups : t.sups = s.sups ∧ t.clusters = s.clusters
  outside : t = { s with
    agent := t.agent, harts := t.harts, cores := t.cores, mem := t.mem, watches := t.watches, l2 := t.l2, l1 := t.l1
    misses := t.misses, peerCopies := t.peerCopies, badSectors := t.badSectors, lostSectors := t.lostSectors
    trains := t.trains, free := t.free }

/-- The same for an instruction that does nothing else to its core. -/
def MDone (s s1 t : State) (p : Nat) (e : VEntry) (c : VCtx) (m : Memory) (fl : Flags) (reply : Option Word)
    (hf : Hart → Hart) : Prop := CoreDone s s1 t p e c m fl reply hf id

/-- Registers and VDIRTY after an instruction's writes. -/
def Filled (s t : State) (p : Nat) (c : VCtx) (w : Writes) : Prop :=
  InRegs s t c w ∧ ∀ k, k < 50 → (t.hart p).vdirty.getLsbD k = ((s.hart p).vdirty.getLsbD k || w.marks k)

/-- A vector load: destination, address form, width, the O bit, the x bit, and whether it is a first-fault load (R232, R235,
R238). -/
def vectorLoad (i : Instr) : Option (Reg × VAddr × VWidth × Bool × Bool × Bool) :=
  match i with
  | .vld d _ w o _ _ _ x => some (d, .unit, w, o, x, false)
  | .vlds d _ _ w o _ _ _ x => some (d, .strided, w, o, x, false)
  | .vldx d _ ix w o _ _ _ x => some (d, .indexed ix.toNat, w, o, x, false)
  | .vldff d _ w o _ _ _ x => some (d, .unit, w, o, x, true)
  | .vldxff d _ ix w o _ _ _ x => some (d, .indexed ix.toNat, w, o, x, true)
  | _ => none

/-- The bytes that an element of a load at an address returns: those of its line, where the hart has performed that line
access before (R328) and O does not forbid it (R235), else those at its place. -/
def elementBytes (s s1 : State) (p : Nat) (o : Bool) (addr : Int) (pl : Place) (n : Nat) : List Byte :=
  match pl, (if o then [] else (s.hart p).early).find? (fun e => decide ((e.va : Int) = addr / 128) && (match pl with
    | .at_ key _ => e.line == key / 128
    | .absent _ _ _ _ _ => false)) with
  | .at_ key _, some e => (e.bytes.drop (key % 128)).take n
  | pl, _ => placeBytes s1 (dieOf (coreOf p)) pl n

/-- A vector store: data register, address form, width, the O bit and the policy (R200, R232). -/
def vectorStore (i : Instr) : Option (Reg × VAddr × VWidth × Bool × Policy) :=
  match i with
  | .vst d _ w o _ pol _ => some (d, .unit, w, o, pol)
  | .vsts d _ _ w o _ pol _ => some (d, .strided, w, o, pol)
  | .vstx d _ ix w o _ pol _ => some (d, .indexed ix.toNat, w, o, pol)
  | _ => none

/-- The address of element i, exactly (R232): in operation units of w bits for a unit-stride access. -/
def elementAddress (c : VCtx) (s : State) (g : VAddr) (w i : Nat) : Int :=
  match g with
  | .unit => (c.e.a.toNat : Int) + (i * w / 8 : Nat)
  | .strided => (c.e.a.toNat : Int) + (i : Int) * c.e.b.toInt
  | .indexed ix => (c.e.a.toNat : Int) + (c.ev s ix c.sew i : Nat)

/-- The index group, when the form has one, ends at v31, as does the register named. -/
def FitsX (g : VAddr) : Prop :=
  match g with
  | .indexed ix => ix < 32
  | _ => True

/-- The widths that R231 allows. -/
def WidthOk (c : VCtx) (g : VAddr) (w : Nat) : Prop :=
  w ≤ c.sew ∧ (w < c.sew → c.fmt < 2) ∧ (g = .unit ∨ 8 ≤ w)

/-- The w memory bits of element i, the part of a byte at bit i·w mod 8 for a sub-byte width, brought to SEW (R47, R231). -/
def loadedBits (c : VCtx) (w i : Nat) (bytes : List Byte) : Nat :=
  let raw := if w < 8 then ofBytes bytes / 2 ^ (i * w % 8) % 2 ^ w else ofBytes bytes
  if c.fmt = 0 then bitsFor c.sew (asInt true w raw) else raw

/-- The slices that a list of accesses passes through, with the hart's earlier line accesses of them performed (R268), the births
among them as of one moment (R254; log 56). -/
def earlier (s : State) (p : Nat) (as : List Int) : State :=
  let ks := sortSet (as.map (fun a => sliceOf a.toNat))
  ks.foldl (fun s k => s.drainSlice p k) (s.bornTogether p ks)

/-- An address with tag 0x3 and a valid offset (R199 step 1). -/
def inTents (addr : Int) : Bool := decide (3 * 2 ^ 60 ≤ addr) && decide (addr < 3 * 2 ^ 60 + 2 ^ 57)

/-- What element k of a load of w memory bits gives, its bits with the flags of a conversion, or its cause: a plain one reads its
place (R231, R232), one with the x bit expands the base address's tile, each check in R258's order. `s` is the state before the
accesses, `s1` that with the hart's earlier line accesses performed. -/
def elementOf (c : VCtx) (s s1 : State) (g : VAddr) (w : Nat) (o x : Bool) (k : Nat) : Except (Nat × Bool) (Nat × Flags) :=
  let addr := elementAddress c s g w k
  let n := max 1 (w / 8)
  let chk := accPlace s1 (s1.actx (.vec c.p)) .load .natural (tagOf c.e.a) addr n
  let plain (r : Except AFail Place) (bs : Place → List Byte) : Except (Nat × Bool) (Nat × Flags) :=
    match r with
    | .ok pl => .ok (loadedBits c w k (bs pl), 0)
    | .error (.cause code dev) => .error (code, dev)
    | .error .wait => .error (causeAccess, false)
  if x = false then plain chk (fun pl => elementBytes s s1 c.p o addr pl n)
  else if tagOf c.e.a ≠ 3 then plain (refused chk) (fun _ => [])
  else
    match c.baseTile s1 with
    | .plain => plain chk (fun pl => placeBytes s1 (dieOf c.core) pl n)
    | .fails code dev => .error (if inTents addr then (code, dev) else (causeNoncanon, false))
    | .tile tile =>
      if inTents addr = false then .error (causeNoncanon, false)
      else match tile.layout s1 with
        | .error code => .error (code, false)
        | .ok (count, k0) =>
          if (c.isFp = false ∧ tile.tag ≠ 6) ∨ count ≤ k0 + k then .error (causeAccess, false)
          else if ∃ r ∈ tile.ranges s1 (k0 + k), badAt s1 (devKey (tile.frame + r.1)) r.2 = true then
            .error (causeUncorrectable, false)
          else .ok (if c.isFp then finish c.ffmt .rne (tile.value s1 (k0 + k))
            else (bitsFor c.sew (asInt (c.fmt == 0) 8 (s1.mem.num (devKey (tile.frame + (k0 + k))) 1)), 0))

/-- No element of a load has to wait for a line that a copy engine holds (R206). -/
def NoWait (c : VCtx) (s s1 : State) (g : VAddr) (w : Nat) (x : Bool) : Prop :=
  match x && tagOf c.e.a == 3, c.baseTile s1 with
  | true, .tile tile => VCtx.tileWaits s1 tile c.actives = false
  | _, _ => ∀ k ∈ c.actives, accPlace s1 (s1.actx (.vec c.p)) .load .natural (tagOf c.e.a) (elementAddress c s g w k)
      (max 1 (w / 8)) ≠ .error .wait

/-- The bits and the flags that a load's element gives. -/
def bitsOfElement (r : Except (Nat × Bool) (Nat × Flags)) : Nat × Flags :=
  match r with
  | .ok v => v
  | .error _ => (0, 0)

/-- The failing elements of a load, ascending. -/
def failing (c : VCtx) (s : State) (g : VAddr) (w : Nat) (r : Nat → Except (Nat × Bool) (Nat × Flags)) : List EFail :=
  c.actives.filterMap (fun k => match r k with
    | .error (code, dev) => some ⟨k, code, accDetail .load code dev, BitVec.ofInt 64 (elementAddress c s g w k)⟩
    | .ok _ => none)

/-- The head stands at entry e, which is not being replayed and awaits no reply. -/
structure MemHead (s : State) (p : Nat) (e : VEntry) : Prop where
  head : AtHead s p e
  first : e.st ≠ .replay
  quiet : e.slot = none

/-- The widths and formats that a load may have (R231, R258). -/
def LoadAllowed (c : VCtx) (g : VAddr) (vw : VWidth) (x : Bool) : Prop :=
  WidthOk c g (VWidth.bits vw c.sew) ∧ (x = true → vw = .sew ∧ c.fmt ≤ 3 ∧ (c.fmt < 2 → 8 ≤ c.sew))

/-- The hart once a replay has begun anew: what the replay acted on is clear (R108, R236, R238). -/
def begunAnew (st : EntryState) (h : Hart) : Hart :=
  if st = .replay then { h with fmask := 0, fstat := h.fstat &&& ~~~(1#40 <<< 17), elemFaults := [] } else h

/-- What element k of a store leaves waiting (R233, R268): its place, its bytes or bits, its line, the uncorrectable sectors that
its instruction covers whole (R219), and its placement policy (R200). -/
def waitingElement (c : VCtx) (s : State) (d w : Nat) (g : VAddr) (o : Bool) (pol : Policy) (addr : Nat → Int) (pl : Nat → Place)
    (k : Nat) : Pend :=
  ⟨destOf s (s.actx (.vec c.p)) (addr k) (pl k), c.datum s d w k, (s.hart c.p).stamp, (addr k).toNat / 128,
   (match pl k with
    | .at_ key _ => (c.coveredSectors s g w c.actives).filter (· == sectorOf key)
    | .absent _ _ _ _ _ => []), 0, Policy.inForce pol c.e.ovr, o⟩

/-- The train that an element at a key joins: its peer's, or the host's, numbered 256 (R341, R342). -/
def trainOf (key : Nat) : Nat := if 2 ^ 62 ≤ key then (key - 2 ^ 62) / 2 ^ 57 else 256

/-- One element's store on a memory: whole bytes, or a read-modify-write of its byte (R233). -/
def storedElement (c : VCtx) (s : State) (d w : Nat) (key : Nat → Nat) (m : Memory) (i : Nat) : Memory :=
  let v := c.ev s d c.sew i % 2 ^ w
  if w < 8 then
    m.puts [(key i, BitVec.ofNat 8
      ((m.get (key i)).toNat / 2 ^ (i * w % 8 + w) * 2 ^ (i * w % 8 + w) + v * 2 ^ (i * w % 8) +
        (m.get (key i)).toNat % 2 ^ (i * w % 8)))]
  else m.puts (cellsAt (key i) (toBytes (w / 8) v))

/-- What vamo writes (R239), with its flags. -/
def amoResult (c : VCtx) (op : VamoOp) (old b : Nat) : Nat × Flags :=
  let z (x : Nat) : Int := asInt (c.fmt == 0) c.sew x
  match op with
  | .add => ((old + b) % 2 ^ c.sew, 0)
  | .swap => (b, 0)
  | .and => (old &&& b, 0)
  | .or => (old ||| b, 0)
  | .xor => (old ^^^ b, 0)
  | .min => (bitsFor c.sew (min (z old) (z b)), 0)
  | .max => (bitsFor c.sew (max (z old) (z b)), 0)
  | .fadd => finish c.ffmt .rne (addX .rne (c.ffmt.decode old) (c.ffmt.decode b))

/-- The memory, the old values by index and the flags after a list of vamo applications, in order. -/
def amoRun (c : VCtx) (op : VamoOp) (key : Nat → Nat) (b : Nat → Nat) :
    List Nat → Memory × List (Nat × Nat) × Flags → Memory × List (Nat × Nat) × Flags
  | [], r => r
  | i :: rest, (m, olds, fl) =>
    let old := m.num (key i) (c.sew / 8)
    let n := amoResult c op old (b i)
    amoRun c op key b rest (m.puts (cellsAt (key i) (toBytes (c.sew / 8) n.1)), olds ++ [(i, old)], fl ||| n.2)

/-- The checks of a list of atomic accesses go through, at these keys, in every state that the accesses themselves can lead
to: one that differs from s1 in the bytes accessed, in event counts and in what the memory system remembers at most. -/
def Steady (c : VCtx) (s1 : State) (addr : Nat → Int) (key : Nat → Nat) (loc : Nat → Loc) (n : Nat) (is : List Nat) : Prop :=
  ∀ u : State, u = { s1 with
      mem := u.mem, watches := u.watches, l2 := u.l2, l1 := u.l1, misses := u.misses, peerCopies := u.peerCopies
      badSectors := u.badSectors, lostSectors := u.lostSectors, harts := u.harts, free := u.free } →
    (∀ q, u.hart q = { s1.hart q with evcnt := (u.hart q).evcnt }) →
    (∀ k, (∀ i ∈ is, k < key i ∨ key i + n ≤ k) → u.mem.get k = s1.mem.get k) →
    (∀ k ∈ u.badSectors, k ∈ s1.badSectors) → (∀ k ∈ u.lostSectors, k ∈ s1.lostSectors) →
    ∀ i ∈ is, accPlace u (u.actx (.vec c.p)) .atomic .natural (tagOf c.e.a) (addr i) n = .ok (.at_ (key i) (loc i))

/-- As `Steady`, for the locks of vlock and vunlock, whose addresses carry their own tags. -/
def SteadyLocks (c : VCtx) (s1 : State) (addr : Nat → Nat) (key : Nat → Nat) (loc : Nat → Loc) (is : List Nat) : Prop :=
  ∀ u : State, u = { s1 with
      mem := u.mem, watches := u.watches, l2 := u.l2, l1 := u.l1, misses := u.misses, peerCopies := u.peerCopies
      badSectors := u.badSectors, lostSectors := u.lostSectors, harts := u.harts, free := u.free } →
    (∀ q, u.hart q = { s1.hart q with evcnt := (u.hart q).evcnt }) →
    (∀ k, (∀ i ∈ is, k < key i ∨ key i + 8 ≤ k) → u.mem.get k = s1.mem.get k) →
    (∀ k ∈ u.badSectors, k ∈ s1.badSectors) → (∀ k ∈ u.lostSectors, k ∈ s1.lostSectors) →
    ∀ i ∈ is, accPlace u (u.actx (.vec c.p)) .atomic .natural (addr i / 2 ^ 60) (addr i : Int) 8 = .ok (.at_ (key i) (loc i))

/-- Trying the locks at ascending addresses (R241): the memory, the addresses now held, and whether trying has stopped. -/
def lockRun (tag : Nat) (stopAtBusy : Bool) (key : Nat → Nat) : List Nat → Memory × List Nat × Bool → Memory × List Nat × Bool
  | [], r => r
  | a :: rest, (m, got, stop) =>
    lockRun tag stopAtBusy key rest
      (if stop then (m, got, stop)
       else if m.num (key a) 8 = 0 then (m.puts (cellsAt (key a) (toBytes 8 tag)), a :: got, false)
       else (m, got, stopAtBusy))

/-- A byte of a register image (R243): VLEN and VEFF in the header, then the register's bytes, lane by lane. -/
def imageByte (c : VCtx) (s : State) (r k : Nat) : Byte :=
  if k < 4 then BitVec.ofNat 8 (c.vlen / 2 ^ (8 * k)) else if k < 8 then BitVec.ofNat 8 (c.eff / 2 ^ (8 * (k - 4)))
  else if k < 64 then 0 else BitVec.ofNat 8 (vreg s c.core r / 2 ^ (c.lane0 * 1024 + 8 * (k - 64)))

/-- The checks of a register image go through (R199, R243): steps 1 to 3 on the whole of it, and those of each of its 64-byte
sectors, at these keys. A store replaces an uncorrectable sector, for it covers it whole (R219). -/
def ImageAt (c : VCtx) (s : State) (k : AKind) (key : Nat → Nat) (loc : Nat → Loc) : Prop :=
  tagOf c.e.a ≤ 2 ∧
  (∀ code dev, checkAddr s (s.actx (.vec c.p)) k (.multiple 64) (tagOf c.e.a) c.e.a.toNat (64 + c.vlen / 8) =
    .error (.cause code dev) → 8 ≤ code) ∧
  ∀ j, j < 1 + c.vlen / 512 →
    (if k = .load then accPlace s (s.actx (.vec c.p)) k .natural (tagOf c.e.a) ((c.e.a.toNat : Int) + (64 * j : Nat)) 64
     else checkAddr s (s.actx (.vec c.p)) k .natural (tagOf c.e.a) ((c.e.a.toNat : Int) + (64 * j : Nat)) 64) =
      .ok (.at_ (key j) (loc j)) ∧ engineHeld s (key j / 128) = false

/-- R236: a hart whose head awaits replay: its FMASK, FSTAT and recorded elements, one event for each. -/
def awaitsReplay (fs : List EFail) (f : EFail) (h : Hart) : Hart :=
  let h1 := fs.foldl (fun h _ => State.countEv h 0x40) h
  { h1 with
    fmask := BitVec.ofNat 16384 (fs.foldl (fun m f => m ||| 2 ^ f.i) 0)
    fstat := BitVec.ofNat 40 (f.code % 256 * 2 ^ 24 + h.fstat.toNat / 2 ^ 32 * 2 ^ 32 +
      h.fstat.toNat / 2 ^ 18 % 2 ^ 6 * 2 ^ 18 + 2 ^ 17 + h.fstat.toNat / 2 ^ 16 % 2 * 2 ^ 16 + f.i % 2 ^ 16)
    elemFaults := fs.map (fun f => (f.i, f.code, f.tval))
    viq := match h.viq with
      | e :: rest => { e with st := .replay, done := .zero } :: rest
      | [] => [] }

end Sys2Proof.Claims

/-- R231, R232, R235, R238, R258: vector loads. Each active element gives the bytes at the place that R199's checks give, or those
that the hart's earlier access of the line brought (R328); with the x bit it expands the base address's tile. A first-fault load
clears its trim bit when no element fails, trims VL when a higher one does, and takes the trap when its lowest active element does,
after which it is executed again in full. That the elements without an earlier access are read at one moment, the instruction's
execution, is the model's reading (log 45, DEDUCED: R233 fixes no moment for a line's access). -/
def Obligations.VectorLoads : Prop :=
  (∀ (i : Instr) (s : State) (p : Nat) (e : VEntry) (d : Reg) (g : VAddr) (vw : VWidth) (o x ff : Bool),
    vectorLoad i = some (d, g, vw, o, x, ff) → AtHead s p e → e.slot = none → (e.st = .replay → ff = true) →
    let c := vctx s p e i
    let w := VWidth.bits vw c.sew
    let s1 := if x then s.drainV p else earlier s p (c.actives.map (elementAddress c s g w))
    let got := elementOf c s s1 g w o x
    LoadAllowed c g vw x → Fits c d.toNat 1 → FitsX g → NoWait c s s1 g w x → failing c s g w got = [] →
    ∃ t, exec i s = .next t ∧
      MDone s s1 t p e c s1.mem (rowFlags c 1 (fun _ k => (bitsOfElement (got k)).2)) none (fun h =>
        let h := begunAnew e.st h
        if ff then { h with fstat := h.fstat &&& ~~~(1#40 <<< 16) } else h) ∧
      Filled s t p c { v := newV c s d.toNat 1 c.sew (fun _ => r95 c (fun k => (bitsOfElement (got k)).1)) }) ∧
  (∀ (i : Instr) (s : State) (p : Nat) (e : VEntry) (d : Reg) (g : VAddr) (vw : VWidth) (o x : Bool) (f : EFail) (fs : List EFail),
    vectorLoad i = some (d, g, vw, o, x, true) → AtHead s p e → e.slot = none →
    let c := vctx s p e i
    let w := VWidth.bits vw c.sew
    let s1 := if x then s.drainV p else earlier s p (c.actives.map (elementAddress c s g w))
    let got := elementOf c s s1 g w o x
    LoadAllowed c g vw x → Fits c d.toNat 1 → FitsX g → NoWait c s s1 g w x → failing c s g w got = f :: fs →
    (∃ k ∈ c.actives, k < f.i) → f.code < 256 →
    ∃ t, exec i s = .next t ∧
      MDone s s1 t p e c s1.mem ((c.actives.filter (fun k => decide (k < f.i))).foldl (fun a k => a ||| (bitsOfElement (got k)).2) 0)
        none (fun h =>
        let h := begunAnew e.st h
        { h with
          vl := BitVec.ofNat 16 f.i, pushVl := if (h.viq.drop 1).any setsLength then h.pushVl else BitVec.ofNat 16 f.i
          fstat := BitVec.ofNat 40 (h.fstat.toNat / 2 ^ 32 * 2 ^ 32 + f.code * 2 ^ 24 +
            h.fstat.toNat / 2 ^ 17 % 2 ^ 7 * 2 ^ 17 + 2 ^ 16 + f.i) }) ∧
      Filled s t p c { v := newV c s d.toNat 1 c.sew (fun _ k =>
        if k < f.i then r95 c (fun k => (bitsOfElement (got k)).1) k else none) }) ∧
  (∀ (i : Instr) (s : State) (p : Nat) (e : VEntry) (d : Reg) (g : VAddr) (vw : VWidth) (o x : Bool) (f : EFail) (fs : List EFail),
    vectorLoad i = some (d, g, vw, o, x, true) → AtHead s p e → e.slot = none →
    let c := vctx s p e i
    let w := VWidth.bits vw c.sew
    let s1 := if x then s.drainV p else earlier s p (c.actives.map (elementAddress c s g w))
    let got := elementOf c s s1 g w o x
    LoadAllowed c g vw x → Fits c d.toNat 1 → FitsX g → NoWait c s s1 g w x → failing c s g w got = f :: fs →
    (∀ k ∈ c.actives, f.i ≤ k) →
    ∃ u, exec i s = .next ((endStop u p).takeTrap p (c.cause s f.code f.detail f.tval)) ∧ u.mem = s1.mem ∧
      othersServed s u p ∧ sameButGrants (awaitsReplay [f] f { begunAnew e.st (s.hart p) with
        vdirty := (u.hart p).vdirty, ssq := (u.hart p).ssq, early := (u.hart p).early }) (u.hart p) ∧
      Counted (s.hart p) (u.hart p) 0x40 1 ∧ Filled s u p c { v := newV c s d.toNat 1 c.sew (fun _ _ => none) })

/-- R231–R233, R235: vector stores none of whose elements fails or lies in an absent tile. With O their elements are performed in
ascending index, without it in no fixed order: that unit-stride ones are performed in index order is the model's choice (log 45), and
so is which ones wait (log 2). A hart whose line accesses wait puts them, element by element, into its slice store queues where they
have room (R268), the sub-byte elements of one byte as one update (R233), or into element trains to a peer package or the host
(R341, R342); with O only where every element goes by a train. -/
def Obligations.VectorStores : Prop :=
  ∀ (i : Instr) (s : State) (p : Nat) (e : VEntry) (d : Reg) (g : VAddr) (vw : VWidth) (o : Bool) (pol : Policy) (key : Nat → Nat)
      (loc : Nat → Loc),
    vectorStore i = some (d, g, vw, o, pol) → MemHead s p e →
    let c := vctx s p e i
    let w := VWidth.bits vw c.sew
    let addr := elementAddress c s g w
    let new := waitingElement c s d.toNat w g o pol addr (fun k => .at_ (key k) (loc k))
    let far (k : Nat) : Prop := loc k = .host ∧ 2 ^ 61 ≤ key k ∧ key k < 2 ^ 62 ∨ ∃ j, loc k = .peer j ∧ 2 ^ 62 ≤ key k
    let near (k : Nat) : Prop := loc k = .dev ∨ loc k = .spm
    WidthOk c g w → FitsX g →
    (∀ k ∈ c.actives, accPlace s (s.actx (.vec p)) .store .natural (tagOf e.a) (addr k) (max 1 (w / 8)) = .ok (.at_ (key k) (loc k))) →
    ∃ t order, exec i s = .next t ∧ order.Perm c.actives ∧ (o = true ∨ g = .unit → order = c.actives) ∧ Filled s t p c {} ∧
      ((s.hart p).lazyV = false ∨ (o = true ∧ ∃ k ∈ c.actives, near k) →
        let s1 := earlier s p (order.map addr)
        MDone s s1 t p e c (order.foldl (storedElement c s d.toNat w key) s1.mem) 0 none id) ∧
      ((s.hart p).lazyV = true → o = false → (∀ k ∈ c.actives, near k) →
        (∀ k ∈ c.actives, key k < 2 ^ 61) → s.trains = [] → (s.hart p).hold ≠ 1 →
        let queue (n : Nat) : List Pend :=
          ((order.filter (fun k => sliceOf (addr k).toNat == n)).map new).foldl joinPend (vget [] (s.hart p).ssq n)
        (∀ n, n < 8 → lineCount (queue n) ≤ 32) →
        MDone s s t p e c s.mem 0 none id ∧ t.trains = [] ∧ ∀ n, n < 8 → vget [] (t.hart p).ssq n = queue n) ∧
      ((s.hart p).lazyV = true → tagOf e.a ≠ 3 → (∀ k ∈ c.actives, far k) →
        (∀ n, n < 8 → vget [] (s.hart p).ssq n = []) → (s.hart p).hold ≠ 1 →
        MDone s s t p e c s.mem 0 none id ∧
          t.trains = order.foldl (fun ts k => intoTrain p (trainOf (key k)) (new k) ts) s.trains)

/-- R239, R240: vamo applies its operation to the active elements one after another, each seeing the last one's result, and
delivers the old values: its local elements in ascending index, the peer elements of one address too, and with O the peer and host
elements in the order of the lowest index of each application. The hart's earlier line accesses are performed in the slices that the
local part touches (R268). -/
def Obligations.VectorAtomics : Prop :=
  ∀ (s : State) (p : Nat) (e : VEntry) (d base ix : Reg) (vw : VWidth) (o h mk : Bool) (op : VamoOp) (key : Nat → Nat) (loc : Nat → Loc),
    MemHead s p e →
    let i := Instr.vamo d base ix vw o h op mk
    let c := vctx s p e i
    let addr := elementAddress c s (.indexed ix.toNat) c.sew
    let near (k : Nat) : Bool := loc k == .dev || loc k == .spm
    let lead (k : Nat) : Nat := if loc k = .host then k else (c.actives.filter (fun j => addr j == addr k)).headD k
    let s1 := earlier s p ((c.actives.filter near).map addr)
    VWidth.bits vw c.sew = c.sew → 8 ≤ c.sew →
    (match op with
      | .swap => True
      | .fadd => 2 ≤ c.fmt ∧ c.isFp = true
      | _ => c.fmt < 2) →
    Fits c d.toNat 1 → Steady c s1 addr key loc (c.sew / 8) c.actives → (∀ x ∈ s.trains, x.1 ≠ p) →
    (∀ k ∈ c.actives, accPlace s (s.actx (.vec p)) .atomic .natural (tagOf e.a) (addr k) (c.sew / 8) = .ok (.at_ (key k) (loc k))) →
    (∀ k ∈ c.actives, loc k = .host → (op = .add ∨ op = .swap) ∧ 32 ≤ c.sew) →
    ∃ t order, exec i s = .next t ∧ order.Perm c.actives ∧
      order.Pairwise (fun j k => ((near j ∧ near k) ∨ (loc j ≠ .host ∧ addr j = addr k) → j < k) ∧
        (o = true → near j = false → near k = false → lead j ≤ lead k)) ∧
      let r := amoRun c op key (c.ev s d.toNat c.sew) order (s1.mem, [], 0)
      MDone s s1 t p e c r.1 r.2.2 none id ∧
      Filled s t p c { v := newV c s d.toNat 1 c.sew (fun _ => r95 c (fun k =>
        ((r.2.1.find? (fun x => x.1 == k)).map Prod.snd).getD 0)) }

/-- R241, R242: vlock tries the locks at its active addresses in ascending order, writing its tag over a zero, and reports the
first active element of each lock that it took; vunlock, a release at package scope, writes zero to the locks of the elements whose
bits are set, after every earlier access of its hart to the device's own memory (R336; that it performs them is the model's choice,
log 2).
R243: vsave writes a register's image, its header first; vrestore brings back the register that an image of this VLEN and
VEFF holds, and takes IMAGE, writing nothing, at any other header. -/
def Obligations.VectorLocksAndImages : Prop :=
  ((∀ (s : State) (p : Nat) (e : VEntry) (d : MReg) (base ix : Reg) (st h mk : Bool) (key : Nat → Nat) (loc : Nat → Loc),
      MemHead s p e →
      let i := Instr.vlock d base ix st h mk
      let c := vctx s p e i
      let addr := c.ev s ix.toNat 64
      let s1 := earlier s p (c.actives.map (fun k => (addr k : Int)))
      let as := sortSet (c.actives.map addr)
      let r := lockRun e.a.toNat st key as (s1.mem, [], false)
      c.sew = 64 → e.a ≠ 0 → (∀ k ∈ c.actives, addr k / 2 ^ 60 ≤ 3) →
      SteadyLocks c s1 id key loc as →
      ∃ t, exec i s = .next t ∧ MDone s s1 t p e c r.1 0 none id ∧
        Filled s t p c { m := newM c s d.toNat (fun k => decide (k ∈ c.actives) && decide (addr k ∈ r.2.1) &&
          !c.actives.any (fun j => decide (j < k) && addr j == addr k)) }) ∧
    (∀ (s : State) (p : Nat) (e : VEntry) (d : MReg) (ix : Reg) (h mk : Bool) (key : Nat → Nat) (loc : Nat → Loc),
      MemHead s p e →
      let i := Instr.vunlock d ix h mk
      let c := vctx s p e i
      let addr := c.ev s ix.toNat 64
      let s1 := (s.drainL (.user p)).drainQueues p
      c.sew = 64 → (s.hart p).late = [] → (∀ k ∈ c.actives, addr k / 2 ^ 60 ≤ 3) →
      SteadyLocks c s addr key loc c.actives → SteadyLocks c s1 addr key loc c.actives →
      ∃ t, exec i s = .next t ∧
        MDone s s1 t p e c ((c.actives.filter (fun k => c.em s d.toNat k)).foldl
          (fun m k => m.puts (cellsAt (key k) (toBytes 8 0))) s1.mem) 0 none
          (fun h => { h with sbuf := (s1.hart p).sbuf }) ∧
        Filled s t p c {})) ∧
  ((∀ (s : State) (p : Nat) (e : VEntry) (d base : Reg) (h : Bool) (pol : Policy) (key : Nat → Nat) (loc : Nat → Loc), MemHead s p e →
      let i := Instr.vsave d base h pol
      let c := vctx s p e i
      let s1 := s.drainV p
      ImageAt c s .store key loc → ImageAt c s1 .store key loc →
      ∃ t, exec i s = .next t ∧
        MDone s s1 t p e c ((List.range (1 + c.vlen / 512)).foldl (fun m j =>
          m.puts (cellsAt (key j) ((List.range 64).map (fun b => imageByte c s d.toNat (64 * j + b))))) s1.mem) 0 none id ∧
        Filled s t p c {}) ∧
    (∀ (s : State) (p : Nat) (e : VEntry) (d base : Reg) (h : Bool) (pol : Policy) (key : Nat → Nat) (loc : Nat → Loc), MemHead s p e →
      let i := Instr.vrestore d base h pol
      let c := vctx s p e i
      let s1 := s.drainV p
      let byte (k : Nat) : Byte := (readBytes s1 (dieOf c.core) (loc (k / 64)) (key (k / 64)) 64).getD (k % 64) 0
      ImageAt c s .load key loc → ImageAt c s1 .load key loc → Fits c d.toNat 1 →
      ((∀ k, k < 64 → byte k = imageByte c s d.toNat k) →
        ∃ t, exec i s = .next t ∧ MDone s s1 t p e c s1.mem 0 none id ∧
          (∀ r, r < 32 → r ≠ d.toNat → vreg t c.core r = vreg s c.core r) ∧ (t.vcore c.core).m = (s.vcore c.core).m ∧
          (t.vcore c.core).t = (s.vcore c.core).t ∧
          (∀ b, b < c.vlen → (vreg t c.core d.toNat).testBit (c.lane0 * 1024 + b) = (byte (64 + b / 8)).getLsbD (b % 8)) ∧
          (∀ b, Outside c 1024 b → (vreg t c.core d.toNat).testBit b = (vreg s c.core d.toNat).testBit b) ∧
          ∀ k, k < 50 → (t.hart p).vdirty.getLsbD k = ((s.hart p).vdirty.getLsbD k || k == d.toNat)) ∧
      ((∃ k, k < 64 ∧ byte k ≠ imageByte c s d.toNat k) →
        exec i s = .next ((endStop ((s.dirty p d.toNat).drainV p) p).takeTrap p (c.cause s causeImage 0 e.a)))))

/-- R236, R258: when elements of a vector load, plain or expanding, or of a store fail, those that do not are performed, the failing
ones are recorded in FMASK and FSTAT, the entry awaits its replay, and the trap of the lowest is taken at the vector instruction. The
model's readings: event 0x40 counts each failing element (log 34), and the others are read, or written in index order, at one moment
(log 45). -/
def Obligations.FailingElementsAwaitReplay : Prop :=
  (∀ (i : Instr) (s : State) (p : Nat) (e : VEntry) (d : Reg) (g : VAddr) (vw : VWidth) (o x : Bool) (f : EFail) (fs : List EFail),
    vectorLoad i = some (d, g, vw, o, x, false) → MemHead s p e →
    let c := vctx s p e i
    let w := VWidth.bits vw c.sew
    let s1 := if x then s.drainV p else earlier s p (c.actives.map (elementAddress c s g w))
    let got := elementOf c s s1 g w o x
    LoadAllowed c g vw x → Fits c d.toNat 1 → FitsX g → NoWait c s s1 g w x → failing c s g w got = f :: fs →
    ∃ u, exec i s = .next ((endStop u p).takeTrap p (c.cause s f.code f.detail f.tval)) ∧
      u.mem = s1.mem ∧ othersServed s u p ∧ sameButGrants (awaitsReplay (f :: fs) f { s.hart p with
        vdirty := (u.hart p).vdirty, ssq := (u.hart p).ssq, early := (u.hart p).early
        fflags := (s.hart p).fflags ||| rowFlags c 1 (fun _ k => (bitsOfElement (got k)).2) }) (u.hart p) ∧
      Counted (s.hart p) (u.hart p) 0x40 (fs.length + 1) ∧
      Filled s u p c { v := newV c s d.toNat 1 c.sew (fun _ k => (r95 c (fun k => (bitsOfElement (got k)).1) k).bind (fun b =>
        if c.pred k ∧ (f :: fs).any (fun f => f.i == k) then none else some b)) }) ∧
  (∀ (i : Instr) (s : State) (p : Nat) (e : VEntry) (d : Reg) (g : VAddr) (vw : VWidth) (o : Bool) (pol : Policy)
      (key : Nat → Nat),
    vectorStore i = some (d, g, vw, o, pol) → MemHead s p e → (s.hart p).lazyV = false → s.badSectors = [] → s.lostSectors = [] →
    let c := vctx s p e i
    let w := VWidth.bits vw c.sew
    let addr := elementAddress c s g w
    let chk := fun k => accPlace s (s.actx (.vec p)) .store .natural (tagOf e.a) (addr k) (max 1 (w / 8))
    let fs := c.actives.filterMap (fun k => match chk k with
      | .error (.cause code dev) => some (⟨k, code, accDetail .store code dev, BitVec.ofInt 64 (addr k)⟩ : EFail)
      | _ => none)
    let good := c.actives.filter (fun k => !fs.any (fun f => f.i == k))
    let s1 := earlier s p (good.map addr)
    WidthOk c g w → FitsX g → g = .unit ∨ o = true → fs ≠ [] → (∀ k ∈ good, ∃ l, chk k = .ok (.at_ (key k) l)) →
    ∃ u f, fs.head? = some f ∧ exec i s = .next ((endStop u p).takeTrap p (c.cause s f.code f.detail f.tval)) ∧
      u.mem = good.foldl (storedElement c s d.toNat w key) s1.mem ∧ othersServed s u p ∧
      sameButGrants (awaitsReplay fs f { s.hart p with ssq := (u.hart p).ssq, early := (u.hart p).early }) (u.hart p) ∧
      Counted (s.hart p) (u.hart p) 0x40 fs.length ∧ Filled s u p c {})

namespace Sys2Proof.Claims

/-! ## Hash tables (R247–R252) -/

/-- A hart's launch has claimed a hash table without an overflow area on its core, whose buckets stand at `base`, and no word of
memory is uncorrectable. -/
structure TableAt (s : State) (p : Nat) (t : HashTbl) (base : Nat) : Prop where
  table : (s.vcore (coreOf p)).hash.find? (fun t => t.launch == (s.hart p).launch) = some t
  claim : ∃ cl, (s.vcore (coreOf p)).claims.find? (fun c => c.launch == (s.hart p).launch) = some cl ∧
    base = spmKey (coreOf p) (cl.start + shtBase t.cfg)
  enabled : shtEn t.cfg = true
  plain : t.ovf = 0 ∧ t.spilled = 0
  good : s.badSectors = [] ∧ s.lostSectors = []

/-- R248: the 32 slots that a key may lie in, from its home bucket on. -/
def hashSlots (cfg : Word) (base key : Nat) : List Nat :=
  let home := (mix64 (BitVec.ofNat 64 key ^^^ BitVec.ofNat 64 (shtSeed cfg))).toNat / 2 ^ (64 - shtB cfg)
  (List.range 32).map (fun n => base + 128 * ((home + n / 8) % 2 ^ shtB cfg) + 16 * (n % 8))

/-- The slot that holds a key. -/
def findIn (m : Memory) (slots : List Nat) (key : Nat) : Option Nat := slots.find? (fun a => m.num a 8 == key)

/-- A key and its value written to the first empty or tombstone slot, when there is one. -/
def placeIn (m : Memory) (slots : List Nat) (key v : Nat) : Option Memory :=
  (slots.find? (fun a => decide (2 ^ 64 - 2 ≤ m.num a 8))).map (fun a => m.puts (cellsAt a (toBytes 8 key ++ toBytes 8 v)))

/-- One application of hacc's operation (R249). -/
def accumulate (op : HaccOp) (x y : Nat) : Nat × Flags :=
  match op with
  | .add => ((x + y) % 2 ^ 64, 0)
  | .max => (bitsFor 64 (max (asInt true 64 x) (asInt true 64 y)), 0)
  | .min => (bitsFor 64 (min (asInt true 64 x) (asInt true 64 y)), 0)
  | .fadd => finish .f64 .rne (addX .rne (FFmt.f64.decode x) (FFmt.f64.decode y))

/-- The value that hacc places for an absent key: a fold over one value delivers a NaN as the canonical one (R53, R249). -/
def placedValue (op : HaccOp) (x : Nat) : Nat × Flags :=
  match op, FFmt.f64.decode x with
  | .fadd, .nan sig => (0x7FF8000000000000, if sig then fNV else 0)
  | _, _ => (x, 0)

/-- What one key's elements `is`, ascending, do to the memory (R249): the memory, whether the key was there, its value and the
flags; `none` when there is no room. -/
def keyStep (i : Instr) (c : VCtx) (s : State) (slots : List Nat) (m : Memory) (key : Nat) (is : List Nat) :
    Option (Memory × Bool × Nat × Flags) :=
  match i, findIn m slots key with
  | .hins _ _ b _, none => (placeIn m slots key (c.ev s b.toNat 64 (is.headD 0))).map (fun m => (m, false, 0, 0))
  | .hins _ _ _ _, some _ => some (m, true, 0, 0)
  | .hprb _ _ _ _, r => some (m, r.isSome, (r.map (fun a => m.num (a + 8) 8)).getD 0, 0)
  | .hdel _ _ _, none => some (m, false, 0, 0)
  | .hdel _ _ _, some a => some (m.puts (cellsAt a (toBytes 8 (2 ^ 64 - 2) ++ toBytes 8 0)), true, 0, 0)
  | .hacc _ _ b _ op, r =>
    let vs := is.map (c.ev s b.toNat 64)
    let fold := (vs.drop 1).foldl (fun t v => ((accumulate op t.1 v).1, t.2 ||| (accumulate op t.1 v).2)) (vs.headD 0, (0 : Flags))
    (match r with
     | none =>
       let q := placedValue op fold.1
       (placeIn m slots key q.1).map (fun m => (m, false, 0, fold.2 ||| q.2))
     | some a =>
       let q := accumulate op (m.num (a + 8) 8) fold.1
       some (m.puts (cellsAt (a + 8) (toBytes 8 q.1)), true, 0, fold.2 ||| q.2))
  | _, _ => none

/-- The keys' steps one after another: the memory, the outcome by key, and the flags. -/
def keysRun (f : Memory → Nat → Option (Memory × Bool × Nat × Flags)) :
    List Nat → Memory × List (Nat × Bool × Nat) × Flags → Option (Memory × List (Nat × Bool × Nat) × Flags)
  | [], r => some r
  | key :: rest, (m, outs, fl) =>
    match f m key with
    | none => none
    | some (m', b, v, fl') => keysRun f rest (m', outs ++ [(key, b, v)], fl ||| fl')

/-- A hash instruction over keys: its key register and what it writes: an m register's bits, and v[d] for hprb (R249). -/
def hashWrites (i : Instr) (c : VCtx) (s : State) (outs : List (Nat × Bool × Nat)) : Option (Reg × Writes) :=
  let out (a : Reg) (k : Nat) : Bool × Nat := ((outs.find? (fun o => o.1 == c.ev s a.toNat 64 k)).map Prod.snd).getD (false, 0)
  let repeated (a : Reg) (k : Nat) : Bool := c.actives.any (fun j => decide (j < k) && c.ev s a.toNat 64 j == c.ev s a.toNat 64 k)
  match i with
  | .hins d a _ _ => some (a, { m := newM c s d.toNat (fun k => (out a k).1 || repeated a k) })
  | .hprb d a b _ => some (a, { v := newV c s d.toNat 1 64 (fun _ => r95 c (fun k => (out a k).2)), m := newM c s b.toNat (fun k => (out a k).1) })
  | .hdel d a _ => some (a, { m := newM c s d.toNat (fun k => (out a k).1) })
  | .hacc d a _ _ _ => some (a, { m := newM c s d.toNat (fun k => (out a k).1) })
  | _ => none

/-- The live slots of a table from slot number `start` on (R252). -/
def liveFrom (m : Memory) (base b start : Nat) : List Nat :=
  (List.range (8 * 2 ^ b)).filter (fun n => decide (start ≤ n) && decide (m.num (base + 16 * n) 8 < 2 ^ 64 - 2))

/-- SHTCUR after a read-out in phase 0 that began at slot number `start` and delivered `out` (R111, R252). -/
def cursorAfter (cur : BitVec 52) (b start : Nat) (out : List Nat) (ended : Bool) : BitVec 52 :=
  let past := match out.getLast? with
    | some n => if n + 1 = 8 * 2 ^ b then 2 ^ 16 else n + 1
    | none => start
  BitVec.ofNat 52 (past / 2 ^ 16 * 2 ^ 16 + past % 2 ^ 16 / 8 + past % 8 * 2 ^ 13 + (if ended then 2 ^ 17 else 0) +
    cur.toNat / 2 ^ 20 * 2 ^ 20)

/-! ## Tents (R211–R215, R253–R257) -/

/-- A pointer names tile k of tent j, `t`, of the launch of p's hart (R211, R253). -/
def TileHere (s : State) (p : Nat) (a : Word) (j : Nat) (t : Tent) (k : Nat) : Prop :=
  a.toNat / 2 ^ 60 = 3 ∧ a.toNat % 2 ^ 60 < 2 ^ 57 ∧
  tentAt (tentsOf s (some (s.hart p).launch)) (a.toNat % 2 ^ 60) = some (j, t) ∧ k = (a.toNat % 2 ^ 60 - t.base) / t.size

/-- A frame pushed onto its pool, or lost where TOP is not below CAP or the header's resv bytes are not zero (R254, R312; the
latter is the model's reading, log 59). -/
def pooled (t : Tent) (m : Memory) (frame : Nat) : Memory :=
  let top := m.num t.topKey 8
  if t.cap ≤ top ∨ m.num (t.topKey + 8) 56 ≠ 0 then m
  else (m.puts (cellsAt (t.slotKey top) (toBytes 8 frame))).puts (cellsAt t.topKey (toBytes 8 (top + 1)))

/-- A site-map entry written (R212). -/
def entered (t : Tent) (m : Memory) (k w : Nat) : Memory := m.puts (cellsAt (t.entryKey k) (toBytes 8 w))

/-- The frame of a site-map entry, and its GEN after one more change. -/
def frameIn (w : Nat) : Nat := w / 2 ^ 12 % 2 ^ 40 * 2 ^ 12
def nextGen (w : Nat) : Nat := (w % 2 ^ 12 + 1) % 2 ^ 12

/-- R215, R253: a tile struck. -/
def struck (t : Tent) (m : Memory) (k : Nat) : Memory :=
  let w := m.num (t.entryKey k) 8
  if w.testBit 63 then entered t (pooled t m (frameIn w)) k (nextGen w) else m

/-- R257: what tremap makes of two tiles, whose entries were `ea` and `eb`. -/
def remappedTiles (t : Tent) (m : Memory) (a b ea eb : Nat) : Memory :=
  if a = b ∨ (ea.testBit 63 = false ∧ eb.testBit 63 = false) then m
  else
    let m := if ea.testBit 63 then pooled t m (frameIn ea) else m
    if eb.testBit 63 then
      entered t (entered t m a (2 ^ 63 + eb / 2 ^ 59 % 16 * 2 ^ 59 + frameIn eb + nextGen ea)) b (nextGen eb)
    else entered t m a (nextGen ea)

/-- A hart's earlier accesses to the device's own memory performed at package scope (R253, R257, R336): its stores to a peer or the
host need not be. That they are performed then, and not merely ordered, is the model's choice (log 2). -/
def released (s : State) (p : Nat) : State := (s.drainL (.user p)).drainQueues p

/-- A hart with the waiting scalar stores that it has in `s1`. -/
def storesOf (s1 : State) (p : Nat) (h : Hart) : Hart := { h with sbuf := (s1.hart p).sbuf }

/-! ## Pennant taps (R98, R110, R259–R262, R313) -/

/-- Accumulator [r][q] of pa[d] (R98). -/
def accum (h : Hart) (d r q : Nat) : Nat := (vget 0 h.pa d).toNat / 2 ^ (32 * (16 * r + q)) % 2 ^ 32

/-- The accumulators of a hart after a tap instruction: `f` gives the new value of [r][q] of pa[d], or none. -/
def Accums (h h' : Hart) (d : Nat) (f : Nat → Nat → Option Nat) : Prop :=
  ∀ x r q, x < 2 → r < 8 → q < 16 → accum h' x r q =
    if x = d then (match f r q with
      | some v => v % 2 ^ 32
      | none => accum h x r q) else accum h x r q

/-- The limits of R260 on VTYPE, the register group, the column and VL. -/
structure TapFits (c : VCtx) (t : Tap) (a col : Nat) : Prop where
  fmt : (c.fmt = 2 ∧ (c.sew = 16 ∨ c.sew = 32)) ∨ c.fmt = 3
  group : a + c.rows ≤ 32
  col : col % 32 = 0 ∧ (c.vl % 32 = 0 ∨ col + c.vl = t.d) ∧ col + c.vl ≤ t.d

/-- A sum rounded to FP32 crosses a threshold (R261). -/
def Crosses (e : Probe) (x : Nat) : Bool :=
  let a := FFmt.f32.decode x
  let b := FFmt.f32.decode e.threshold
  !a.isNan && !b.isNan && (if e.below then cmpX a b == -1 else cmpX b a == -1)

/-- The crossings of tap.fin: row, probe number and probe, in order (R261). -/
def crossings (c : VCtx) (h : Hart) (d : Nat) (ps : List Probe) : List (Nat × Nat × Probe) :=
  (((List.range c.rows).filter c.pred).flatMap (fun r => ps.zipIdx.map (fun e => (r, e.2, e.1)))).filter (fun x =>
    Crosses x.2.2 (scoreOf (accum h d x.1 x.2.1) x.2.2.bias))

/-- Rows in bits 23:16 and probes in bits 15:0 (R110, R347). -/
def crossWord (xs : List (Nat × Nat × Probe)) : Nat :=
  xs.foldl (fun w x => w ||| 2 ^ (16 + x.1)) 0 ||| xs.foldl (fun w x => w ||| 2 ^ x.2.1) 0

/-- PNTSTAT after tap.fin of a tap (R110, R261). -/
def pntAfter (w : BitVec 29) (tap : Nat) (xs : List (Nat × Nat × Probe)) : BitVec 29 :=
  BitVec.ofNat 29 ((w.toNat / 2 ^ 27 * 2 ^ 27 + tap * 2 ^ 24 + w.toNat % 2 ^ 24) ||| crossWord xs ||| (if xs = [] then 0 else 2 ^ 27))

end Sys2Proof.Claims

/-- R247–R252: the hash instructions on a claimed table without an overflow area, after the hart's earlier line accesses (R246):
hcfg claims and empties it, or releases it; hins, hprb, hdel and hacc act on each distinct key once; hdrn reads live entries out
from the cursor on. Where the cursor stands after the last slot is the model's reading (log 35); that all of the hart's waiting line
accesses are performed first, and that the groups of one instruction not pre-empted run in one step, are its choices (log 2, 1). -/
def Obligations.HashInstructions : Prop :=
  (∀ (s : State) (p : Nat) (e : VEntry) (a b : Reg), MemHead s p e →
    let c := vctx s p e (.hcfg a b)
    let n := (s.hart p).launch
    let rest (k : VCore) : List HashTbl := k.hash.filter (fun t => t.launch != n)
    (shtEn e.a = false → ∃ t, exec (.hcfg a b) s = .next t ∧ Filled s t p c {} ∧
      CoreDone s s t p e c s.mem 0 none id (fun k => { k with hash := rest k })) ∧
    (∀ cl, let s1 := s.drainV p
      shtEn e.a = true → e.b = 0 → Word.field e.a 30 1 = 0 → Word.field e.a 22 4 = 0 → 4 ≤ shtB e.a → shtB e.a ≤ 13 →
      shtBase e.a % 128 = 0 → (s.vcore c.core).claims.find? (fun c => c.launch == n) = some cl →
      cl.size - cl.hash ≤ shtBase e.a → shtBase e.a + 128 * 2 ^ shtB e.a ≤ cl.size →
      ∃ t, exec (.hcfg a b) s = .next t ∧ Filled s t p c {} ∧
        CoreDone s s1 t p e c (s1.mem.puts (cellsAt (spmKey c.core (cl.start + shtBase e.a))
            ((List.range (8 * 2 ^ shtB e.a)).flatMap (fun _ => toBytes 8 (2 ^ 64 - 1) ++ toBytes 8 0)))) 0 none
          (fun h => { h with shtcur := 0 }) (fun k => { k with hash := rest k ++ [⟨n, e.a, 0, 0, 0⟩] }))) ∧
  (∀ (i : Instr) (s : State) (p : Nat) (e : VEntry) (t0 : HashTbl) (base : Nat) (a : Reg) (w : Writes) (m : Memory)
      (outs : List (Nat × Bool × Nat)) (fl : Flags), MemHead s p e → TableAt s p t0 base →
    let c := vctx s p e i
    let s1 := s.drainV p
    hashWrites i c s outs = some (a, w) → c.sew = 64 → e.pfx = none → (∀ k ∈ c.actives, c.ev s a.toNat 64 k < 2 ^ 64 - 2) →
    keysRun (fun m key => keyStep i c s (hashSlots t0.cfg base key) m key
        (c.actives.filter (fun k => c.ev s a.toNat 64 k == key)))
      (c.actives.map (c.ev s a.toNat 64)).eraseDups (s1.mem, [], 0) = some (m, outs, fl) →
    ∃ t, exec i s = .next t ∧ MDone s s1 t p e c m fl none id ∧ Filled s t p c w) ∧
  (∀ (s : State) (p : Nat) (e : VEntry) (t0 : HashTbl) (base : Nat) (d a : Reg), AtHead s p e → Awaits s p e → TableAt s p t0 base →
    let c := vctx s p e (.hdrn d a)
    let s1 := s.drainV p
    let cur := (s.hart p).shtcur
    c.sew = 64 → d.toNat ≤ 30 → e.pfx = none →
    (cur.getLsbD 17 = true → ∃ t, exec (.hdrn d a) s = .next t ∧ MDone s s1 t p e c s1.mem 0 (some 0) id ∧
      ∃ w : Writes, Filled s t p c w ∧ (∀ r, w.v r = if r = d.toNat ∨ r = d.toNat + 1 then some (64, c.ev s r 64) else none) ∧
        w.m = (fun _ => none) ∧ w.t = fun _ => none) ∧
    (cur.getLsbD 17 = false → cur.getLsbD 16 = false →
      let start := 8 * (cur.toNat % 2 ^ 13) + cur.toNat / 2 ^ 13 % 8
      let live := liveFrom s1.mem base (shtB t0.cfg) start
      let out := live.take c.vl
      ∃ t, exec (.hdrn d a) s = .next t ∧
        Filled s t p c { v := fun r =>
          if r = d.toNat then some (64, fun k => ((out[k]?).map (fun n => s1.mem.num (base + 16 * n) 8)).getD (c.ev s r 64 k))
          else if r = d.toNat + 1 then some (64, fun k => ((out[k]?).map (fun n => s1.mem.num (base + 16 * n + 8) 8)).getD (c.ev s r 64 k))
          else none } ∧
        MDone s s1 t p e c s1.mem 0 (some (BitVec.ofNat 64 out.length)) (fun h => { h with
          shtcur := cursorAfter cur (shtB t0.cfg) start out (decide (live.length ≤ c.vl)) })))

/-- R253, R255–R257: strike, lde, tsite, ttag and tremap, for a hart without a load that is still to be performed. That a release
performs the hart's waiting stores to the device's own memory, and that all of those, not only the ones to the tile, come before tsite
and ttag, is the model's choice (log 2). tremap's two writes are those of a hart that performs both at one moment. -/
def Obligations.TentInstructions : Prop :=
  (∀ (s : State) (p : Nat) (e : VEntry) (a b : Reg) (j : Nat) (tt : Tent) (k : Nat), MemHead s p e → (s.hart p).late = [] → TileHere s p e.a j tt k →
    (tentsOf s (some (s.hart p).launch))[j]? = some tt →
    let c := vctx s p e (.strike a b)
    let n := e.b.toNat
    let s1 := released s p
    (k + n ≤ tt.tiles → (s.hart p).region = none → s.badSectors = [] → s.lostSectors = [] → ∃ t, exec (.strike a b) s = .next t ∧ Filled s t p c {} ∧
      MDone s s1 t p e c ((List.range n).foldl (fun m i => struck tt m (k + i)) s1.mem) 0 none (storesOf s1 p)) ∧
    (∀ g, k + n ≤ tt.tiles → (s.hart p).region = some g → (s.vcore c.core).deferred.length + n ≤ 1024 →
      ∃ t, exec (.strike a b) s = .next t ∧ Filled s t p c {} ∧ CoreDone s s1 t p e c s1.mem 0 none (storesOf s1 p) (fun v => { v with
        deferred := v.deferred ++ (List.range n).map (fun i => Deferred.strike g (s.hart p).launch j (k + i)) })) ∧
    (tt.tiles < k + n → exec (.strike a b) s = .next ((endStop s p).takeTrap p (c.cause s causeStraddle 1 e.a)))) ∧
  (∀ (s : State) (p : Nat) (e : VEntry) (d a : Reg) (j : Nat) (tt : Tent) (k w : Nat), AtHead s p e → Awaits s p e →
    (s.hart p).late = [] → TileHere s p e.a j tt k →
    let c := vctx s p e (.tsite d a)
    let s1 := released s p
    devRead s1 (tt.entryKey k) 8 = some w →
    ∃ t, exec (.tsite d a) s = .next t ∧ Filled s t p c {} ∧
      MDone s s1 t p e c s1.mem 0 (some (BitVec.ofNat 64 w)) (storesOf s1 p)) ∧
  (∀ (s : State) (p : Nat) (e : VEntry) (a b : Reg) (j : Nat) (tt : Tent) (k w : Nat), MemHead s p e → e.b.toNat < 7 →
    (s.hart p).late = [] → TileHere s p e.a j tt k →
    let c := vctx s p e (.ttag a b)
    let s1 := released s p
    devRead s1 (tt.entryKey k) 8 = some w →
    ∃ t, exec (.ttag a b) s = .next t ∧ Filled s t p c {} ∧
      MDone s s1 t p e c (if w.testBit 63 then entered tt s1.mem k (2 ^ 63 + e.b.toNat * 2 ^ 59 + w % 2 ^ 59) else s1.mem) 0 none
        (storesOf s1 p)) ∧
  (∀ (s : State) (p : Nat) (e : VEntry) (d a b : Reg) (j : Nat) (tt : Tent) (ka kb : Nat), AtHead s p e → Awaits s p e →
    (s.hart p).region = none → (s.hart p).late = [] → TileHere s p e.a j tt ka → TileHere s p e.b j tt kb → (tentsOf s (some (s.hart p).launch))[j]? = some tt →
    s.badSectors = [] → s.lostSectors = [] →
    let c := vctx s p e (.tremap d a b)
    let s1 := released s p
    let ea := s1.mem.num (tt.entryKey ka) 8
    let eb := s1.mem.num (tt.entryKey kb) 8
    ∃ t, exec (.tremap d a b) s = .next t ∧ Filled s t p c {} ∧
      MDone s s1 t p e c (remappedTiles tt s1.mem ka kb ea eb) 0 (some (BitVec.ofNat 64 ea)) (storesOf s1 p)) ∧
  (∀ (s : State) (p : Nat) (e : VEntry) (d a : Reg) (b : MReg) (mk : Bool) (pl : Nat → Place), MemHead s p e →
    let c := vctx s p e (.lde d a b mk)
    let addr (k : Nat) : Int := (e.a.toNat : Int) + (k * c.sew / 8 : Nat)
    let s1 := earlier s p (c.actives.map addr)
    8 ≤ c.sew → e.pfx = none → e.a.toNat / 2 ^ 60 = 3 →
    (∀ k ∈ c.actives, accPlace s1 (s1.actx (.vec p)) .load .natural 3 (addr k) (c.sew / 8) = .ok (pl k)) →
    ∃ t, exec (.lde d a b mk) s = .next t ∧ MDone s s1 t p e c s1.mem 0 none id ∧
      Filled s t p c
        { v := newV c s d.toNat 1 c.sew (fun _ => r95 c (fun k => ofBytes (placeBytes s1 (dieOf c.core) (pl k) (c.sew / 8))))
          m := newM c s b.toNat (fun k => match pl k with
            | .absent _ _ _ _ _ => false
            | .at_ _ _ => true) }) ∧
  (∀ (s : State) (p : Nat) (e : VEntry) (d a : Reg) (b : MReg) (mk : Bool) (f : EFail) (fs : List EFail), MemHead s p e →
    let c := vctx s p e (.lde d a b mk)
    let addr (k : Nat) : Int := (e.a.toNat : Int) + (k * c.sew / 8 : Nat)
    8 ≤ c.sew → e.pfx = none → e.a.toNat / 2 ^ 60 ≠ 3 → (c.sew / 8) ∣ e.a.toNat →
    (∀ k ∈ c.actives, canonical (e.a.toNat / 2 ^ 60) (addr k) = true) →
    c.actives.map (fun k => (⟨k, causeAccess, 0, BitVec.ofInt 64 (addr k)⟩ : EFail)) = f :: fs →
    ∃ u, exec (.lde d a b mk) s = .next ((endStop u p).takeTrap p (c.cause s f.code f.detail f.tval)) ∧
      u.mem = (earlier s p (c.actives.map addr)).mem ∧ othersServed s u p ∧
      sameButGrants (awaitsReplay (f :: fs) f { s.hart p with
        vdirty := (u.hart p).vdirty, ssq := (u.hart p).ssq, early := (u.hart p).early }) (u.hart p) ∧
      Counted (s.hart p) (u.hart p) 0x40 (fs.length + 1) ∧
      Filled s u p c
        { v := newV c s d.toNat 1 c.sew (fun _ k => (r95 c (fun _ => 0) k).bind (fun x => if c.actives.contains k then none else some x))
          m := newM c s b.toNat (fun k => c.em s b.toNat k) })

/-- R259–R262: the pennant taps: one that is not enabled does nothing; tap.dot adds dot products to accumulators, tap.fin adds the
biases, records the crossings and raises PENNANT or withholds, and tap.steer adds steering vectors to the rows that ask for it.
That a tap's table reads come after all of the hart's waiting line accesses (log 2), that tap.fin sets no FFLAGS (log 34), and to
which harts' WITHHELD it adds (log 41) are the model's choices. -/
def Obligations.TapInstructions : Prop :=
  (∀ (i : Instr) (s : State) (p : Nat) (e : VEntry) (n : BitVec 3),
    (∃ d a b mk, i = .tapDot d a b mk n) ∨ (∃ d mk, i = .tapFin d mk n) ∨ (∃ d a b mk, i = .tapSteer d a b mk n) → MemHead s p e →
    let c := vctx s p e i
    let s1 := s.drainV p
    c.tapHead s1 n.toNat = .ok none →
    ∃ t, exec i s = .next t ∧ Filled s t p c {} ∧ MDone s s1 t p e c s1.mem 0 none id) ∧
  (∀ (s : State) (p : Nat) (e : VEntry) (d : PaReg) (a b : Reg) (mk : Bool) (n : BitVec 3) (tap : Tap) (ps : List Probe)
      (ws : Nat → List Nat), MemHead s p e →
    let c := vctx s p e (.tapDot d a b mk n)
    let s1 := s.drainV p
    let col := e.b.toNat
    c.tapHead s1 n.toNat = .ok (some tap) → c.probes s1 tap = .ok ps → TapFits c tap a.toNat col →
    (∀ q, q < tap.n → c.tapVec s1 tap tap.probes q col c.vl = .ok (ws q)) →
    ∃ t, exec (.tapDot d a b mk n) s = .next t ∧ InRegs s t c {} ∧
      (∀ k, k < 50 → (t.hart p).vdirty.getLsbD k = ((s.hart p).vdirty.getLsbD k || k == 48 + d.toNat)) ∧
      MDone s s1 t p e c s1.mem 0 none (fun h => { h with pa := (t.hart p).pa }) ∧
      Accums (s.hart p) (t.hart p) d.toNat (fun r q => if r < c.rows ∧ q < tap.n then
        some ((List.range ((c.vl + 31) / 32)).foldl (fun acc k => (blockAcc acc ((c.actives.filter (fun x => x / 32 == k)).map (fun x =>
            (c.ffmt.decode (c.ev s (a.toNat + r) c.sew x), FFmt.bf16.decode ((ws q).getD x 0))))).1)
          (if col = 0 then 0 else accum (s.hart p) d.toNat r q)) else none)) ∧
  (∀ (s : State) (p : Nat) (e : VEntry) (d : PaReg) (mk : Bool) (n : BitVec 3) (tap : Tap) (ps : List Probe), MemHead s p e →
    let c := vctx s p e (.tapFin d mk n)
    let s1 := s.drainV p
    c.tapHead s1 n.toNat = .ok (some tap) → c.probes s1 tap = .ok ps →
    let xs := crossings c (s.hart p) d.toNat ps
    let trapped := xs.filter (fun x => x.2.2.trap)
    let word := n.toNat * 2 ^ 24 + crossWord trapped
    let dirtied (t : State) : Prop := ∀ k, k < 50 → (t.hart p).vdirty.getLsbD k = ((s.hart p).vdirty.getLsbD k || k == 48 + d.toNat)
    let scored (t : State) : Prop := Accums (s.hart p) (t.hart p) d.toNat (fun r q => if r < c.rows ∧ c.pred r = true then
      (ps[q]?).map (fun pr => scoreOf (accum (s.hart p) d.toNat r q) pr.bias) else none)
    ((s.hart p).region = none → ∃ u, dirtied u ∧ scored u ∧ InRegs s u c {} ∧
      MDone s s1 u p e c s1.mem 0 none (fun h => { h with pa := (u.hart p).pa, pntstat := pntAfter h.pntstat n.toNat xs }) ∧
      (trapped = [] → exec (.tapFin d mk n) s = .next u) ∧
      (trapped ≠ [] → exec (.tapFin d mk n) s = .next
        ((endStop { u with agent := .vec p } p).takeTrap p (c.cause s causePennant 0 (BitVec.ofNat 64 word))))) ∧
    (∀ g, (s.hart p).region = some g → ∃ t, exec (.tapFin d mk n) s = .next t ∧ dirtied t ∧ scored t ∧ InRegs s t c {} ∧
      (t.hart p).pntstat = (if trapped = [] then pntAfter (s.hart p).pntstat n.toNat xs
        else pntAfter (s.hart p).pntstat n.toNat xs ||| (1#29 <<< 28)) ∧
      (∀ q, (t.hart q).withheld = (s.hart q).withheld ||| (if q ∈ s.regionHarts c.core g then
        BitVec.ofNat 8 ((xs.filter (fun x => x.2.2.withhold)).foldl (fun w x => w ||| 2 ^ (((s.hart p).seq.toNat + x.1) % 8)) 0)
        else 0)) ∧
      (∀ q, q ≠ p → sameButGrants { s.hart q with withheld := (t.hart q).withheld } (t.hart q)) ∧
      (t.vcore c.core).regions.map (fun x => (x.opener, x.pennant)) = (s.vcore c.core).regions.map (fun x =>
        (x.opener, if x.opener = g ∧ trapped ≠ [] then x.pennant ||| BitVec.ofNat 27 word else x.pennant)) ∧
      t.mem = s1.mem ∧ (t.hart p).viq = (s.hart p).viq.drop 1 ∧ (t.hart p).thr = (s.hart p).thr)) ∧
  (∀ (s : State) (p : Nat) (e : VEntry) (d : Reg) (a : PaReg) (b : Reg) (mk : Bool) (n : BitVec 3) (tap : Tap) (ps : List Probe)
      (row : Nat → Nat × Bool) (vs : Nat → List Nat), MemHead s p e → e.pfx = none →
    let c := vctx s p e (.tapSteer d a b mk n)
    let s1 := s.drainV p
    let col := e.b.toNat
    c.tapHead s1 n.toNat = .ok (some tap) → c.probes s1 tap = .ok ps → TapFits c tap d.toNat col →
    (∀ r, r < c.rows → c.steerRow s1 tap r = .ok (row r) ∧ c.tapVec s1 tap tap.steers r col c.vl = .ok (vs r)) →
    let on (r : Nat) : Bool := (row r).2 || ps.zipIdx.any (fun x => x.1.steer && Crosses x.1 (accum (s.hart p) a.toNat r x.2))
    let g (r x : Nat) : Nat × Flags := finish c.ffmt .rne (fmaX .rne false false (FFmt.f32.decode (row r).1)
      (FFmt.bf16.decode ((vs r).getD x 0)) (c.ffmt.decode (c.ev s (d.toNat + r) c.sew x)))
    ∃ t, exec (.tapSteer d a b mk n) s = .next t ∧
      MDone s s1 t p e c s1.mem (rowFlags c c.rows (fun r x => if on r then (g r x).2 else 0)) none id ∧
      Filled s t p c { v := newV c s d.toNat c.rows c.sew (fun r => if on r then r95 c (fun x => (g r x).1) else fun _ => none) })

namespace Sys2Proof.Claims

/-! ## Tokens, the Matrix Array's FIFOs, streams, copies (R269–R273, R281–R301) -/

/-- The suffixes of a class 0xD word can act at once: the cluster's MCC belongs to the hart's launch, a .pop finds a token and a
.push has room (R269, R270, R282, R283). -/
structure TokensAt (s : State) (p : Nat) (push pop : Bool) : Prop where
  owner : push = true ∨ pop = true → (s.cluster (coreOf p / 4)).holder = some (s.hart p).launch
  pop : pop = true → (s.hart p).tokIn ≠ 0
  push : push = true → (s.hart p).tokOut < 16
  stage : (s.hart p).stage = .start

/-- The tokens of a hart after a word with these suffixes. -/
def tokensAfter (push pop : Bool) (h : Hart) : Hart :=
  { h with tokIn := if pop then h.tokIn - 1 else h.tokIn, tokOut := if push then h.tokOut + 1 else h.tokOut }

/-- Only cluster k has changed, by `f`. -/
def ClusterDone (s t : State) (k : Nat) (f : Cluster → Cluster) : Prop :=
  ∀ j, t.cluster j = if j = k then f (s.cluster k) else s.cluster j

/-- R290: the FIFO row of v[r]: active element i at bit i·SEW, every other bit zero. -/
def feedRowOf (c : VCtx) (s : State) (r : Nat) : BitVec 2048 :=
  BitVec.ofNat 2048 ((c.actives.map (fun i => c.ev s r c.sew i * 2 ^ (i * c.sew))).sum)

/-- VTYPE suits mfeed (R290), mpull (R291). -/
def FeedFits (c : VCtx) : Prop :=
  ((c.fmt = 3 ∧ c.sew = 16) ∨ (c.fmt = 4 ∧ c.sew = 8) ∨ (c.fmt = 5 ∧ c.sew = 8) ∨ (c.fmt = 6 ∧ c.sew = 4) ∨ (c.fmt = 0 ∧ c.sew = 4)) ∧
  c.vl * c.sew ≤ 2048
def PullFits (c : VCtx) : Prop :=
  ((c.fmt = 2 ∧ (c.sew = 32 ∨ c.sew = 16)) ∨ (c.fmt = 3 ∧ c.sew = 16)) ∧ c.vl ≤ 128

/-- An element of a drained row in VTYPE's format (R291). -/
def pulledAs (c : VCtx) (row : BitVec 4096) (i : Nat) : Nat × Flags :=
  let x := row.toNat / 2 ^ (32 * i) % 2 ^ 32
  if c.sew = 32 then (x, 0) else roundTo c.ffmt .rne false (FFmt.f32.decode x)

/-- The address of element j of a stream of w-bit elements (R300). -/
def streamAddress (t : Stream) (w j : Nat) : Int :=
  if t.stride = 0 then (t.base.toNat : Int) + (j * w / 8 : Nat) else (t.base.toNat : Int) + (j : Int) * t.stride.toInt

/-- xcopy or xred (R294): the parameter block's register and the suffixes. -/
def copyWord (i : Instr) : Option (Reg × Bool × Bool × Bool) :=
  match i with
  | .xcopy a push pop => some (a, push, pop, false)
  | .xred a push pop => some (a, push, pop, true)
  | _ => none

/-! ## The Matrix Control Core (R281–R289) -/

/-- An MXA command of an MCC's word (R287–R289): its partner register, suffixes, and the command with the scratchpad bytes that it
names, when its operands are accepted. -/
def mxaWord (i : Instr) (s : State) (c : Nat) : Option (Reg × Bool × Bool × Bool × MxaOp × List (Nat × Nat)) :=
  let placed (k : AKind) (ptr : Word) (n : Nat) : Option Nat :=
    if ptr.toNat / 2 ^ 60 = 2 ∧ ptr.toNat % 64 = 0 then (match checkPtr s (s.actx (.mcc c)) k .none ptr n with
      | .ok (.at_ key _) => some key
      | _ => none) else none
  match i with
  | .mlds d a push pop late f =>
    let n := if f = .mxfp4 ∨ f = .kfp4 then 36864 else 32768
    (placed .load (s.rx a) n).map (fun key => (d, push, pop, late, .lds (s.rx a) f, [(key, n)]))
  | .mswap d push pop late => some (d, push, pop, late, .swap, [])
  | .mmac d a b push pop late op =>
    let w := (s.rx a).toNat
    let rows := w % 2 ^ 8
    if w / 2 ^ 21 = 0 ∧ rows ≠ 0 ∧ w / 2 ^ 8 % 2 ^ 8 + rows ≤ 128 ∧ (op = .acc → w / 2 ^ 18 % 8 ≤ 4) then
      if op = .dspm then
        (placed .store (s.rx b) (512 * rows)).map (fun key => (d, push, pop, late, .mac op (s.rx a) (s.rx b), [(key, 512 * rows)]))
      else some (d, push, pop, late, .mac op (s.rx a) 0, [])
    else none
  | _ => none

/-- The partner of an MCC's word is hart q, with a token to take and room for one where the suffixes ask for it (R285); with no
suffix that acts at once the partner does not matter. -/
def PartnerReady (s : State) (c i q : Nat) (push pop late : Bool) : Prop :=
  (pop = true ∨ (push = true ∧ late = false) → partnerOf s c i = .hart q) ∧ (pop = true → (s.hart q).tokOut ≠ 0) ∧
  (push = true ∧ late = false → (s.hart q).tokIn < 16) ∧ (s.cluster c).popped = false

/-- An MCC's word has retired: its cluster has changed by `kf`, hart q's tokens by `hf`. -/
structure MccDone (s t : State) (c q : Nat) (kf : Cluster → Cluster) (hf : Hart → Hart) : Prop where
  cluster : ClusterDone s t c (fun k => { kf k with mcc := { k.mcc with pc := k.mcc.pc + 4 } })
  harts : ∀ j, t.hart j = if j = q then hf (s.hart q) else s.hart j
  outside : t = { s with clusters := t.clusters, harts := t.harts, nextCmd := t.nextCmd }

end Sys2Proof.Claims

/-- R269, R290–R295, R300, R301, R286: the engine words of a hart: feeding and pulling Matrix Array rows, outer products, copy
commands, streams and tokens, with their .push and .pop. A stream element whose fetch has failed faults when a vld.s consumes it, and
keeps what the fetch took (R301). That another hart's part-entered mfeed comes first follows from R272's order of the rows; that a
hart's waiting line accesses in the slices that a read passes through are performed first is the model's choice (log 2). -/
def Obligations.EngineInstructions : Prop :=
  (∀ (s : State) (p : Nat) (e : VEntry) (a : Reg) (push pop mk : Bool), MemHead s p e → TokensAt s p push pop →
    let c := vctx s p e (.mfeed a push pop mk)
    FeedFits c → (s.cluster (c.core / 4)).holder = some (s.hart p).launch → a.toNat + c.rows ≤ 32 →
    feeding s p = false → (s.cluster (c.core / 4)).feed.length + c.rows ≤ 64 →
    ∃ t, exec (.mfeed a push pop mk) s = .next t ∧ Filled s t p c {} ∧
      MDone { s with clusters := t.clusters } s t p e c s.mem 0 none (tokensAfter push pop) ∧
      ClusterDone s t (c.core / 4) (fun k => { k with feed := k.feed ++ (List.range c.rows).map (fun j => feedRowOf c s (a.toNat + j)) })) ∧
  (∀ (s : State) (p : Nat) (e : VEntry) (d : Reg) (push pop mk : Bool), MemHead s p e → TokensAt s p push pop →
    let c := vctx s p e (.mpull d push pop mk)
    let k := s.cluster (c.core / 4)
    PullFits c → k.holder = some (s.hart p).launch → Fits c d.toNat c.rows → c.rows ≤ k.drain.length →
    ∃ t, exec (.mpull d push pop mk) s = .next t ∧
      MDone { s with clusters := t.clusters } s t p e c s.mem (rowFlags c c.rows (fun j i => (pulledAs c (k.drain.getD j 0) i).2)) none
        (tokensAfter push pop) ∧
      ClusterDone s t (c.core / 4) (fun k => { k with drain := k.drain.drop c.rows }) ∧
      Filled s t p c { v := newV c s d.toNat c.rows c.sew (fun j => r95 c (fun i => (pulledAs c (k.drain.getD j 0) i).1)) }) ∧
  (∀ (s : State) (p : Nat) (e : VEntry) (d a b : Reg) (push pop mk : Bool) (n1 : BitVec 3), MemHead s p e → TokensAt s p push pop →
    let c := vctx s p e (.vopacc d a b push pop mk n1)
    let n := n1.toNat + 1
    let g (r i : Nat) : Nat × Flags := finish c.ffmt .rne (fmaX .rne false false (c.ffmt.decode (c.ev s a.toNat c.sew i))
      (c.ffmt.decode (c.ev s b.toNat c.sew r)) (c.ffmt.decode (c.ev s (d.toNat + r) c.sew i)))
    (c.fmt = 2 ∨ c.fmt = 3) → n ≤ c.vl → Fits c d.toNat n → ¬(d ≤ a ∧ a.toNat < d.toNat + n) → ¬(d ≤ b ∧ b.toNat < d.toNat + n) →
    ∃ t, exec (.vopacc d a b push pop mk n1) s = .next t ∧
      MDone s s t p e c s.mem (rowFlags c n (fun r i => (g r i).2)) none (tokensAfter push pop) ∧
      Filled s t p c { v := newV c s d.toNat n c.sew (fun r => r95 c (fun i => (g r i).1)) }) ∧
  (∀ (i : Instr) (s : State) (p : Nat) (e : VEntry) (a : Reg) (push pop red : Bool) (pl : Place), copyWord i = some (a, push, pop, red) →
    MemHead s p e → TokensAt s p push pop →
    let c := vctx s p e i
    let s0 := earlier s p [(e.a.toNat : Int)]
    let blk := blkOf (placeBytes s0 (dieOf c.core) pl 128) red
    let s1 := if blk.flags.getLsbD 3 then s0.drainV p else s0
    e.a.toNat % 128 = 0 → e.a.toNat / 2 ^ 60 ≤ 2 →
    accPlace s (s.actx (.vec p)) .load .natural (e.a.toNat / 2 ^ 60) (e.a.toNat : Int) 128 = .ok pl →
    (s.cluster (c.core / 4)).queue.length < 64 →
    ∃ t, exec i s = .next t ∧ Filled s t p c {} ∧ t.nextCmd = s.nextCmd + 1 ∧
      MDone { s with clusters := t.clusters, nextCmd := t.nextCmd } s1 t p e c s1.mem 0 none (tokensAfter push pop) ∧
      ClusterDone s t (c.core / 4) (fun k => { k with queue := k.queue ++ [⟨s.nextCmd, c.core / 4, ⟨p, slotOf p, (s.hart p).launch⟩,
        blkRanges s (s.actx (.vec p)) blk, .copy blk e.a .queued none none⟩] })) ∧
  (∀ (s : State) (p : Nat) (e : VEntry) (d : SlotReg) (a b : Reg) (push pop : Bool) (w : VWidth), MemHead s p e → TokensAt s p push pop →
    let c := vctx s p e (.strcfg d a b push pop w)
    let bits := VWidth.bits w c.sew
    (e.b1 = 0 ∨ 8 ≤ bits) →
    ∃ t, exec (.strcfg d a b push pop w) s = .next t ∧ Filled s t p c {} ∧
      VWidth.bits (vget Stream.none (t.hart p).streams d.toNat).width 64 = bits ∧
      MDone s s t p e c s.mem 0 none (fun h => { tokensAfter push pop h with
        streams := vset h.streams d.toNat { vget Stream.none h.streams d.toNat with
          base := e.a, len := e.b, stride := e.b1, pr := 0, configured := true, strip := [], failed := []
          width := (vget Stream.none (t.hart p).streams d.toNat).width } })) ∧
  (∀ (s : State) (p : Nat) (e : VEntry) (d : Reg) (a : SlotReg) (push pop mk : Bool) (pl : Nat → Place), MemHead s p e → TokensAt s p push pop →
    let c := vctx s p e (.vldS d a push pop mk)
    let st := vget Stream.none (s.hart p).streams a.toNat
    let w := VWidth.bits st.width 64
    let pos := e.pushPos.toNat
    let inside := c.actives.filter (fun i => decide (pos + i < st.len.toNat))
    let kept (i : Nat) : Option (Nat × Nat) := st.strip.find? (fun x => x.1 == pos + i)
    let s1 := earlier s p (inside.map (fun i => streamAddress st w (pos + i)))
    st.configured = true → WidthOk c .unit w → Fits c d.toNat 1 →
    (∀ i ∈ inside, kept i = none → (∀ f ∈ st.failed, f.1 ≠ pos + i) ∧ tagOf st.base ≤ 3 ∧
      accPlace s1 (s1.actx (.vec p)) .load .natural (tagOf st.base) (streamAddress st w (pos + i)) (max 1 (w / 8)) = .ok (pl i)) →
    ∃ t, exec (.vldS d a push pop mk) s = .next t ∧
      MDone s s1 t p e c s1.mem 0 none (fun h => { tokensAfter push pop h with
        streams := vset h.streams a.toNat { vget Stream.none h.streams a.toNat with
          pr := e.pushPos, strip := st.strip.filter (fun x => decide (pos ≤ x.1))
          failed := st.failed.filter (fun x => decide (pos ≤ x.1)) } }) ∧
      Filled s t p c { v := newV c s d.toNat 1 c.sew (fun _ => r95 c (fun i =>
        if st.len.toNat ≤ pos + i then 0 else match kept i with
          | some x => if c.fmt = 0 then bitsFor c.sew (asInt true w x.2) else x.2
          | none => loadedBits c w (pos + i) (placeBytes s1 (dieOf c.core) (pl i) (max 1 (w / 8))))) }) ∧
  (∀ (s : State) (p : Nat) (e : VEntry) (d : Reg) (a : SlotReg) (push pop mk : Bool) (f : EFail) (fs : List EFail),
    MemHead s p e → TokensAt s p push pop →
    let c := vctx s p e (.vldS d a push pop mk)
    let st := vget Stream.none (s.hart p).streams a.toNat
    let w := VWidth.bits st.width 64
    let pos := e.pushPos.toNat
    let inside := c.actives.filter (fun i => decide (pos + i < st.len.toNat))
    let kept (i : Nat) : Option (Nat × Nat) := st.strip.find? (fun x => x.1 == pos + i)
    let missed (i : Nat) : Option (Nat × Nat × Nat) := if (kept i).isSome then none else st.failed.find? (fun x => x.1 == pos + i)
    st.configured = true → WidthOk c .unit w → Fits c d.toNat 1 → (∀ i ∈ inside, (kept i).isSome = true ∨ (missed i).isSome = true) →
    inside.filterMap (fun i => (missed i).map (fun x => (⟨i, x.2.1, x.2.2, BitVec.ofInt 64 (streamAddress st w (pos + i))⟩ : EFail))) =
      f :: fs →
    ∃ u, exec (.vldS d a push pop mk) s = .next ((endStop u p).takeTrap p (c.cause s f.code f.detail f.tval)) ∧
      u.mem = (earlier s p (inside.map (fun i => streamAddress st w (pos + i)))).mem ∧ othersServed s u p ∧
      sameButGrants (awaitsReplay (f :: fs) f { tokensAfter false pop (s.hart p) with
        vdirty := (u.hart p).vdirty, ssq := (u.hart p).ssq, early := (u.hart p).early }) (u.hart p) ∧
      Counted (s.hart p) (u.hart p) 0x40 (fs.length + 1) ∧
      Filled s u p c { v := newV c s d.toNat 1 c.sew (fun _ k => (r95 c (fun i =>
        if st.len.toNat ≤ pos + i then 0 else match kept i with
          | some x => if c.fmt = 0 then bitsFor c.sew (asInt true w x.2) else x.2
          | none => 0) k).bind (fun x => if (f :: fs).any (fun f => f.i == k) then none else some x)) }) ∧
  (∀ (s : State) (p : Nat) (e : VEntry) (d : Reg), MemHead s p e →
    (s.cluster (coreOf p / 4)).holder = some (s.hart p).launch →
    ((s.hart p).tokOut < 16 → ∃ t, exec (.tokpush d) s = .next t ∧ Filled s t p (vctx s p e (.tokpush d)) {} ∧
      MDone s s t p e (vctx s p e (.tokpush d)) s.mem 0 none (tokensAfter true false)) ∧
    ((s.hart p).tokIn ≠ 0 → ∃ t, exec (.tokpop d) s = .next t ∧ Filled s t p (vctx s p e (.tokpop d)) {} ∧
      MDone s s t p e (vctx s p e (.tokpop d)) s.mem 0 none (tokensAfter false true)) ∧
    ((s.hart p).tokIn = 0 → exec (.tokpop d) s = .next { s with agent := s.rotate }))

/-- R285–R289: the words of an MCC: a command that its operands describe enters its cluster's queue and the word retires, with its
.pop taken and its .push made, or its partner noted for a .late push; tokpush and tokpop move one token. That a .late partner is looked for when
the command completes (log 27) and which checks are made when it enters (log 28) are the model's readings. -/
def Obligations.MccInstructions : Prop :=
  (∀ (i : Instr) (s : State) (c q : Nat) (d : Reg) (push pop late : Bool) (op : MxaOp) (ranges : List (Nat × Nat)), s.agent = .mcc c →
    mxaWord i s c = some (d, push, pop, late, op, ranges) → PartnerReady s c (s.rx d).toNat q push pop late →
    (s.cluster c).queue.length < 64 →
    ∃ t, exec i s = .next t ∧ t.nextCmd = s.nextCmd + 1 ∧
      MccDone s t c q
        (fun k => { k with queue := k.queue ++ [⟨s.nextCmd, c, ⟨0xFFFF, c, k.holder.getD 0⟩, ranges,
          .mxa op s.pc (if push ∧ late then some (s.rx d).toNat else none) 0 []⟩] })
        (fun h => { h with
          tokOut := if pop then h.tokOut - 1 else h.tokOut, tokIn := if push ∧ late = false then h.tokIn + 1 else h.tokIn })) ∧
  (∀ (s : State) (c q : Nat) (d : Reg), s.agent = .mcc c → partnerOf s c (s.rx d).toNat = .hart q →
    ((s.hart q).tokIn < 16 → ∃ t, exec (.tokpush d) s = .next t ∧ MccDone s t c q id (fun h => { h with tokIn := h.tokIn + 1 })) ∧
    ((s.hart q).tokOut ≠ 0 → ∃ t, exec (.tokpop d) s = .next t ∧ MccDone s t c q id (fun h => { h with tokOut := h.tokOut - 1 })))

namespace Sys2Proof.Claims

/-! ## The device's own steps (R206–R219, R235, R327, R339–R342, R391) -/

/-- `t` is `s` with its memory changed and with what the memory system remembers, at most. -/
def MemoryOnly (s t : State) : Prop :=
  t = { s with
    mem := t.mem, watches := t.watches, l2 := t.l2, l1 := t.l1, misses := t.misses, peerCopies := t.peerCopies
    badSectors := t.badSectors, lostSectors := t.lostSectors }

/-- Where a waiting store of an agent reaches memory when it is performed: the state, and its key; or its tile's, in the frame that the
tile has by then or with the tile's birth (R214). A birth that fails leaves what it did to the pool (R312), and no key. -/
def reaches (s : State) (a : Agent) (x : Pend) : State × Option Nat :=
  match x.dest with
  | .key k => (s, some k)
  | .tile l n i o => match tileKey s l n i o with
    | some k => (s, some k)
    | none => if s.inRegion a = true ∨ tileAbsent s l n i = false then (s, none)
      else match pitch s (State.coreFor a) none 0 l n i with
        | .ok (u, frame) => (u, some (devKey (frame + o)))
        | .error (_, u) => (u, none)

/-- `t` is `s` after a waiting store of an agent is performed: its bytes are in memory, but for the store to a tile that was struck
and is not born again (R220; log 56), no L1D but the one that its thread uses holds its line (R204), and nothing changes but memory, what the memory system remembers, and the queues and event
counters of harts and supervisors. -/
def StorePerformed (s t : State) (a : Agent) (x : Pend) : Prop :=
  let r := reaches s.tick a x
  (t.mem = match r.2 with
    | some k => r.1.mem.puts (x.data.cells r.1.mem k)
    | none => r.1.mem) ∧
  (∀ k c, r.2 = some k → c ∈ x.data.cells r.1.mem k → c.1 < Config.devBytes →
    ∀ core, (∃ y ∈ Tbl.get [] t.l1 core, y.line = c.1 / 128) → LiesIn s (State.coreFor a) (c.1 / 128) core) ∧
  MemoryOnly { s with harts := t.harts, sups := t.sups, free := t.free } t

/-- The L1Ds of `t` are those of `s` without the lines that a test names. -/
def L1Less (s t : State) (gone : Nat → Nat → Bool) : Prop :=
  ∀ core, Tbl.get [] t.l1 core = (Tbl.get [] s.l1 core).filter (fun y => !gone core y.line)

/-- A store that a scalar thread's queue may perform next: no earlier one of another instruction comes before it (R222, R327, R341). -/
def MayBeNext (ps : List Pend) (x : Pend) : Prop :=
  ∃ es rest, ps = es ++ x :: rest ∧ ∀ e ∈ es, State.before e x = true → e.acc = x.acc

/-- An element `y` of the train `x` that may be performed next: no earlier element of a train of its hart to its package writes a
byte of it (R326, R341), and none stands before it in its own train that O puts first (R233). -/
def ElementMayBeNext (ts : List (Nat × Nat × List Pend)) (x : Nat × Nat × List Pend) (y : Pend) : Prop :=
  ∃ es rest before_ after, ts = es ++ x :: rest ∧ x.2.2 = before_ ++ y :: after ∧
    (∀ e ∈ es, e.1 = x.1 → e.2.1 = x.2.1 → ∀ a ∈ e.2.2, a.meets y = false) ∧ ∀ a ∈ before_, a.meets y = false ∧ a.ord = false

/-- Every waiting store of a hart or supervisor is performed, but on a die whose clocks have stopped (R391, R396). -/
def allPerformed (s : State) : State :=
  let s1 := ((s.harts.map Prod.fst).filter (fun p => s.clocked (coreOf p))).foldl (fun s p => (s.drainS (.user p)).drainV p) s
  ((s1.sups.map Prod.fst).filter (fun p => s1.clocked (coreOf p))).foldl (fun s p => s.drainS (.sup p)) s1

/-- One more request of a hart is granted by a shared unit (R320, R369). -/
def servedOnce (h : Hart) (u : Nat) : Hart :=
  { h with served := vset h.served u (vget 0 h.served u + 1), evcnt := if u = 0 then (State.countEv h 0x30).evcnt else h.evcnt }

/-- An access that a host agent or another package makes: its address and bytes (R339, R342). -/
def outsideAccess (i : Instr) : Option (Nat × List Byte) :=
  match i with
  | .hostAccess addr data => some (addr, data)
  | .peerAccess _ addr data => some (addr, data)
  | _ => none

/-! ## Engines -/

/-- Every hart's tokens after an MXA command with a .late partner has completed (R285). -/
def LateToken (s t : State) (c : Nat) (late : Option Nat) : Prop :=
  ∀ q, t.hart q = match late with
    | none => s.hart q
    | some i => if partnerOf s c i = .hart q then { s.hart q with tokIn := (s.hart q).tokIn + 1 } else s.hart q

/-- A .late partner, when there is one, is a hart with room for a token. -/
def LateRoom (s : State) (c : Nat) (late : Option Nat) : Prop :=
  ∀ i, late = some i → ∃ q, partnerOf s c i = .hart q ∧ (s.hart q).tokIn < 16

/-- Row r, column n of an accumulator tile (R289). -/
def accAt (t : BitVec 524288) (r n : Nat) : Nat := t.toNat / 2 ^ (32 * (128 * r + n)) % 2 ^ 32

/-- Bytes by offset, ascending, all below `n`. -/
def Ascending (got : List (Nat × Byte)) (n : Nat) : Prop := got.Pairwise (fun x y => x.1 < y.1) ∧ ∀ x ∈ got, x.1 < n

/-- The byte at an offset: the one read already, or what `now` gives. -/
def heldOr (got : List (Nat × Byte)) (now : Nat → Byte) (k : Nat) : Byte := ((got.find? (fun g => g.1 == k)).map Prod.snd).getD (now k)

/-- A byte of a copy's source row as memory holds it, at the element's address (R297), when it can be read. -/
def sourceByte (s : State) (d : Cmd) (b : CopyBlk) (item k : Nat) : Option Byte :=
  let w := copyWidth b.sfmt
  let n := max 1 (w / 8)
  match checkAddr s (copyCtx s d) .load .natural (tagOf b.src) (b.addr b.src b.ss w item (if w < 8 then k / n * (8 / w) else k / n)) n with
  | .ok pl => (placeBytes s (dieOf (coreOf d.by_.pscore)) pl n)[k % n]?
  | .error _ => none

/-- A source row's bytes have all been read. -/
def rowRead (b : CopyBlk) (got : Tbl (List (Nat × Byte))) (i : Nat) : Prop := (Tbl.get [] got i).length = b.rowBytes

/-- The source elements that an item's bytes spell, in ascending bits. -/
def sourceElements (b : CopyBlk) (bs : List (Nat × Byte)) : List Nat :=
  (List.range (b.ext 0)).map (fun j => ofBytes (bs.map Prod.snd) / 2 ^ (j * copyWidth b.sfmt) % 2 ^ copyWidth b.sfmt)

/-- The count of a cell that a command names goes up (R298, R317). -/
def counted (m : Memory) (key : Option Nat) (incr : Word) : Memory :=
  match key with
  | some key => m.puts (cellsAt key (toBytes 8 (m.num key 8 + incr.toNat)))
  | none => m

/-- A copy command of engine e that stood in `u` has failed at an item, memory being `m0` until then: each of its cells takes the
status, the command ends, and its issuer's core takes a fault record, or counts it as dropped (R299). -/
def CopyFailed (u t : State) (m0 : Memory) (e : Nat) (d : Cmd) (b : CopyBlk) (a : Word) (rk vk : Option Nat) (code item : Nat) : Prop :=
  let core := coreOf d.by_.pscore
  let status := code + e * 2 ^ 16 + item % 2 ^ 32 * 2 ^ 32
  let m := (sortSet (rk.toList ++ vk.toList)).foldl (fun m key => m.puts (cellsAt (key + 8) (toBytes 8 status))) m0
  let slot := State.efqKey core (u.vcore core).efqPos
  (t.ce e).exec = (u.ce e).exec.filter (fun x => x.id != d.id) ∧
  (m.num slot 8 ≠ 0 → t.mem = m ∧ t.vcore core = { u.vcore core with efqDrop := (u.vcore core).efqDrop + 1 }) ∧
  (m.num slot 8 = 0 → t.mem = m.puts (cellsAt slot (toBytes 8 status ++ toBytes 8 a.toNat ++
      toBytes 8 (if b.vis = 0 then b.rel else b.vis).toNat ++ toBytes 2 d.by_.pscore ++ toBytes 2 d.by_.hart ++
      toBytes 4 (u.vcore core).efqDrop.toNat)) ∧
    t.vcore core = { u.vcore core with efqPos := ((u.vcore core).efqPos + 1) % 16, efqDrop := 0 })

/-- The pairing of an activation format with a weight plane (R289). -/
def Pairs (afmt : Nat) (f : Option WFmt) : Prop :=
  match f with
  | none => True
  | some .bf16 => afmt = 0
  | some .e4m3 | some .e5m2 => afmt = 1 ∨ afmt = 2
  | some _ => afmt = 3 ∨ afmt = 4

/-! ## The host (R386–R397) -/

/-- The masters that a write by a master leaves recorded, when it is answered (R386). -/
def mastersAfter (g : Peg) (id : Nat) : List (BitVec 32) :=
  if g.masters.contains (BitVec.ofNat 32 id) then g.masters else g.masters ++ [BitVec.ofNat 32 id]

/-- A write by a master is answered: it is recorded, or its port has recorded fewer than two (R386). -/
def Answered (g : Peg) (id : Nat) : Prop :=
  g.masters.contains (BitVec.ofNat 32 id) = true ∨ (g.masters.filter (fun x => x.toNat / 2 ^ 16 == id / 2 ^ 16)).length < 2

/-- A write that only the owner makes: the master, and the block after it (R386). -/
def ownersWrite (i : Instr) (g : Peg) : Option (Nat × Peg) :=
  match i with
  | .cmdProd m v => some (m, { g with cmdProd := v })
  | .ringCons m v => some (m, { g with ringCons := v })
  | .registerBlockWrite m off v =>
    if off = 0 ∨ off = 0x018 ∨ off = 0x030 then none
    else some (m, if off = 0x010 then { g with cmdBase := v } else if off = 0x028 then { g with ringBase := v }
      else if off = 0x040 then { g with eventBase := v } else g)
  | _ => none

/-- An event of the device (R390): its type and its words. -/
def eventBytes (type d0 d1 d2 : Nat) : List Byte := toBytes 8 type ++ toBytes 8 d0 ++ toBytes 8 d1 ++ toBytes 8 d2

/-- A command row: the command and the address of its completion (R388). -/
def commandOf (i : Instr) : Option (HostCmd × Word) :=
  match i with
  | .submitLaunch d r l => some (.submitLaunch d r l, l)
  | .loadObject a n r l => some (.loadObject a n r l, l)
  | .unload h l => some (.unload h l, l)
  | .readDescriptor h n b l => some (.readDescriptor h n b l, l)
  | .registerAsid a r l => some (.registerAsid a r l, l)
  | .defaultAsid a l => some (.defaultAsid a l, l)
  | .clusterMask m l => some (.clusterMask m l, l)
  | .suspendLaunch n l => some (.suspendLaunch n l, l)
  | .terminateLaunch n l => some (.terminateLaunch n l, l)
  | .resume n l => some (.resume n l, l)
  | .invalidate a v e l => some (.invalidate a v e l, l)
  | .readCounters b f l => some (.readCounters b f l, l)
  | .handOver m l => some (.handOver m l, l)
  | .attest n b l => some (.attest n b l, l)
  | .restartCanvas p l => some (.restartCanvas p l, l)
  | .stageCanvas a n l => some (.stageCanvas a n l, l)
  | _ => none

/-- The peg core has taken a command, the ring's next: CMD_CONS has gone on, and no further command waits. -/
def Takes (s s1 : State) (j : HostCmd) : Prop :=
  (nextCommand s).bind cmdOf = some j ∧ s1 = { s with peg := { s.peg with cmdCons := s.peg.cmdCons + 1 } } ∧
  nextCommand s1 = none

/-- The completion of a command whose effect is `r` (R388): its status and its result, whose value is open where the command
gives none. -/
def Completes (s r t : State) (cpl : Word) (status : Nat) (result : Option Nat) : Prop :=
  ∃ v, (∀ n, result = some n → v = n) ∧
    t = { r with
      mem := r.mem.puts (cellsAt (hostKey cpl.toNat) (toBytes 8 status ++ toBytes 8 v))
      watches := t.watches, l2 := t.l2, l1 := t.l1, free := t.free, agent := s.agent }

/-- A launch that has not ended (R27). -/
def Live (s : State) (n : Word) (l : Launch) : Prop :=
  s.peg.launches.find? (fun l => l.n == n.toNat) = some l ∧ l.state ≠ .completed ∧ l.state ≠ .failed

/-- The effect of a command with its status and result, where its operands decide them (R388). -/
def commandEffect (j : HostCmd) (s : State) : Option (State × Nat × Option Nat) :=
  let pegged (f : Peg → Peg) : State := { s with peg := f s.peg }
  match j with
  | .loadObject a n refusal _ =>
    let is := zCheck s (s.mem.gets (hostKey a.toNat) n.toNat)
    if is = [] then none else some ({ s with mem := s.mem.puts (cellsAt (hostKey refusal.toNat) (refusalBytes is)) }, 2, none)
  | .unload h _ =>
    if s.peg.objects.find? (fun o => o.handle == h) = none then none
    else if s.peg.launches.any (fun l => l.desc.handle == h && (l.state == .queued || l.state == .placing || l.state == .running)) then
      some (s, 3, none)
    else some (pegged (fun g => { g with objects := g.objects.filter (fun o => o.handle != h) }), 0, none)
  | .readDescriptor h name buf _ =>
    ((s.peg.objects.find? (fun o => o.handle == h)).bind (fun o => o.descs.find? (fun e => e.1 == name))).map (fun e =>
      ({ s with mem := s.mem.puts (cellsAt (hostKey buf.toNat) e.2) }, 0, none))
  | .registerAsid a root _ =>
    if a = 0 ∨ 0xFFFF ≤ a.toNat then some (s, 1, none)
    else some (pegged (fun g => { g with roots := Tbl.set g.roots a.toNat root }), 0, none)
  | .defaultAsid a _ =>
    if a = 0 ∨ 0xFFFF ≤ a.toNat then some (s, 1, none)
    else some (pegged (fun g => { g with defaultAsid := some a.toNat }), 0, none)
  | .clusterMask m _ => some (pegged (fun g => { g with mask := m }), 0, none)
  | .suspendLaunch n _ =>
    (liveLaunch s n).map (fun l => ({ pegged (fun g => { g with launches := g.launches.map (fun k => if k.n = l.n then
      { k with held := true } else k) }) with harts := s.harts.map (fun e => if e.2.launch = l.n ∧ e.2.preempt.isNone then
      (e.1, { e.2 with preempt := some 1 }) else e) }, 0, none))
  | .resume n _ =>
    (liveLaunch s n).map (fun l => (pegged (fun g => { g with launches := g.launches.map (fun k => if k.n = l.n then
      { k with held := false, suspended := k.suspended.map (fun u => { u with byOwner := false }) } else k) }), 0, none))
  | .readCounters buf flags _ =>
    let r : State := { s with mem := s.mem.puts (cellsAt (hostKey buf.toNat) (countersBytes s)) }
    some (if flags.getLsbD 0 then { r with peg := { s.peg with corrected := [] } } else r, 0, none)
  | .handOver m _ =>
    if s.peg.state = .unowned then none
    else some (pegged (fun g => { g with state := .handOver, nominee := BitVec.ofNat 32 m.toNat }), 0, none)
  | .attest nonce buf _ =>
    let q := Config.sm3 (toBytes 32 s.peg.pegDigest.toNat ++ toBytes 32 s.peg.canvasDigest.toNat ++ Config.fuseConfig ++
      toBytes 32 nonce.toNat)
    some ({ s with mem := s.mem.puts (cellsAt (hostKey buf.toNat) (toBytes 32 q.toNat ++ Config.sign q)) }, 0, none)
  | .stageCanvas a n _ =>
    let o := s.mem.gets (hostKey a.toNat) n.toNat
    some (if Config.imageVerifies o then (pegged (fun g => { g with staged := some o }), 0, none) else (s, 4, none))
  | _ => none

/-- The cores of a launch's placement. -/
def placedCores (l : Launch) : List Nat := l.place.flatMap (fun e => e.2.map (fun k => 4 * e.1 + k))

/-- Package reset (R392): the registers as `State.reset`, memory of the package zero; what lies outside it goes on. -/
def resetPackage (s : State) : State :=
  { State.reset with
    sched := s.sched, free := s.free, atsFail := s.atsFail
    mem := ⟨s.mem.cells.filter (fun c => decide (2 ^ 61 ≤ c.1))⟩ }

end Sys2Proof.Claims

/-- R206, R207, R218, R219, R235, R327, R339, R341, R342, R391: a waiting store is performed when no earlier one has to
come before it: an element of the oldest instruction of its slice's queue, a scalar store that is the first to its place, an element
of a train; misses are answered, another of the set's 12 lines leaving L2 where it is full (which one is open, log 65), and modified
lines leave L2, and the L1Ds of its die with it (R204), a bad sector being recorded lost; scrubbing changes no byte; accesses from
outside are performed at the home directory, and wait while an engine holds their line. An access at an address from 2^61 on is one
that the host, or from 2^62 on another package, makes to its own memory (log 10). An ATS invalidation waits while a copy in execution
or a stopped die's store uses the page's translation; that it performs every other waiting store, host page or not, and forgets the
page's translation, which the host then gives or not, is the model's choice (log 42, 6). The layout of the event of a full list of
lost sectors is the model's reading of R390 (log 19). -/
def Obligations.MemorySystemSteps : Prop :=
  (∀ (s : State) (p k : Nat), vget [] (s.hart p).ssq k = [] → exec (.vectorStorePerformed p k) s = .next s) ∧
  (∀ (s : State) (p k : Nat) (x : Pend) (rest : List Pend), vget [] (s.hart p).ssq k = x :: rest →
    ∃ y t, y ∈ x :: rest ∧ y.acc = x.acc ∧ exec (.vectorStorePerformed p k) s = .next t ∧ StorePerformed s t (.vec p) y ∧
      t.sups = s.sups ∧ ∀ q, t.hart q = if q = p then { s.hart p with
        ssq := vset (s.hart p).ssq k ((x :: rest).erase y), evcnt := (t.hart p).evcnt } else s.hart q) ∧
  (∀ (s : State) (p : Nat) (sup : Bool), let s1 := s.settleLate (threadOf sup p)
    s1.sbufOf (threadOf sup p) = [] → exec (.scalarStorePerformed p sup) s = .next s1) ∧
  (∀ (s : State) (p : Nat), let s1 := s.settleLate (.user p)
    (s1.hart p).sbuf ≠ [] →
    ∃ y t, MayBeNext (s1.hart p).sbuf y ∧ exec (.scalarStorePerformed p false) s = .next t ∧ StorePerformed s1 t (.user p) y ∧
      t.sups = s1.sups ∧ ∀ q, t.hart q = if q = p then { s1.hart p with
        sbuf := (s1.hart p).sbuf.erase y, evcnt := (t.hart p).evcnt } else s1.hart q) ∧
  (∀ (s : State) (p : Nat), let s1 := s.settleLate (.sup p)
    (s1.sup p).sbuf ≠ [] →
    ∃ y t, MayBeNext (s1.sup p).sbuf y ∧ exec (.scalarStorePerformed p true) s = .next t ∧ StorePerformed s1 t (.sup p) y ∧
      t.harts = s1.harts ∧ ∀ q, t.sup q = if q = p then { s1.sup p with sbuf := (s1.sup p).sbuf.erase y } else s1.sup q) ∧
  (∀ (s : State) (p pkg : Nat), (∀ x ∈ s.trains, x.1 = p → x.2.1 = pkg → x.2.2 = []) → exec (.peerTrainAck p pkg) s = .next s) ∧
  (∀ (s : State) (p pkg : Nat), (∃ x ∈ s.trains, x.1 = p ∧ x.2.1 = pkg ∧ x.2.2 ≠ []) →
    ∃ x y t, x.1 = p ∧ x.2.1 = pkg ∧ ElementMayBeNext s.trains x y ∧ exec (.peerTrainAck p pkg) s = .next t ∧
      StorePerformed { s with trains := t.trains } t (.vec p) y ∧ t.sups = s.sups ∧
      (∀ q, t.hart q = if q = p then { s.hart p with evcnt := (t.hart p).evcnt } else s.hart q) ∧
      t.trains = if x.2.2.erase y = [] then s.trains.erase x
        else s.trains.map (fun z => if z = x then (p, pkg, x.2.2.erase y) else z)) ∧
  (∀ (s : State) (die line : Nat), (Tbl.get [] s.misses die).contains line = true →
    let own := Tbl.get (0, false) s.l2 line
    ((setMates s die line).length < 12 → ∃ t, exec (.missReply die line) s = .next t ∧ t = { s with l2 := t.l2, misses := t.misses } ∧
      (∀ k, Tbl.get (0, false) t.l2 k = if k = line then (own.1 ||| (1#16 <<< die), false) else Tbl.get (0, false) s.l2 k) ∧
      ∀ d, Tbl.get [] t.misses d = if d = die then (Tbl.get [] s.misses die).filter (· ≠ line) else Tbl.get [] s.misses d) ∧
    (12 ≤ (setMates s die line).length → ∃ t l, l ∈ setMates s die line ∧ exec (.missReply die line) s = .next t ∧
      t = { s with
        l2 := t.l2, l1 := t.l1, misses := t.misses, peerCopies := s.peerCopies.filter (fun x => !(x.1 == die && x.2.1 == l)) } ∧
      L1Less s t (fun core k => dieOf core == die && k == l) ∧
      (∀ k, Tbl.get (0, false) t.l2 k = if k = line then (own.1 ||| (1#16 <<< die), false)
        else if k = l then (let x := Tbl.get (0, false) s.l2 l
          if x.1 &&& ~~~(1#16 <<< die) = 0 then (0, false) else (x.1 &&& ~~~(1#16 <<< die), x.2 && !x.1.getLsbD die))
        else Tbl.get (0, false) s.l2 k) ∧
      ∀ d, Tbl.get [] t.misses d = if d = die then (Tbl.get [] s.misses die).filter (· ≠ line) else Tbl.get [] s.misses d)) ∧
  (∀ (s : State) (die line : Nat), (Tbl.get (0, false) s.l2 line).2 = true → (Tbl.get (0, false) s.l2 line).1.getLsbD die = true →
    let bad := s.badSectors.filter (fun k => k == 2 * line || k == 2 * line + 1)
    let home := 128 * line / Config.stackBytes
    let used := (s.lostSectors.filter (fun k => 64 * k / Config.stackBytes == home)).length
    let gone (t : State) : Prop := L1Less s t (fun core k => dieOf core == die && k == line)
    (used + bad.length ≤ 4096 → ∃ t, exec (.dirtyEviction die line) s = .next t ∧ gone t ∧ t = { s with
      l2 := Tbl.del s.l2 line, l1 := t.l1, badSectors := s.badSectors.filter (fun k => !bad.contains k), lostSectors := s.lostSectors ++ bad }) ∧
    (∀ k, bad = [k] → 4096 ≤ used → ∃ t, exec (.dirtyEviction die line) s = .next t ∧ gone t ∧ t = { s with
      l2 := Tbl.del s.l2 line
      l1 := t.l1
      peg := { s.peg with machineCheck := true, events := s.peg.events ++ [eventBytes 2 home used 0] } })) ∧
  (∀ (s : State) (die sector : Nat), ∃ t, exec (.hbmScrub die sector) s = .next t ∧
    t = { s with free := t.free, peg := { s.peg with corrected := t.peg.corrected } } ∧
    ∀ k, k ≠ 144 + die → Tbl.get 0 t.peg.corrected k = Tbl.get 0 s.peg.corrected k) ∧
  (∀ (i : Instr) (s : State) (addr : Nat) (data : List Byte), outsideAccess i = some (addr, data) → addr + data.length ≤ Config.devBytes →
    let cells := cellsAt (devKey addr) data
    let held (k : Nat) : Prop := engineHeld s (k / 128) = true
    (¬held (devKey addr) → (∀ c ∈ cells, ¬held c.1) →
      (data ≠ [] → s.badSectors = [] → s.lostSectors = [] → ∃ t, exec i s = .next t ∧ t.mem = s.mem.puts cells ∧ MemoryOnly s t ∧
        t.l2 = s.l2.filter (fun e => !cells.any (fun c => c.1 / 128 == e.1)) ∧
        L1Less s t (fun _ l => cells.any (fun c => c.1 / 128 == l))) ∧
      (data = [] → ∃ t, exec i s = .next t ∧ t = { s with l2 := t.l2 } ∧
        Tbl.get (0, false) t.l2 (devKey addr / 128) = ((Tbl.get (0, false) s.l2 (devKey addr / 128)).1, false) ∧
        ∀ k, k ≠ devKey addr / 128 → Tbl.get (0, false) t.l2 k = Tbl.get (0, false) s.l2 k)) ∧
    ((held (devKey addr) ∨ ∃ c ∈ cells, held c.1) → exec i s = .next s)) ∧
  (∀ (s : State) (addr : Nat) (data : List Byte), 2 ^ 61 ≤ addr → addr + data.length ≤ 2 ^ 62 →
    ∃ t, exec (.hostAccess addr data) s = .next t ∧ t.mem = s.mem.puts (cellsAt addr data) ∧ MemoryOnly s t) ∧
  (∀ (s : State) (pkg addr : Nat) (data : List Byte), peerKey pkg 0 ≤ addr →
    addr + data.length ≤ peerKey (pkg + 1) 0 →
    ∃ t, exec (.peerAccess pkg addr data) s = .next t ∧ t.mem = s.mem.puts (cellsAt addr data) ∧ MemoryOnly s t) ∧
  (∀ (s : State) (va : Word), let page := va.toNat / 65536
    (pageUsed s page = true → exec (.atsInvalidation va) s = .next s) ∧
    (pageUsed s page = false → ∃ t, exec (.atsInvalidation va) s = .next t ∧
      t = { allPerformed s with agent := s.agent, atsFail := t.atsFail, free := t.free } ∧
      ((∀ g, g ∈ t.atsFail ↔ g ∈ (allPerformed s).atsFail ∧ g ≠ page) ∨
        ∀ g, g ∈ t.atsFail ↔ g ∈ (allPerformed s).atsFail ∨ g = page)))

/-- R270, R272, R284, R285, R288, R289, R292: the Matrix Array begins the oldest of its commands that may leave the queue, and goes on
with one: an mlds reads bytes of its tile, each once, as memory holds them, and fills the shadow plane with the last; an accumulation
or a drain does the rows that the FIFO allows. One whose work is done completes, with the token of a .late partner, looked for in that
step (the model's reading, log 27). -/
def Obligations.MatrixArraySteps : Prop :=
  (∀ (s : State) (c : Nat) (d : Cmd), (s.cluster c).queue.find? State.isMxa = some d → (s.cluster c).mxa = [] → mayLeave s d = true →
    let rest (k : Cluster) : List Cmd := k.queue.filter (fun e => e.id != d.id)
    ((∀ ctl ptr addr late rows got, d.kind = .mxa (.mac .acc ctl ptr) addr late rows got → Pairs (ctl.toNat / 2 ^ 18 % 8) (s.cluster c).active.fmt) →
      ∃ t, exec (.mxaCommand c) s = .next t ∧ t = { s with clusters := t.clusters } ∧
        ClusterDone s t c (fun k => { k with queue := rest k, mxa := [d] })) ∧
    (∀ ctl ptr addr late rows got, d.kind = .mxa (.mac .acc ctl ptr) addr late rows got → ¬Pairs (ctl.toNat / 2 ^ 18 % 8) (s.cluster c).active.fmt →
      ∃ t, exec (.mxaCommand c) s = .next t ∧ (t.cluster c).mccRun = .halted ∧ (t.cluster c).mxa = [] ∧
        (t.cluster c).queue = (rest (s.cluster c)).filter (fun e => !(State.isMxa e && decide (d.id < e.id))) ∧
        (t.cluster c).acc = (s.cluster c).acc)) ∧
  (∀ (s : State) (c : Nat) (d : Cmd) (op : MxaOp) (addr : Word) (late : Option Nat) (rows : Nat) (got : List (Nat × Byte)),
    (s.cluster c).mxa = [d] → d.kind = .mxa op addr late rows got → LateRoom s c late →
    let k := s.cluster c
    let quietly (t : State) : Prop := t = { s with harts := t.harts, clusters := t.clusters, free := t.free }
    let goesOn (n : Nat) (g : List (Nat × Byte)) : List Cmd := [{ d with kind := .mxa op addr late n g }]
    (op = .swap → ∃ t, exec (.mxaCommandDone c) s = .next t ∧ LateToken s t c late ∧ quietly t ∧
      ClusterDone s t c (fun k => if rows = 1 then { k with mxa := [] } else { k with active := k.shadow, shadow := k.active, mxa := [] })) ∧
    (∀ ptr f, op = .lds ptr f → rows = 1 → ∃ t, exec (.mxaCommandDone c) s = .next t ∧ LateToken s t c late ∧ quietly t ∧
      ClusterDone s t c (fun k => { k with mxa := [] })) ∧
    (∀ ptr f key, op = .lds ptr f → rows = 0 → mxaPlace s c .load ptr (tileBytes f) = .ok key → s.badSectors = [] → s.lostSectors = [] →
      Ascending got (tileBytes f) →
      let now (j : Nat) : Byte := heldOr got (fun j => (s.mem.gets key (tileBytes f)).getD j 0) j
      ∃ t, exec (.mxaCommandDone c) s = .next t ∧ quietly t ∧
        (LateToken s t c late ∧ ClusterDone s t c (fun k => { k with
            shadow := ⟨BitVec.ofNat 294912 (ofBytes ((List.range (tileBytes f)).map now)), some f⟩, mxa := [] }) ∨
          ∃ g, Ascending g (tileBytes f) ∧ (∀ x ∈ got, x ∈ g) ∧ got.length < g.length ∧ g.length < tileBytes f ∧
            (∀ x ∈ g, x.2 = now x.1) ∧ LateToken s t c none ∧ ClusterDone s t c (fun k => { k with mxa := goesOn 0 g }))) ∧
    (∀ ctl ptr, op = .mac .acc ctl ptr →
      let m := ctl.toNat % 2 ^ 8
      let row0 := ctl.toNat / 2 ^ 8 % 2 ^ 8
      let tile := ctl.toNat / 2 ^ 16 % 2
      let n := min (m - rows) k.feed.length
      m ≠ 0 → row0 + m ≤ 128 → rows ≤ m →
      ∃ t a, exec (.mxaCommandDone c) s = .next t ∧ LateToken s t c (if rows + n = m then late else none) ∧ quietly t ∧
        ClusterDone s t c (fun k => { k with
          feed := k.feed.drop n, acc := vset k.acc tile a, mxa := if rows + n = m then [] else goesOn (rows + n) got }) ∧
        ∀ r j, r < 128 → j < 128 → accAt a r j = (let old := accAt (vget 0 k.acc tile) r j
          if row0 + rows ≤ r ∧ r < row0 + rows + n then
            mxaAcc (ctl.toNat / 2 ^ 18 % 8) k.active (k.feed.getD (r - row0 - rows) 0) j (if ctl.getLsbD 17 then 0 else old) else old)) ∧
    (∀ ctl ptr, op = .mac .dfifo ctl ptr →
      let m := ctl.toNat % 2 ^ 8
      let row0 := ctl.toNat / 2 ^ 8 % 2 ^ 8
      let n := min (m - rows) (64 - k.drain.length)
      m ≠ 0 → rows ≤ m →
      ∃ t, exec (.mxaCommandDone c) s = .next t ∧ LateToken s t c (if rows + n = m then late else none) ∧ quietly t ∧
        ClusterDone s t c (fun k => { k with
          mxa := if rows + n = m then [] else goesOn (rows + n) got
          drain := k.drain ++ (List.range n).map (fun j => BitVec.ofNat 4096
            ((vget 0 k.acc (ctl.toNat / 2 ^ 16 % 2)).toNat / 2 ^ (4096 * (row0 + rows + j)))) })) ∧
    (∀ ctl ptr key, op = .mac .dspm ctl ptr →
      let m := ctl.toNat % 2 ^ 8
      let row0 := ctl.toNat / 2 ^ 8 % 2 ^ 8
      m ≠ 0 → row0 + m ≤ 128 → (rows = 0 ∨ rows = m) → mxaPlace s c .store ptr (512 * m) = .ok key →
      ∃ t, exec (.mxaCommandDone c) s = .next t ∧ LateToken s t c late ∧ ClusterDone s t c (fun k => { k with mxa := [] }) ∧
        t.mem = (if rows = m then s.mem else s.mem.puts (cellsAt key (toBytes (512 * m)
          ((vget 0 k.acc (ctl.toNat / 2 ^ 16 % 2)).toNat / 2 ^ (4096 * row0) % 2 ^ (4096 * m))))) ∧
        MemoryOnly { s with harts := t.harts, clusters := t.clusters, free := t.free } t))

/-- R271, R273, R297–R301, R369: the copy engines, stream fetch and the grants of the shared units. A command reads each source byte once,
adds to its released cell when all are read, then writes its items in order and adds to its visible cell; a failure gives its cells the
status. That an engine writes one item in a step, that the waiting stores to its lines are performed at issue, and that a grant is a
step of its own, are the model's choices (log 30, 49). -/
def Obligations.CopyStreamAndGrantSteps : Prop :=
  (∀ (s : State) (e k : Nat) (d : Cmd) (b : CopyBlk) (a : Word) (ph : CopyPhase) (rk vk rk0 vk0 : Option Nat),
    (s.ce e).queue[k]? = some d → d.kind = .copy b a ph rk0 vk0 → (s.ce e).exec.length < 8 →
    readyCopy s (2 * e) = none → readyCopy s (2 * e + 1) = none → b.valid = true → cellKey s d b.rel = .ok rk → cellKey s d b.vis = .ok vk →
    let tr := dstTrans s d b
    let lines := sortSet (itemLines s d b tr 0 b.items)
    lines.any (engineHeld s) = false → stuckStore s lines = false →
    ∃ t, exec (.copyIssue e k) s = .next t ∧ t.mem = (flushLines s lines).mem ∧
      t.l2 = (flushLines s lines).l2.filter (fun x => !lines.contains x.1) ∧
      L1Less (flushLines s lines) t (fun _ l => lines.contains l) ∧
      t.ce e = { s.ce e with
        queue := (s.ce e).queue.filter (fun x => x.id != d.id)
        exec := (s.ce e).exec ++ [{ d with kind := .copy b a (.issued tr lines []) rk vk }] } ∧
      (∀ j, j ≠ e → t.ce j = s.ce j) ∧ (∀ q, t.cluster q = s.cluster q) ∧ ∀ q, t.vcore q = s.vcore q) ∧
  (∀ (s : State) (e k : Nat) (d : Cmd) (b : CopyBlk) (a : Word) (ph : CopyPhase) (rk0 vk0 : Option Nat) (code : Nat),
    (s.ce e).queue[k]? = some d → d.kind = .copy b a ph rk0 vk0 → (s.ce e).exec.length < 8 →
    readyCopy s (2 * e) = none → readyCopy s (2 * e + 1) = none →
    (b.valid = false ∧ code = causeIllegal ∨ b.valid = true ∧ cellKey s d b.rel = .error code ∨
      b.valid = true ∧ (∃ x, cellKey s d b.rel = .ok x) ∧ cellKey s d b.vis = .error code) →
    ∃ t, exec (.copyIssue e k) s = .next t ∧ (t.ce e).queue = (s.ce e).queue.filter (fun x => x.id != d.id) ∧
      CopyFailed s t s.mem e d b a (keyOf (cellKey s d b.rel)) (keyOf (cellKey s d b.vis)) code 0) ∧
  (∀ (s : State) (e k : Nat) (d : Cmd) (b : CopyBlk) (a : Word) (tr : DstTrans) (lines : List Nat)
      (got : Tbl (List (Nat × Byte))) (rk vk : Option Nat), (s.ce e).exec[k]? = some d → d.kind = .copy b a (.issued tr lines got) rk vk →
    let goesTo (ph : CopyPhase) : CopyEngine := { s.ce e with exec := (s.ce e).exec.map (fun x => if x.id = d.id then
      { x with kind := match x.kind with
          | .copy b a _ r v => .copy b a ph r v
          | y => y } else x) }
    ((∀ i, i < b.items → Ascending (Tbl.get [] got i) b.rowBytes) → (∃ i, i < b.items ∧ ¬rowRead b got i) →
      s.badSectors = [] → s.lostSectors = [] →
      (∀ i j, i < b.items → j < b.rowBytes → (Tbl.get [] got i).all (fun g => g.1 != j) = true → (sourceByte s d b i j).isSome = true) →
      ∃ t g, exec (.releasedAdd e k) s = .next t ∧ t.ce e = goesTo (.issued tr lines g) ∧
        t = { s with ces := t.ces, l2 := t.l2, l1 := t.l1, misses := t.misses, peerCopies := t.peerCopies, free := t.free } ∧
        (∀ i, i < b.items → Ascending (Tbl.get [] g i) b.rowBytes ∧ (∀ x ∈ Tbl.get [] got i, x ∈ Tbl.get [] g i) ∧
          ∀ x ∈ Tbl.get [] g i, x ∈ Tbl.get [] got i ∨ sourceByte s d b i x.1 = some x.2) ∧
        ∃ i, i < b.items ∧ (Tbl.get [] got i).length < (Tbl.get [] g i).length) ∧
    ((∀ i, i < b.items → rowRead b got i) → ∃ t, exec (.releasedAdd e k) s = .next t ∧
      t.ce e = goesTo (.read tr lines ((List.range b.items).map (fun i => sourceElements b (Tbl.get [] got i))) 0) ∧
      t = { s with ces := t.ces, mem := t.mem, watches := t.watches, l2 := t.l2, l1 := t.l1 } ∧ t.mem = counted s.mem rk b.incr) ∧
    (∀ f u, runItems d b tr (fun s i => readItem s d b got i) 0 b.items s = (u, some f) →
      let every : Prop := f.dst = true ∧ ∀ i, f.item < i → i < b.items → rowRead b got i
      ∃ t, exec (.copyFailure e k f.code f.item) s = .next t ∧
        (every → CopyFailed u t (counted u.mem rk b.incr) e d b a rk vk f.code f.item) ∧
        (¬every → CopyFailed u t u.mem e d b a rk vk f.code f.item))) ∧
  (∀ (s : State) (e k : Nat) (d : Cmd) (b : CopyBlk) (a : Word) (tr : DstTrans) (lines : List Nat)
      (vals : List (List Nat)) (item : Nat) (rk vk : Option Nat), (s.ce e).exec[k]? = some d →
    d.kind = .copy b a (.read tr lines vals item) rk vk →
    (b.items ≤ item → ∃ t, exec (.visibleAdd e k) s = .next t ∧
      t.ce e = { s.ce e with exec := (s.ce e).exec.filter (fun x => x.id != d.id) } ∧
      t = { s with ces := t.ces, mem := t.mem, watches := t.watches, l2 := t.l2, l1 := t.l1 } ∧ t.mem = counted s.mem vk b.incr) ∧
    (∀ u, item < b.items → writeItem { s with agent := .mcc (2 * e) } d b tr item (vals.getD item []) = .ok u → ∃ t, exec (.visibleAdd e k) s = .next t ∧
      t.mem = u.mem ∧ t = { u with ces := t.ces, agent := s.agent } ∧
      t.ce e = { u.ce e with exec := (u.ce e).exec.map (fun x => if x.id = d.id then
        { x with kind := match x.kind with
            | .copy b a _ r v => .copy b a (.read tr (lines.filter (fun l =>
                (itemLines u d b tr (item + 1) (b.items - (item + 1))).contains l)) vals (item + 1)) r v
            | y => y } else x) }) ∧
    (∀ code u, item < b.items → writeItem { s with agent := .mcc (2 * e) } d b tr item (vals.getD item []) = .error (code, u) →
      ∃ t, exec (.visibleAdd e k) s = .next t ∧ CopyFailed u t u.mem e d b a rk vk code item) ∧
    (∀ f u, runItems d b tr (fun _ i => .ok (vals.getD i [])) item (b.items - item) s = (u, some f) →
      ∃ t, exec (.copyFailure e k f.code f.item) s = .next t ∧ CopyFailed u t u.mem e d b a rk vk f.code f.item)) ∧
  (∀ (s : State) (p k : Nat), (s.harts.map Prod.fst).contains p = true → (vget Stream.none (s.hart p).streams k).configured = true → k < 4 →
    let st := vget Stream.none (s.hart p).streams k
    let w := VWidth.bits st.width 64
    let s1 := s.drainV p
    ∃ (t : State) (read : Nat → Bool), exec (.streamFetch p k) s = .next t ∧ t.mem = s1.mem ∧ (∀ q, q ≠ p → t.hart q = s1.hart q) ∧
      (let js := (stripRange s1 p st).filter (fun j => !st.strip.any (fun x => x.1 == j) && !st.failed.any (fun x => x.1 == j) && read j)
      t.hart p = { s1.hart p with
        evcnt := (t.hart p).evcnt
        streams := vset (s1.hart p).streams k { st with
          strip := st.strip ++ js.filterMap (fun j => match streamCheck s1 p st j with
            | .ok pl => some (j, (let raw := ofBytes (placeBytes s1 (dieOf (coreOf p)) pl (max 1 (w / 8)))
                if w < 8 then raw / 2 ^ (j * w % 8) % 2 ^ w else raw))
            | .error _ => none)
          failed := st.failed ++ js.filterMap (fun j => match streamCheck s1 p st j with
            | .error (.cause code dev) => some (j, code, accDetail .load code dev)
            | _ => none) } })) ∧
  (∀ (s : State) (core u : Nat), u < 3 → 0 < (s.vcore core).part → (s.vcore core).part ≤ 8 →
    let k := s.vcore core
    let ds := vget (Vector.replicate 8 0) k.deficit u
    let turn := vget 7 k.turn u
    let asks (j : Nat) : Nat := if j < k.part then asksOf s (core * 8 + j) u else 0
    let weight (j : Nat) : Nat := max 1 (((s.launch? (s.hart (core * 8 + j)).launch).map (fun l => l.desc.weight)).getD 0)
    let granted (t : State) (slot : Nat) (credit : Nat → Nat) : Prop := exec (.unitGrant core u) s = .next t ∧
      t = { s with cores := t.cores, harts := t.harts } ∧ (∀ c, c ≠ core → t.vcore c = s.vcore c) ∧
      t.vcore core = { k with turn := vset k.turn u slot, deficit := (t.vcore core).deficit } ∧
      (∀ w, w < 3 → ∀ j, j < 8 → vget 0 (vget (Vector.replicate 8 0) (t.vcore core).deficit w) j =
        if w = u then credit j else vget 0 (vget (Vector.replicate 8 0) k.deficit w) j) ∧
      ∀ q, t.hart q = if q = core * 8 + slot then servedOnce (s.hart q) u else s.hart q
    (0 < asks turn → 0 < vget 0 ds turn → ∃ t, granted t turn (fun j => vget 0 ds j - if j = turn then 1 else 0)) ∧
    (asks turn = 0 ∨ vget 0 ds turn = 0 → ∀ i, 1 ≤ i → i ≤ k.part →
      let slot (m : Nat) : Nat := (turn + m) % k.part
      (∀ m, 1 ≤ m → m < i → asks (slot m) = 0) → 0 < asks (slot i) → turn < 8 →
      ∃ t, granted t (slot i) (fun j => if j = slot i then vget 0 ds j + weight j - 1
        else if (∃ m, m < i ∧ 1 ≤ m ∧ j = slot m) ∨ (j = turn ∧ asks turn = 0) then 0 else vget 0 ds j)))

/-- R28, R353, R354, R363–R367: launches complete, are placed, fail where they would not be placed with no claims held, have launches
of lower levels asked to stop where that makes room, and arrive from rack nodes; a held pre-emption request is
delivered, and the responses to page requests are counted until the last, which restarts the hart or delivers ACCESS (code 9). A
machine check answers code 5 (log 20), the STVAL of the delivered ACCESS is the failed granule's address (log 18), and the header of
a rack packet has its resv bytes checked (log 22): these are the model's choices. -/
def Obligations.LaunchSteps : Prop :=
  (∀ (s : State) (n : Nat) (l : Launch), s.launch? n = some l →
    (launchDone s l = false → exec (.launchCompletion n) s = .next s) ∧
    (l.state = .running → (∀ e ∈ s.harts, e.2.launch ≠ l.n) → l.suspended = [] → (∀ c ∈ allCmds s, c.by_.launch ≠ l.n) →
      ∃ t, exec (.launchCompletion n) s = .next t ∧ t.mem = s.mem.puts (cellsAt l.cell (toBytes 8 (s.mem.num l.cell 8 + 1))) ∧
        t.launch? n = some { l with state := .completed } ∧ (∀ q, t.hart q = s.hart q) ∧
        (∀ core ∈ placedCores l, (∀ x ∈ (t.vcore core).claims, x.launch ≠ l.n) ∧
          ∀ x, x.launch ≠ l.n → (x ∈ (t.vcore core).claims ↔ x ∈ (s.vcore core).claims)) ∧
        ∀ e ∈ l.place, (t.cluster e.1).holder ≠ some l.n)) ∧
  (∀ (s : State), (∀ q, q < 8 → vget [] s.peg.levels q = []) → exec .placementScan s = .next s) ∧
  (∀ (s : State) (l : Launch), headLaunch s = some l →
    maskCount s.peg.mask < l.desc.c ∨ scan (unclaimed s) l [] = none →
    ∃ t, exec .placementScan s = .next t ∧ t.launch? l.n = some { l with state := .failed } ∧
      l.n ∉ vget [] t.peg.levels l.desc.prio ∧ ((∀ r c, l.by_ ≠ .owner r c) →
        t.mem = s.mem.puts (cellsAt (l.cell + 8) (toBytes 8 (2 + 0xFFFF * 2 ^ 16))))) ∧
  (∀ (s : State) (l : Launch) (place : List (Nat × List Nat)) (ts : List (Tent × Nat)), headLaunch s = some l →
    (scan (unclaimed s) l []).isSome = true → scan s l [] = some place → tentsOfDesc s l = some ts → l.desc.p ≤ 8 →
    ∃ t, exec .placementScan s = .next t ∧ l.n ∉ vget [] t.peg.levels l.desc.prio ∧
      (∃ k, t.launch? l.n = some { l with state := .running, place := place, tents := ts.map Prod.fst, order := k } ∧
        ∀ x ∈ s.peg.launches, x.order < k) ∧
      ∀ c e, place[c]? = some e → ∀ k core j, e.2[k]? = some core → j < l.desc.p →
        let h := t.hart ((4 * e.1 + core) * 8 + j)
        h.launch = l.n ∧ h.thr = (Thread.zeroAt l.desc.entry).wx 3 l.desc.param ∧ h.cluster = c ∧ h.core = k ∧
        h.vcap = BitVec.ofNat 18 l.desc.vcap ∧ h.rngkey = l.desc.rngkey ∧ h.vl = 0 ∧ h.viq = [] ∧ h.region = none ∧
        h.vtype = BitVec.ofNat 9 (if l.desc.lar then 0x85 else 5)) ∧
  (∀ (s : State) (l : Launch), headLaunch s = some l → (scan (unclaimed s) l []).isSome = true → scan s l [] = none →
    let cs := candidatesBelow s l.desc.prio
    let gone (n : Nat) : List Nat := (cs.take n).map (·.n)
    ((∀ n, 1 ≤ n → n ≤ cs.length → scan s l (gone n) = none) → exec .placementScan s = .next s) ∧
    (∀ n, 1 ≤ n → n ≤ cs.length → (∀ m, 1 ≤ m → m < n → scan s l (gone m) = none) → (scan s l (gone n)).isSome = true →
      exec .placementScan s = .next { s with harts := s.harts.map (fun e =>
        if (gone n).contains e.2.launch = true ∧ e.2.preempt = none then (e.1, { e.2 with preempt := some 0 }) else e) })) ∧
  (∀ (s : State) (data : List Byte), data.length = 320 →
    let bs := data.drop 64
    let ds := descOf bs
    let report (code : Nat) : List Byte := data.take 8 ++ toBytes 8 0 ++ toBytes 2 code ++ toBytes 14 0
    (bytesZero data 8 56 = false → exec (.launchPacket data) s = .next { s with peg := { s.peg with rackOut := report 1 :: s.peg.rackOut } }) ∧
    (∀ code asid, bytesZero data 8 56 = true → descCheck s .owner bs = (code, asid) →
      (code ≠ 0 → exec (.launchPacket data) s = .next { s with peg := { s.peg with rackOut := report code :: s.peg.rackOut } }) ∧
      (∀ cell loc, code = 0 → devPlace s asid .store ds.cell.toNat = .ok (.at_ cell loc) →
        (s.peg.machineCheck = true ∨ 32 ≤ (vget [] s.peg.levels ds.prio).length →
          exec (.launchPacket data) s = .next { s with peg := { s.peg with rackOut := report 5 :: s.peg.rackOut } }) ∧
        (s.peg.machineCheck = false → (vget [] s.peg.levels ds.prio).length < 32 →
          exec (.launchPacket data) s = .next { s with peg := { s.peg with
            launches := s.peg.launches ++ [⟨s.peg.nextLaunch, ds, .queued, asid, cell, .rack (BitVec.ofNat 64 (bytesField data 0 8)), [], [], [], false, 0⟩]
            nextLaunch := s.peg.nextLaunch + 1
            levels := vset s.peg.levels ds.prio (vget [] s.peg.levels ds.prio ++ [s.peg.nextLaunch]) } })))) ∧
  (∀ (s : State) (p k d : Nat), (s.hart p).preempt = some d → (s.sup p).svc = false → (s.sup p).halted = false → (s.hart p).pageWait = none →
    (s.hart p).stopAt = none → (s.hart p).region = none → (s.hart p).stage = .start → (s.hart p).late = [] →
    (s.hart p).viq = [] ∨ (k = 0 ∧ ∀ e ∈ (s.hart p).viq.head?, e.done.steps = 0) →
    ∃ t, exec (.preemptDelivery p k) s = .next t ∧ t.agent = s.agent ∧
      TrapTaken (((s.drainV p).updHart p (fun h => { h with preempt := none, stopAt := none, vecStopped := true })).dropCredit p) { t with agent := .sup p } p
        ⟨causePreempt, false, (s.hart p).thr.pc, (s.hart p).thr.pc, 0, d, false, false⟩) ∧
  (∀ (s : State) (die k p : Nat) (ok : Bool) (batch : List Nat) (w : PageWait), (s.outstanding die)[k]? = some (p, batch) →
    (s.hart p).pageWait = some w → w.batches.contains batch = true →
    (s.peg.state = .unowned → exec (.prgResponse die k ok) s = .next s) ∧ (s.peg.state ≠ .unowned →
    let failed := if ok then w.failed else match w.failed with
      | none => batch.head?
      | some g => some (min g (batch.headD g))
    let last := w.batches.erase batch = [] ∧ w.unsent = []
    (¬last → ∃ t, exec (.prgResponse die k ok) s = .next t ∧
      t.outstanding die = (s.outstanding die).eraseIdx k ∧ t.mem = s.mem ∧
      ∀ q, t.hart q = if q = p then { s.hart p with pageWait := some { w with batches := w.batches.erase batch, failed := failed } }
        else s.hart q) ∧
    (∀ g, last → failed = some g → (s.sup p).halted = false → ∃ t, exec (.prgResponse die k ok) s = .next t ∧
      t.agent = s.agent ∧ (t.hart p).pageWait = none ∧ (t.sup p).svc = true ∧ (t.sup p).stval = BitVec.ofNat 64 (g * 2 ^ 16) ∧
      (t.sup p).scause.toNat = scauseFields { w.cause with code := 9 } ∧ (t.sup p).scause.toNat % 256 = 9) ∧
    (last → failed = none → (s.hart p).preempt = none → (s.hart p).heldVec = none → ∃ t, exec (.prgResponse die k ok) s = .next t ∧
      t.agent = s.agent ∧ t.mem = s.mem ∧ (t.hart p).pageWait = none ∧ (t.hart p).thr = { (s.hart p).thr with pc := (s.sup p).sepc } ∧
      (t.hart p).vecStopped = false ∧ (t.sup p).svc = false ∧
      ∀ x ∈ (t.vcore (coreOf p)).tlb, ∀ g ∈ w.granules, x.covers ((s.launch? (s.hart p).launch).map (·.asid) |>.getD 0) g = false)))

/-- R386, R387, R390: the host register block: claims, writes of the owner and of others, the loss of the link, and the event
ring. The layout of an event's record, a type word and three words, is the model's reading (log 19). -/
def Obligations.OwnerRegisters : Prop :=
  (∀ (s : State) (port req : Nat) (v : Word), port < 2 → req < 2 ^ 16 →
    (s.peg.waiting = true → exec (.claim port req v) s = .next s) ∧ (s.peg.waiting = false →
    let id := req + port * 2 ^ 16
    let owned : Peg := { s.peg with masters := mastersAfter s.peg id, state := .owned, owner := BitVec.ofNat 32 id, nominee := 0 }
    let event := eventBytes 4 (s.peg.bootFail.toNat * 2 ^ 34 + 2 ^ 32 + id) 0 0
    (¬Answered s.peg id → exec (.claim port req v) s = .next s) ∧
    (Answered s.peg id → v.toNat ≠ id ∨ s.tripped ≠ [] ∨ s.peg.state = .owned ∨ (s.peg.state = .handOver ∧ s.peg.nominee.toNat ≠ id) →
      exec (.claim port req v) s = .next { s with peg := { s.peg with masters := mastersAfter s.peg id } }) ∧
    (Answered s.peg id → v.toNat = id → s.tripped = [] → s.peg.state = .unowned ∨ (s.peg.state = .handOver ∧ s.peg.nominee.toNat = id) →
      s.peg.ringWait = [] →
      exec (.claim port req v) s = .next { s with peg := { owned with events := s.peg.events ++ [event] } }))) ∧
  (∀ (i : Instr) (s : State) (m : Nat) (g : Peg), ownersWrite i s.peg = some (m, g) →
    (¬Answered s.peg m → exec i s = .next s) ∧
    (Answered s.peg m → s.peg.state = .unowned ∨ s.peg.owner.toNat ≠ m ∨ s.peg.waiting = true →
      exec i s = .next { s with peg := { s.peg with masters := mastersAfter s.peg m } }) ∧
    (Answered s.peg m → s.peg.state ≠ .unowned → s.peg.owner.toNat = m → s.peg.waiting = false → s.peg.ringWait = [] →
      let t : State := { s with peg := { g with masters := mastersAfter s.peg m } }
      (∀ bs, nextCommand t = some bs → cmdOf bs ≠ none) → exec i s = .next t)) ∧
  (∀ (s : State) (m : Nat) (v : Word), exec (.registerBlockWrite m 0 v) s = exec (.claim (m / 2 ^ 16) (m % 2 ^ 16) v) s ∧
    exec (.registerBlockWrite m 0x018 v) s = exec (.cmdProd m v) s ∧ exec (.registerBlockWrite m 0x030 v) s = exec (.ringCons m v) s) ∧
  (∀ (s : State), (s.peg.state = .unowned → exec .linkDown s = .next s) ∧
    (s.peg.state ≠ .unowned → exec .linkDown s = .next { s with peg := { s.peg with
      state := .unowned, events := s.peg.events ++ [eventBytes 4 (s.peg.bootFail.toNat * 2 ^ 34 + s.peg.owner.toNat) 0 0] } })) ∧
  (∀ (s : State) (e : List Byte) (rest : List (List Byte)), s.peg.events = e :: rest →
    let key := hostKey (s.peg.eventBase.toNat + 32 * (s.peg.eventPos % 256))
    (s.peg.state = .unowned ∨ s.mem.num key 8 ≠ 0 → exec .eventRecord s = .next s) ∧
    (s.peg.state ≠ .unowned → s.mem.num key 8 = 0 → ∃ t, exec .eventRecord s = .next t ∧ t.mem = s.mem.puts (cellsAt key e) ∧
      t = { s with mem := t.mem, watches := t.watches, l2 := t.l2, l1 := t.l1, peg := { s.peg with
        events := rest, eventPos := (s.peg.eventPos + 1) % 256, msi := s.peg.msi + 1 } }))

/-- R367, R368, R374, R379–R381, R388, R389, R393, R394, R396, R397: the peg core's commands, each with its effect and its
completion; with a die tripped every command but 0x0B is refused. Where the canvas image lies (log 4), what a quote is
made of (log 8), that an object without room fails with an open status and no effect (log 12) and that a refusal
record has an item for each failing field or entry (log 44), the layout of a command's arguments and the status of a malformed one (log 13), the order of the counters (log 14)
and what a tripped die and a terminated launch answer (log 21) are the model's choices. -/
def Obligations.PegCommands : Prop :=
  (∀ (i : Instr) (s s1 : State) (j : HostCmd) (cpl : Word), commandOf i = some (j, cpl) → Takes s s1 j →
    (∀ r status result, (s.tripped = [] ∨ ∃ b f l, j = .readCounters b f l) → commandEffect j s1 = some (r, status, result) →
      ∃ t, exec i s = .next t ∧ Completes s r t cpl status result) ∧
    (s.tripped ≠ [] → (∀ b f l, j ≠ .readCounters b f l) → ∃ t status, status ≠ 0 ∧ exec i s = .next t ∧
      ∃ f, Completes s { s1 with free := f } t cpl status none)) ∧
  (∀ (s s1 : State) (desc report cpl : Word) (code asid : Nat), s.tripped = [] → Takes s s1 (.submitLaunch desc report cpl) →
    let bs := s1.mem.gets (hostKey desc.toNat) 256
    let ds := descOf bs
    descCheck s1 .owner bs = (code, asid) →
    (∀ answer, code ≠ 0 ∧ answer = code ∨ code = 0 ∧ (∃ cell loc, devPlace s1 asid .store ds.cell.toNat = .ok (.at_ cell loc)) ∧
        (s1.peg.machineCheck = true ∨ 32 ≤ (vget [] s1.peg.levels ds.prio).length) ∧ answer = 5 →
      ∃ t, exec (.submitLaunch desc report cpl) s = .next t ∧
      t.mem = (s1.mem.puts (cellsAt (hostKey report.toNat) (toBytes 8 0 ++ toBytes 8 0 ++ toBytes 2 answer ++ toBytes 14 0))).puts
        (cellsAt (hostKey cpl.toNat) (toBytes 8 0 ++ toBytes 8 0)) ∧ t = { s1 with mem := t.mem, watches := t.watches, l2 := t.l2, l1 := t.l1 }) ∧
    (∀ cell loc, code = 0 → devPlace s1 asid .store ds.cell.toNat = .ok (.at_ cell loc) → s1.peg.machineCheck = false →
      (vget [] s1.peg.levels ds.prio).length < 32 → exec (.submitLaunch desc report cpl) s = .next { s1 with peg := { s1.peg with
        launches := s1.peg.launches ++ [⟨s1.peg.nextLaunch, ds, .queued, asid, cell, .owner report cpl, [], [], [], false, 0⟩]
        nextLaunch := s1.peg.nextLaunch + 1
        levels := vset s1.peg.levels ds.prio (vget [] s1.peg.levels ds.prio ++ [s1.peg.nextLaunch]) } })) ∧
  (∀ (s s1 : State) (a n refusal cpl : Word) (asid root : Nat), s.tripped = [] → Takes s s1 (.loadObject a n refusal cpl) →
    let o := s1.mem.gets (hostKey a.toNat) n.toNat
    zCheck s1 o = [] → s1.peg.defaultAsid = some asid → rootOf s1 asid = some root →
    let placed := placeObject s1 o (root / 2 ^ 14 * 2 ^ 14)
    (∀ r h, placed = some (r, h) → s1.peg.nextHandle < 2 ^ 64 →
      ∃ t ob, exec (.loadObject a n refusal cpl) s = .next t ∧ Completes s r t cpl 0 (some s1.peg.nextHandle) ∧
        r.peg = { s1.peg with objects := s1.peg.objects ++ [ob], nextHandle := s1.peg.nextHandle + 1 } ∧
        ob.handle = BitVec.ofNat 64 s1.peg.nextHandle) ∧
    (placed = none → ∃ t status f, status ≠ 0 ∧ exec (.loadObject a n refusal cpl) s = .next t ∧
      Completes s { s1 with free := f } t cpl status none)) ∧
  (∀ (s s1 : State) (n cpl : Word) (l : Launch), s.tripped = [] → Takes s s1 (.terminateLaunch n cpl) → Live s1 n l →
    l.state = .running ∨ (∀ r c, l.by_ ≠ .owner r c) →
    ∃ t r m, exec (.terminateLaunch n cpl) s = .next t ∧ Completes s r t cpl 0 none ∧
      r.mem = Memory.puts m (cellsAt (l.cell + 8) (toBytes 8 (3 + 0xFFFF * 2 ^ 16))) ∧
      r.launch? l.n = some { l with state := .failed, suspended := [] } ∧
      (∀ e ∈ r.harts, coreOf e.1 ∈ placedCores l → e.2.launch ≠ l.n) ∧
      ∀ core ∈ placedCores l, ∀ x ∈ (r.vcore core).claims, x.launch ≠ l.n) ∧
  (∀ (s s1 : State) (asid va extent cpl : Word) (e : TlbExtent), s.tripped = [] → Takes s s1 (.invalidate asid va extent cpl) →
    TlbExtent.ofCode extent.toNat = some e →
    ∃ t r, exec (.invalidate asid va extent cpl) s = .next t ∧ Completes s r t cpl 0 none ∧
      ∀ k, (r.vcore k).tlb = (s1.vcore k).tlb.filter (fun x => !(x.asid == asid.toNat && namedBy e (va.toNat % 2 ^ 60) x))) ∧
  (∀ (s s1 : State) (p cpl : Word), s.tripped = [] → Takes s s1 (.restartCanvas p cpl) → p.toNat < 4096 →
    (s1.sup p.toNat).halted = true → (s1.sup p.toNat).late = [] →
    let q := p.toNat
    let image := cellsAt (devKey Config.canvasEntry) (s1.peg.canvas.take (Config.canvasRoot - Config.canvasEntry))
    ∃ t r, exec (.restartCanvas p cpl) s = .next t ∧ Completes s r t cpl 0 none ∧
      (r.sup q).thr = Thread.zeroAt (BitVec.ofNat 64 Config.canvasEntry) ∧ (r.sup q).halted = false ∧ (r.sup q).park = none ∧
      ((s1.hart q).undelivered = none → r.mem = (s1.drainS (.sup q)).mem.puts image ∧
        r.sup q = { s1.sup q with
          thr := Thread.zeroAt (BitVec.ofNat 64 Config.canvasEntry), halted := false, park := none, sbuf := [] }) ∧
      ∀ c, (s1.hart q).undelivered = some c → (r.hart q).undelivered = none ∧ (r.sup q).svc = true ∧
        (r.sup q).scause.toNat = scauseFields c ∧ (r.sup q).stval = c.tval ∧
        (r.sup q).sepc = c.epc &&& 0xFFFFFFFFFFFFFFFC#64)

/-- R10, R392, R393, R395, R396: package reset starts the verified canvas image, waits for an offer, or halts with a boot failure;
an offer that verifies is taken; throttling moves a die's clock by 250 MHz between 1 GHz and 4 GHz, and a thermal trip stops it
and is an event. Where the canvas image goes (log 4), which images verify (log 8), and the layout of an offer and what a reset
keeps (log 15) are the model's choices. -/
def Obligations.PackageSteps : Prop :=
  (∀ (s : State) (image : List Byte),
    let img := s.peg.staged.getD image
    let r := resetPackage s
    let verified := Config.imageVerifies Config.flashPeg = true ∧ Config.imageVerifies img = true
    (img = [] → exec (.packageReset image) s = .next { r with peg := { r.peg with waiting := true } }) ∧
    (img ≠ [] → verified → ∃ t, exec (.packageReset image) s = .next t ∧ t = { r with
        mem := r.mem.puts (cellsAt (devKey Config.canvasEntry) (img.take (Config.canvasRoot - Config.canvasEntry)))
        watches := t.watches, peg := { r.peg with canvas := img, canvasDigest := Config.sm3 img } }) ∧
    (img ≠ [] → ¬verified → ∃ t, exec (.packageReset image) s = .next t ∧ t.halted = true ∧ t.peg.bootFail ≠ 0 ∧
      t = { r with halted := true, peg := { r.peg with bootFail := t.peg.bootFail } })) ∧
  (∀ (s : State) (pkg : Nat) (images : List Byte),
    let n := bytesField images 0 8
    let canvas := images.drop (8 + n)
    let verified := Config.imageVerifies ((images.drop 8).take n) = true ∧ Config.imageVerifies canvas = true
    let ended := s.peg.offersFailed ≠ [] ∧ ∀ g ∈ Config.neighbours, g ∈ s.peg.offersFailed
    (s.peg.waiting = false ∨ ended → exec (.bootOffer pkg images) s = .next s) ∧
    (s.peg.waiting = true → ¬ended → ¬verified → exec (.bootOffer pkg images) s = .next { s with peg := { s.peg with
      offersFailed := s.peg.offersFailed ++ [pkg] } }) ∧
    (s.peg.waiting = true → ¬ended → verified → ∃ t, exec (.bootOffer pkg images) s = .next t ∧ t = { s with
      mem := s.mem.puts (cellsAt (devKey Config.canvasEntry) (canvas.take (Config.canvasRoot - Config.canvasEntry)))
      watches := t.watches, l2 := t.l2, l1 := t.l1
      peg := { s.peg with
        canvas := canvas, canvasDigest := Config.sm3 canvas, pegDigest := Config.sm3 ((images.drop 8).take n)
        waiting := false, parent := some pkg } })) ∧
  (∀ (s : State) (die : Nat) (up : Bool),
    let mhz (s : State) (d : Nat) : Nat := Tbl.get 4000 s.clock d
    ∃ t, exec (.throttleStep die up) s = .next t ∧ t = { s with clock := t.clock } ∧ (∀ d, d ≠ die → mhz t d = mhz s d) ∧
      (16 ≤ die → t = s) ∧ (up = true → die < 16 → 1000 ≤ mhz s die → mhz s die ≤ 4000 → mhz s die ≤ mhz t die ∧ mhz t die ≤ 4000 ∧
        (mhz s die + 250 ≤ 4000 → mhz t die = mhz s die + 250)) ∧
      (up = false → die < 16 → 1000 ≤ mhz s die → mhz t die ≤ mhz s die ∧ 1000 ≤ mhz t die ∧
        (1250 ≤ mhz s die → mhz t die + 250 = mhz s die))) ∧
  (∀ (s : State) (die : Nat), (die ∈ s.tripped ∨ 16 ≤ die → exec (.thermalTrip die) s = .next s) ∧
    (die ∉ s.tripped → die < 16 → exec (.thermalTrip die) s = .next { s with
      tripped := s.tripped ++ [die], peg := { s.peg with events := s.peg.events ++ [eventBytes 3 die 0 0] } }))

namespace Sys2Proof.Claims

/-- Words that the spec writes out (R71, R281 and the tables beside R117 to R301), each with what it stands for. -/
def specWords : List (BitVec 32 × Instr) := [
  (0x100A6380, .add 5 6 7), (0x168A63C7, .ext 5 6 7 true 7), (0x18022188, .fadd 1 2 3 .b32 .rne),
  (0x1A4A2508, .fcvt 5 2 (.fi .s64) .b32 .rne), (0x2014AFF0, .addi 10 10 0xFF0), (0x22560123, .lih 11 0x123),
  (0x32507FFD, .bne 5 0 0x7FFD), (0x3E128001, .jalr 1 5 1), (0x428A2FFC, .st32 5 2 0xFFC),
  (0x47127473, .amoadd 9 7 8 .acqRel .package .w64), (0x4A000048, .fence .stores .cluster), (0x50406101, .csrw 0 6 0x101),
  (0x56D0A580, .waitge 8 10 11), (0x600A601B, .setvl 5 6 0x1B)] ++ [
  (0x740224A4, .vcmp 1 2 9 false true false .gt), (0x81509510, .vfmadd 8 9 10 false false true false .rne),
  (0x945445A0, .vsample 10 4 11 false true), (0xA242D34E, .vldx 8 11 9 .e64 false false .l2 true false),
  (0xB0CE2188, .tdown 7 2 3 false .max), (0xC8A00383, .tapSteer 16 0 7 false 3),
  (0xD08865D2, .mmac 4 6 11 true false true .dspm), (0xE7A70000, .pfx 3 true true .v 7)]

/-- The executing scalar thread is about to fetch and run the word of four bytes at `key`: nothing else is to be done first. -/
structure AtWord (s : State) (key : Nat) : Prop where
  on : s.halted = false
  free : s.sched = []
  idle : due s = none
  runs : s.runnable s.agent = true
  scalar : s.isScalar
  tag : tagOf s.pc = 0
  place : checkPtr s (s.actx s.agent) .fetch .natural s.pc 4 = .ok (.at_ key .dev)
  sound : badAt s key 4 = false
  unheld : engineHeld s (key / 128) = false

/-- `t` is `s` when a row is about to be performed: the memory system has seen the fetch, with its events, and line accesses of later
vector loads that may not pass the row are given up; everything else is as it was (R207, R320, R328). -/
def ReadyToRun (s t : State) : Prop :=
  (∀ p, t.hart p = { s.hart p with early := (t.hart p).early, evcnt := (t.hart p).evcnt } ∧
    ((t.hart p).early = (s.hart p).early ∨ (t.hart p).early = [])) ∧
  t = { s with harts := t.harts, l2 := t.l2, l1 := t.l1, misses := t.misses, peerCopies := t.peerCopies }

/-- The state in which row `i` is executed: `s` with the line accesses that may not pass it given up; while loads, or the second entry
of a tremap, are still to be performed, those that may not come after the row have been (R257, R328), and all of them where the row
begins a trap. -/
def Prepared (i : Instr) (s v : State) : Prop :=
  (s.unsettled = false → v = s.forget i) ∧ (v = (s.ready i).forget i ∨ v = ((s.ready i).forget i).settled)

/-- Row `i` is what `o` is the outcome of, once it is prepared. -/
def Runs (i : Instr) (s : State) (o : Out) : Prop := ∃ v, Prepared i s v ∧ o = exec i v

/-- In the step from `s` to `t` the agent has waited, or gone backward: it can go on, and it is at its word or before it, or has the
same VIQ as before. -/
def Waited (s t : State) : Prop :=
  t.runnable s.agent = true ∧ ((∀ p, s.agent ≠ .vec p) → (t.thread s.agent).pc.toNat ≤ (s.thread s.agent).pc.toNat) ∧
  ∀ p, s.agent = .vec p → (t.hart p).viq = (s.hart p).viq

/-- What every step keeps: memory in its canonical form, and at most one hart on each scalar core. -/
def Inv (s : State) : Prop := s.memOk ∧ OneHartEach s

end Sys2Proof.Claims

/-- R71–R77: the word of every well-formed instruction decodes to that instruction, every operand at every value. -/
def Obligations.EncodeThenDecode : Prop :=
  ∀ (i : Instr) (w : BitVec 32), i.wellFormed = true → encode i = some w → decodeWord w = .ok i

/-- R71–R77, R84: a word that decodes stands for a well-formed instruction and is the one word of it: no two words are the same
instruction, and no bit of a word is ignored. -/
def Obligations.DecodeThenEncode : Prop :=
  ∀ (w : BitVec 32) (i : Instr), decodeWord w = .ok i → i.wellFormed = true ∧ encode i = some w

/-- R71, R281 and the encoding tables: words that the spec writes out decode to the instructions it gives beside them, and the
words of classes 0x0 and 0xF to none. -/
def Obligations.SpecWordsDecode : Prop :=
  (∀ e ∈ specWords, decodeWord e.1 = .ok e.2 ∧ encode e.2 = some e.1) ∧
  ∀ w : BitVec 32, w.toNat / 2 ^ 28 = 0 ∨ w.toNat / 2 ^ 28 = 15 → ∀ i, decodeWord w ≠ .ok i

/-- R70, R78, R79, R84, R266: a step runs the decoded instruction. A scalar thread at a word in device memory executes what the
word decodes to (or takes ILLEGAL, PRIV or PREFIX, which are rows of their own); a vector half executes the head of its VIQ; a
choice of the environment is the row it names; an agent that cannot go on lets another run, as does one that waits or has gone
backward, whose hart's stores are then performed; a package halted at boot stops until its reset. What runs a row adds: the fetch is seen by L2, early line accesses
that may not pass the row are given up, and loads of the thread that may not come after it are performed (R328; that a load may wait
at all, and which rows it waits behind, is log 2). The order of agents and of device work is the model's choice (log 1). -/
def Obligations.StepRunsTheDecodedWord : Prop :=
  (∀ (s : State) (i : Instr), ReadyToRun s (s.forget i) ∧ ReadyToRun s s.noteFetch) ∧
  (∀ (s : State) (i : Instr), s.unsettled = false → s.ready i = s ∧ s.settled = s) ∧
  (∀ (s : State) (p : Nat), (s.settled.hart p).late = [] ∧ (s.settled.sup p).late = []) ∧
  (∀ (s : State) (key : Nat), AtWord s key →
    let w := BitVec.ofNat 32 (s.mem.num key 4)
    let runs (i : Instr) : Prop := ∃ o, Runs i s.noteFetch o ∧ step s = s.turn o
    (∀ i, decodeWord w = .ok i → denied (State.kindOf s.agent) i = none →
      (∀ x a, s.latched = some (x, a) → pfxOk x.zero x.cfile i = true) → runs i) ∧
    (∀ r, decodeWord w = .error r → runs (.illegalWord w 1)) ∧
    (∀ i, decodeWord w = .ok i → denied (State.kindOf s.agent) i = some .illegal → runs (.illegalWord w 1)) ∧
    (∀ i, decodeWord w = .ok i → denied (State.kindOf s.agent) i = some .priv → runs (.illegalWord w 2)) ∧
    (∀ i x a, decodeWord w = .ok i → denied (State.kindOf s.agent) i = none → s.latched = some (x, a) →
      pfxOk x.zero x.cfile i = false → runs (.illegalWord w 3))) ∧
  (∀ (s t : State), (Waited s t → ∃ u, s.turn (.next t) = .next u ∧
      u = { t.settleStores s.agent with agent := if t.agent = s.agent then t.rotate else t.agent }) ∧
    (¬Waited s t → s.turn (.next t) = .next t)) ∧
  (∀ (s : State) (p : Nat) (e : VEntry) (rest : List VEntry), s.halted = false → s.sched = [] → due s = none →
    s.agent = .vec p → s.runnable (.vec p) = true → (s.hart p).viq = e :: rest →
    ∃ o, Runs e.instr s o ∧ step s = s.turn o) ∧
  (∀ (s : State) (i : Instr) (rest : List Choice), s.halted = false → s.sched = .ev i :: rest →
    let u : State := { s with sched := rest }
    (u.mayAct i = true → step s = exec i (if u.unsettled = false then u
      else if State.passesLoads i = true then settleRemaps u else u.settled)) ∧ (u.mayAct i = false → step s = .next u)) ∧
  (∀ (s : State) (a : Agent) (rest : List Choice), s.halted = false → s.sched = .run a :: rest →
    let u : State := { s with sched := rest, agent := a }
    (u.runnable a = false → step s = .next u) ∧
    ((∀ p, a ≠ .vec p) → u.runnable a = true → u.fetchWaits = true → step s = .next u.yield_) ∧
    (∀ p i, u.runnable a = true → a = .user p → u.fetchWaits = false → u.nextInstr = i →
      ((∀ w, encode i = some w → w.toNat / 2 ^ 28 < 6 ∨ 13 < w.toNat / 2 ^ 28) → Runs i u.noteFetch (step s)) ∧
      ∀ w, encode i = some w → 6 ≤ w.toNat / 2 ^ 28 → w.toNat / 2 ^ 28 ≤ 13 → Runs (.viqPush w) u.noteFetch (step s)) ∧
    ((∀ p, a ≠ .user p ∧ a ≠ .vec p) → u.runnable a = true → u.fetchWaits = false → Runs u.nextInstr u.noteFetch (step s)) ∧
    (∀ p e es, a = .vec p → u.runnable a = true → (u.hart p).viq = e :: es → Runs e.instr u (step s))) ∧
  (∀ (s : State) (p n : Nat) (e : VEntry) (rest : List VEntry) (cs : List Choice), s.halted = false →
    s.sched = .groups p n :: cs → (s.hart? p).isSome = true → (s.hart p).viq = e :: rest →
    let u : State := { s.updHart p (fun h => { h with pause := some n }) with sched := cs, agent := .vec p }
    u.runnable (.vec p) = true → Runs e.instr u (step s)) ∧
  (∀ (s : State) (p cls unit : Nat) (core : Option Nat) (va : Word) (x : Upset) (cs : List Choice), s.halted = false →
    (s.sched = .early p va :: cs → ∃ t, step s = .next t ∧ t.mem = s.mem ∧ (t.hart p).early.length ≤ (s.hart p).early.length + 1 ∧
      ∀ q, t.hart q = { s.hart q with early := (t.hart q).early, evcnt := (t.hart q).evcnt } ∧ (q ≠ p → t.hart q = s.hart q)) ∧
    (s.sched = .corrected cls unit core :: cs → ∃ t, step s = .next t ∧
      t = { s with sched := cs, peg := { s.peg with corrected := t.peg.corrected }, harts := t.harts } ∧
      (10 ≤ cls ∨ 16 ≤ unit → t = { s with sched := cs }) ∧
      (cls < 10 → unit < 16 → (∀ n, Tbl.get 0 t.peg.corrected n = (let c := Tbl.get 0 s.peg.corrected n
          if n = 16 * cls + unit ∧ c.toNat + 1 < 2 ^ 32 then c + 1 else c)) ∧
        ∀ q, t.hart q = if (s.hart? q).isSome = true ∧ core = some (coreOf q) then State.countEv (s.hart q) 0x50 else s.hart q)) ∧
    (s.sched = .upset x :: cs → s.unsettled = false → ∃ t, step s = .next t ∧
      t = { s with sched := cs, badSectors := t.badSectors, badRegs := t.badRegs, harts := t.harts })) ∧
  (∀ (s : State), s.halted = false → s.sched = [] → due s = none → s.runnable s.agent = false →
    step s = .next { s with agent := s.rotate }) ∧
  (∀ (s : State) (o : Out), s.halted = false → s.sched = [] → due s = some o →
    step s = if s.unsettled = true then .next s.settled else o) ∧
  ∀ (s : State), s.halted = true →
    (∀ image rest, s.sched = .ev (.packageReset image) :: rest → step s = exec (.packageReset image) { s with sched := rest }) ∧
    ((∀ image rest, s.sched ≠ .ev (.packageReset image) :: rest) → step s = .fault .bootFailure)

/-- R84, R347, R348, R392: no row of the table stops the machine: every instruction and every device step answers a next state in
every state, exceptions included, and only a package that halted at boot takes no step, but for its reset. -/
def Obligations.EveryRowAnswersANextState : Prop :=
  (∀ (i : Instr) (s : State), ∃ t, exec i s = .next t) ∧
  ∀ (s : State), (∃ t, step s = .next t) ↔
    (s.halted = false ∨ ∃ image rest, s.sched = .ev (.packageReset image) :: rest)

/-- Every step keeps memory in its canonical form (so equal memories are equal data) and at most one hart on each scalar core
(R8, R20). The canonical form is the model's own. -/
def Obligations.StepsKeepTheForm : Prop := ∀ (s t : State), Inv s → step s = .next t → Inv t

/-- R10, R27, R364, R386, R387, R392: the machine after reset. The invariant holds; every byte reads zero; there is no hart and no
launch; every supervisor thread waits at the canvas entry with no trap in service; the device is unowned with every cluster in
the mask; and a step goes on. The reset values that the spec does not state are the model's (log 3, 4, 5). -/
def Obligations.ResetState : Prop :=
  let s := State.reset
  Inv s ∧ (∀ k, s.mem.get k = 0) ∧ s.harts = [] ∧ s.peg.launches = [] ∧ s.trains = [] ∧ s.watches = [] ∧ s.halted = false ∧
  (∀ p, (s.sup p).thr = Thread.zeroAt (BitVec.ofNat 64 Config.canvasEntry) ∧ (s.sup p).svc = false ∧ (s.sup p).halted = false ∧
    (s.sup p).sbuf = []) ∧
  (∀ k, (s.vcore k).claims = [] ∧ (s.vcore k).regions = [] ∧ (s.vcore k).tlb = [] ∧ (s.vcore k).efqPos = 0) ∧
  (∀ c, (s.cluster c).holder = none ∧ (s.cluster c).mccRun = .stopped ∧ (s.cluster c).queue = []) ∧
  s.peg.state = .unowned ∧ s.peg.bootFail = 0 ∧ s.peg.defaultAsid = none ∧ (∀ c, c < 128 → s.peg.mask.getLsbD c = true) ∧
  (∀ q, q < 8 → vget [] s.peg.levels q = []) ∧ s.peg.events = [] ∧ ∃ t, step s = .next t
end

