-- ==== Sys2Proof/Laws/Decode.lean ====
section
/-! SUPPORT. Laws/Decode.lean: what the decoder reads in a word of each format (R71), once, for the round trips of
PerInstr.lean. -/

namespace Sys2Proof.Laws

theorem ofNat_toNat_lt {n : Nat} (h : n < 2 ^ 32) : (BitVec.ofNat 32 n).toNat = n := by
  rw [BitVec.toNat_ofNat, Nat.mod_eq_of_lt h]

/-- A word decodes when its fields do and the condition of its instruction holds. -/
theorem decodeWord_of_fields {n : Nat} {i : Instr} (h : n < 2 ^ 32) (hf : decodeFields n = .ok i)
    (hc : i.wellFormed = true) : decodeWord (BitVec.ofNat 32 n) = .ok i := by
  unfold decodeWord
  rw [ofNat_toNat_lt h, hf]
  unfold Instr.wellFormed at hc
  simp only [Option.isNone_iff_eq_none] at hc
  simp [hc]

/-- The bounds of a three-register word's fields. -/
def Fits3R (cls op d a b m : Nat) : Prop := cls < 16 ∧ op < 64 ∧ d < 32 ∧ a < 32 ∧ b < 32 ∧ m < 128

theorem enc3R_lt {cls op d a b m : Nat} (h : Fits3R cls op d a b m) : enc3R cls op d a b m < 2 ^ 32 := by
  unfold Fits3R at h; unfold enc3R; omega

theorem fields_enc3R {cls op d a b m : Nat} (h : Fits3R cls op d a b m) :
    field (enc3R cls op d a b m) 28 4 = cls ∧ field (enc3R cls op d a b m) 22 6 = op ∧
    field (enc3R cls op d a b m) 17 5 = d ∧ field (enc3R cls op d a b m) 12 5 = a ∧
    field (enc3R cls op d a b m) 7 5 = b ∧ field (enc3R cls op d a b m) 0 7 = m := by
  unfold Fits3R at h; unfold field enc3R; omega

theorem decodeWord_dec1 {op d a b m : Nat} {i : Instr} (h : Fits3R 1 op d a b m) (hf : dec1 op d a b m = .ok i)
    (hc : i.wellFormed = true) : decodeWord (BitVec.ofNat 32 (enc3R 1 op d a b m)) = .ok i := by
  refine decodeWord_of_fields (enc3R_lt h) ?_ hc
  obtain ⟨h1, h2, h3, h4, h5, h6⟩ := fields_enc3R h
  simp only [decodeFields, h1, h2, h3, h4, h5, h6, hf]

theorem decodeWord_dec2 {op d a b m : Nat} {i : Instr} (h : Fits3R 2 op d a b m) (hf : dec2 op d a b m = .ok i)
    (hc : i.wellFormed = true) : decodeWord (BitVec.ofNat 32 (enc3R 2 op d a b m)) = .ok i := by
  refine decodeWord_of_fields (enc3R_lt h) ?_ hc
  obtain ⟨h1, h2, h3, h4, h5, h6⟩ := fields_enc3R h
  simp only [decodeFields, h1, h2, h3, h4, h5, h6, hf]

theorem decodeWord_dec4 {op d a b m : Nat} {i : Instr} (h : Fits3R 4 op d a b m) (hf : dec4 op d a b m = .ok i)
    (hc : i.wellFormed = true) : decodeWord (BitVec.ofNat 32 (enc3R 4 op d a b m)) = .ok i := by
  refine decodeWord_of_fields (enc3R_lt h) ?_ hc
  obtain ⟨h1, h2, h3, h4, h5, h6⟩ := fields_enc3R h
  simp only [decodeFields, h1, h2, h3, h4, h5, h6, hf]

theorem decodeWord_dec5 {op d a b m : Nat} {i : Instr} (h : Fits3R 5 op d a b m) (hf : dec5 op d a b m = .ok i)
    (hc : i.wellFormed = true) : decodeWord (BitVec.ofNat 32 (enc3R 5 op d a b m)) = .ok i := by
  refine decodeWord_of_fields (enc3R_lt h) ?_ hc
  obtain ⟨h1, h2, h3, h4, h5, h6⟩ := fields_enc3R h
  simp only [decodeFields, h1, h2, h3, h4, h5, h6, hf]

theorem decodeWord_dec6 {op d a b m : Nat} {i : Instr} (h : Fits3R 6 op d a b m) (hf : dec6 op d a b m = .ok i)
    (hc : i.wellFormed = true) : decodeWord (BitVec.ofNat 32 (enc3R 6 op d a b m)) = .ok i := by
  refine decodeWord_of_fields (enc3R_lt h) ?_ hc
  obtain ⟨h1, h2, h3, h4, h5, h6⟩ := fields_enc3R h
  simp only [decodeFields, h1, h2, h3, h4, h5, h6, hf]

theorem decodeWord_dec7 {op d a b m : Nat} {i : Instr} (h : Fits3R 7 op d a b m) (hf : dec7 op d a b m = .ok i)
    (hc : i.wellFormed = true) : decodeWord (BitVec.ofNat 32 (enc3R 7 op d a b m)) = .ok i := by
  refine decodeWord_of_fields (enc3R_lt h) ?_ hc
  obtain ⟨h1, h2, h3, h4, h5, h6⟩ := fields_enc3R h
  simp only [decodeFields, h1, h2, h3, h4, h5, h6, hf]

theorem decodeWord_dec8 {op d a b m : Nat} {i : Instr} (h : Fits3R 8 op d a b m) (hf : dec8 op d a b m = .ok i)
    (hc : i.wellFormed = true) : decodeWord (BitVec.ofNat 32 (enc3R 8 op d a b m)) = .ok i := by
  refine decodeWord_of_fields (enc3R_lt h) ?_ hc
  obtain ⟨h1, h2, h3, h4, h5, h6⟩ := fields_enc3R h
  simp only [decodeFields, h1, h2, h3, h4, h5, h6, hf]

theorem decodeWord_dec9 {op d a b m : Nat} {i : Instr} (h : Fits3R 9 op d a b m) (hf : dec9 op d a b m = .ok i)
    (hc : i.wellFormed = true) : decodeWord (BitVec.ofNat 32 (enc3R 9 op d a b m)) = .ok i := by
  refine decodeWord_of_fields (enc3R_lt h) ?_ hc
  obtain ⟨h1, h2, h3, h4, h5, h6⟩ := fields_enc3R h
  simp only [decodeFields, h1, h2, h3, h4, h5, h6, hf]

theorem decodeWord_decB {op d a b m : Nat} {i : Instr} (h : Fits3R 11 op d a b m) (hf : decB op d a b m = .ok i)
    (hc : i.wellFormed = true) : decodeWord (BitVec.ofNat 32 (enc3R 11 op d a b m)) = .ok i := by
  refine decodeWord_of_fields (enc3R_lt h) ?_ hc
  obtain ⟨h1, h2, h3, h4, h5, h6⟩ := fields_enc3R h
  simp only [decodeFields, h1, h2, h3, h4, h5, h6, hf]

theorem decodeWord_decC {op d a b m : Nat} {i : Instr} (h : Fits3R 12 op d a b m) (hf : decC op d a b m = .ok i)
    (hc : i.wellFormed = true) : decodeWord (BitVec.ofNat 32 (enc3R 12 op d a b m)) = .ok i := by
  refine decodeWord_of_fields (enc3R_lt h) ?_ hc
  obtain ⟨h1, h2, h3, h4, h5, h6⟩ := fields_enc3R h
  simp only [decodeFields, h1, h2, h3, h4, h5, h6, hf]

theorem decodeWord_decD {op d a b m : Nat} {i : Instr} (h : Fits3R 13 op d a b m) (hf : decD op d a b m = .ok i)
    (hc : i.wellFormed = true) : decodeWord (BitVec.ofNat 32 (enc3R 13 op d a b m)) = .ok i := by
  refine decodeWord_of_fields (enc3R_lt h) ?_ hc
  obtain ⟨h1, h2, h3, h4, h5, h6⟩ := fields_enc3R h
  simp only [decodeFields, h1, h2, h3, h4, h5, h6, hf]

/-- An immediate-12 word is a three-register word. -/
theorem encI12_eq (cls op d a imm : Nat) : encI12 cls op d a imm = enc3R cls op d a (imm / 128) (imm % 128) := by
  unfold encI12 enc3R; omega

/-- An immediate-17 word is a three-register word. -/
theorem encI17_eq (cls op d imm : Nat) :
    encI17 cls op d imm = enc3R cls op d (imm / 4096) (imm / 128 % 32) (imm % 128) := by
  unfold encI17 enc3R; omega

theorem decodeWord_decA {op d base ix m : Nat} {i : Instr} (h : op < 16 ∧ d < 32 ∧ base < 32 ∧ ix < 32 ∧ m < 512)
    (hf : decA op d base ix m = .ok i) (hc : i.wellFormed = true) :
    decodeWord (BitVec.ofNat 32 (encVM op d base ix m)) = .ok i := by
  refine decodeWord_of_fields (by unfold encVM; omega) ?_ hc
  have h1 : field (encVM op d base ix m) 28 4 = 10 := by unfold field encVM; omega
  have h2 : field (encVM op d base ix m) 24 4 = op := by unfold field encVM; omega
  have h3 : field (encVM op d base ix m) 19 5 = d := by unfold field encVM; omega
  have h4 : field (encVM op d base ix m) 14 5 = base := by unfold field encVM; omega
  have h5 : field (encVM op d base ix m) 9 5 = ix := by unfold field encVM; omega
  have h6 : field (encVM op d base ix m) 0 9 = m := by unfold field encVM; omega
  simp only [decodeFields, h1, h2, h3, h4, h5, h6, hf]

theorem decodeWord_encBR {op x y off : Nat} {i : Instr} (h : op < 8 ∧ x < 32 ∧ y < 32 ∧ off < 2 ^ 15)
    (hf : dec3 (encBR op x y off) = .ok i) (hc : i.wellFormed = true) :
    decodeWord (BitVec.ofNat 32 (encBR op x y off)) = .ok i := by
  refine decodeWord_of_fields (by unfold encBR; omega) ?_ hc
  have h1 : field (encBR op x y off) 28 4 = 3 := by unfold field encBR; omega
  simp only [decodeFields, h1, hf]

theorem fields_encBR {op x y off : Nat} (h : op < 8 ∧ x < 32 ∧ y < 32 ∧ off < 2 ^ 15) :
    field (encBR op x y off) 25 3 = op ∧ field (encBR op x y off) 20 5 = x ∧
    field (encBR op x y off) 15 5 = y ∧ field (encBR op x y off) 0 15 = off := by
  unfold field encBR; omega

theorem decodeWord_encJ {d off : Nat} {i : Instr} (h : d < 32 ∧ off < 2 ^ 20)
    (hf : .ok (.jal (reg d) (BitVec.ofNat 20 off)) = (.ok i : Except Reject Instr)) (hc : i.wellFormed = true) :
    decodeWord (BitVec.ofNat 32 (encJ 6 d off)) = .ok i := by
  refine decodeWord_of_fields (by unfold encJ; omega) ?_ hc
  have h1 : field (encJ 6 d off) 28 4 = 3 := by unfold field encJ; omega
  have h2 : field (encJ 6 d off) 25 3 = 6 := by unfold field encJ; omega
  have h3 : field (encJ 6 d off) 20 5 = d := by unfold field encJ; omega
  have h4 : field (encJ 6 d off) 0 20 = off := by unfold field encJ; omega
  simp only [decodeFields, h1, dec3, h2, h3, h4, hf]

theorem decodeWord_encPfx {m s z cf r : Nat} {i : Instr} (h : m < 8 ∧ s < 2 ∧ z < 2 ∧ cf < 4 ∧ r < 32)
    (hf : (withCode (CFile.ofCode cf) fun c => .ok (.pfx (BitVec.ofNat 3 m) (bit s) (bit z) c (reg r))) = .ok i)
    (hc : i.wellFormed = true) : decodeWord (BitVec.ofNat 32 (encPfx m s z cf r)) = .ok i := by
  refine decodeWord_of_fields (by unfold encPfx; omega) ?_ hc
  have h1 : field (encPfx m s z cf r) 28 4 = 14 := by unfold field encPfx; omega
  have h2 : field (encPfx m s z cf r) 0 16 = 0 := by unfold field encPfx; omega
  have h3 : field (encPfx m s z cf r) 21 2 = cf := by unfold field encPfx; omega
  have h4 : field (encPfx m s z cf r) 25 3 = m := by unfold field encPfx; omega
  have h5 : field (encPfx m s z cf r) 24 1 = s := by unfold field encPfx; omega
  have h6 : field (encPfx m s z cf r) 23 1 = z := by unfold field encPfx; omega
  have h7 : field (encPfx m s z cf r) 16 5 = r := by unfold field encPfx; omega
  simp [decodeFields, h1, decE, h2, needResv, h3, h4, h5, h6, h7, hf]

/-! ## Codes and fields read back -/

@[simp] theorem reg_toNat (r : Reg) : reg r.toNat = r := by simp [reg]
/-- The parts of an immediate, put together again. -/
theorem imm12_eq (n : Nat) : n / 128 * 128 + n % 128 = n := by omega
theorem imm17_eq (n : Nat) : n / 4096 * 4096 + n / 128 % 32 * 128 + n % 128 = n := by omega
/-- The mod field of a scalar floating-point word: precision and rounding code. -/
theorem prec_ofCode (p : Prec) (rc : Rc) : Prec.ofCode ((p.code * 8 + rc.code) / 8 % 4) = some p := by
  cases p <;> cases rc <;> rfl
theorem rc_ofCode (p : Prec) (rc : Rc) : Rc.ofCode ((p.code * 8 + rc.code) % 8) = some rc := by
  cases p <;> cases rc <;> rfl
theorem prec_rc_lt (p : Prec) (rc : Rc) : (p.code * 8 + rc.code) / 32 = 0 ∧ p.code * 8 + rc.code < 128 := by
  cases p <;> cases rc <;> decide
theorem kind_ofCode (k : FcvtKind) : FcvtKind.ofCode k.code = some k ∧ k.code < 32 := by
  rcases k with ⟨⟨⟩⟩ | ⟨⟨⟩⟩ | ⟨⟨⟩⟩ <;> decide
theorem bv3_cases (t : BitVec 3) : t = 0 ∨ t = 1 ∨ t = 2 ∨ t = 3 ∨ t = 4 ∨ t = 5 ∨ t = 6 ∨ t = 7 := by
  revert t; decide
/-- The mod field of a vector atomic. -/
theorem vamo_fields (w : VWidth) (o h : Bool) (op : VamoOp) (mk : Bool) (m : Nat)
    (hm : m = w.code * 64 + bcode o * 32 + bcode h * 16 + op.code / 2 * 4 + op.code % 2 + bcode mk * 2) :
    VWidth.ofCode (m / 64) = some w ∧ VamoOp.ofCode (m / 4 % 4 * 2 + m % 2) = some op ∧ bit (m / 32 % 2) = o ∧
    bit (m / 16 % 2) = h ∧ bit (m / 2 % 2) = mk ∧ m < 512 := by
  subst hm
  cases w <;> cases op <;> cases o <;> cases h <;> cases mk <;> exact ⟨rfl, rfl, rfl, rfl, rfl, by decide⟩
theorem bit_bcode (b : Bool) : bit (bcode b) = b := by cases b <;> rfl
theorem bcode_lt (b : Bool) : bcode b < 2 := by cases b <;> decide

end Sys2Proof.Laws
end

