-- ==== Sys2Proof/Laws/State.lean ====
section
/-! SUPPORT. Laws/State.lean: what each update of the state leaves of each field, and the tables read after a write. -/

namespace Sys2Proof.Machine

/-! ## Tables -/

@[simp] theorem Tbl.find_set_self {α : Type} (t : Tbl α) (k : Nat) (a : α) : Tbl.find (Tbl.set t k a) k = some a := by
  induction t with
  | nil => simp [Tbl.set, Tbl.find]
  | cons e rest ih =>
    obtain ⟨j, b⟩ := e
    by_cases h : j = k <;> simp [Tbl.set, Tbl.find, h, ih]

theorem Tbl.find_set_ne {α : Type} (t : Tbl α) {k j : Nat} (a : α) (h : j ≠ k) :
    Tbl.find (Tbl.set t k a) j = Tbl.find t j := by
  induction t with
  | nil => simp [Tbl.set, Tbl.find, Ne.symm h]
  | cons e rest ih =>
    obtain ⟨i, b⟩ := e
    by_cases hk : i = k
    · subst hk; simp [Tbl.set, Tbl.find, Ne.symm h]
    · by_cases hj : i = j
      · subst hj; simp [Tbl.set, Tbl.find, hk]
      · simp [Tbl.set, Tbl.find, hk, hj, ih]

@[simp] theorem Tbl.get_set_self {α : Type} (d : α) (t : Tbl α) (k : Nat) (a : α) : Tbl.get d (Tbl.set t k a) k = a := by
  simp [Tbl.get]

theorem Tbl.get_set_ne {α : Type} (d : α) (t : Tbl α) {k j : Nat} (a : α) (h : j ≠ k) :
    Tbl.get d (Tbl.set t k a) j = Tbl.get d t j := by
  simp [Tbl.get, Tbl.find_set_ne t a h]

/-! ## Members of vectors -/

theorem vget_vset_self {α : Type} {n : Nat} (d : α) (v : Vector α n) {i : Nat} (a : α) (h : i < n) :
    vget d (vset v i a) i = a := by
  simp [vget, vset, h]

theorem vget_vset_ne {α : Type} {n : Nat} (d : α) (v : Vector α n) {i j : Nat} (a : α) (h : i ≠ j) :
    vget d (vset v i a) j = vget d v j := by
  simp [vget, vset, List.getD, h]

/-! ## Registers of a thread (R93) -/

@[simp] theorem Thread.rx_zero (t : Thread) : t.rx 0 = 0 := rfl
@[simp] theorem Thread.wx_zero (t : Thread) (v : Word) : t.wx 0 v = t := rfl
@[simp] theorem Thread.wx_f (t : Thread) (r : Reg) (v : Word) : (t.wx r v).f = t.f := by unfold Thread.wx; split <;> rfl
@[simp] theorem Thread.wx_pc (t : Thread) (r : Reg) (v : Word) : (t.wx r v).pc = t.pc := by unfold Thread.wx; split <;> rfl
@[simp] theorem Thread.wf_x (t : Thread) (r : Reg) (v : Word) : (t.wf r v).x = t.x := rfl
@[simp] theorem Thread.wf_pc (t : Thread) (r : Reg) (v : Word) : (t.wf r v).pc = t.pc := rfl

theorem Thread.rx_wx_self (t : Thread) {r : Reg} (v : Word) (h : r ≠ 0) : (t.wx r v).rx r = v := by
  have h' : ¬r = 0#5 := h
  simp [Thread.rx, Thread.wx, h']

theorem Thread.rx_wx_ne (t : Thread) {r q : Reg} (v : Word) (h : q ≠ r) : (t.wx r v).rx q = t.rx q := by
  unfold Thread.wx
  split
  · rfl
  · unfold Thread.rx
    split
    · rfl
    · have : ¬BitVec.toNat r = BitVec.toNat q := fun e => h (BitVec.eq_of_toNat_eq e.symm)
      simp [this]

/-! ## What an update leaves -/

namespace State

@[simp] theorem setHart_agent (s : State) (p : Nat) (h : Hart) : (s.setHart p h).agent = s.agent := rfl
@[simp] theorem setHart_sched (s : State) (p : Nat) (h : Hart) : (s.setHart p h).sched = s.sched := rfl
@[simp] theorem setHart_free (s : State) (p : Nat) (h : Hart) : (s.setHart p h).free = s.free := rfl
@[simp] theorem setHart_halted (s : State) (p : Nat) (h : Hart) : (s.setHart p h).halted = s.halted := rfl
@[simp] theorem setHart_mem (s : State) (p : Nat) (h : Hart) : (s.setHart p h).mem = s.mem := rfl
@[simp] theorem setHart_sups (s : State) (p : Nat) (h : Hart) : (s.setHart p h).sups = s.sups := rfl
@[simp] theorem setHart_cores (s : State) (p : Nat) (h : Hart) : (s.setHart p h).cores = s.cores := rfl
@[simp] theorem setHart_clusters (s : State) (p : Nat) (h : Hart) : (s.setHart p h).clusters = s.clusters := rfl
@[simp] theorem setHart_ces (s : State) (p : Nat) (h : Hart) : (s.setHart p h).ces = s.ces := rfl
@[simp] theorem setHart_peg (s : State) (p : Nat) (h : Hart) : (s.setHart p h).peg = s.peg := rfl
@[simp] theorem setHart_watches (s : State) (p : Nat) (h : Hart) : (s.setHart p h).watches = s.watches := rfl
@[simp] theorem setHart_badSectors (s : State) (p : Nat) (h : Hart) : (s.setHart p h).badSectors = s.badSectors := rfl
@[simp] theorem setHart_lostSectors (s : State) (p : Nat) (h : Hart) : (s.setHart p h).lostSectors = s.lostSectors := rfl
@[simp] theorem setHart_badRegs (s : State) (p : Nat) (h : Hart) : (s.setHart p h).badRegs = s.badRegs := rfl
@[simp] theorem setHart_misses (s : State) (p : Nat) (h : Hart) : (s.setHart p h).misses = s.misses := rfl
@[simp] theorem setHart_l2 (s : State) (p : Nat) (h : Hart) : (s.setHart p h).l2 = s.l2 := rfl
@[simp] theorem setHart_l1 (s : State) (p : Nat) (h : Hart) : (s.setHart p h).l1 = s.l1 := rfl
@[simp] theorem setHart_peerCopies (s : State) (p : Nat) (h : Hart) : (s.setHart p h).peerCopies = s.peerCopies := rfl
@[simp] theorem setHart_trains (s : State) (p : Nat) (h : Hart) : (s.setHart p h).trains = s.trains := rfl
@[simp] theorem setHart_atsFail (s : State) (p : Nat) (h : Hart) : (s.setHart p h).atsFail = s.atsFail := rfl
@[simp] theorem setHart_nextCmd (s : State) (p : Nat) (h : Hart) : (s.setHart p h).nextCmd = s.nextCmd := rfl
@[simp] theorem setHart_clock (s : State) (p : Nat) (h : Hart) : (s.setHart p h).clock = s.clock := rfl
@[simp] theorem setHart_tripped (s : State) (p : Nat) (h : Hart) : (s.setHart p h).tripped = s.tripped := rfl
@[simp] theorem setHart_ended (s : State) (p : Nat) (h : Hart) : (s.setHart p h).ended = s.ended := rfl

@[simp] theorem dropHart_agent (s : State) (p : Nat) : (s.dropHart p).agent = s.agent := rfl
@[simp] theorem dropHart_sched (s : State) (p : Nat) : (s.dropHart p).sched = s.sched := rfl
@[simp] theorem dropHart_free (s : State) (p : Nat) : (s.dropHart p).free = s.free := rfl
@[simp] theorem dropHart_halted (s : State) (p : Nat) : (s.dropHart p).halted = s.halted := rfl
@[simp] theorem dropHart_mem (s : State) (p : Nat) : (s.dropHart p).mem = s.mem := rfl
@[simp] theorem dropHart_sups (s : State) (p : Nat) : (s.dropHart p).sups = s.sups := rfl
@[simp] theorem dropHart_cores (s : State) (p : Nat) : (s.dropHart p).cores = s.cores := rfl
@[simp] theorem dropHart_clusters (s : State) (p : Nat) : (s.dropHart p).clusters = s.clusters := rfl
@[simp] theorem dropHart_ces (s : State) (p : Nat) : (s.dropHart p).ces = s.ces := rfl
@[simp] theorem dropHart_peg (s : State) (p : Nat) : (s.dropHart p).peg = s.peg := rfl
@[simp] theorem dropHart_watches (s : State) (p : Nat) : (s.dropHart p).watches = s.watches := rfl
@[simp] theorem dropHart_badSectors (s : State) (p : Nat) : (s.dropHart p).badSectors = s.badSectors := rfl
@[simp] theorem dropHart_lostSectors (s : State) (p : Nat) : (s.dropHart p).lostSectors = s.lostSectors := rfl
@[simp] theorem dropHart_badRegs (s : State) (p : Nat) : (s.dropHart p).badRegs = s.badRegs := rfl
@[simp] theorem dropHart_misses (s : State) (p : Nat) : (s.dropHart p).misses = s.misses := rfl
@[simp] theorem dropHart_l2 (s : State) (p : Nat) : (s.dropHart p).l2 = s.l2 := rfl
@[simp] theorem dropHart_l1 (s : State) (p : Nat) : (s.dropHart p).l1 = s.l1 := rfl
@[simp] theorem dropHart_peerCopies (s : State) (p : Nat) : (s.dropHart p).peerCopies = s.peerCopies := rfl
@[simp] theorem dropHart_trains (s : State) (p : Nat) : (s.dropHart p).trains = s.trains := rfl
@[simp] theorem dropHart_atsFail (s : State) (p : Nat) : (s.dropHart p).atsFail = s.atsFail := rfl
@[simp] theorem dropHart_nextCmd (s : State) (p : Nat) : (s.dropHart p).nextCmd = s.nextCmd := rfl
@[simp] theorem dropHart_clock (s : State) (p : Nat) : (s.dropHart p).clock = s.clock := rfl
@[simp] theorem dropHart_tripped (s : State) (p : Nat) : (s.dropHart p).tripped = s.tripped := rfl
@[simp] theorem dropHart_ended (s : State) (p : Nat) : (s.dropHart p).ended = s.ended := rfl

@[simp] theorem updHart_agent (s : State) (p : Nat) (f : Hart → Hart) : (s.updHart p f).agent = s.agent := rfl
@[simp] theorem updHart_sched (s : State) (p : Nat) (f : Hart → Hart) : (s.updHart p f).sched = s.sched := rfl
@[simp] theorem updHart_free (s : State) (p : Nat) (f : Hart → Hart) : (s.updHart p f).free = s.free := rfl
@[simp] theorem updHart_halted (s : State) (p : Nat) (f : Hart → Hart) : (s.updHart p f).halted = s.halted := rfl
@[simp] theorem updHart_mem (s : State) (p : Nat) (f : Hart → Hart) : (s.updHart p f).mem = s.mem := rfl
@[simp] theorem updHart_sups (s : State) (p : Nat) (f : Hart → Hart) : (s.updHart p f).sups = s.sups := rfl
@[simp] theorem updHart_cores (s : State) (p : Nat) (f : Hart → Hart) : (s.updHart p f).cores = s.cores := rfl
@[simp] theorem updHart_clusters (s : State) (p : Nat) (f : Hart → Hart) : (s.updHart p f).clusters = s.clusters := rfl
@[simp] theorem updHart_ces (s : State) (p : Nat) (f : Hart → Hart) : (s.updHart p f).ces = s.ces := rfl
@[simp] theorem updHart_peg (s : State) (p : Nat) (f : Hart → Hart) : (s.updHart p f).peg = s.peg := rfl
@[simp] theorem updHart_watches (s : State) (p : Nat) (f : Hart → Hart) : (s.updHart p f).watches = s.watches := rfl
@[simp] theorem updHart_badSectors (s : State) (p : Nat) (f : Hart → Hart) : (s.updHart p f).badSectors = s.badSectors := rfl
@[simp] theorem updHart_lostSectors (s : State) (p : Nat) (f : Hart → Hart) : (s.updHart p f).lostSectors = s.lostSectors := rfl
@[simp] theorem updHart_badRegs (s : State) (p : Nat) (f : Hart → Hart) : (s.updHart p f).badRegs = s.badRegs := rfl
@[simp] theorem updHart_misses (s : State) (p : Nat) (f : Hart → Hart) : (s.updHart p f).misses = s.misses := rfl
@[simp] theorem updHart_l2 (s : State) (p : Nat) (f : Hart → Hart) : (s.updHart p f).l2 = s.l2 := rfl
@[simp] theorem updHart_l1 (s : State) (p : Nat) (f : Hart → Hart) : (s.updHart p f).l1 = s.l1 := rfl
@[simp] theorem updHart_peerCopies (s : State) (p : Nat) (f : Hart → Hart) : (s.updHart p f).peerCopies = s.peerCopies := rfl
@[simp] theorem updHart_trains (s : State) (p : Nat) (f : Hart → Hart) : (s.updHart p f).trains = s.trains := rfl
@[simp] theorem updHart_atsFail (s : State) (p : Nat) (f : Hart → Hart) : (s.updHart p f).atsFail = s.atsFail := rfl
@[simp] theorem updHart_nextCmd (s : State) (p : Nat) (f : Hart → Hart) : (s.updHart p f).nextCmd = s.nextCmd := rfl
@[simp] theorem updHart_clock (s : State) (p : Nat) (f : Hart → Hart) : (s.updHart p f).clock = s.clock := rfl
@[simp] theorem updHart_tripped (s : State) (p : Nat) (f : Hart → Hart) : (s.updHart p f).tripped = s.tripped := rfl
@[simp] theorem updHart_ended (s : State) (p : Nat) (f : Hart → Hart) : (s.updHart p f).ended = s.ended := rfl

@[simp] theorem setSup_agent (s : State) (p : Nat) (u : Sup) : (s.setSup p u).agent = s.agent := rfl
@[simp] theorem setSup_sched (s : State) (p : Nat) (u : Sup) : (s.setSup p u).sched = s.sched := rfl
@[simp] theorem setSup_free (s : State) (p : Nat) (u : Sup) : (s.setSup p u).free = s.free := rfl
@[simp] theorem setSup_halted (s : State) (p : Nat) (u : Sup) : (s.setSup p u).halted = s.halted := rfl
@[simp] theorem setSup_mem (s : State) (p : Nat) (u : Sup) : (s.setSup p u).mem = s.mem := rfl
@[simp] theorem setSup_harts (s : State) (p : Nat) (u : Sup) : (s.setSup p u).harts = s.harts := rfl
@[simp] theorem setSup_cores (s : State) (p : Nat) (u : Sup) : (s.setSup p u).cores = s.cores := rfl
@[simp] theorem setSup_clusters (s : State) (p : Nat) (u : Sup) : (s.setSup p u).clusters = s.clusters := rfl
@[simp] theorem setSup_ces (s : State) (p : Nat) (u : Sup) : (s.setSup p u).ces = s.ces := rfl
@[simp] theorem setSup_peg (s : State) (p : Nat) (u : Sup) : (s.setSup p u).peg = s.peg := rfl
@[simp] theorem setSup_watches (s : State) (p : Nat) (u : Sup) : (s.setSup p u).watches = s.watches := rfl
@[simp] theorem setSup_badSectors (s : State) (p : Nat) (u : Sup) : (s.setSup p u).badSectors = s.badSectors := rfl
@[simp] theorem setSup_lostSectors (s : State) (p : Nat) (u : Sup) : (s.setSup p u).lostSectors = s.lostSectors := rfl
@[simp] theorem setSup_badRegs (s : State) (p : Nat) (u : Sup) : (s.setSup p u).badRegs = s.badRegs := rfl
@[simp] theorem setSup_misses (s : State) (p : Nat) (u : Sup) : (s.setSup p u).misses = s.misses := rfl
@[simp] theorem setSup_l2 (s : State) (p : Nat) (u : Sup) : (s.setSup p u).l2 = s.l2 := rfl
@[simp] theorem setSup_l1 (s : State) (p : Nat) (u : Sup) : (s.setSup p u).l1 = s.l1 := rfl
@[simp] theorem setSup_peerCopies (s : State) (p : Nat) (u : Sup) : (s.setSup p u).peerCopies = s.peerCopies := rfl
@[simp] theorem setSup_trains (s : State) (p : Nat) (u : Sup) : (s.setSup p u).trains = s.trains := rfl
@[simp] theorem setSup_atsFail (s : State) (p : Nat) (u : Sup) : (s.setSup p u).atsFail = s.atsFail := rfl
@[simp] theorem setSup_nextCmd (s : State) (p : Nat) (u : Sup) : (s.setSup p u).nextCmd = s.nextCmd := rfl
@[simp] theorem setSup_clock (s : State) (p : Nat) (u : Sup) : (s.setSup p u).clock = s.clock := rfl
@[simp] theorem setSup_tripped (s : State) (p : Nat) (u : Sup) : (s.setSup p u).tripped = s.tripped := rfl
@[simp] theorem setSup_ended (s : State) (p : Nat) (u : Sup) : (s.setSup p u).ended = s.ended := rfl

@[simp] theorem updSup_agent (s : State) (p : Nat) (f : Sup → Sup) : (s.updSup p f).agent = s.agent := rfl
@[simp] theorem updSup_sched (s : State) (p : Nat) (f : Sup → Sup) : (s.updSup p f).sched = s.sched := rfl
@[simp] theorem updSup_free (s : State) (p : Nat) (f : Sup → Sup) : (s.updSup p f).free = s.free := rfl
@[simp] theorem updSup_halted (s : State) (p : Nat) (f : Sup → Sup) : (s.updSup p f).halted = s.halted := rfl
@[simp] theorem updSup_mem (s : State) (p : Nat) (f : Sup → Sup) : (s.updSup p f).mem = s.mem := rfl
@[simp] theorem updSup_harts (s : State) (p : Nat) (f : Sup → Sup) : (s.updSup p f).harts = s.harts := rfl
@[simp] theorem updSup_cores (s : State) (p : Nat) (f : Sup → Sup) : (s.updSup p f).cores = s.cores := rfl
@[simp] theorem updSup_clusters (s : State) (p : Nat) (f : Sup → Sup) : (s.updSup p f).clusters = s.clusters := rfl
@[simp] theorem updSup_ces (s : State) (p : Nat) (f : Sup → Sup) : (s.updSup p f).ces = s.ces := rfl
@[simp] theorem updSup_peg (s : State) (p : Nat) (f : Sup → Sup) : (s.updSup p f).peg = s.peg := rfl
@[simp] theorem updSup_watches (s : State) (p : Nat) (f : Sup → Sup) : (s.updSup p f).watches = s.watches := rfl
@[simp] theorem updSup_badSectors (s : State) (p : Nat) (f : Sup → Sup) : (s.updSup p f).badSectors = s.badSectors := rfl
@[simp] theorem updSup_lostSectors (s : State) (p : Nat) (f : Sup → Sup) : (s.updSup p f).lostSectors = s.lostSectors := rfl
@[simp] theorem updSup_badRegs (s : State) (p : Nat) (f : Sup → Sup) : (s.updSup p f).badRegs = s.badRegs := rfl
@[simp] theorem updSup_misses (s : State) (p : Nat) (f : Sup → Sup) : (s.updSup p f).misses = s.misses := rfl
@[simp] theorem updSup_l2 (s : State) (p : Nat) (f : Sup → Sup) : (s.updSup p f).l2 = s.l2 := rfl
@[simp] theorem updSup_l1 (s : State) (p : Nat) (f : Sup → Sup) : (s.updSup p f).l1 = s.l1 := rfl
@[simp] theorem updSup_peerCopies (s : State) (p : Nat) (f : Sup → Sup) : (s.updSup p f).peerCopies = s.peerCopies := rfl
@[simp] theorem updSup_trains (s : State) (p : Nat) (f : Sup → Sup) : (s.updSup p f).trains = s.trains := rfl
@[simp] theorem updSup_atsFail (s : State) (p : Nat) (f : Sup → Sup) : (s.updSup p f).atsFail = s.atsFail := rfl
@[simp] theorem updSup_nextCmd (s : State) (p : Nat) (f : Sup → Sup) : (s.updSup p f).nextCmd = s.nextCmd := rfl
@[simp] theorem updSup_clock (s : State) (p : Nat) (f : Sup → Sup) : (s.updSup p f).clock = s.clock := rfl
@[simp] theorem updSup_tripped (s : State) (p : Nat) (f : Sup → Sup) : (s.updSup p f).tripped = s.tripped := rfl
@[simp] theorem updSup_ended (s : State) (p : Nat) (f : Sup → Sup) : (s.updSup p f).ended = s.ended := rfl

@[simp] theorem setVcore_agent (s : State) (k : Nat) (c : VCore) : (s.setVcore k c).agent = s.agent := rfl
@[simp] theorem setVcore_sched (s : State) (k : Nat) (c : VCore) : (s.setVcore k c).sched = s.sched := rfl
@[simp] theorem setVcore_free (s : State) (k : Nat) (c : VCore) : (s.setVcore k c).free = s.free := rfl
@[simp] theorem setVcore_halted (s : State) (k : Nat) (c : VCore) : (s.setVcore k c).halted = s.halted := rfl
@[simp] theorem setVcore_mem (s : State) (k : Nat) (c : VCore) : (s.setVcore k c).mem = s.mem := rfl
@[simp] theorem setVcore_harts (s : State) (k : Nat) (c : VCore) : (s.setVcore k c).harts = s.harts := rfl
@[simp] theorem setVcore_sups (s : State) (k : Nat) (c : VCore) : (s.setVcore k c).sups = s.sups := rfl
@[simp] theorem setVcore_clusters (s : State) (k : Nat) (c : VCore) : (s.setVcore k c).clusters = s.clusters := rfl
@[simp] theorem setVcore_ces (s : State) (k : Nat) (c : VCore) : (s.setVcore k c).ces = s.ces := rfl
@[simp] theorem setVcore_peg (s : State) (k : Nat) (c : VCore) : (s.setVcore k c).peg = s.peg := rfl
@[simp] theorem setVcore_watches (s : State) (k : Nat) (c : VCore) : (s.setVcore k c).watches = s.watches := rfl
@[simp] theorem setVcore_badSectors (s : State) (k : Nat) (c : VCore) : (s.setVcore k c).badSectors = s.badSectors := rfl
@[simp] theorem setVcore_lostSectors (s : State) (k : Nat) (c : VCore) : (s.setVcore k c).lostSectors = s.lostSectors := rfl
@[simp] theorem setVcore_badRegs (s : State) (k : Nat) (c : VCore) : (s.setVcore k c).badRegs = s.badRegs := rfl
@[simp] theorem setVcore_misses (s : State) (k : Nat) (c : VCore) : (s.setVcore k c).misses = s.misses := rfl
@[simp] theorem setVcore_l2 (s : State) (k : Nat) (c : VCore) : (s.setVcore k c).l2 = s.l2 := rfl
@[simp] theorem setVcore_l1 (s : State) (k : Nat) (c : VCore) : (s.setVcore k c).l1 = s.l1 := rfl
@[simp] theorem setVcore_peerCopies (s : State) (k : Nat) (c : VCore) : (s.setVcore k c).peerCopies = s.peerCopies := rfl
@[simp] theorem setVcore_trains (s : State) (k : Nat) (c : VCore) : (s.setVcore k c).trains = s.trains := rfl
@[simp] theorem setVcore_atsFail (s : State) (k : Nat) (c : VCore) : (s.setVcore k c).atsFail = s.atsFail := rfl
@[simp] theorem setVcore_nextCmd (s : State) (k : Nat) (c : VCore) : (s.setVcore k c).nextCmd = s.nextCmd := rfl
@[simp] theorem setVcore_clock (s : State) (k : Nat) (c : VCore) : (s.setVcore k c).clock = s.clock := rfl
@[simp] theorem setVcore_tripped (s : State) (k : Nat) (c : VCore) : (s.setVcore k c).tripped = s.tripped := rfl
@[simp] theorem setVcore_ended (s : State) (k : Nat) (c : VCore) : (s.setVcore k c).ended = s.ended := rfl

@[simp] theorem updVcore_agent (s : State) (k : Nat) (f : VCore → VCore) : (s.updVcore k f).agent = s.agent := rfl
@[simp] theorem updVcore_sched (s : State) (k : Nat) (f : VCore → VCore) : (s.updVcore k f).sched = s.sched := rfl
@[simp] theorem updVcore_free (s : State) (k : Nat) (f : VCore → VCore) : (s.updVcore k f).free = s.free := rfl
@[simp] theorem updVcore_halted (s : State) (k : Nat) (f : VCore → VCore) : (s.updVcore k f).halted = s.halted := rfl
@[simp] theorem updVcore_mem (s : State) (k : Nat) (f : VCore → VCore) : (s.updVcore k f).mem = s.mem := rfl
@[simp] theorem updVcore_harts (s : State) (k : Nat) (f : VCore → VCore) : (s.updVcore k f).harts = s.harts := rfl
@[simp] theorem updVcore_sups (s : State) (k : Nat) (f : VCore → VCore) : (s.updVcore k f).sups = s.sups := rfl
@[simp] theorem updVcore_clusters (s : State) (k : Nat) (f : VCore → VCore) : (s.updVcore k f).clusters = s.clusters := rfl
@[simp] theorem updVcore_ces (s : State) (k : Nat) (f : VCore → VCore) : (s.updVcore k f).ces = s.ces := rfl
@[simp] theorem updVcore_peg (s : State) (k : Nat) (f : VCore → VCore) : (s.updVcore k f).peg = s.peg := rfl
@[simp] theorem updVcore_watches (s : State) (k : Nat) (f : VCore → VCore) : (s.updVcore k f).watches = s.watches := rfl
@[simp] theorem updVcore_badSectors (s : State) (k : Nat) (f : VCore → VCore) : (s.updVcore k f).badSectors = s.badSectors := rfl
@[simp] theorem updVcore_lostSectors (s : State) (k : Nat) (f : VCore → VCore) : (s.updVcore k f).lostSectors = s.lostSectors := rfl
@[simp] theorem updVcore_badRegs (s : State) (k : Nat) (f : VCore → VCore) : (s.updVcore k f).badRegs = s.badRegs := rfl
@[simp] theorem updVcore_misses (s : State) (k : Nat) (f : VCore → VCore) : (s.updVcore k f).misses = s.misses := rfl
@[simp] theorem updVcore_l2 (s : State) (k : Nat) (f : VCore → VCore) : (s.updVcore k f).l2 = s.l2 := rfl
@[simp] theorem updVcore_l1 (s : State) (k : Nat) (f : VCore → VCore) : (s.updVcore k f).l1 = s.l1 := rfl
@[simp] theorem updVcore_peerCopies (s : State) (k : Nat) (f : VCore → VCore) : (s.updVcore k f).peerCopies = s.peerCopies := rfl
@[simp] theorem updVcore_trains (s : State) (k : Nat) (f : VCore → VCore) : (s.updVcore k f).trains = s.trains := rfl
@[simp] theorem updVcore_atsFail (s : State) (k : Nat) (f : VCore → VCore) : (s.updVcore k f).atsFail = s.atsFail := rfl
@[simp] theorem updVcore_nextCmd (s : State) (k : Nat) (f : VCore → VCore) : (s.updVcore k f).nextCmd = s.nextCmd := rfl
@[simp] theorem updVcore_clock (s : State) (k : Nat) (f : VCore → VCore) : (s.updVcore k f).clock = s.clock := rfl
@[simp] theorem updVcore_tripped (s : State) (k : Nat) (f : VCore → VCore) : (s.updVcore k f).tripped = s.tripped := rfl
@[simp] theorem updVcore_ended (s : State) (k : Nat) (f : VCore → VCore) : (s.updVcore k f).ended = s.ended := rfl

@[simp] theorem setCluster_agent (s : State) (c : Nat) (k : Cluster) : (s.setCluster c k).agent = s.agent := rfl
@[simp] theorem setCluster_sched (s : State) (c : Nat) (k : Cluster) : (s.setCluster c k).sched = s.sched := rfl
@[simp] theorem setCluster_free (s : State) (c : Nat) (k : Cluster) : (s.setCluster c k).free = s.free := rfl
@[simp] theorem setCluster_halted (s : State) (c : Nat) (k : Cluster) : (s.setCluster c k).halted = s.halted := rfl
@[simp] theorem setCluster_mem (s : State) (c : Nat) (k : Cluster) : (s.setCluster c k).mem = s.mem := rfl
@[simp] theorem setCluster_harts (s : State) (c : Nat) (k : Cluster) : (s.setCluster c k).harts = s.harts := rfl
@[simp] theorem setCluster_sups (s : State) (c : Nat) (k : Cluster) : (s.setCluster c k).sups = s.sups := rfl
@[simp] theorem setCluster_cores (s : State) (c : Nat) (k : Cluster) : (s.setCluster c k).cores = s.cores := rfl
@[simp] theorem setCluster_ces (s : State) (c : Nat) (k : Cluster) : (s.setCluster c k).ces = s.ces := rfl
@[simp] theorem setCluster_peg (s : State) (c : Nat) (k : Cluster) : (s.setCluster c k).peg = s.peg := rfl
@[simp] theorem setCluster_watches (s : State) (c : Nat) (k : Cluster) : (s.setCluster c k).watches = s.watches := rfl
@[simp] theorem setCluster_badSectors (s : State) (c : Nat) (k : Cluster) : (s.setCluster c k).badSectors = s.badSectors := rfl
@[simp] theorem setCluster_lostSectors (s : State) (c : Nat) (k : Cluster) : (s.setCluster c k).lostSectors = s.lostSectors := rfl
@[simp] theorem setCluster_badRegs (s : State) (c : Nat) (k : Cluster) : (s.setCluster c k).badRegs = s.badRegs := rfl
@[simp] theorem setCluster_misses (s : State) (c : Nat) (k : Cluster) : (s.setCluster c k).misses = s.misses := rfl
@[simp] theorem setCluster_l2 (s : State) (c : Nat) (k : Cluster) : (s.setCluster c k).l2 = s.l2 := rfl
@[simp] theorem setCluster_l1 (s : State) (c : Nat) (k : Cluster) : (s.setCluster c k).l1 = s.l1 := rfl
@[simp] theorem setCluster_peerCopies (s : State) (c : Nat) (k : Cluster) : (s.setCluster c k).peerCopies = s.peerCopies := rfl
@[simp] theorem setCluster_trains (s : State) (c : Nat) (k : Cluster) : (s.setCluster c k).trains = s.trains := rfl
@[simp] theorem setCluster_atsFail (s : State) (c : Nat) (k : Cluster) : (s.setCluster c k).atsFail = s.atsFail := rfl
@[simp] theorem setCluster_nextCmd (s : State) (c : Nat) (k : Cluster) : (s.setCluster c k).nextCmd = s.nextCmd := rfl
@[simp] theorem setCluster_clock (s : State) (c : Nat) (k : Cluster) : (s.setCluster c k).clock = s.clock := rfl
@[simp] theorem setCluster_tripped (s : State) (c : Nat) (k : Cluster) : (s.setCluster c k).tripped = s.tripped := rfl
@[simp] theorem setCluster_ended (s : State) (c : Nat) (k : Cluster) : (s.setCluster c k).ended = s.ended := rfl

@[simp] theorem updCluster_agent (s : State) (c : Nat) (f : Cluster → Cluster) : (s.updCluster c f).agent = s.agent := rfl
@[simp] theorem updCluster_sched (s : State) (c : Nat) (f : Cluster → Cluster) : (s.updCluster c f).sched = s.sched := rfl
@[simp] theorem updCluster_free (s : State) (c : Nat) (f : Cluster → Cluster) : (s.updCluster c f).free = s.free := rfl
@[simp] theorem updCluster_halted (s : State) (c : Nat) (f : Cluster → Cluster) : (s.updCluster c f).halted = s.halted := rfl
@[simp] theorem updCluster_mem (s : State) (c : Nat) (f : Cluster → Cluster) : (s.updCluster c f).mem = s.mem := rfl
@[simp] theorem updCluster_harts (s : State) (c : Nat) (f : Cluster → Cluster) : (s.updCluster c f).harts = s.harts := rfl
@[simp] theorem updCluster_sups (s : State) (c : Nat) (f : Cluster → Cluster) : (s.updCluster c f).sups = s.sups := rfl
@[simp] theorem updCluster_cores (s : State) (c : Nat) (f : Cluster → Cluster) : (s.updCluster c f).cores = s.cores := rfl
@[simp] theorem updCluster_ces (s : State) (c : Nat) (f : Cluster → Cluster) : (s.updCluster c f).ces = s.ces := rfl
@[simp] theorem updCluster_peg (s : State) (c : Nat) (f : Cluster → Cluster) : (s.updCluster c f).peg = s.peg := rfl
@[simp] theorem updCluster_watches (s : State) (c : Nat) (f : Cluster → Cluster) : (s.updCluster c f).watches = s.watches := rfl
@[simp] theorem updCluster_badSectors (s : State) (c : Nat) (f : Cluster → Cluster) : (s.updCluster c f).badSectors = s.badSectors := rfl
@[simp] theorem updCluster_lostSectors (s : State) (c : Nat) (f : Cluster → Cluster) : (s.updCluster c f).lostSectors = s.lostSectors := rfl
@[simp] theorem updCluster_badRegs (s : State) (c : Nat) (f : Cluster → Cluster) : (s.updCluster c f).badRegs = s.badRegs := rfl
@[simp] theorem updCluster_misses (s : State) (c : Nat) (f : Cluster → Cluster) : (s.updCluster c f).misses = s.misses := rfl
@[simp] theorem updCluster_l2 (s : State) (c : Nat) (f : Cluster → Cluster) : (s.updCluster c f).l2 = s.l2 := rfl
@[simp] theorem updCluster_l1 (s : State) (c : Nat) (f : Cluster → Cluster) : (s.updCluster c f).l1 = s.l1 := rfl
@[simp] theorem updCluster_peerCopies (s : State) (c : Nat) (f : Cluster → Cluster) : (s.updCluster c f).peerCopies = s.peerCopies := rfl
@[simp] theorem updCluster_trains (s : State) (c : Nat) (f : Cluster → Cluster) : (s.updCluster c f).trains = s.trains := rfl
@[simp] theorem updCluster_atsFail (s : State) (c : Nat) (f : Cluster → Cluster) : (s.updCluster c f).atsFail = s.atsFail := rfl
@[simp] theorem updCluster_nextCmd (s : State) (c : Nat) (f : Cluster → Cluster) : (s.updCluster c f).nextCmd = s.nextCmd := rfl
@[simp] theorem updCluster_clock (s : State) (c : Nat) (f : Cluster → Cluster) : (s.updCluster c f).clock = s.clock := rfl
@[simp] theorem updCluster_tripped (s : State) (c : Nat) (f : Cluster → Cluster) : (s.updCluster c f).tripped = s.tripped := rfl
@[simp] theorem updCluster_ended (s : State) (c : Nat) (f : Cluster → Cluster) : (s.updCluster c f).ended = s.ended := rfl

@[simp] theorem setCe_agent (s : State) (e : Nat) (c : CopyEngine) : (s.setCe e c).agent = s.agent := rfl
@[simp] theorem setCe_sched (s : State) (e : Nat) (c : CopyEngine) : (s.setCe e c).sched = s.sched := rfl
@[simp] theorem setCe_free (s : State) (e : Nat) (c : CopyEngine) : (s.setCe e c).free = s.free := rfl
@[simp] theorem setCe_halted (s : State) (e : Nat) (c : CopyEngine) : (s.setCe e c).halted = s.halted := rfl
@[simp] theorem setCe_mem (s : State) (e : Nat) (c : CopyEngine) : (s.setCe e c).mem = s.mem := rfl
@[simp] theorem setCe_harts (s : State) (e : Nat) (c : CopyEngine) : (s.setCe e c).harts = s.harts := rfl
@[simp] theorem setCe_sups (s : State) (e : Nat) (c : CopyEngine) : (s.setCe e c).sups = s.sups := rfl
@[simp] theorem setCe_cores (s : State) (e : Nat) (c : CopyEngine) : (s.setCe e c).cores = s.cores := rfl
@[simp] theorem setCe_clusters (s : State) (e : Nat) (c : CopyEngine) : (s.setCe e c).clusters = s.clusters := rfl
@[simp] theorem setCe_peg (s : State) (e : Nat) (c : CopyEngine) : (s.setCe e c).peg = s.peg := rfl
@[simp] theorem setCe_watches (s : State) (e : Nat) (c : CopyEngine) : (s.setCe e c).watches = s.watches := rfl
@[simp] theorem setCe_badSectors (s : State) (e : Nat) (c : CopyEngine) : (s.setCe e c).badSectors = s.badSectors := rfl
@[simp] theorem setCe_lostSectors (s : State) (e : Nat) (c : CopyEngine) : (s.setCe e c).lostSectors = s.lostSectors := rfl
@[simp] theorem setCe_badRegs (s : State) (e : Nat) (c : CopyEngine) : (s.setCe e c).badRegs = s.badRegs := rfl
@[simp] theorem setCe_misses (s : State) (e : Nat) (c : CopyEngine) : (s.setCe e c).misses = s.misses := rfl
@[simp] theorem setCe_l2 (s : State) (e : Nat) (c : CopyEngine) : (s.setCe e c).l2 = s.l2 := rfl
@[simp] theorem setCe_l1 (s : State) (e : Nat) (c : CopyEngine) : (s.setCe e c).l1 = s.l1 := rfl
@[simp] theorem setCe_peerCopies (s : State) (e : Nat) (c : CopyEngine) : (s.setCe e c).peerCopies = s.peerCopies := rfl
@[simp] theorem setCe_trains (s : State) (e : Nat) (c : CopyEngine) : (s.setCe e c).trains = s.trains := rfl
@[simp] theorem setCe_atsFail (s : State) (e : Nat) (c : CopyEngine) : (s.setCe e c).atsFail = s.atsFail := rfl
@[simp] theorem setCe_nextCmd (s : State) (e : Nat) (c : CopyEngine) : (s.setCe e c).nextCmd = s.nextCmd := rfl
@[simp] theorem setCe_clock (s : State) (e : Nat) (c : CopyEngine) : (s.setCe e c).clock = s.clock := rfl
@[simp] theorem setCe_tripped (s : State) (e : Nat) (c : CopyEngine) : (s.setCe e c).tripped = s.tripped := rfl
@[simp] theorem setCe_ended (s : State) (e : Nat) (c : CopyEngine) : (s.setCe e c).ended = s.ended := rfl

@[simp] theorem updPeg_agent (s : State) (f : Peg → Peg) : (s.updPeg f).agent = s.agent := rfl
@[simp] theorem updPeg_sched (s : State) (f : Peg → Peg) : (s.updPeg f).sched = s.sched := rfl
@[simp] theorem updPeg_free (s : State) (f : Peg → Peg) : (s.updPeg f).free = s.free := rfl
@[simp] theorem updPeg_halted (s : State) (f : Peg → Peg) : (s.updPeg f).halted = s.halted := rfl
@[simp] theorem updPeg_mem (s : State) (f : Peg → Peg) : (s.updPeg f).mem = s.mem := rfl
@[simp] theorem updPeg_harts (s : State) (f : Peg → Peg) : (s.updPeg f).harts = s.harts := rfl
@[simp] theorem updPeg_sups (s : State) (f : Peg → Peg) : (s.updPeg f).sups = s.sups := rfl
@[simp] theorem updPeg_cores (s : State) (f : Peg → Peg) : (s.updPeg f).cores = s.cores := rfl
@[simp] theorem updPeg_clusters (s : State) (f : Peg → Peg) : (s.updPeg f).clusters = s.clusters := rfl
@[simp] theorem updPeg_ces (s : State) (f : Peg → Peg) : (s.updPeg f).ces = s.ces := rfl
@[simp] theorem updPeg_watches (s : State) (f : Peg → Peg) : (s.updPeg f).watches = s.watches := rfl
@[simp] theorem updPeg_badSectors (s : State) (f : Peg → Peg) : (s.updPeg f).badSectors = s.badSectors := rfl
@[simp] theorem updPeg_lostSectors (s : State) (f : Peg → Peg) : (s.updPeg f).lostSectors = s.lostSectors := rfl
@[simp] theorem updPeg_badRegs (s : State) (f : Peg → Peg) : (s.updPeg f).badRegs = s.badRegs := rfl
@[simp] theorem updPeg_misses (s : State) (f : Peg → Peg) : (s.updPeg f).misses = s.misses := rfl
@[simp] theorem updPeg_l2 (s : State) (f : Peg → Peg) : (s.updPeg f).l2 = s.l2 := rfl
@[simp] theorem updPeg_l1 (s : State) (f : Peg → Peg) : (s.updPeg f).l1 = s.l1 := rfl
@[simp] theorem updPeg_peerCopies (s : State) (f : Peg → Peg) : (s.updPeg f).peerCopies = s.peerCopies := rfl
@[simp] theorem updPeg_trains (s : State) (f : Peg → Peg) : (s.updPeg f).trains = s.trains := rfl
@[simp] theorem updPeg_atsFail (s : State) (f : Peg → Peg) : (s.updPeg f).atsFail = s.atsFail := rfl
@[simp] theorem updPeg_nextCmd (s : State) (f : Peg → Peg) : (s.updPeg f).nextCmd = s.nextCmd := rfl
@[simp] theorem updPeg_clock (s : State) (f : Peg → Peg) : (s.updPeg f).clock = s.clock := rfl
@[simp] theorem updPeg_tripped (s : State) (f : Peg → Peg) : (s.updPeg f).tripped = s.tripped := rfl
@[simp] theorem updPeg_ended (s : State) (f : Peg → Peg) : (s.updPeg f).ended = s.ended := rfl

@[simp] theorem updLaunch_agent (s : State) (n : Nat) (f : Launch → Launch) : (s.updLaunch n f).agent = s.agent := rfl
@[simp] theorem updLaunch_sched (s : State) (n : Nat) (f : Launch → Launch) : (s.updLaunch n f).sched = s.sched := rfl
@[simp] theorem updLaunch_free (s : State) (n : Nat) (f : Launch → Launch) : (s.updLaunch n f).free = s.free := rfl
@[simp] theorem updLaunch_halted (s : State) (n : Nat) (f : Launch → Launch) : (s.updLaunch n f).halted = s.halted := rfl
@[simp] theorem updLaunch_mem (s : State) (n : Nat) (f : Launch → Launch) : (s.updLaunch n f).mem = s.mem := rfl
@[simp] theorem updLaunch_harts (s : State) (n : Nat) (f : Launch → Launch) : (s.updLaunch n f).harts = s.harts := rfl
@[simp] theorem updLaunch_sups (s : State) (n : Nat) (f : Launch → Launch) : (s.updLaunch n f).sups = s.sups := rfl
@[simp] theorem updLaunch_cores (s : State) (n : Nat) (f : Launch → Launch) : (s.updLaunch n f).cores = s.cores := rfl
@[simp] theorem updLaunch_clusters (s : State) (n : Nat) (f : Launch → Launch) : (s.updLaunch n f).clusters = s.clusters := rfl
@[simp] theorem updLaunch_ces (s : State) (n : Nat) (f : Launch → Launch) : (s.updLaunch n f).ces = s.ces := rfl
@[simp] theorem updLaunch_watches (s : State) (n : Nat) (f : Launch → Launch) : (s.updLaunch n f).watches = s.watches := rfl
@[simp] theorem updLaunch_badSectors (s : State) (n : Nat) (f : Launch → Launch) : (s.updLaunch n f).badSectors = s.badSectors := rfl
@[simp] theorem updLaunch_lostSectors (s : State) (n : Nat) (f : Launch → Launch) : (s.updLaunch n f).lostSectors = s.lostSectors := rfl
@[simp] theorem updLaunch_badRegs (s : State) (n : Nat) (f : Launch → Launch) : (s.updLaunch n f).badRegs = s.badRegs := rfl
@[simp] theorem updLaunch_misses (s : State) (n : Nat) (f : Launch → Launch) : (s.updLaunch n f).misses = s.misses := rfl
@[simp] theorem updLaunch_l2 (s : State) (n : Nat) (f : Launch → Launch) : (s.updLaunch n f).l2 = s.l2 := rfl
@[simp] theorem updLaunch_l1 (s : State) (n : Nat) (f : Launch → Launch) : (s.updLaunch n f).l1 = s.l1 := rfl
@[simp] theorem updLaunch_peerCopies (s : State) (n : Nat) (f : Launch → Launch) : (s.updLaunch n f).peerCopies = s.peerCopies := rfl
@[simp] theorem updLaunch_trains (s : State) (n : Nat) (f : Launch → Launch) : (s.updLaunch n f).trains = s.trains := rfl
@[simp] theorem updLaunch_atsFail (s : State) (n : Nat) (f : Launch → Launch) : (s.updLaunch n f).atsFail = s.atsFail := rfl
@[simp] theorem updLaunch_nextCmd (s : State) (n : Nat) (f : Launch → Launch) : (s.updLaunch n f).nextCmd = s.nextCmd := rfl
@[simp] theorem updLaunch_clock (s : State) (n : Nat) (f : Launch → Launch) : (s.updLaunch n f).clock = s.clock := rfl
@[simp] theorem updLaunch_tripped (s : State) (n : Nat) (f : Launch → Launch) : (s.updLaunch n f).tripped = s.tripped := rfl
@[simp] theorem updLaunch_ended (s : State) (n : Nat) (f : Launch → Launch) : (s.updLaunch n f).ended = s.ended := rfl

@[simp] theorem tick_agent (s : State) : (s.tick).agent = s.agent := rfl
@[simp] theorem tick_sched (s : State) : (s.tick).sched = s.sched := rfl
@[simp] theorem tick_halted (s : State) : (s.tick).halted = s.halted := rfl
@[simp] theorem tick_mem (s : State) : (s.tick).mem = s.mem := rfl
@[simp] theorem tick_harts (s : State) : (s.tick).harts = s.harts := rfl
@[simp] theorem tick_sups (s : State) : (s.tick).sups = s.sups := rfl
@[simp] theorem tick_cores (s : State) : (s.tick).cores = s.cores := rfl
@[simp] theorem tick_clusters (s : State) : (s.tick).clusters = s.clusters := rfl
@[simp] theorem tick_ces (s : State) : (s.tick).ces = s.ces := rfl
@[simp] theorem tick_peg (s : State) : (s.tick).peg = s.peg := rfl
@[simp] theorem tick_watches (s : State) : (s.tick).watches = s.watches := rfl
@[simp] theorem tick_badSectors (s : State) : (s.tick).badSectors = s.badSectors := rfl
@[simp] theorem tick_lostSectors (s : State) : (s.tick).lostSectors = s.lostSectors := rfl
@[simp] theorem tick_badRegs (s : State) : (s.tick).badRegs = s.badRegs := rfl
@[simp] theorem tick_misses (s : State) : (s.tick).misses = s.misses := rfl
@[simp] theorem tick_l2 (s : State) : (s.tick).l2 = s.l2 := rfl
@[simp] theorem tick_l1 (s : State) : (s.tick).l1 = s.l1 := rfl
@[simp] theorem tick_peerCopies (s : State) : (s.tick).peerCopies = s.peerCopies := rfl
@[simp] theorem tick_trains (s : State) : (s.tick).trains = s.trains := rfl
@[simp] theorem tick_atsFail (s : State) : (s.tick).atsFail = s.atsFail := rfl
@[simp] theorem tick_nextCmd (s : State) : (s.tick).nextCmd = s.nextCmd := rfl
@[simp] theorem tick_clock (s : State) : (s.tick).clock = s.clock := rfl
@[simp] theorem tick_tripped (s : State) : (s.tick).tripped = s.tripped := rfl
@[simp] theorem tick_ended (s : State) : (s.tick).ended = s.ended := rfl

/-! ## Reading back an entry -/

@[simp] theorem hart_updHart_self (s : State) (p : Nat) (f : Hart → Hart) : (s.updHart p f).hart p = f (s.hart p) := by
  simp [updHart, setHart, hart]
theorem hart_updHart_ne (s : State) {p q : Nat} (f : Hart → Hart) (h : q ≠ p) : (s.updHart p f).hart q = s.hart q := by
  simp [updHart, setHart, hart, Tbl.get_set_ne _ _ _ h]
@[simp] theorem sup_updSup_self (s : State) (p : Nat) (f : Sup → Sup) : (s.updSup p f).sup p = f (s.sup p) := by
  simp [updSup, setSup, sup]
theorem sup_updSup_ne (s : State) {p q : Nat} (f : Sup → Sup) (h : q ≠ p) : (s.updSup p f).sup q = s.sup q := by
  simp [updSup, setSup, sup, Tbl.get_set_ne _ _ _ h]
@[simp] theorem vcore_updVcore_self (s : State) (k : Nat) (f : VCore → VCore) :
    (s.updVcore k f).vcore k = f (s.vcore k) := by
  simp [updVcore, setVcore, vcore]
theorem vcore_updVcore_ne (s : State) {k j : Nat} (f : VCore → VCore) (h : j ≠ k) :
    (s.updVcore k f).vcore j = s.vcore j := by
  simp [updVcore, setVcore, vcore, Tbl.get_set_ne _ _ _ h]
@[simp] theorem cluster_updCluster_self (s : State) (c : Nat) (f : Cluster → Cluster) :
    (s.updCluster c f).cluster c = f (s.cluster c) := by
  simp [updCluster, setCluster, cluster]
theorem cluster_updCluster_ne (s : State) {c d : Nat} (f : Cluster → Cluster) (h : d ≠ c) :
    (s.updCluster c f).cluster d = s.cluster d := by
  simp [updCluster, setCluster, cluster, Tbl.get_set_ne _ _ _ h]

@[simp] theorem hart_updSup (s : State) (p : Nat) (f : Sup → Sup) (q : Nat) : (s.updSup p f).hart q = s.hart q := rfl
@[simp] theorem hart_updVcore (s : State) (k : Nat) (f : VCore → VCore) (q : Nat) : (s.updVcore k f).hart q = s.hart q := rfl
@[simp] theorem hart_updCluster (s : State) (c : Nat) (f : Cluster → Cluster) (q : Nat) : (s.updCluster c f).hart q = s.hart q := rfl
@[simp] theorem hart_setCe (s : State) (e : Nat) (c : CopyEngine) (q : Nat) : (s.setCe e c).hart q = s.hart q := rfl
@[simp] theorem hart_updPeg (s : State) (f : Peg → Peg) (q : Nat) : (s.updPeg f).hart q = s.hart q := rfl
@[simp] theorem hart_tick (s : State) (q : Nat) : (s.tick).hart q = s.hart q := rfl
@[simp] theorem sup_updHart (s : State) (p : Nat) (f : Hart → Hart) (q : Nat) : (s.updHart p f).sup q = s.sup q := rfl
@[simp] theorem sup_updVcore (s : State) (k : Nat) (f : VCore → VCore) (q : Nat) : (s.updVcore k f).sup q = s.sup q := rfl
@[simp] theorem sup_updCluster (s : State) (c : Nat) (f : Cluster → Cluster) (q : Nat) : (s.updCluster c f).sup q = s.sup q := rfl
@[simp] theorem sup_setCe (s : State) (e : Nat) (c : CopyEngine) (q : Nat) : (s.setCe e c).sup q = s.sup q := rfl
@[simp] theorem sup_updPeg (s : State) (f : Peg → Peg) (q : Nat) : (s.updPeg f).sup q = s.sup q := rfl
@[simp] theorem sup_tick (s : State) (q : Nat) : (s.tick).sup q = s.sup q := rfl
@[simp] theorem vcore_updHart (s : State) (p : Nat) (f : Hart → Hart) (q : Nat) : (s.updHart p f).vcore q = s.vcore q := rfl
@[simp] theorem vcore_updSup (s : State) (p : Nat) (f : Sup → Sup) (q : Nat) : (s.updSup p f).vcore q = s.vcore q := rfl
@[simp] theorem vcore_updCluster (s : State) (c : Nat) (f : Cluster → Cluster) (q : Nat) : (s.updCluster c f).vcore q = s.vcore q := rfl
@[simp] theorem vcore_setCe (s : State) (e : Nat) (c : CopyEngine) (q : Nat) : (s.setCe e c).vcore q = s.vcore q := rfl
@[simp] theorem vcore_updPeg (s : State) (f : Peg → Peg) (q : Nat) : (s.updPeg f).vcore q = s.vcore q := rfl
@[simp] theorem vcore_tick (s : State) (q : Nat) : (s.tick).vcore q = s.vcore q := rfl
@[simp] theorem cluster_updHart (s : State) (p : Nat) (f : Hart → Hart) (q : Nat) : (s.updHart p f).cluster q = s.cluster q := rfl
@[simp] theorem cluster_updSup (s : State) (p : Nat) (f : Sup → Sup) (q : Nat) : (s.updSup p f).cluster q = s.cluster q := rfl
@[simp] theorem cluster_updVcore (s : State) (k : Nat) (f : VCore → VCore) (q : Nat) : (s.updVcore k f).cluster q = s.cluster q := rfl
@[simp] theorem cluster_setCe (s : State) (e : Nat) (c : CopyEngine) (q : Nat) : (s.setCe e c).cluster q = s.cluster q := rfl
@[simp] theorem cluster_updPeg (s : State) (f : Peg → Peg) (q : Nat) : (s.updPeg f).cluster q = s.cluster q := rfl
@[simp] theorem cluster_tick (s : State) (q : Nat) : (s.tick).cluster q = s.cluster q := rfl

/-! ## Written registers are clean (R219) -/

@[simp] theorem clean_agent (s : State) (p file r : Nat) : (s.clean p file r).agent = s.agent := by unfold clean; split <;> rfl
@[simp] theorem clean_sched (s : State) (p file r : Nat) : (s.clean p file r).sched = s.sched := by unfold clean; split <;> rfl
@[simp] theorem clean_free (s : State) (p file r : Nat) : (s.clean p file r).free = s.free := by unfold clean; split <;> rfl
@[simp] theorem clean_halted (s : State) (p file r : Nat) : (s.clean p file r).halted = s.halted := by unfold clean; split <;> rfl
@[simp] theorem clean_mem (s : State) (p file r : Nat) : (s.clean p file r).mem = s.mem := by unfold clean; split <;> rfl
@[simp] theorem clean_harts (s : State) (p file r : Nat) : (s.clean p file r).harts = s.harts := by unfold clean; split <;> rfl
@[simp] theorem clean_ended (s : State) (p file r : Nat) : (s.clean p file r).ended = s.ended := by unfold clean; split <;> rfl
@[simp] theorem clean_sups (s : State) (p file r : Nat) : (s.clean p file r).sups = s.sups := by unfold clean; split <;> rfl
@[simp] theorem clean_cores (s : State) (p file r : Nat) : (s.clean p file r).cores = s.cores := by unfold clean; split <;> rfl
@[simp] theorem clean_clusters (s : State) (p file r : Nat) : (s.clean p file r).clusters = s.clusters := by unfold clean; split <;> rfl
@[simp] theorem clean_ces (s : State) (p file r : Nat) : (s.clean p file r).ces = s.ces := by unfold clean; split <;> rfl
@[simp] theorem clean_peg (s : State) (p file r : Nat) : (s.clean p file r).peg = s.peg := by unfold clean; split <;> rfl
@[simp] theorem clean_watches (s : State) (p file r : Nat) : (s.clean p file r).watches = s.watches := by unfold clean; split <;> rfl
@[simp] theorem clean_badSectors (s : State) (p file r : Nat) : (s.clean p file r).badSectors = s.badSectors := by unfold clean; split <;> rfl
@[simp] theorem clean_lostSectors (s : State) (p file r : Nat) : (s.clean p file r).lostSectors = s.lostSectors := by unfold clean; split <;> rfl
@[simp] theorem clean_misses (s : State) (p file r : Nat) : (s.clean p file r).misses = s.misses := by unfold clean; split <;> rfl
@[simp] theorem clean_l2 (s : State) (p file r : Nat) : (s.clean p file r).l2 = s.l2 := by unfold clean; split <;> rfl
@[simp] theorem clean_l1 (s : State) (p file r : Nat) : (s.clean p file r).l1 = s.l1 := by unfold clean; split <;> rfl
@[simp] theorem clean_peerCopies (s : State) (p file r : Nat) : (s.clean p file r).peerCopies = s.peerCopies := by unfold clean; split <;> rfl
@[simp] theorem clean_trains (s : State) (p file r : Nat) : (s.clean p file r).trains = s.trains := by unfold clean; split <;> rfl
@[simp] theorem clean_atsFail (s : State) (p file r : Nat) : (s.clean p file r).atsFail = s.atsFail := by unfold clean; split <;> rfl
@[simp] theorem clean_nextCmd (s : State) (p file r : Nat) : (s.clean p file r).nextCmd = s.nextCmd := by unfold clean; split <;> rfl
@[simp] theorem clean_clock (s : State) (p file r : Nat) : (s.clean p file r).clock = s.clock := by unfold clean; split <;> rfl
@[simp] theorem clean_tripped (s : State) (p file r : Nat) : (s.clean p file r).tripped = s.tripped := by unfold clean; split <;> rfl

@[simp] theorem cleanReg_agent (s : State) (a : Agent) (toF : Bool) (r : Reg) : (s.cleanReg a toF r).agent = s.agent := by
  cases a <;> simp [cleanReg]
@[simp] theorem cleanReg_sched (s : State) (a : Agent) (toF : Bool) (r : Reg) : (s.cleanReg a toF r).sched = s.sched := by
  cases a <;> simp [cleanReg]
@[simp] theorem cleanReg_free (s : State) (a : Agent) (toF : Bool) (r : Reg) : (s.cleanReg a toF r).free = s.free := by
  cases a <;> simp [cleanReg]
@[simp] theorem cleanReg_halted (s : State) (a : Agent) (toF : Bool) (r : Reg) : (s.cleanReg a toF r).halted = s.halted := by
  cases a <;> simp [cleanReg]
@[simp] theorem cleanReg_mem (s : State) (a : Agent) (toF : Bool) (r : Reg) : (s.cleanReg a toF r).mem = s.mem := by
  cases a <;> simp [cleanReg]
@[simp] theorem cleanReg_harts (s : State) (a : Agent) (toF : Bool) (r : Reg) : (s.cleanReg a toF r).harts = s.harts := by
  cases a <;> simp [cleanReg]
@[simp] theorem cleanReg_ended (s : State) (a : Agent) (toF : Bool) (r : Reg) : (s.cleanReg a toF r).ended = s.ended := by
  cases a <;> simp [cleanReg]
@[simp] theorem cleanReg_sups (s : State) (a : Agent) (toF : Bool) (r : Reg) : (s.cleanReg a toF r).sups = s.sups := by
  cases a <;> simp [cleanReg]
@[simp] theorem cleanReg_cores (s : State) (a : Agent) (toF : Bool) (r : Reg) : (s.cleanReg a toF r).cores = s.cores := by
  cases a <;> simp [cleanReg]
@[simp] theorem cleanReg_clusters (s : State) (a : Agent) (toF : Bool) (r : Reg) : (s.cleanReg a toF r).clusters = s.clusters := by
  cases a <;> simp [cleanReg]
@[simp] theorem cleanReg_ces (s : State) (a : Agent) (toF : Bool) (r : Reg) : (s.cleanReg a toF r).ces = s.ces := by
  cases a <;> simp [cleanReg]
@[simp] theorem cleanReg_peg (s : State) (a : Agent) (toF : Bool) (r : Reg) : (s.cleanReg a toF r).peg = s.peg := by
  cases a <;> simp [cleanReg]
@[simp] theorem cleanReg_watches (s : State) (a : Agent) (toF : Bool) (r : Reg) : (s.cleanReg a toF r).watches = s.watches := by
  cases a <;> simp [cleanReg]
@[simp] theorem cleanReg_badSectors (s : State) (a : Agent) (toF : Bool) (r : Reg) : (s.cleanReg a toF r).badSectors = s.badSectors := by
  cases a <;> simp [cleanReg]
@[simp] theorem cleanReg_lostSectors (s : State) (a : Agent) (toF : Bool) (r : Reg) : (s.cleanReg a toF r).lostSectors = s.lostSectors := by
  cases a <;> simp [cleanReg]
@[simp] theorem cleanReg_misses (s : State) (a : Agent) (toF : Bool) (r : Reg) : (s.cleanReg a toF r).misses = s.misses := by
  cases a <;> simp [cleanReg]
@[simp] theorem cleanReg_l2 (s : State) (a : Agent) (toF : Bool) (r : Reg) : (s.cleanReg a toF r).l2 = s.l2 := by
  cases a <;> simp [cleanReg]
@[simp] theorem cleanReg_l1 (s : State) (a : Agent) (toF : Bool) (r : Reg) : (s.cleanReg a toF r).l1 = s.l1 := by
  cases a <;> simp [cleanReg]
@[simp] theorem cleanReg_peerCopies (s : State) (a : Agent) (toF : Bool) (r : Reg) : (s.cleanReg a toF r).peerCopies = s.peerCopies := by
  cases a <;> simp [cleanReg]
@[simp] theorem cleanReg_trains (s : State) (a : Agent) (toF : Bool) (r : Reg) : (s.cleanReg a toF r).trains = s.trains := by
  cases a <;> simp [cleanReg]
@[simp] theorem cleanReg_atsFail (s : State) (a : Agent) (toF : Bool) (r : Reg) : (s.cleanReg a toF r).atsFail = s.atsFail := by
  cases a <;> simp [cleanReg]
@[simp] theorem cleanReg_nextCmd (s : State) (a : Agent) (toF : Bool) (r : Reg) : (s.cleanReg a toF r).nextCmd = s.nextCmd := by
  cases a <;> simp [cleanReg]
@[simp] theorem cleanReg_clock (s : State) (a : Agent) (toF : Bool) (r : Reg) : (s.cleanReg a toF r).clock = s.clock := by
  cases a <;> simp [cleanReg]
@[simp] theorem cleanReg_tripped (s : State) (a : Agent) (toF : Bool) (r : Reg) : (s.cleanReg a toF r).tripped = s.tripped := by
  cases a <;> simp [cleanReg]

@[simp] theorem hart_cleanReg (s : State) (a : Agent) (toF : Bool) (r : Reg) (p : Nat) :
    (s.cleanReg a toF r).hart p = s.hart p := by simp [hart]
@[simp] theorem sup_cleanReg (s : State) (a : Agent) (toF : Bool) (r : Reg) (p : Nat) :
    (s.cleanReg a toF r).sup p = s.sup p := by simp [sup]
@[simp] theorem vcore_cleanReg (s : State) (a : Agent) (toF : Bool) (r : Reg) (k : Nat) :
    (s.cleanReg a toF r).vcore k = s.vcore k := by simp [vcore]
@[simp] theorem cluster_cleanReg (s : State) (a : Agent) (toF : Bool) (r : Reg) (c : Nat) :
    (s.cleanReg a toF r).cluster c = s.cluster c := by simp [cluster]
@[simp] theorem thread_cleanReg (s : State) (a b : Agent) (toF : Bool) (r : Reg) :
    (s.cleanReg a toF r).thread b = s.thread b := by cases b <;> simp [thread]
theorem clean_of_nil {s : State} (h : s.badRegs = []) (p file r : Nat) : s.clean p file r = s := by simp [clean, h]
theorem cleanReg_of_nil {s : State} (h : s.badRegs = []) (a : Agent) (toF : Bool) (r : Reg) : s.cleanReg a toF r = s := by
  cases a <;> simp [cleanReg, clean_of_nil h]

/-! ## The executing thread -/

@[simp] theorem thread_setThread (s : State) (a : Agent) (t : Thread) : (s.setThread a t).thread a = t := by
  cases a <;> simp [setThread, thread]
@[simp] theorem setThread_agent (s : State) (a : Agent) (t : Thread) : (s.setThread a t).agent = s.agent := by
  cases a <;> rfl
@[simp] theorem setThread_mem (s : State) (a : Agent) (t : Thread) : (s.setThread a t).mem = s.mem := by
  cases a <;> rfl
@[simp] theorem wx_agent (s : State) (r : Reg) (v : Word) : (s.wx r v).agent = s.agent := by simp [wx]
@[simp] theorem wf_agent (s : State) (r : Reg) (v : Word) : (s.wf r v).agent = s.agent := by simp [wf]
@[simp] theorem setPc_agent (s : State) (a : Word) : (s.setPc a).agent = s.agent := setThread_agent ..
@[simp] theorem wx_mem (s : State) (r : Reg) (v : Word) : (s.wx r v).mem = s.mem := by simp [wx]
@[simp] theorem wf_mem (s : State) (r : Reg) (v : Word) : (s.wf r v).mem = s.mem := by simp [wf]
@[simp] theorem setPc_mem (s : State) (a : Word) : (s.setPc a).mem = s.mem := setThread_mem ..
@[simp] theorem pc_setPc (s : State) (a : Word) : (s.setPc a).pc = a := by simp [pc, setPc]
@[simp] theorem pc_wx (s : State) (r : Reg) (v : Word) : (s.wx r v).pc = s.pc := by simp [pc, wx]
@[simp] theorem pc_wf (s : State) (r : Reg) (v : Word) : (s.wf r v).pc = s.pc := by simp [pc, wf]
theorem wx_zero (s : State) (v : Word) :
    s.wx 0 v = (s.setThread s.agent (s.thread s.agent)).cleanReg s.agent false 0 := rfl
theorem rx_wx_self (s : State) {r : Reg} (v : Word) (h : r ≠ 0) : (s.wx r v).rx r = v := by
  have h' := Thread.rx_wx_self (s.thread s.agent) v h
  simpa [Thread.rx, rx, wx] using h'
theorem rx_wx_ne (s : State) {r q : Reg} (v : Word) (h : q ≠ r) : (s.wx r v).rx q = s.rx q := by
  simpa [Thread.rx, rx, wx] using Thread.rx_wx_ne (s.thread s.agent) v h

end State

end Sys2Proof.Machine
end

