-- ==== Sys2Proof/Laws/Exec.lean ====
section
/-! SUPPORT. Laws/Exec.lean: what the shapes of scalar execution do: waiting on registers, going on to the next word, jumping. -/

namespace Sys2Proof.Machine

theorem withRegs_ready {s : State} {u : Uses} (h : Ready s u) (k : Out) : withRegs s u k = k := by
  simp [withRegs, h.x, h.f, h.badX, h.badF]

namespace State

/-! ## What a thread's update leaves (R93) -/

theorem hart_updHart (s : State) (p q : Nat) (f : Hart → Hart) :
    (s.updHart p f).hart q = if q = p then f (s.hart q) else s.hart q := by
  by_cases h : q = p
  · subst h; simp
  · simp [h, hart_updHart_ne s f h]
theorem sup_updSup (s : State) (p q : Nat) (f : Sup → Sup) :
    (s.updSup p f).sup q = if q = p then f (s.sup q) else s.sup q := by
  by_cases h : q = p
  · subst h; simp
  · simp [h, sup_updSup_ne s f h]
theorem vcore_updVcore (s : State) (p q : Nat) (f : VCore → VCore) :
    (s.updVcore p f).vcore q = if q = p then f (s.vcore q) else s.vcore q := by
  by_cases h : q = p
  · subst h; simp
  · simp [h, vcore_updVcore_ne s f h]
theorem cluster_updCluster (s : State) (p q : Nat) (f : Cluster → Cluster) :
    (s.updCluster p f).cluster q = if q = p then f (s.cluster q) else s.cluster q := by
  by_cases h : q = p
  · subst h; simp
  · simp [h, cluster_updCluster_ne s f h]

theorem hart_setThread (s : State) (a : Agent) (t : Thread) (q : Nat) :
    (s.setThread a t).hart q = if a = .user q ∨ a = .vec q then { s.hart q with thr := t } else s.hart q := by
  cases a <;> simp only [setThread, hart_updHart, hart_updSup, hart_updCluster] <;> simp [eq_comm]
theorem sup_setThread (s : State) (a : Agent) (t : Thread) (q : Nat) :
    (s.setThread a t).sup q = if a = .sup q then { s.sup q with thr := t } else s.sup q := by
  cases a <;> simp only [setThread, sup_updSup, sup_updHart, sup_updCluster] <;> simp [eq_comm]
theorem cluster_setThread (s : State) (a : Agent) (t : Thread) (q : Nat) :
    (s.setThread a t).cluster q = if a = .mcc q then { s.cluster q with mcc := t } else s.cluster q := by
  cases a <;> simp only [setThread, cluster_updCluster, cluster_updHart, cluster_updSup] <;> simp [eq_comm]
@[simp] theorem vcore_setThread (s : State) (a : Agent) (t : Thread) (q : Nat) : (s.setThread a t).vcore q = s.vcore q := by
  cases a <;> rfl
theorem setThread_outside (s : State) (a : Agent) (t : Thread) : sameOutside s (s.setThread a t) := by
  cases a <;> rfl

/-! ## Retiring (R36) -/

theorem spend_hart (s : State) (p : Nat) (addr : Word) (q : Nat) : (s.spend p addr).hart q = s.hart q := by
  unfold spend; split <;> rfl
theorem spend_sup (s : State) (p : Nat) (addr : Word) (q : Nat) : (s.spend p addr).sup q = s.sup q := by
  unfold spend; split <;> rfl
theorem spend_cluster (s : State) (p : Nat) (addr : Word) (q : Nat) : (s.spend p addr).cluster q = s.cluster q := by
  unfold spend; split <;> rfl
theorem spend_outside (s : State) (p : Nat) (addr : Word) : sameOutside s (s.spend p addr) := by
  unfold spend; split <;> rfl
@[simp] theorem spend_agent (s : State) (p : Nat) (addr : Word) : (s.spend p addr).agent = s.agent := by
  unfold spend; split <;> rfl

theorem charged_eq (g : Region) (slot : Nat) (addr : Word) :
    g.charged slot addr = if g.budget = 0 then g
      else { g with
        budget := g.budget - 1
        spent := if g.budget = 1 then some (slot, addr) else g.spent } := by
  unfold Region.charged
  split
  · rfl
  · split
    · rename_i h1; rw [h1]; rfl
    · rfl

/-- What taking one off the budget leaves of each core (R36). -/
theorem spend_vcore (s : State) (p : Nat) (addr : Word) (k : Nat) : (s.spend p addr).vcore k = s.chargedFor p addr k := by
  unfold spend chargedFor
  cases (s.hart p).region with
  | none => rfl
  | some r =>
    simp only [updRegion, vcore_updVcore, charged_eq]

theorem chargedFor_congr {s t : State} {p : Nat} (hr : (t.hart p).region = (s.hart p).region)
    (hc : ∀ k, t.vcore k = s.vcore k) (addr : Word) (k : Nat) : t.chargedFor p addr k = s.chargedFor p addr k := by
  simp [chargedFor, hr, hc]

@[simp] theorem chargedAt_setThread (s : State) (th : Thread) (addr : Word) (k : Nat) :
    (s.setThread s.agent th).chargedAt addr k = s.chargedAt addr k := by
  unfold chargedAt
  rw [setThread_agent]
  split
  · exact chargedFor_congr (by rw [hart_setThread]; split <;> rfl) (fun k => vcore_setThread ..) _ _
  · exact vcore_setThread ..

theorem retireAt_hart (s : State) (addr : Word) (q : Nat) :
    (s.retireAt addr).hart q = if s.agent = .user q then { s.hart q with retired := (s.hart q).retired + 1 } else s.hart q := by
  unfold retireAt retireOf
  split
  · next p h =>
    rw [spend_hart, hart_updHart, h]
    simp [eq_comm]
  · next h =>
    rw [if_neg]
    intro e
    exact h q e
theorem retireAt_sup (s : State) (addr : Word) (q : Nat) : (s.retireAt addr).sup q = s.sup q := by
  unfold retireAt retireOf; split
  · rw [spend_sup]; rfl
  · rfl
theorem retireAt_cluster (s : State) (addr : Word) (q : Nat) : (s.retireAt addr).cluster q = s.cluster q := by
  unfold retireAt retireOf; split
  · rw [spend_cluster]; rfl
  · rfl
theorem retireAt_cores (s : State) (addr : Word) (k : Nat) : (s.retireAt addr).vcore k = s.chargedAt addr k := by
  unfold retireAt retireOf chargedAt
  cases s.agent with
  | user p =>
    rw [spend_vcore]
    show _ = s.chargedFor p addr k
    apply chargedFor_congr <;> simp
  | _ => rfl
theorem retireAt_outside (s : State) (addr : Word) : sameOutside s (s.retireAt addr) := by
  unfold retireAt retireOf spend; split
  · split <;> rfl
  · rfl
@[simp] theorem retireAt_agent (s : State) (addr : Word) : (s.retireAt addr).agent = s.agent := by
  unfold retireAt retireOf; split
  · simp
  · rfl

theorem sameOutside_refl (s : State) : sameOutside s s := rfl
theorem sameOutside_trans {s t u : State} (h : sameOutside s t) (k : sameOutside t u) : sameOutside s u := by
  unfold sameOutside at *
  rw [k, h]

end State

/-! ## The executing thread goes on -/

namespace State

@[simp] theorem hart_orFlags (s : State) (f : Flags) (q : Nat) :
    (s.orFlags f).hart q = if s.agent = .user q ∨ s.agent = .vec q then hartFlags f (s.hart q) else s.hart q := by
  unfold orFlags; split <;> rename_i h <;> simp only [h, hart_updHart, hart_updSup] <;> simp [hartFlags, eq_comm]
@[simp] theorem sup_orFlags (s : State) (f : Flags) (q : Nat) :
    (s.orFlags f).sup q = if s.agent = .sup q then supFlags f (s.sup q) else s.sup q := by
  unfold orFlags; split <;> rename_i h <;> simp only [h, sup_updHart, sup_updSup] <;> simp [supFlags, eq_comm]
@[simp] theorem cluster_orFlags (s : State) (f : Flags) (q : Nat) : (s.orFlags f).cluster q = s.cluster q := by
  unfold orFlags; split <;> rfl
@[simp] theorem vcore_orFlags (s : State) (f : Flags) (q : Nat) : (s.orFlags f).vcore q = s.vcore q := by
  unfold orFlags; split <;> rfl
@[simp] theorem orFlags_agent (s : State) (f : Flags) : (s.orFlags f).agent = s.agent := by
  unfold orFlags; split <;> rfl
theorem orFlags_outside (s : State) (f : Flags) : sameOutside s (s.orFlags f) := by
  unfold orFlags; split <;> rfl
theorem thread_orFlags (s : State) (f : Flags) : (s.orFlags f).thread s.agent = s.thread s.agent := by
  unfold orFlags thread; split <;> rename_i h <;> simp [h]
@[simp] theorem pc_orFlags (s : State) (f : Flags) : (s.orFlags f).pc = s.pc := by
  unfold pc; rw [orFlags_agent, thread_orFlags]

@[simp] theorem chargedAt_orFlags (s : State) (f : Flags) (addr : Word) (k : Nat) :
    (s.orFlags f).chargedAt addr k = s.chargedAt addr k := by
  unfold chargedAt
  rw [orFlags_agent]
  split
  · exact chargedFor_congr (by rw [hart_orFlags]; split <;> rfl) (fun k => vcore_orFlags ..) _ _
  · exact vcore_orFlags ..

@[simp] theorem hart_viaJump (s : State) (q : Nat) :
    s.viaJump.hart q = if s.agent = .user q then { s.hart q with viaTret := false } else s.hart q := by
  unfold viaJump; split
  · rename_i p h; rw [hart_updHart, h]; simp [eq_comm]
  · rename_i h; rw [if_neg]; exact h q
@[simp] theorem sup_viaJump (s : State) (q : Nat) : s.viaJump.sup q = s.sup q := by unfold viaJump; split <;> rfl
@[simp] theorem cluster_viaJump (s : State) (q : Nat) : s.viaJump.cluster q = s.cluster q := by unfold viaJump; split <;> rfl
@[simp] theorem vcore_viaJump (s : State) (q : Nat) : s.viaJump.vcore q = s.vcore q := by unfold viaJump; split <;> rfl
theorem viaJump_outside (s : State) : sameOutside s s.viaJump := by unfold viaJump; split <;> rfl

end State

/-- Going on from a state that has set the executing thread's registers. -/
theorem stepped_advance {s : State} (hs : s.isScalar) {th : Thread} (hp : th.pc = s.pc) :
    Stepped s (s.setThread s.agent th).advance { th with pc := th.pc + 4 } id id where
  threads := {
    hart := fun q => by
      have : s.agent ≠ .vec q := hs q
      simp only [State.advance, State.setPc, State.retireAt_hart, State.hart_setThread, State.setThread_agent,
        State.thread_setThread, State.pc]
      by_cases h : s.agent = .user q <;> simp [h, this]
    sup := fun q => by
      simp only [State.advance, State.setPc, State.retireAt_sup, State.sup_setThread, State.setThread_agent,
        State.thread_setThread, State.pc]
      by_cases h : s.agent = .sup q <;> simp [h]
    cluster := fun q => by
      simp only [State.advance, State.setPc, State.retireAt_cluster, State.cluster_setThread, State.setThread_agent,
        State.thread_setThread, State.pc]
      by_cases h : s.agent = .mcc q <;> simp [h] }
  outside := State.sameOutside_trans (State.setThread_outside ..)
    (State.sameOutside_trans (State.setThread_outside ..) (State.retireAt_outside ..))
  cores := fun k => by
    have h1 : (s.setThread s.agent th).pc = s.pc := by simp [State.pc, hp]
    rw [State.advance, State.retireAt_cores, State.setPc, State.chargedAt_setThread,
      State.chargedAt_setThread, h1, State.charged]

/-- Going on after setting the registers and raising flags. -/
theorem stepped_flags {s : State} (hs : s.isScalar) {th : Thread} (hp : th.pc = s.pc) (f : Flags) :
    Stepped s ((s.setThread s.agent th).orFlags f).advance { th with pc := th.pc + 4 } (hartFlags f) (supFlags f) where
  threads := {
    hart := fun q => by
      have : s.agent ≠ .vec q := hs q
      have ho := State.thread_orFlags (s.setThread s.agent th) f
      simp only [State.setThread_agent, State.thread_setThread] at ho
      simp only [State.advance, State.setPc, State.retireAt_hart, State.hart_setThread, State.setThread_agent,
        State.orFlags_agent, State.hart_orFlags, State.pc, ho]
      by_cases h : s.agent = .user q <;> simp [h, this, hartFlags]
    sup := fun q => by
      have ho := State.thread_orFlags (s.setThread s.agent th) f
      simp only [State.setThread_agent, State.thread_setThread] at ho
      simp only [State.advance, State.setPc, State.retireAt_sup, State.sup_setThread, State.setThread_agent,
        State.orFlags_agent, State.sup_orFlags, State.pc, ho]
      by_cases h : s.agent = .sup q <;> simp [h, supFlags]
    cluster := fun q => by
      have ho := State.thread_orFlags (s.setThread s.agent th) f
      simp only [State.setThread_agent, State.thread_setThread] at ho
      simp only [State.advance, State.setPc, State.retireAt_cluster, State.cluster_setThread, State.setThread_agent,
        State.orFlags_agent, State.cluster_orFlags, State.pc, ho]
      by_cases h : s.agent = .mcc q <;> simp [h] }
  outside := State.sameOutside_trans (State.setThread_outside ..) (State.sameOutside_trans (State.orFlags_outside ..)
    (State.sameOutside_trans (State.setThread_outside ..) (State.retireAt_outside ..)))
  cores := fun k => by
    have h1 : (s.setThread s.agent th).pc = s.pc := by simp [State.pc, hp]
    rw [State.advance, State.retireAt_cores, State.setPc, State.chargedAt_setThread, State.pc_orFlags,
      State.chargedAt_orFlags, State.chargedAt_setThread, h1, State.charged]

/-- Going on at a target from a state that has set the registers. -/
theorem stepped_jump {s : State} (hs : s.isScalar) {th : Thread} (hp : th.pc = s.pc) (target : Word) :
    Stepped s ((s.setThread s.agent th).jumpTo target) { th with pc := target } jumped id where
  threads := {
    hart := fun q => by
      have : s.agent ≠ .vec q := hs q
      simp only [State.jumpTo, State.setPc, State.hart_viaJump, State.retireAt_hart, State.hart_setThread,
        State.setThread_agent, State.retireAt_agent, State.thread_setThread, State.pc]
      by_cases h : s.agent = .user q <;> simp [h, this, jumped]
    sup := fun q => by
      simp only [State.jumpTo, State.setPc, State.sup_viaJump, State.retireAt_sup, State.sup_setThread,
        State.setThread_agent, State.thread_setThread, State.pc]
      by_cases h : s.agent = .sup q <;> simp [h]
    cluster := fun q => by
      simp only [State.jumpTo, State.setPc, State.cluster_viaJump, State.retireAt_cluster, State.cluster_setThread,
        State.setThread_agent, State.thread_setThread, State.pc]
      by_cases h : s.agent = .mcc q <;> simp [h] }
  outside := State.sameOutside_trans (State.setThread_outside ..) (State.sameOutside_trans (State.setThread_outside ..)
    (State.sameOutside_trans (State.retireAt_outside ..) (State.viaJump_outside ..)))
  cores := fun k => by
    have h1 : (s.setThread s.agent th).pc = s.pc := by simp [State.pc, hp]
    rw [State.jumpTo, State.vcore_viaJump, State.retireAt_cores, State.setPc, State.chargedAt_setThread,
      State.chargedAt_setThread, h1, State.charged]

/-- Going on with every register as it was. -/
theorem stepped_done {s : State} (hs : s.isScalar) : Stepped s s.advance { s.me with pc := s.pc + 4 } id id where
  threads := {
    hart := fun q => by
      have : s.agent ≠ .vec q := hs q
      simp only [State.advance, State.setPc, State.retireAt_hart, State.hart_setThread, State.setThread_agent,
        State.pc, State.me]
      by_cases h : s.agent = .user q <;> simp [h, this]
    sup := fun q => by
      simp only [State.advance, State.setPc, State.retireAt_sup, State.sup_setThread, State.pc, State.me]
      by_cases h : s.agent = .sup q <;> simp [h]
    cluster := fun q => by
      simp only [State.advance, State.setPc, State.retireAt_cluster, State.cluster_setThread, State.pc, State.me] }
  outside := State.sameOutside_trans (State.setThread_outside ..) (State.retireAt_outside ..)
  cores := fun k => by
    rw [State.advance, State.retireAt_cores, State.setPc, State.chargedAt_setThread, State.charged]

/-- Going on at a target with every register as it was. -/
theorem stepped_goto {s : State} (hs : s.isScalar) (target : Word) :
    Stepped s (s.jumpTo target) { s.me with pc := target } jumped id where
  threads := {
    hart := fun q => by
      have : s.agent ≠ .vec q := hs q
      simp only [State.jumpTo, State.setPc, State.hart_viaJump, State.retireAt_hart, State.hart_setThread,
        State.setThread_agent, State.retireAt_agent, State.pc, State.me]
      by_cases h : s.agent = .user q <;> simp [h, this, jumped]
    sup := fun q => by
      simp only [State.jumpTo, State.setPc, State.sup_viaJump, State.retireAt_sup, State.sup_setThread, State.me]
      by_cases h : s.agent = .sup q <;> simp [h]
    cluster := fun q => by
      simp only [State.jumpTo, State.setPc, State.cluster_viaJump, State.retireAt_cluster, State.cluster_setThread,
        State.me] }
  outside := State.sameOutside_trans (State.setThread_outside ..)
    (State.sameOutside_trans (State.retireAt_outside ..) (State.viaJump_outside ..))
  cores := fun k => by
    rw [State.jumpTo, State.vcore_viaJump, State.retireAt_cores, State.setPc, State.chargedAt_setThread, State.charged]

/-! ## The shapes of integer instructions -/

namespace State

/-- Freeing a register of an error commutes with what a thread's update does. -/
theorem cleanReg_setThread (s : State) (a b : Agent) (t : Thread) (toF : Bool) (r : Reg) :
    (s.setThread a t).cleanReg b toF r = (s.cleanReg b toF r).setThread a t := by
  by_cases h : s.badRegs = []
  · have h' : (s.setThread a t).badRegs = [] := by rw [← h]; cases a <;> rfl
    rw [cleanReg_of_nil h', cleanReg_of_nil h]
  · have h' : (s.setThread a t).badRegs ≠ [] := by intro e; apply h; rw [← e]; cases a <;> rfl
    cases a <;> cases b <;> first
      | rfl
      | (simp only [cleanReg, clean]; rw [if_neg h', if_neg h]; rfl)

@[simp] theorem cleaned_agent (s : State) (toF : Bool) (r : Reg) : (s.cleaned toF r).agent = s.agent := by simp [cleaned]
@[simp] theorem cleaned_me (s : State) (toF : Bool) (r : Reg) : (s.cleaned toF r).me = s.me := by simp [cleaned, me]
@[simp] theorem cleaned_pc (s : State) (toF : Bool) (r : Reg) : (s.cleaned toF r).pc = s.pc := by simp [cleaned, pc]

/-- A write of a register, as an update of the thread of the cleaned state. -/
theorem wx_eq (s : State) (d : Reg) (v : Word) : s.wx d v = (s.cleaned false d).setThread s.agent (s.me.wx d v) := by
  rw [wx, cleanReg_setThread]; rfl
theorem wf_eq (s : State) (d : Reg) (v : Word) : s.wf d v = (s.cleaned true d).setThread s.agent (s.me.wf d v) := by
  rw [wf, cleanReg_setThread]; rfl

end State

theorem wroteX_done {s : State} (hs : s.isScalar) (d : Reg) (v : Word) : WroteX s (s.wx d v).advance d v := by
  have h := stepped_advance (s := s.cleaned false d) (by intro p; simpa using hs p) (th := s.me.wx d v)
    (by rw [Thread.wx_pc, State.cleaned_pc]; rfl)
  rw [State.cleaned_agent, ← State.wx_eq, Thread.wx_pc] at h
  exact h

/-- A shape that writes x[d] with a function of x[a] and x[b]. -/
theorem xxOp_wrote {d a b : Reg} {f : Word → Word → Word} {s : State} (hs : s.isScalar)
    (h : Ready s { rx := [a, b], wx := [d] }) :
    ∃ t, xxOp d a b f s = .next t ∧ WroteX s t d (f (s.rx a) (s.rx b)) :=
  ⟨_, withRegs_ready h _, wroteX_done hs d _⟩

/-- A shape that writes x[d] with a function of x[a]. -/
theorem xOp_wrote {d a : Reg} {f : Word → Word} {s : State} (hs : s.isScalar) (h : Ready s { rx := [a], wx := [d] }) :
    ∃ t, xOp d a f s = .next t ∧ WroteX s t d (f (s.rx a)) :=
  ⟨_, withRegs_ready h _, wroteX_done hs d _⟩

/-- A shape that writes x[d] with a value. -/
theorem setOp_wrote {d : Reg} {v : Word} {s : State} (hs : s.isScalar) (h : Ready s { wx := [d] }) :
    ∃ t, setOp d v s = .next t ∧ WroteX s t d v :=
  ⟨_, withRegs_ready h _, wroteX_done hs d _⟩

end Sys2Proof.Machine
end

