-- ==== Sys2Proof/Laws/Memory.lean ====
section
/-! SUPPORT. Laws/Memory.lean: every operation on memory keeps its canonical form, and a byte reads as it was last written. -/

namespace Sys2Proof.Machine

/-! ## The canonical form -/

theorem Memory.wfFrom_mono {lo : Option Nat} {l : Nat} {cs : List Host.Cell} (h : Memory.wfFrom (some l) cs = true)
    (hlo : ∀ k, lo = some k → k ≤ l) : Memory.wfFrom lo cs = true := by
  cases cs with
  | nil => rfl
  | cons e rest =>
    obtain ⟨a, b⟩ := e
    simp only [Memory.wfFrom, Bool.and_eq_true, decide_eq_true_eq] at h ⊢
    refine ⟨⟨?_, h.1.2⟩, h.2⟩
    cases lo with
    | none => rfl
    | some k => simpa using Nat.lt_of_le_of_lt (hlo k rfl) h.1.1

/-- Every key listed lies above the bound. -/
theorem Memory.wfFrom_above {l : Nat} {cs : List Host.Cell} (h : Memory.wfFrom (some l) cs = true) :
    ∀ e ∈ cs, l < e.1 := by
  induction cs generalizing l with
  | nil => simp
  | cons e rest ih =>
    obtain ⟨a, b⟩ := e
    simp only [Memory.wfFrom, Bool.and_eq_true, decide_eq_true_eq] at h
    intro x hx
    rcases List.mem_cons.1 hx with rfl | hx
    · exact h.1.1
    · exact Nat.lt_trans h.1.1 (ih h.2 x hx)

theorem putCell_wfFrom {lo : Option Nat} {cs : List Host.Cell} {k : Nat} {b : Byte} (h : Memory.wfFrom lo cs = true)
    (hk : ∀ l, lo = some l → l < k) : Memory.wfFrom lo (putCell cs k b) = true := by
  induction cs generalizing lo with
  | nil =>
    unfold putCell
    split
    · rfl
    · cases lo with
      | none => simp_all [Memory.wfFrom]
      | some l => simp_all [Memory.wfFrom]
  | cons e rest ih =>
    obtain ⟨a, c⟩ := e
    simp only [Memory.wfFrom, Bool.and_eq_true, decide_eq_true_eq] at h
    have hlow : ∀ rest, Memory.wfFrom (some k) rest = true → b ≠ Memory.unlisted →
        Memory.wfFrom lo ((k, b) :: rest) = true := by
      intro rest hr hb
      cases lo with
      | none => simp_all [Memory.wfFrom]
      | some l => simp_all [Memory.wfFrom]
    unfold putCell
    split
    · rename_i hlt
      split
      · simp only [Memory.wfFrom, Bool.and_eq_true, decide_eq_true_eq]; exact h
      · rename_i hb
        refine hlow _ ?_ hb
        simp only [Memory.wfFrom, Bool.and_eq_true, decide_eq_true_eq]
        exact ⟨⟨hlt, h.1.2⟩, h.2⟩
    · split
      · rename_i hne heq
        split
        · subst heq
          refine Memory.wfFrom_mono h.2 (fun j hj => ?_)
          subst hj
          simpa using Nat.le_of_lt (hk j rfl)
        · rename_i hb
          subst heq
          simp only [Memory.wfFrom, Bool.and_eq_true, decide_eq_true_eq]
          exact ⟨⟨h.1.1, hb⟩, h.2⟩
      · rename_i hge hne
        simp only [Memory.wfFrom, Bool.and_eq_true, decide_eq_true_eq]
        refine ⟨h.1, ih h.2 (fun l hl => ?_)⟩
        cases hl
        omega

/-- A write keeps the canonical form. -/
theorem Memory.put_wf {m : Memory} (k : Nat) (b : Byte) (h : m.wf = true) : (m.put k b).wf = true :=
  putCell_wfFrom h (by intro l hl; cases hl)

/-- A list of writes keeps the canonical form. -/
theorem Memory.puts_wf {m : Memory} (cells : List Host.Cell) (h : m.wf = true) : (m.puts cells).wf = true := by
  induction cells generalizing m with
  | nil => exact h
  | cons e rest ih => exact ih (m.put_wf e.1 e.2 h)

theorem Memory.wfFrom_filter {lo : Option Nat} {cs : List Host.Cell} (f : Host.Cell → Bool)
    (h : Memory.wfFrom lo cs = true) : Memory.wfFrom lo (cs.filter f) = true := by
  induction cs generalizing lo with
  | nil => exact h
  | cons e rest ih =>
    obtain ⟨a, b⟩ := e
    simp only [Memory.wfFrom, Bool.and_eq_true, decide_eq_true_eq] at h
    by_cases hf : f (a, b) = true
    · rw [List.filter_cons_of_pos hf]
      simp only [Memory.wfFrom, Bool.and_eq_true, decide_eq_true_eq]
      exact ⟨h.1, ih h.2⟩
    · rw [List.filter_cons_of_neg hf]
      refine Memory.wfFrom_mono (ih h.2) (fun k hk => ?_)
      subst hk
      exact Nat.le_of_lt (by simpa using h.1.1)

/-- Memory without some of its bytes keeps the canonical form. -/
theorem Memory.filter_wf {m : Memory} (f : Host.Cell → Bool) (h : m.wf = true) :
    Memory.wf ⟨m.cells.filter f⟩ = true := Memory.wfFrom_filter f h

theorem reset_mem_wf : State.reset.mem.wf = true := rfl

/-! ## What a byte reads as -/

theorem findCell_of_above {l : Nat} {cs : List Host.Cell} {k : Nat} (h : Memory.wfFrom (some l) cs = true)
    (hk : k ≤ l) : findCell cs k = Memory.unlisted := by
  induction cs generalizing l with
  | nil => rfl
  | cons e rest ih =>
    obtain ⟨a, b⟩ := e
    simp only [Memory.wfFrom, Bool.and_eq_true, decide_eq_true_eq] at h
    have hne : ¬a = k := by omega
    simp only [findCell, hne, if_false]
    exact ih h.2 (by omega)

theorem findCell_putCell_self {lo : Option Nat} {cs : List Host.Cell} (k : Nat) (b : Byte)
    (h : Memory.wfFrom lo cs = true) : findCell (putCell cs k b) k = b := by
  induction cs generalizing lo with
  | nil => unfold putCell; split <;> simp_all [findCell]
  | cons e rest ih =>
    obtain ⟨a, c⟩ := e
    simp only [Memory.wfFrom, Bool.and_eq_true, decide_eq_true_eq] at h
    unfold putCell
    split
    · rename_i hlt
      split
      · rename_i hb
        have hne : ¬a = k := by omega
        simp only [findCell, hne, if_false, hb]
        exact findCell_of_above h.2 (by omega)
      · simp [findCell]
    · split
      · rename_i hge heq
        split
        · rename_i hb
          rw [hb, findCell_of_above h.2 (by omega)]
        · simp [findCell]
      · rename_i hge hne
        have : ¬a = k := fun e => hne e.symm
        simp only [findCell, this, if_false]
        exact ih h.2

theorem findCell_putCell_ne {cs : List Host.Cell} {k j : Nat} (b : Byte) (hj : j ≠ k) :
    findCell (putCell cs k b) j = findCell cs j := by
  induction cs with
  | nil => unfold putCell; split <;> simp_all [findCell, Ne.symm hj]
  | cons e rest ih =>
    obtain ⟨a, c⟩ := e
    unfold putCell
    split
    · split
      · rfl
      · simp [findCell, Ne.symm hj]
    · split
      · rename_i hge heq
        subst heq
        split <;> simp [findCell, Ne.symm hj]
      · simp only [findCell, ih]

/-- A byte reads as it was written. -/
theorem Memory.get_put_self {m : Memory} (k : Nat) (b : Byte) (h : m.wf = true) : (m.put k b).get k = b :=
  findCell_putCell_self k b h

/-- A write leaves every other byte. -/
theorem Memory.get_put_ne (m : Memory) {k j : Nat} (b : Byte) (h : j ≠ k) : (m.put k b).get j = m.get j :=
  findCell_putCell_ne b h

/-- A list of writes leaves every byte at a key that it does not name. -/
theorem Memory.get_puts_ne (m : Memory) (cells : List Host.Cell) {j : Nat} (h : ∀ c ∈ cells, c.1 ≠ j) :
    (m.puts cells).get j = m.get j := by
  induction cells generalizing m with
  | nil => rfl
  | cons e rest ih =>
    have h1 := h e (by simp)
    rw [Memory.puts, ih _ (fun c hc => h c (by simp [hc])), Memory.get_put_ne m e.2 (Ne.symm h1)]

theorem mem_cellsAt {k : Nat} {bs : List Byte} {c : Host.Cell} (h : c ∈ cellsAt k bs) : k ≤ c.1 ∧ c.1 < k + bs.length := by
  induction bs generalizing k with
  | nil => simp [cellsAt] at h
  | cons b rest ih =>
    simp only [cellsAt, List.mem_cons] at h
    rcases h with rfl | h
    · simp
    · have := ih h
      simp only [List.length_cons]
      omega

/-- Bytes at consecutive keys read back as written. -/
theorem Memory.gets_puts_cellsAt {m : Memory} (k : Nat) (bs : List Byte) (h : m.wf = true) :
    (m.puts (cellsAt k bs)).gets k bs.length = bs := by
  induction bs generalizing m k with
  | nil => rfl
  | cons b rest ih =>
    simp only [cellsAt, Memory.puts, List.length_cons, Memory.gets]
    have hw := m.put_wf k b h
    rw [Memory.get_puts_ne _ _ (fun c hc => by have := mem_cellsAt hc; omega), Memory.get_put_self k b h, ih (k + 1) hw]

@[simp] theorem toBytes_length (n x : Nat) : (toBytes n x).length = n := by
  induction n generalizing x with
  | zero => rfl
  | succ n ih => simp [toBytes, ih]

/-- The number that bytes spell, from its bytes (R2). -/
theorem ofBytes_toBytes (n x : Nat) : ofBytes (toBytes n x) = x % 256 ^ n := by
  induction n generalizing x with
  | zero => simp [toBytes, ofBytes, Nat.mod_one]
  | succ n ih =>
    have h1 : (BitVec.ofNat 8 x).toNat = x % 256 := by simp
    simp only [toBytes, ofBytes, ih, h1]
    rw [Nat.pow_succ, Nat.mul_comm (256 ^ n) 256, Nat.mod_mul]

/-- A little-endian number reads back as written (R2). -/
theorem Memory.num_puts {m : Memory} (k n x : Nat) (h : m.wf = true) :
    (m.puts (cellsAt k (toBytes n x))).num k n = x % 256 ^ n := by
  have := Memory.gets_puts_cellsAt k (toBytes n x) h
  rw [toBytes_length] at this
  rw [Memory.num, this, ofBytes_toBytes]

/-! ## The operations of the state -/

@[simp] theorem State.put_mem (s : State) (cells : List Host.Cell) : (s.put cells).mem = s.mem.puts cells := rfl
@[simp] theorem State.poke_mem (s : State) (cells : List Host.Cell) : (s.poke cells).mem = s.mem.puts cells := rfl

/-- A write at keys keeps the canonical form. -/
theorem State.poke_wf {s : State} (cells : List Host.Cell) (h : s.mem.wf = true) : (s.poke cells).mem.wf = true :=
  Memory.puts_wf cells h

@[simp] theorem countHere_mem (s : State) (code : Nat) : (countHere s code).mem = s.mem := by
  unfold countHere
  split <;> (try split) <;> rfl

@[simp] theorem leaveL2_mem (s : State) (die line : Nat) : (leaveL2 s die line).mem = s.mem := rfl

@[simp] theorem makeWay_mem (s : State) (die line : Nat) : (makeWay s die line).mem = s.mem := by
  unfold makeWay
  dsimp only
  split
  · rfl
  · split <;> rfl

@[simp] theorem fillL2_mem (s : State) (die line : Nat) : (fillL2 s die line).mem = s.mem := makeWay_mem s die line

@[simp] theorem missRoom_mem (s : State) (die line : Nat) : (missRoom s die line).mem = s.mem := by
  unfold missRoom
  dsimp only
  split
  · rfl
  · split
    · exact fillL2_mem ..
    · rfl

@[simp] theorem missed_mem (s : State) (die line : Nat) : (missed s die line).mem = s.mem := by
  unfold missed
  dsimp only
  split <;> simp

@[simp] theorem noteStore_mem (s : State) (die line : Nat) (w : Bool) : (noteStore s die line w).mem = s.mem := by
  unfold noteStore
  dsimp only
  split <;> split <;> simp

@[simp] theorem noteLine_mem (s : State) (die line : Nat) (w : Bool) : (noteLine s die line w).mem = s.mem := by
  unfold noteLine
  split
  · rfl
  · dsimp only
    split <;> split <;> simp

@[simp] theorem dropPeerCopy_mem (s : State) (die line : Nat) : (dropPeerCopy s die line).mem = s.mem := rfl

@[simp] theorem notePeer_mem (s : State) (die line : Nat) (w : Bool) : (notePeer s die line w).mem = s.mem := by
  unfold notePeer
  split
  · rfl
  · dsimp only
    split <;> simp

/-- A fold of steps that leave memory alone leaves it alone. -/
theorem foldl_mem {α : Type} (f : State → α → State) (hf : ∀ s a, (f s a).mem = s.mem) (as : List α) (s : State) :
    (as.foldl f s).mem = s.mem := by
  induction as generalizing s with
  | nil => rfl
  | cons a rest ih => rw [List.foldl_cons, ih, hf]

/-- What a read leaves behind is no byte of memory. -/
@[simp] theorem noteRead_mem (s : State) (die : Nat) (pl : Place) (n : Nat) (w : Bool) :
    (noteRead s die pl n w).mem = s.mem := by
  unfold noteRead
  split
  · exact foldl_mem _ (fun s l => noteLine_mem s die l w) _ s
  · exact foldl_mem _ (fun s l => notePeer_mem s die l w) _ s
  · rfl

@[simp] theorem noteSector_mem (s : State) (pol : Policy) (k : Nat) : (noteSector s pol k).mem = s.mem := by
  unfold noteSector
  split
  · rfl
  · dsimp only
    split <;> exact countHere_mem ..

@[simp] theorem noteLoad_mem (s : State) (die : Nat) (pl : Place) (n : Nat) (pol : Policy) :
    (noteLoad s die pl n pol).mem = s.mem := by
  rw [noteLoad, noteRead_mem]
  exact foldl_mem _ (fun s k => noteSector_mem s pol k) _ s

@[simp] theorem noteWalk_mem (s : State) (die asid va : Nat) : (noteWalk s die asid va).mem = s.mem := by
  unfold noteWalk
  split
  · rfl
  · split
    · rfl
    · exact foldl_mem _ (fun s l => noteLine_mem s die l true) _ s

@[simp] theorem lookTlb_mem (s : State) (c : ACtx) (j : Option Nat) (va : Nat) : (lookTlb s c j va).mem = s.mem := by
  unfold lookTlb
  split <;> simp

@[simp] theorem cacheTlb_mem (s : State) (c : ACtx) (j : Option Nat) (va : Nat) : (cacheTlb s c j va).mem = s.mem := by
  unfold cacheTlb
  split
  · rfl
  · dsimp only
    split <;> simp

@[simp] theorem noteTrans_mem (s : State) (c : ACtx) (k : AKind) (addr : Int) : (noteTrans s c k addr).mem = s.mem := by
  unfold noteTrans
  split
  · exact cacheTlb_mem ..
  · rfl

@[simp] theorem State.heal_mem (s : State) (ks : List Nat) : (s.heal ks).mem = s.mem := by
  unfold State.heal
  split <;> rfl

/-- What a performed store leaves in memory: the bytes written, in order, whatever its policy. -/
theorem State.writeBy_mem (s : State) (pol : Policy) (die : Nat) (cells : List Host.Cell) :
    (s.writeBy pol die cells).mem = s.mem.puts cells := by
  unfold State.writeBy
  dsimp only
  rw [State.put_mem]
  have h1 := foldl_mem (fun s k => noteSector s pol k) (fun s k => noteSector_mem s pol k)
    (sortSet ((cells.filter (fun c => isDevKey c.1)).map (fun c => sectorOf c.1))) s
  have h2 (s' : State) := foldl_mem (fun s l => noteStore s die l (Policy.inL2 pol)) (fun s l => noteStore_mem s die l (Policy.inL2 pol))
    (sortSet ((cells.filter (fun c => isDevKey c.1)).map (fun c => lineOf c.1))) s'
  congr 1
  split <;> split <;> simp [h1, h2]

theorem State.write_mem (s : State) (die : Nat) (cells : List Host.Cell) :
    (s.write die cells).mem = s.mem.puts cells := State.writeBy_mem s .dflt die cells

/-- A performed store keeps the canonical form. -/
theorem State.writeBy_wf {s : State} (pol : Policy) (die : Nat) (cells : List Host.Cell) (h : s.mem.wf = true) :
    (s.writeBy pol die cells).mem.wf = true := by
  rw [State.writeBy_mem]; exact Memory.puts_wf cells h
theorem State.write_wf {s : State} (die : Nat) (cells : List Host.Cell) (h : s.mem.wf = true) :
    (s.write die cells).mem.wf = true := State.writeBy_wf .dflt die cells h

/-- What is done in another agent's stead keeps what it keeps. -/
theorem State.as_mem (s : State) (a : Agent) (f : State → State) : (s.as a f).mem = (f { s with agent := a }).mem := rfl

/-- The state that a birth leaves, successful or not. -/
def afterPitch (r : Except (Nat × State) (State × Nat)) : State :=
  match r with
  | .ok r => r.1
  | .error r => r.2

/-- A birth keeps the canonical form, whether it succeeds or fails (R214, R312). -/
theorem pitch_wf {s : State} (core : Nat) (region : Option Nat) (seq : BitVec 3) (l t i : Nat) (h : s.mem.wf = true) :
    (afterPitch (pitch s core region seq l t i)).mem.wf = true := by
  unfold pitch
  split
  · exact h
  split
  · exact h
  split
  · split
    · exact h
    split
    · exact h
    split
    · exact h
    split
    · exact h
    dsimp only
    split
    · exact State.poke_wf _ h
    · cases region <;> exact State.poke_wf _ (State.write_wf _ _ (State.poke_wf _ h))
  · exact h

theorem State.stored_wf {s : State} (a : Agent) (p : Pend) (key : Nat) (h : s.mem.wf = true) :
    (s.stored a p key).mem.wf = true :=
  State.writeBy_wf _ _ _ (by show (s.heal p.clears).mem.wf = true; rw [State.heal_mem]; exact h)

@[simp] theorem State.countBirth_mem (s : State) (a : Agent) : (s.countBirth a).mem = s.mem := by
  unfold State.countBirth
  split <;> rfl

/-- A waiting store keeps the canonical form when it is performed (R268, R327). -/
theorem State.perform_wf {s : State} (a : Agent) (p : Pend) (h : s.mem.wf = true) : (s.perform a p).mem.wf = true := by
  unfold State.perform
  split
  · exact State.stored_wf a p _ h
  split
  · exact State.stored_wf a p _ h
  split
  · exact h
  rename_i l t i o _ _ _ _
  have hp := pitch_wf (State.coreFor a) none 0 l t i h
  split
  · rename_i r frame hr
    rw [hr] at hp
    exact State.stored_wf _ _ _ (by rw [State.countBirth_mem]; exact hp)
  · rename_i r s' hr
    rw [hr] at hp
    exact hp

theorem State.performs_wf {s : State} (a : Agent) (ps : List Pend) (h : s.mem.wf = true) :
    (s.performs a ps).mem.wf = true := by
  unfold State.performs
  induction ps generalizing s with
  | nil => exact h
  | cons p rest ih => exact ih (State.perform_wf a p h)

@[simp] theorem State.setSbuf_mem (s : State) (a : Agent) (ps : List Pend) : (s.setSbuf a ps).mem = s.mem := by
  cases a <;> rfl

@[simp] theorem State.setLates_mem (s : State) (a : Agent) (ls : List Late) : (s.setLates a ls).mem = s.mem := by
  cases a <;> rfl

/-- A load performed late leaves memory alone. -/
@[simp] theorem State.finishLate_mem (s : State) (a : Agent) : (s.finishLate a).mem = s.mem := by
  unfold State.finishLate
  split
  · rfl
  · simp [State.putReg, State.as_mem, State.tick]

@[simp] theorem State.settleLate_mem (s : State) (a : Agent) : (s.settleLate a).mem = s.mem :=
  foldl_mem _ (fun s _ => State.finishLate_mem s a) _ s

/-- Draining a thread's stores keeps the canonical form (R327). -/
theorem State.drainSel_wf {s : State} (a : Agent) (sel : Pend → Bool) (h : s.mem.wf = true) :
    (s.drainSel a sel).mem.wf = true := by
  unfold State.drainSel
  dsimp only
  split
  · exact h
  · rw [State.setSbuf_mem]; exact State.performs_wf _ _ (by rw [State.settleLate_mem]; exact h)

theorem State.foldl_performs_wf {s : State} (ts : List (Nat × Nat × List Pend)) (h : s.mem.wf = true) :
    (ts.foldl (fun s t => s.performs (.vec t.1) t.2.2) s).mem.wf = true := by
  induction ts generalizing s with
  | nil => exact h
  | cons t rest ih => exact ih (State.performs_wf _ _ h)

/-- Draining a hart's slice queues keeps the canonical form (R268). -/
theorem State.drainSlice_wf {s : State} (p k : Nat) (h : s.mem.wf = true) : (s.drainSlice p k).mem.wf = true := by
  have ha : (s.ackTrains (State.inTrain p k)).mem.wf = true := by
    unfold State.ackTrains
    split
    · exact h
    · exact State.foldl_performs_wf _ h
  unfold State.drainSlice State.drainQueue
  split
  · exact ha
  · exact State.performs_wf _ _ ha

/-- Births at one moment keep the canonical form (R254). -/
theorem State.bear_wf {s : State} (a : Agent) (t : Nat × Nat × Nat) (h : s.mem.wf = true) : (s.bear a t).mem.wf = true := by
  have hp := pitch_wf (State.coreFor a) none 0 t.1 t.2.1 t.2.2 h
  unfold State.bear
  split
  · rename_i r s' frame hr
    rw [hr] at hp
    rw [State.countBirth_mem]; exact hp
  · rename_i r s' hr
    rw [hr] at hp
    exact hp

theorem State.bears_wf {s : State} (a : Agent) (ts : List (Nat × Nat × Nat)) (h : s.mem.wf = true) :
    (ts.foldl (fun s t => s.bear a t) s).mem.wf = true := by
  induction ts generalizing s with
  | nil => exact h
  | cons t rest ih => exact ih (State.bear_wf a t h)

theorem State.bornTogether_wf {s : State} (p : Nat) (ks : List Nat) (h : s.mem.wf = true) :
    (s.bornTogether p ks).mem.wf = true := by
  unfold State.bornTogether
  dsimp only
  split
  · exact h
  · exact State.bears_wf _ _ h

theorem State.drainV_wf {s : State} (p : Nat) (h : s.mem.wf = true) : (s.drainV p).mem.wf = true := by
  unfold State.drainV
  repeat apply State.drainSlice_wf
  exact State.bornTogether_wf _ _ h

end Sys2Proof.Machine
end

