-- ==== Sys2Proof/Laws/PerInstr.lean ====
section
/-! SUPPORT. Laws/PerInstr.lean: the round trip of every constructor (R71–R84): a well-formed instruction's word decodes to
it, every operand at every value. Device steps have no word. -/

namespace Sys2Proof.Laws

-- one theorem after another: their checks side by side take too much memory
set_option Elab.async false

/-- The word of a well-formed instruction decodes to it. -/
def RoundTrip.Statement (i : Instr) : Prop :=
  ∀ w, i.wellFormed = true → encode i = some w → decodeWord w = .ok i

namespace RoundTrip

theorem add (d : Reg) (a : Reg) (b : Reg) : Statement (.add d a b) := by
  intro zz hzz hz
  obtain rfl : BitVec.ofNat 32 (enc3R 1 0 (d.toNat) (a.toNat) (b.toNat) (0)) = zz := Option.some.inj hz
  have hd := d.isLt
  have ha := a.isLt
  have hb := b.isLt
  exact decodeWord_dec1 (by unfold Fits3R; omega) (by simp [dec1, needResv]) hzz

theorem sub (d : Reg) (a : Reg) (b : Reg) : Statement (.sub d a b) := by
  intro zz hzz hz
  obtain rfl : BitVec.ofNat 32 (enc3R 1 1 (d.toNat) (a.toNat) (b.toNat) (0)) = zz := Option.some.inj hz
  have hd := d.isLt
  have ha := a.isLt
  have hb := b.isLt
  exact decodeWord_dec1 (by unfold Fits3R; omega) (by simp [dec1, needResv]) hzz

theorem mul (d : Reg) (a : Reg) (b : Reg) : Statement (.mul d a b) := by
  intro zz hzz hz
  obtain rfl : BitVec.ofNat 32 (enc3R 1 2 (d.toNat) (a.toNat) (b.toNat) (0)) = zz := Option.some.inj hz
  have hd := d.isLt
  have ha := a.isLt
  have hb := b.isLt
  exact decodeWord_dec1 (by unfold Fits3R; omega) (by simp [dec1, needResv]) hzz

theorem mulh (d : Reg) (a : Reg) (b : Reg) : Statement (.mulh d a b) := by
  intro zz hzz hz
  obtain rfl : BitVec.ofNat 32 (enc3R 1 3 (d.toNat) (a.toNat) (b.toNat) (0)) = zz := Option.some.inj hz
  have hd := d.isLt
  have ha := a.isLt
  have hb := b.isLt
  exact decodeWord_dec1 (by unfold Fits3R; omega) (by simp [dec1, needResv]) hzz

theorem mulhu (d : Reg) (a : Reg) (b : Reg) : Statement (.mulhu d a b) := by
  intro zz hzz hz
  obtain rfl : BitVec.ofNat 32 (enc3R 1 4 (d.toNat) (a.toNat) (b.toNat) (0)) = zz := Option.some.inj hz
  have hd := d.isLt
  have ha := a.isLt
  have hb := b.isLt
  exact decodeWord_dec1 (by unfold Fits3R; omega) (by simp [dec1, needResv]) hzz

theorem div (d : Reg) (a : Reg) (b : Reg) : Statement (.div d a b) := by
  intro zz hzz hz
  obtain rfl : BitVec.ofNat 32 (enc3R 1 5 (d.toNat) (a.toNat) (b.toNat) (0)) = zz := Option.some.inj hz
  have hd := d.isLt
  have ha := a.isLt
  have hb := b.isLt
  exact decodeWord_dec1 (by unfold Fits3R; omega) (by simp [dec1, needResv]) hzz

theorem divu (d : Reg) (a : Reg) (b : Reg) : Statement (.divu d a b) := by
  intro zz hzz hz
  obtain rfl : BitVec.ofNat 32 (enc3R 1 6 (d.toNat) (a.toNat) (b.toNat) (0)) = zz := Option.some.inj hz
  have hd := d.isLt
  have ha := a.isLt
  have hb := b.isLt
  exact decodeWord_dec1 (by unfold Fits3R; omega) (by simp [dec1, needResv]) hzz

theorem rem (d : Reg) (a : Reg) (b : Reg) : Statement (.rem d a b) := by
  intro zz hzz hz
  obtain rfl : BitVec.ofNat 32 (enc3R 1 7 (d.toNat) (a.toNat) (b.toNat) (0)) = zz := Option.some.inj hz
  have hd := d.isLt
  have ha := a.isLt
  have hb := b.isLt
  exact decodeWord_dec1 (by unfold Fits3R; omega) (by simp [dec1, needResv]) hzz

theorem remu (d : Reg) (a : Reg) (b : Reg) : Statement (.remu d a b) := by
  intro zz hzz hz
  obtain rfl : BitVec.ofNat 32 (enc3R 1 8 (d.toNat) (a.toNat) (b.toNat) (0)) = zz := Option.some.inj hz
  have hd := d.isLt
  have ha := a.isLt
  have hb := b.isLt
  exact decodeWord_dec1 (by unfold Fits3R; omega) (by simp [dec1, needResv]) hzz

theorem and (d : Reg) (a : Reg) (b : Reg) : Statement (.and d a b) := by
  intro zz hzz hz
  obtain rfl : BitVec.ofNat 32 (enc3R 1 9 (d.toNat) (a.toNat) (b.toNat) (0)) = zz := Option.some.inj hz
  have hd := d.isLt
  have ha := a.isLt
  have hb := b.isLt
  exact decodeWord_dec1 (by unfold Fits3R; omega) (by simp [dec1, needResv]) hzz

theorem or (d : Reg) (a : Reg) (b : Reg) : Statement (.or d a b) := by
  intro zz hzz hz
  obtain rfl : BitVec.ofNat 32 (enc3R 1 10 (d.toNat) (a.toNat) (b.toNat) (0)) = zz := Option.some.inj hz
  have hd := d.isLt
  have ha := a.isLt
  have hb := b.isLt
  exact decodeWord_dec1 (by unfold Fits3R; omega) (by simp [dec1, needResv]) hzz

theorem xor (d : Reg) (a : Reg) (b : Reg) : Statement (.xor d a b) := by
  intro zz hzz hz
  obtain rfl : BitVec.ofNat 32 (enc3R 1 11 (d.toNat) (a.toNat) (b.toNat) (0)) = zz := Option.some.inj hz
  have hd := d.isLt
  have ha := a.isLt
  have hb := b.isLt
  exact decodeWord_dec1 (by unfold Fits3R; omega) (by simp [dec1, needResv]) hzz

theorem sll (d : Reg) (a : Reg) (b : Reg) : Statement (.sll d a b) := by
  intro zz hzz hz
  obtain rfl : BitVec.ofNat 32 (enc3R 1 12 (d.toNat) (a.toNat) (b.toNat) (0)) = zz := Option.some.inj hz
  have hd := d.isLt
  have ha := a.isLt
  have hb := b.isLt
  exact decodeWord_dec1 (by unfold Fits3R; omega) (by simp [dec1, needResv]) hzz

theorem srl (d : Reg) (a : Reg) (b : Reg) : Statement (.srl d a b) := by
  intro zz hzz hz
  obtain rfl : BitVec.ofNat 32 (enc3R 1 13 (d.toNat) (a.toNat) (b.toNat) (0)) = zz := Option.some.inj hz
  have hd := d.isLt
  have ha := a.isLt
  have hb := b.isLt
  exact decodeWord_dec1 (by unfold Fits3R; omega) (by simp [dec1, needResv]) hzz

theorem sra (d : Reg) (a : Reg) (b : Reg) : Statement (.sra d a b) := by
  intro zz hzz hz
  obtain rfl : BitVec.ofNat 32 (enc3R 1 14 (d.toNat) (a.toNat) (b.toNat) (0)) = zz := Option.some.inj hz
  have hd := d.isLt
  have ha := a.isLt
  have hb := b.isLt
  exact decodeWord_dec1 (by unfold Fits3R; omega) (by simp [dec1, needResv]) hzz

theorem slt (d : Reg) (a : Reg) (b : Reg) : Statement (.slt d a b) := by
  intro zz hzz hz
  obtain rfl : BitVec.ofNat 32 (enc3R 1 15 (d.toNat) (a.toNat) (b.toNat) (0)) = zz := Option.some.inj hz
  have hd := d.isLt
  have ha := a.isLt
  have hb := b.isLt
  exact decodeWord_dec1 (by unfold Fits3R; omega) (by simp [dec1, needResv]) hzz

theorem sltu (d : Reg) (a : Reg) (b : Reg) : Statement (.sltu d a b) := by
  intro zz hzz hz
  obtain rfl : BitVec.ofNat 32 (enc3R 1 16 (d.toNat) (a.toNat) (b.toNat) (0)) = zz := Option.some.inj hz
  have hd := d.isLt
  have ha := a.isLt
  have hb := b.isLt
  exact decodeWord_dec1 (by unfold Fits3R; omega) (by simp [dec1, needResv]) hzz

theorem min (d : Reg) (a : Reg) (b : Reg) : Statement (.min d a b) := by
  intro zz hzz hz
  obtain rfl : BitVec.ofNat 32 (enc3R 1 17 (d.toNat) (a.toNat) (b.toNat) (0)) = zz := Option.some.inj hz
  have hd := d.isLt
  have ha := a.isLt
  have hb := b.isLt
  exact decodeWord_dec1 (by unfold Fits3R; omega) (by simp [dec1, needResv]) hzz

theorem max (d : Reg) (a : Reg) (b : Reg) : Statement (.max d a b) := by
  intro zz hzz hz
  obtain rfl : BitVec.ofNat 32 (enc3R 1 18 (d.toNat) (a.toNat) (b.toNat) (0)) = zz := Option.some.inj hz
  have hd := d.isLt
  have ha := a.isLt
  have hb := b.isLt
  exact decodeWord_dec1 (by unfold Fits3R; omega) (by simp [dec1, needResv]) hzz

theorem minu (d : Reg) (a : Reg) (b : Reg) : Statement (.minu d a b) := by
  intro zz hzz hz
  obtain rfl : BitVec.ofNat 32 (enc3R 1 19 (d.toNat) (a.toNat) (b.toNat) (0)) = zz := Option.some.inj hz
  have hd := d.isLt
  have ha := a.isLt
  have hb := b.isLt
  exact decodeWord_dec1 (by unfold Fits3R; omega) (by simp [dec1, needResv]) hzz

theorem maxu (d : Reg) (a : Reg) (b : Reg) : Statement (.maxu d a b) := by
  intro zz hzz hz
  obtain rfl : BitVec.ofNat 32 (enc3R 1 20 (d.toNat) (a.toNat) (b.toNat) (0)) = zz := Option.some.inj hz
  have hd := d.isLt
  have ha := a.isLt
  have hb := b.isLt
  exact decodeWord_dec1 (by unfold Fits3R; omega) (by simp [dec1, needResv]) hzz

theorem clz (d : Reg) (a : Reg) : Statement (.clz d a) := by
  intro zz hzz hz
  obtain rfl : BitVec.ofNat 32 (enc3R 1 21 (d.toNat) (a.toNat) 0 (0)) = zz := Option.some.inj hz
  have hd := d.isLt
  have ha := a.isLt
  exact decodeWord_dec1 (by unfold Fits3R; omega) (by simp [dec1, needResv]) hzz

theorem ctz (d : Reg) (a : Reg) : Statement (.ctz d a) := by
  intro zz hzz hz
  obtain rfl : BitVec.ofNat 32 (enc3R 1 22 (d.toNat) (a.toNat) 0 (0)) = zz := Option.some.inj hz
  have hd := d.isLt
  have ha := a.isLt
  exact decodeWord_dec1 (by unfold Fits3R; omega) (by simp [dec1, needResv]) hzz

theorem popc (d : Reg) (a : Reg) : Statement (.popc d a) := by
  intro zz hzz hz
  obtain rfl : BitVec.ofNat 32 (enc3R 1 23 (d.toNat) (a.toNat) 0 (0)) = zz := Option.some.inj hz
  have hd := d.isLt
  have ha := a.isLt
  exact decodeWord_dec1 (by unfold Fits3R; omega) (by simp [dec1, needResv]) hzz

theorem rotl (d : Reg) (a : Reg) (b : Reg) : Statement (.rotl d a b) := by
  intro zz hzz hz
  obtain rfl : BitVec.ofNat 32 (enc3R 1 24 (d.toNat) (a.toNat) (b.toNat) (0)) = zz := Option.some.inj hz
  have hd := d.isLt
  have ha := a.isLt
  have hb := b.isLt
  exact decodeWord_dec1 (by unfold Fits3R; omega) (by simp [dec1, needResv]) hzz

theorem rotr (d : Reg) (a : Reg) (b : Reg) : Statement (.rotr d a b) := by
  intro zz hzz hz
  obtain rfl : BitVec.ofNat 32 (enc3R 1 25 (d.toNat) (a.toNat) (b.toNat) (0)) = zz := Option.some.inj hz
  have hd := d.isLt
  have ha := a.isLt
  have hb := b.isLt
  exact decodeWord_dec1 (by unfold Fits3R; omega) (by simp [dec1, needResv]) hzz

theorem ext (d : Reg) (a : Reg) (b : Reg) (sgn : Bool) (len1 : BitVec 6) : Statement (.ext d a b sgn len1) := by
  intro zz hzz hz
  obtain rfl : BitVec.ofNat 32 (enc3R 1 26 (d.toNat) (a.toNat) (b.toNat) (bcode sgn * 64 + len1.toNat)) = zz := Option.some.inj hz
  have hlen1 := len1.isLt
  have hs := bcode_lt sgn
  refine decodeWord_dec1 ?_ ?_ hzz
  · have := d.isLt; have := a.isLt; have := b.isLt; unfold Fits3R; omega
  · have e1 : (bcode sgn * 64 + len1.toNat) / 64 = bcode sgn := by omega
    have e2 : (bcode sgn * 64 + len1.toNat) % 64 = len1.toNat := by omega
    simp only [dec1, e1, e2, bit_bcode, reg_toNat, BitVec.ofNat_toNat, BitVec.setWidth_eq]

theorem fadd (d : Reg) (a : Reg) (b : Reg) (p : Prec) (rc : Rc) : Statement (.fadd d a b p rc) := by
  intro zz hzz hz
  obtain rfl : BitVec.ofNat 32 (enc3R 1 32 (d.toNat) (a.toNat) (b.toNat) (p.code * 8 + rc.code)) = zz := Option.some.inj hz
  have hd := d.isLt
  have ha := a.isLt
  have hb := b.isLt
  have hm : p.code * 8 + rc.code < 128 := by cases p <;> cases rc <;> decide
  have key : dec1 32 (d.toNat) (a.toNat) (b.toNat) (p.code * 8 + rc.code) = .ok (.fadd (reg d.toNat) (reg a.toNat) (reg b.toNat) p rc) := by cases p <;> cases rc <;> rfl
  simp only [reg_toNat] at key
  exact decodeWord_dec1 (by unfold Fits3R; omega) key hzz

theorem fsub (d : Reg) (a : Reg) (b : Reg) (p : Prec) (rc : Rc) : Statement (.fsub d a b p rc) := by
  intro zz hzz hz
  obtain rfl : BitVec.ofNat 32 (enc3R 1 33 (d.toNat) (a.toNat) (b.toNat) (p.code * 8 + rc.code)) = zz := Option.some.inj hz
  have hd := d.isLt
  have ha := a.isLt
  have hb := b.isLt
  have hm : p.code * 8 + rc.code < 128 := by cases p <;> cases rc <;> decide
  have key : dec1 33 (d.toNat) (a.toNat) (b.toNat) (p.code * 8 + rc.code) = .ok (.fsub (reg d.toNat) (reg a.toNat) (reg b.toNat) p rc) := by cases p <;> cases rc <;> rfl
  simp only [reg_toNat] at key
  exact decodeWord_dec1 (by unfold Fits3R; omega) key hzz

theorem fmul (d : Reg) (a : Reg) (b : Reg) (p : Prec) (rc : Rc) : Statement (.fmul d a b p rc) := by
  intro zz hzz hz
  obtain rfl : BitVec.ofNat 32 (enc3R 1 34 (d.toNat) (a.toNat) (b.toNat) (p.code * 8 + rc.code)) = zz := Option.some.inj hz
  have hd := d.isLt
  have ha := a.isLt
  have hb := b.isLt
  have hm : p.code * 8 + rc.code < 128 := by cases p <;> cases rc <;> decide
  have key : dec1 34 (d.toNat) (a.toNat) (b.toNat) (p.code * 8 + rc.code) = .ok (.fmul (reg d.toNat) (reg a.toNat) (reg b.toNat) p rc) := by cases p <;> cases rc <;> rfl
  simp only [reg_toNat] at key
  exact decodeWord_dec1 (by unfold Fits3R; omega) key hzz

theorem fdiv (d : Reg) (a : Reg) (b : Reg) (p : Prec) (rc : Rc) : Statement (.fdiv d a b p rc) := by
  intro zz hzz hz
  obtain rfl : BitVec.ofNat 32 (enc3R 1 35 (d.toNat) (a.toNat) (b.toNat) (p.code * 8 + rc.code)) = zz := Option.some.inj hz
  have hd := d.isLt
  have ha := a.isLt
  have hb := b.isLt
  have hm : p.code * 8 + rc.code < 128 := by cases p <;> cases rc <;> decide
  have key : dec1 35 (d.toNat) (a.toNat) (b.toNat) (p.code * 8 + rc.code) = .ok (.fdiv (reg d.toNat) (reg a.toNat) (reg b.toNat) p rc) := by cases p <;> cases rc <;> rfl
  simp only [reg_toNat] at key
  exact decodeWord_dec1 (by unfold Fits3R; omega) key hzz

theorem fsqrt (d : Reg) (a : Reg) (p : Prec) (rc : Rc) : Statement (.fsqrt d a p rc) := by
  intro zz hzz hz
  obtain rfl : BitVec.ofNat 32 (enc3R 1 36 (d.toNat) (a.toNat) 0 (p.code * 8 + rc.code)) = zz := Option.some.inj hz
  have hd := d.isLt
  have ha := a.isLt
  have hm : p.code * 8 + rc.code < 128 := by cases p <;> cases rc <;> decide
  have key : dec1 36 (d.toNat) (a.toNat) 0 (p.code * 8 + rc.code) = .ok (.fsqrt (reg d.toNat) (reg a.toNat) p rc) := by cases p <;> cases rc <;> rfl
  simp only [reg_toNat] at key
  exact decodeWord_dec1 (by unfold Fits3R; omega) key hzz

theorem fmadd (d : Reg) (a : Reg) (b : Reg) (negp : Bool) (negc : Bool) (p : Prec) (rc : Rc) : Statement (.fmadd d a b negp negc p rc) := by
  intro zz hzz hz
  obtain rfl : BitVec.ofNat 32 (enc3R 1 37 (d.toNat) (a.toNat) (b.toNat) (bcode negp * 64 + bcode negc * 32 + p.code * 8 + rc.code)) = zz := Option.some.inj hz
  have hd := d.isLt
  have ha := a.isLt
  have hb := b.isLt
  have hm : bcode negp * 64 + bcode negc * 32 + p.code * 8 + rc.code < 128 := by cases negp <;> cases negc <;> cases p <;> cases rc <;> decide
  have key : dec1 37 (d.toNat) (a.toNat) (b.toNat) (bcode negp * 64 + bcode negc * 32 + p.code * 8 + rc.code) = .ok (.fmadd (reg d.toNat) (reg a.toNat) (reg b.toNat) negp negc p rc) := by cases negp <;> cases negc <;> cases p <;> cases rc <;> rfl
  simp only [reg_toNat] at key
  exact decodeWord_dec1 (by unfold Fits3R; omega) key hzz

theorem fmin (d : Reg) (a : Reg) (b : Reg) (p : Prec) : Statement (.fmin d a b p) := by
  intro zz hzz hz
  obtain rfl : BitVec.ofNat 32 (enc3R 1 38 (d.toNat) (a.toNat) (b.toNat) (p.code * 8)) = zz := Option.some.inj hz
  have hd := d.isLt
  have ha := a.isLt
  have hb := b.isLt
  have hm : p.code * 8 < 128 := by cases p <;> decide
  have key : dec1 38 (d.toNat) (a.toNat) (b.toNat) (p.code * 8) = .ok (.fmin (reg d.toNat) (reg a.toNat) (reg b.toNat) p) := by cases p <;> rfl
  simp only [reg_toNat] at key
  exact decodeWord_dec1 (by unfold Fits3R; omega) key hzz

theorem fmax (d : Reg) (a : Reg) (b : Reg) (p : Prec) : Statement (.fmax d a b p) := by
  intro zz hzz hz
  obtain rfl : BitVec.ofNat 32 (enc3R 1 39 (d.toNat) (a.toNat) (b.toNat) (p.code * 8)) = zz := Option.some.inj hz
  have hd := d.isLt
  have ha := a.isLt
  have hb := b.isLt
  have hm : p.code * 8 < 128 := by cases p <;> decide
  have key : dec1 39 (d.toNat) (a.toNat) (b.toNat) (p.code * 8) = .ok (.fmax (reg d.toNat) (reg a.toNat) (reg b.toNat) p) := by cases p <;> rfl
  simp only [reg_toNat] at key
  exact decodeWord_dec1 (by unfold Fits3R; omega) key hzz

theorem fcmp (d : Reg) (a : Reg) (b : Reg) (p : Prec) (c : FCond) : Statement (.fcmp d a b p c) := by
  intro zz hzz hz
  obtain rfl : BitVec.ofNat 32 (enc3R 1 40 (d.toNat) (a.toNat) (b.toNat) (p.code * 8 + c.code)) = zz := Option.some.inj hz
  have hd := d.isLt
  have ha := a.isLt
  have hb := b.isLt
  have hm : p.code * 8 + c.code < 128 := by cases p <;> cases c <;> decide
  have key : dec1 40 (d.toNat) (a.toNat) (b.toNat) (p.code * 8 + c.code) = .ok (.fcmp (reg d.toNat) (reg a.toNat) (reg b.toNat) p c) := by cases p <;> cases c <;> rfl
  simp only [reg_toNat] at key
  exact decodeWord_dec1 (by unfold Fits3R; omega) key hzz

theorem fcvt (d : Reg) (a : Reg) (k : FcvtKind) (p : Prec) (rc : Rc) : Statement (.fcvt d a k p rc) := by
  intro zz hzz hz
  obtain rfl : BitVec.ofNat 32 (enc3R 1 41 (d.toNat) (a.toNat) (k.code) (p.code * 8 + rc.code)) = zz := Option.some.inj hz
  have hm := prec_rc_lt p rc
  refine decodeWord_dec1 ?_ ?_ hzz
  · have := d.isLt; have := a.isLt; have := (kind_ofCode k).2; unfold Fits3R; omega
  · simp only [dec1, hm.1, needResv, withCode, (kind_ofCode k).1, prec_ofCode, rc_ofCode, reg_toNat, beq_self_eq_true,
      if_true]

theorem fmv (d : Reg) (a : Reg) (dir : FmvDir) (p : Prec) : Statement (.fmv d a dir p) := by
  intro zz hzz hz
  obtain rfl : BitVec.ofNat 32 (enc3R 1 42 (d.toNat) (a.toNat) (dir.code) (p.code * 8)) = zz := Option.some.inj hz
  have hd := d.isLt
  have ha := a.isLt
  cases dir <;> cases p <;> exact decodeWord_dec1 (by unfold Fits3R; simp only [FmvDir.code, Prec.code]; omega) (by simp [dec1, needResv, withCode, FmvDir.code, Prec.code, FmvDir.ofCode, Prec.ofCode]) hzz

theorem fclass (d : Reg) (a : Reg) (p : Prec) : Statement (.fclass d a p) := by
  intro zz hzz hz
  obtain rfl : BitVec.ofNat 32 (enc3R 1 43 (d.toNat) (a.toNat) 0 (p.code * 8)) = zz := Option.some.inj hz
  have hd := d.isLt
  have ha := a.isLt
  have hm : p.code * 8 < 128 := by cases p <;> decide
  have key : dec1 43 (d.toNat) (a.toNat) 0 (p.code * 8) = .ok (.fclass (reg d.toNat) (reg a.toNat) p) := by cases p <;> rfl
  simp only [reg_toNat] at key
  exact decodeWord_dec1 (by unfold Fits3R; omega) key hzz

theorem addi (d : Reg) (a : Reg) (imm : BitVec 12) : Statement (.addi d a imm) := by
  intro zz hzz hz
  obtain rfl : BitVec.ofNat 32 (encI12 2 0 (d.toNat) (a.toNat) (imm.toNat)) = zz := Option.some.inj hz
  have hd := d.isLt
  have ha := a.isLt
  have himm := imm.isLt
  rw [encI12_eq]
  exact decodeWord_dec2 (by unfold Fits3R; omega) (by simp [dec2, imm12_eq]) hzz

theorem andi (d : Reg) (a : Reg) (imm : BitVec 12) : Statement (.andi d a imm) := by
  intro zz hzz hz
  obtain rfl : BitVec.ofNat 32 (encI12 2 1 (d.toNat) (a.toNat) (imm.toNat)) = zz := Option.some.inj hz
  have hd := d.isLt
  have ha := a.isLt
  have himm := imm.isLt
  rw [encI12_eq]
  exact decodeWord_dec2 (by unfold Fits3R; omega) (by simp [dec2, imm12_eq]) hzz

theorem ori (d : Reg) (a : Reg) (imm : BitVec 12) : Statement (.ori d a imm) := by
  intro zz hzz hz
  obtain rfl : BitVec.ofNat 32 (encI12 2 2 (d.toNat) (a.toNat) (imm.toNat)) = zz := Option.some.inj hz
  have hd := d.isLt
  have ha := a.isLt
  have himm := imm.isLt
  rw [encI12_eq]
  exact decodeWord_dec2 (by unfold Fits3R; omega) (by simp [dec2, imm12_eq]) hzz

theorem xori (d : Reg) (a : Reg) (imm : BitVec 12) : Statement (.xori d a imm) := by
  intro zz hzz hz
  obtain rfl : BitVec.ofNat 32 (encI12 2 3 (d.toNat) (a.toNat) (imm.toNat)) = zz := Option.some.inj hz
  have hd := d.isLt
  have ha := a.isLt
  have himm := imm.isLt
  rw [encI12_eq]
  exact decodeWord_dec2 (by unfold Fits3R; omega) (by simp [dec2, imm12_eq]) hzz

theorem slli (d : Reg) (a : Reg) (sh : BitVec 6) : Statement (.slli d a sh) := by
  intro zz hzz hz
  obtain rfl : BitVec.ofNat 32 (encI12 2 4 (d.toNat) (a.toNat) (sh.toNat)) = zz := Option.some.inj hz
  have hd := d.isLt
  have ha := a.isLt
  have hsh := sh.isLt
  rw [encI12_eq]
  exact decodeWord_dec2 (by unfold Fits3R; omega) (by simp [dec2, needResv, imm12_eq]; omega) hzz

theorem srli (d : Reg) (a : Reg) (sh : BitVec 6) : Statement (.srli d a sh) := by
  intro zz hzz hz
  obtain rfl : BitVec.ofNat 32 (encI12 2 5 (d.toNat) (a.toNat) (sh.toNat)) = zz := Option.some.inj hz
  have hd := d.isLt
  have ha := a.isLt
  have hsh := sh.isLt
  rw [encI12_eq]
  exact decodeWord_dec2 (by unfold Fits3R; omega) (by simp [dec2, needResv, imm12_eq]; omega) hzz

theorem srai (d : Reg) (a : Reg) (sh : BitVec 6) : Statement (.srai d a sh) := by
  intro zz hzz hz
  obtain rfl : BitVec.ofNat 32 (encI12 2 6 (d.toNat) (a.toNat) (sh.toNat)) = zz := Option.some.inj hz
  have hd := d.isLt
  have ha := a.isLt
  have hsh := sh.isLt
  rw [encI12_eq]
  exact decodeWord_dec2 (by unfold Fits3R; omega) (by simp [dec2, needResv, imm12_eq]; omega) hzz

theorem slti (d : Reg) (a : Reg) (imm : BitVec 12) : Statement (.slti d a imm) := by
  intro zz hzz hz
  obtain rfl : BitVec.ofNat 32 (encI12 2 7 (d.toNat) (a.toNat) (imm.toNat)) = zz := Option.some.inj hz
  have hd := d.isLt
  have ha := a.isLt
  have himm := imm.isLt
  rw [encI12_eq]
  exact decodeWord_dec2 (by unfold Fits3R; omega) (by simp [dec2, imm12_eq]) hzz

theorem sltui (d : Reg) (a : Reg) (imm : BitVec 12) : Statement (.sltui d a imm) := by
  intro zz hzz hz
  obtain rfl : BitVec.ofNat 32 (encI12 2 8 (d.toNat) (a.toNat) (imm.toNat)) = zz := Option.some.inj hz
  have hd := d.isLt
  have ha := a.isLt
  have himm := imm.isLt
  rw [encI12_eq]
  exact decodeWord_dec2 (by unfold Fits3R; omega) (by simp [dec2, imm12_eq]) hzz

theorem lih (d : Reg) (imm : BitVec 17) : Statement (.lih d imm) := by
  intro zz hzz hz
  obtain rfl : BitVec.ofNat 32 (encI17 2 9 (d.toNat) (imm.toNat)) = zz := Option.some.inj hz
  have hd := d.isLt
  have himm := imm.isLt
  rw [encI17_eq]
  exact decodeWord_dec2 (by unfold Fits3R; omega) (by simp [dec2, imm17_eq]) hzz

theorem pcadd (d : Reg) (imm : BitVec 17) : Statement (.pcadd d imm) := by
  intro zz hzz hz
  obtain rfl : BitVec.ofNat 32 (encI17 2 10 (d.toNat) (imm.toNat)) = zz := Option.some.inj hz
  have hd := d.isLt
  have himm := imm.isLt
  rw [encI17_eq]
  exact decodeWord_dec2 (by unfold Fits3R; omega) (by simp [dec2, imm17_eq]) hzz

theorem beq (a : Reg) (b : Reg) (off : BitVec 15) : Statement (.beq a b off) := by
  intro zz hzz hz
  obtain rfl : BitVec.ofNat 32 (encBR 0 a.toNat b.toNat off.toNat) = zz := Option.some.inj hz
  have ha := a.isLt
  have hb := b.isLt
  have hoff := off.isLt
  exact decodeWord_encBR (by omega) (by simp [dec3, fields_encBR (op := 0) (x := a.toNat) (y := b.toNat) (off := off.toNat) (by omega)]) hzz

theorem bne (a : Reg) (b : Reg) (off : BitVec 15) : Statement (.bne a b off) := by
  intro zz hzz hz
  obtain rfl : BitVec.ofNat 32 (encBR 1 a.toNat b.toNat off.toNat) = zz := Option.some.inj hz
  have ha := a.isLt
  have hb := b.isLt
  have hoff := off.isLt
  exact decodeWord_encBR (by omega) (by simp [dec3, fields_encBR (op := 1) (x := a.toNat) (y := b.toNat) (off := off.toNat) (by omega)]) hzz

theorem blt (a : Reg) (b : Reg) (off : BitVec 15) : Statement (.blt a b off) := by
  intro zz hzz hz
  obtain rfl : BitVec.ofNat 32 (encBR 2 a.toNat b.toNat off.toNat) = zz := Option.some.inj hz
  have ha := a.isLt
  have hb := b.isLt
  have hoff := off.isLt
  exact decodeWord_encBR (by omega) (by simp [dec3, fields_encBR (op := 2) (x := a.toNat) (y := b.toNat) (off := off.toNat) (by omega)]) hzz

theorem bge (a : Reg) (b : Reg) (off : BitVec 15) : Statement (.bge a b off) := by
  intro zz hzz hz
  obtain rfl : BitVec.ofNat 32 (encBR 3 a.toNat b.toNat off.toNat) = zz := Option.some.inj hz
  have ha := a.isLt
  have hb := b.isLt
  have hoff := off.isLt
  exact decodeWord_encBR (by omega) (by simp [dec3, fields_encBR (op := 3) (x := a.toNat) (y := b.toNat) (off := off.toNat) (by omega)]) hzz

theorem bltu (a : Reg) (b : Reg) (off : BitVec 15) : Statement (.bltu a b off) := by
  intro zz hzz hz
  obtain rfl : BitVec.ofNat 32 (encBR 4 a.toNat b.toNat off.toNat) = zz := Option.some.inj hz
  have ha := a.isLt
  have hb := b.isLt
  have hoff := off.isLt
  exact decodeWord_encBR (by omega) (by simp [dec3, fields_encBR (op := 4) (x := a.toNat) (y := b.toNat) (off := off.toNat) (by omega)]) hzz

theorem bgeu (a : Reg) (b : Reg) (off : BitVec 15) : Statement (.bgeu a b off) := by
  intro zz hzz hz
  obtain rfl : BitVec.ofNat 32 (encBR 5 a.toNat b.toNat off.toNat) = zz := Option.some.inj hz
  have ha := a.isLt
  have hb := b.isLt
  have hoff := off.isLt
  exact decodeWord_encBR (by omega) (by simp [dec3, fields_encBR (op := 5) (x := a.toNat) (y := b.toNat) (off := off.toNat) (by omega)]) hzz

theorem jal (d : Reg) (off : BitVec 20) : Statement (.jal d off) := by
  intro zz hzz hz
  obtain rfl : BitVec.ofNat 32 (encJ 6 d.toNat off.toNat) = zz := Option.some.inj hz
  have hd := d.isLt
  have hoff := off.isLt
  exact decodeWord_encJ (by omega) (by simp) hzz

theorem jalr (d : Reg) (a : Reg) (off : BitVec 15) : Statement (.jalr d a off) := by
  intro zz hzz hz
  obtain rfl : BitVec.ofNat 32 (encBR 7 d.toNat a.toNat off.toNat) = zz := Option.some.inj hz
  have hd := d.isLt
  have ha := a.isLt
  have hoff := off.isLt
  exact decodeWord_encBR (by omega) (by simp [dec3, fields_encBR (op := 7) (x := d.toNat) (y := a.toNat) (off := off.toNat) (by omega)]) hzz

theorem ldS8 (d : Reg) (a : Reg) (imm : BitVec 12) : Statement (.ldS8 d a imm) := by
  intro zz hzz hz
  obtain rfl : BitVec.ofNat 32 (encI12 4 0 (d.toNat) (a.toNat) (imm.toNat)) = zz := Option.some.inj hz
  have hd := d.isLt
  have ha := a.isLt
  have himm := imm.isLt
  rw [encI12_eq]
  exact decodeWord_dec4 (by unfold Fits3R; omega) (by simp [dec4, imm12_eq]) hzz

theorem ldZ8 (d : Reg) (a : Reg) (imm : BitVec 12) : Statement (.ldZ8 d a imm) := by
  intro zz hzz hz
  obtain rfl : BitVec.ofNat 32 (encI12 4 1 (d.toNat) (a.toNat) (imm.toNat)) = zz := Option.some.inj hz
  have hd := d.isLt
  have ha := a.isLt
  have himm := imm.isLt
  rw [encI12_eq]
  exact decodeWord_dec4 (by unfold Fits3R; omega) (by simp [dec4, imm12_eq]) hzz

theorem ldS16 (d : Reg) (a : Reg) (imm : BitVec 12) : Statement (.ldS16 d a imm) := by
  intro zz hzz hz
  obtain rfl : BitVec.ofNat 32 (encI12 4 2 (d.toNat) (a.toNat) (imm.toNat)) = zz := Option.some.inj hz
  have hd := d.isLt
  have ha := a.isLt
  have himm := imm.isLt
  rw [encI12_eq]
  exact decodeWord_dec4 (by unfold Fits3R; omega) (by simp [dec4, imm12_eq]) hzz

theorem ldZ16 (d : Reg) (a : Reg) (imm : BitVec 12) : Statement (.ldZ16 d a imm) := by
  intro zz hzz hz
  obtain rfl : BitVec.ofNat 32 (encI12 4 3 (d.toNat) (a.toNat) (imm.toNat)) = zz := Option.some.inj hz
  have hd := d.isLt
  have ha := a.isLt
  have himm := imm.isLt
  rw [encI12_eq]
  exact decodeWord_dec4 (by unfold Fits3R; omega) (by simp [dec4, imm12_eq]) hzz

theorem ldS32 (d : Reg) (a : Reg) (imm : BitVec 12) : Statement (.ldS32 d a imm) := by
  intro zz hzz hz
  obtain rfl : BitVec.ofNat 32 (encI12 4 4 (d.toNat) (a.toNat) (imm.toNat)) = zz := Option.some.inj hz
  have hd := d.isLt
  have ha := a.isLt
  have himm := imm.isLt
  rw [encI12_eq]
  exact decodeWord_dec4 (by unfold Fits3R; omega) (by simp [dec4, imm12_eq]) hzz

theorem ldZ32 (d : Reg) (a : Reg) (imm : BitVec 12) : Statement (.ldZ32 d a imm) := by
  intro zz hzz hz
  obtain rfl : BitVec.ofNat 32 (encI12 4 5 (d.toNat) (a.toNat) (imm.toNat)) = zz := Option.some.inj hz
  have hd := d.isLt
  have ha := a.isLt
  have himm := imm.isLt
  rw [encI12_eq]
  exact decodeWord_dec4 (by unfold Fits3R; omega) (by simp [dec4, imm12_eq]) hzz

theorem ld64 (d : Reg) (a : Reg) (imm : BitVec 12) : Statement (.ld64 d a imm) := by
  intro zz hzz hz
  obtain rfl : BitVec.ofNat 32 (encI12 4 6 (d.toNat) (a.toNat) (imm.toNat)) = zz := Option.some.inj hz
  have hd := d.isLt
  have ha := a.isLt
  have himm := imm.isLt
  rw [encI12_eq]
  exact decodeWord_dec4 (by unfold Fits3R; omega) (by simp [dec4, imm12_eq]) hzz

theorem st8 (d : Reg) (a : Reg) (imm : BitVec 12) : Statement (.st8 d a imm) := by
  intro zz hzz hz
  obtain rfl : BitVec.ofNat 32 (encI12 4 8 (d.toNat) (a.toNat) (imm.toNat)) = zz := Option.some.inj hz
  have hd := d.isLt
  have ha := a.isLt
  have himm := imm.isLt
  rw [encI12_eq]
  exact decodeWord_dec4 (by unfold Fits3R; omega) (by simp [dec4, imm12_eq]) hzz

theorem st16 (d : Reg) (a : Reg) (imm : BitVec 12) : Statement (.st16 d a imm) := by
  intro zz hzz hz
  obtain rfl : BitVec.ofNat 32 (encI12 4 9 (d.toNat) (a.toNat) (imm.toNat)) = zz := Option.some.inj hz
  have hd := d.isLt
  have ha := a.isLt
  have himm := imm.isLt
  rw [encI12_eq]
  exact decodeWord_dec4 (by unfold Fits3R; omega) (by simp [dec4, imm12_eq]) hzz

theorem st32 (d : Reg) (a : Reg) (imm : BitVec 12) : Statement (.st32 d a imm) := by
  intro zz hzz hz
  obtain rfl : BitVec.ofNat 32 (encI12 4 10 (d.toNat) (a.toNat) (imm.toNat)) = zz := Option.some.inj hz
  have hd := d.isLt
  have ha := a.isLt
  have himm := imm.isLt
  rw [encI12_eq]
  exact decodeWord_dec4 (by unfold Fits3R; omega) (by simp [dec4, imm12_eq]) hzz

theorem st64 (d : Reg) (a : Reg) (imm : BitVec 12) : Statement (.st64 d a imm) := by
  intro zz hzz hz
  obtain rfl : BitVec.ofNat 32 (encI12 4 11 (d.toNat) (a.toNat) (imm.toNat)) = zz := Option.some.inj hz
  have hd := d.isLt
  have ha := a.isLt
  have himm := imm.isLt
  rw [encI12_eq]
  exact decodeWord_dec4 (by unfold Fits3R; omega) (by simp [dec4, imm12_eq]) hzz

theorem fld16 (d : Reg) (a : Reg) (imm : BitVec 12) : Statement (.fld16 d a imm) := by
  intro zz hzz hz
  obtain rfl : BitVec.ofNat 32 (encI12 4 12 (d.toNat) (a.toNat) (imm.toNat)) = zz := Option.some.inj hz
  have hd := d.isLt
  have ha := a.isLt
  have himm := imm.isLt
  rw [encI12_eq]
  exact decodeWord_dec4 (by unfold Fits3R; omega) (by simp [dec4, imm12_eq]) hzz

theorem fld32 (d : Reg) (a : Reg) (imm : BitVec 12) : Statement (.fld32 d a imm) := by
  intro zz hzz hz
  obtain rfl : BitVec.ofNat 32 (encI12 4 13 (d.toNat) (a.toNat) (imm.toNat)) = zz := Option.some.inj hz
  have hd := d.isLt
  have ha := a.isLt
  have himm := imm.isLt
  rw [encI12_eq]
  exact decodeWord_dec4 (by unfold Fits3R; omega) (by simp [dec4, imm12_eq]) hzz

theorem fld64 (d : Reg) (a : Reg) (imm : BitVec 12) : Statement (.fld64 d a imm) := by
  intro zz hzz hz
  obtain rfl : BitVec.ofNat 32 (encI12 4 14 (d.toNat) (a.toNat) (imm.toNat)) = zz := Option.some.inj hz
  have hd := d.isLt
  have ha := a.isLt
  have himm := imm.isLt
  rw [encI12_eq]
  exact decodeWord_dec4 (by unfold Fits3R; omega) (by simp [dec4, imm12_eq]) hzz

theorem fst16 (d : Reg) (a : Reg) (imm : BitVec 12) : Statement (.fst16 d a imm) := by
  intro zz hzz hz
  obtain rfl : BitVec.ofNat 32 (encI12 4 16 (d.toNat) (a.toNat) (imm.toNat)) = zz := Option.some.inj hz
  have hd := d.isLt
  have ha := a.isLt
  have himm := imm.isLt
  rw [encI12_eq]
  exact decodeWord_dec4 (by unfold Fits3R; omega) (by simp [dec4, imm12_eq]) hzz

theorem fst32 (d : Reg) (a : Reg) (imm : BitVec 12) : Statement (.fst32 d a imm) := by
  intro zz hzz hz
  obtain rfl : BitVec.ofNat 32 (encI12 4 17 (d.toNat) (a.toNat) (imm.toNat)) = zz := Option.some.inj hz
  have hd := d.isLt
  have ha := a.isLt
  have himm := imm.isLt
  rw [encI12_eq]
  exact decodeWord_dec4 (by unfold Fits3R; omega) (by simp [dec4, imm12_eq]) hzz

theorem fst64 (d : Reg) (a : Reg) (imm : BitVec 12) : Statement (.fst64 d a imm) := by
  intro zz hzz hz
  obtain rfl : BitVec.ofNat 32 (encI12 4 18 (d.toNat) (a.toNat) (imm.toNat)) = zz := Option.some.inj hz
  have hd := d.isLt
  have ha := a.isLt
  have himm := imm.isLt
  rw [encI12_eq]
  exact decodeWord_dec4 (by unfold Fits3R; omega) (by simp [dec4, imm12_eq]) hzz

theorem lda (d : Reg) (a : Reg) (sc : Scope) (w : MWidth) : Statement (.lda d a sc w) := by
  intro zz hzz hz
  obtain rfl : BitVec.ofNat 32 (enc3R 4 24 (d.toNat) (a.toNat) 0 (sc.code * 4 + w.code)) = zz := Option.some.inj hz
  have hd := d.isLt
  have ha := a.isLt
  have hm : sc.code * 4 + w.code < 128 := by cases sc <;> cases w <;> decide
  have key : dec4 24 (d.toNat) (a.toNat) 0 (sc.code * 4 + w.code) = .ok (.lda (reg d.toNat) (reg a.toNat) sc w) := by cases sc <;> cases w <;> rfl
  simp only [reg_toNat] at key
  exact decodeWord_dec4 (by unfold Fits3R; omega) key hzz

theorem stl (d : Reg) (a : Reg) (sc : Scope) (w : MWidth) : Statement (.stl d a sc w) := by
  intro zz hzz hz
  obtain rfl : BitVec.ofNat 32 (enc3R 4 25 (d.toNat) (a.toNat) 0 (sc.code * 4 + w.code)) = zz := Option.some.inj hz
  have hd := d.isLt
  have ha := a.isLt
  have hm : sc.code * 4 + w.code < 128 := by cases sc <;> cases w <;> decide
  have key : dec4 25 (d.toNat) (a.toNat) 0 (sc.code * 4 + w.code) = .ok (.stl (reg d.toNat) (reg a.toNat) sc w) := by cases sc <;> cases w <;> rfl
  simp only [reg_toNat] at key
  exact decodeWord_dec4 (by unfold Fits3R; omega) key hzz

theorem cas (d : Reg) (a : Reg) (b : Reg) (o : Order) (sc : Scope) (w : MWidth) : Statement (.cas d a b o sc w) := by
  intro zz hzz hz
  obtain rfl : BitVec.ofNat 32 (enc3R 4 26 (d.toNat) (a.toNat) (b.toNat) (o.code * 32 + sc.code * 4 + w.code)) = zz := Option.some.inj hz
  have hd := d.isLt
  have ha := a.isLt
  have hb := b.isLt
  have hm : o.code * 32 + sc.code * 4 + w.code < 128 := by cases o <;> cases sc <;> cases w <;> decide
  have key : dec4 26 (d.toNat) (a.toNat) (b.toNat) (o.code * 32 + sc.code * 4 + w.code) = .ok (.cas (reg d.toNat) (reg a.toNat) (reg b.toNat) o sc w) := by cases o <;> cases sc <;> cases w <;> rfl
  simp only [reg_toNat] at key
  exact decodeWord_dec4 (by unfold Fits3R; omega) key hzz

theorem amoswap (d : Reg) (a : Reg) (b : Reg) (o : Order) (sc : Scope) (w : MWidth) : Statement (.amoswap d a b o sc w) := by
  intro zz hzz hz
  obtain rfl : BitVec.ofNat 32 (enc3R 4 27 (d.toNat) (a.toNat) (b.toNat) (o.code * 32 + sc.code * 4 + w.code)) = zz := Option.some.inj hz
  have hd := d.isLt
  have ha := a.isLt
  have hb := b.isLt
  have hm : o.code * 32 + sc.code * 4 + w.code < 128 := by cases o <;> cases sc <;> cases w <;> decide
  have key : dec4 27 (d.toNat) (a.toNat) (b.toNat) (o.code * 32 + sc.code * 4 + w.code) = .ok (.amoswap (reg d.toNat) (reg a.toNat) (reg b.toNat) o sc w) := by cases o <;> cases sc <;> cases w <;> rfl
  simp only [reg_toNat] at key
  exact decodeWord_dec4 (by unfold Fits3R; omega) key hzz

theorem amoadd (d : Reg) (a : Reg) (b : Reg) (o : Order) (sc : Scope) (w : MWidth) : Statement (.amoadd d a b o sc w) := by
  intro zz hzz hz
  obtain rfl : BitVec.ofNat 32 (enc3R 4 28 (d.toNat) (a.toNat) (b.toNat) (o.code * 32 + sc.code * 4 + w.code)) = zz := Option.some.inj hz
  have hd := d.isLt
  have ha := a.isLt
  have hb := b.isLt
  have hm : o.code * 32 + sc.code * 4 + w.code < 128 := by cases o <;> cases sc <;> cases w <;> decide
  have key : dec4 28 (d.toNat) (a.toNat) (b.toNat) (o.code * 32 + sc.code * 4 + w.code) = .ok (.amoadd (reg d.toNat) (reg a.toNat) (reg b.toNat) o sc w) := by cases o <;> cases sc <;> cases w <;> rfl
  simp only [reg_toNat] at key
  exact decodeWord_dec4 (by unfold Fits3R; omega) key hzz

theorem amoand (d : Reg) (a : Reg) (b : Reg) (o : Order) (sc : Scope) (w : MWidth) : Statement (.amoand d a b o sc w) := by
  intro zz hzz hz
  obtain rfl : BitVec.ofNat 32 (enc3R 4 29 (d.toNat) (a.toNat) (b.toNat) (o.code * 32 + sc.code * 4 + w.code)) = zz := Option.some.inj hz
  have hd := d.isLt
  have ha := a.isLt
  have hb := b.isLt
  have hm : o.code * 32 + sc.code * 4 + w.code < 128 := by cases o <;> cases sc <;> cases w <;> decide
  have key : dec4 29 (d.toNat) (a.toNat) (b.toNat) (o.code * 32 + sc.code * 4 + w.code) = .ok (.amoand (reg d.toNat) (reg a.toNat) (reg b.toNat) o sc w) := by cases o <;> cases sc <;> cases w <;> rfl
  simp only [reg_toNat] at key
  exact decodeWord_dec4 (by unfold Fits3R; omega) key hzz

theorem amoor (d : Reg) (a : Reg) (b : Reg) (o : Order) (sc : Scope) (w : MWidth) : Statement (.amoor d a b o sc w) := by
  intro zz hzz hz
  obtain rfl : BitVec.ofNat 32 (enc3R 4 30 (d.toNat) (a.toNat) (b.toNat) (o.code * 32 + sc.code * 4 + w.code)) = zz := Option.some.inj hz
  have hd := d.isLt
  have ha := a.isLt
  have hb := b.isLt
  have hm : o.code * 32 + sc.code * 4 + w.code < 128 := by cases o <;> cases sc <;> cases w <;> decide
  have key : dec4 30 (d.toNat) (a.toNat) (b.toNat) (o.code * 32 + sc.code * 4 + w.code) = .ok (.amoor (reg d.toNat) (reg a.toNat) (reg b.toNat) o sc w) := by cases o <;> cases sc <;> cases w <;> rfl
  simp only [reg_toNat] at key
  exact decodeWord_dec4 (by unfold Fits3R; omega) key hzz

theorem amoxor (d : Reg) (a : Reg) (b : Reg) (o : Order) (sc : Scope) (w : MWidth) : Statement (.amoxor d a b o sc w) := by
  intro zz hzz hz
  obtain rfl : BitVec.ofNat 32 (enc3R 4 31 (d.toNat) (a.toNat) (b.toNat) (o.code * 32 + sc.code * 4 + w.code)) = zz := Option.some.inj hz
  have hd := d.isLt
  have ha := a.isLt
  have hb := b.isLt
  have hm : o.code * 32 + sc.code * 4 + w.code < 128 := by cases o <;> cases sc <;> cases w <;> decide
  have key : dec4 31 (d.toNat) (a.toNat) (b.toNat) (o.code * 32 + sc.code * 4 + w.code) = .ok (.amoxor (reg d.toNat) (reg a.toNat) (reg b.toNat) o sc w) := by cases o <;> cases sc <;> cases w <;> rfl
  simp only [reg_toNat] at key
  exact decodeWord_dec4 (by unfold Fits3R; omega) key hzz

theorem amomin (d : Reg) (a : Reg) (b : Reg) (o : Order) (sc : Scope) (w : MWidth) : Statement (.amomin d a b o sc w) := by
  intro zz hzz hz
  obtain rfl : BitVec.ofNat 32 (enc3R 4 32 (d.toNat) (a.toNat) (b.toNat) (o.code * 32 + sc.code * 4 + w.code)) = zz := Option.some.inj hz
  have hd := d.isLt
  have ha := a.isLt
  have hb := b.isLt
  have hm : o.code * 32 + sc.code * 4 + w.code < 128 := by cases o <;> cases sc <;> cases w <;> decide
  have key : dec4 32 (d.toNat) (a.toNat) (b.toNat) (o.code * 32 + sc.code * 4 + w.code) = .ok (.amomin (reg d.toNat) (reg a.toNat) (reg b.toNat) o sc w) := by cases o <;> cases sc <;> cases w <;> rfl
  simp only [reg_toNat] at key
  exact decodeWord_dec4 (by unfold Fits3R; omega) key hzz

theorem amomax (d : Reg) (a : Reg) (b : Reg) (o : Order) (sc : Scope) (w : MWidth) : Statement (.amomax d a b o sc w) := by
  intro zz hzz hz
  obtain rfl : BitVec.ofNat 32 (enc3R 4 33 (d.toNat) (a.toNat) (b.toNat) (o.code * 32 + sc.code * 4 + w.code)) = zz := Option.some.inj hz
  have hd := d.isLt
  have ha := a.isLt
  have hb := b.isLt
  have hm : o.code * 32 + sc.code * 4 + w.code < 128 := by cases o <;> cases sc <;> cases w <;> decide
  have key : dec4 33 (d.toNat) (a.toNat) (b.toNat) (o.code * 32 + sc.code * 4 + w.code) = .ok (.amomax (reg d.toNat) (reg a.toNat) (reg b.toNat) o sc w) := by cases o <;> cases sc <;> cases w <;> rfl
  simp only [reg_toNat] at key
  exact decodeWord_dec4 (by unfold Fits3R; omega) key hzz

theorem fence (k : Kinds) (sc : Scope) : Statement (.fence k sc) := by
  intro zz hzz hz
  obtain rfl : BitVec.ofNat 32 (enc3R 4 40 0 0 0 (k.code * 32 + sc.code * 4)) = zz := Option.some.inj hz
  cases k <;> cases sc <;> exact decodeWord_dec4 (by unfold Fits3R; simp only [Kinds.code, Scope.code]; omega) (by simp [dec4, needResv, withCode, Kinds.code, Scope.code, Kinds.ofCode, Scope.ofCode]) hzz

theorem csrr (d : Reg) (n : BitVec 12) : Statement (.csrr d n) := by
  intro zz hzz hz
  obtain rfl : BitVec.ofNat 32 (encI12 5 0 (d.toNat) 0 (n.toNat)) = zz := Option.some.inj hz
  have hd := d.isLt
  have hn := n.isLt
  rw [encI12_eq]
  exact decodeWord_dec5 (by unfold Fits3R; omega) (by simp [dec5, needResv, imm12_eq]) hzz

theorem csrw (d : Reg) (a : Reg) (n : BitVec 12) : Statement (.csrw d a n) := by
  intro zz hzz hz
  obtain rfl : BitVec.ofNat 32 (encI12 5 1 (d.toNat) (a.toNat) (n.toNat)) = zz := Option.some.inj hz
  have hd := d.isLt
  have ha := a.isLt
  have hn := n.isLt
  rw [encI12_eq]
  exact decodeWord_dec5 (by unfold Fits3R; omega) (by simp [dec5, imm12_eq]) hzz

theorem csrs (d : Reg) (a : Reg) (n : BitVec 12) : Statement (.csrs d a n) := by
  intro zz hzz hz
  obtain rfl : BitVec.ofNat 32 (encI12 5 2 (d.toNat) (a.toNat) (n.toNat)) = zz := Option.some.inj hz
  have hd := d.isLt
  have ha := a.isLt
  have hn := n.isLt
  rw [encI12_eq]
  exact decodeWord_dec5 (by unfold Fits3R; omega) (by simp [dec5, imm12_eq]) hzz

theorem csrc (d : Reg) (a : Reg) (n : BitVec 12) : Statement (.csrc d a n) := by
  intro zz hzz hz
  obtain rfl : BitVec.ofNat 32 (encI12 5 3 (d.toNat) (a.toNat) (n.toNat)) = zz := Option.some.inj hz
  have hd := d.isLt
  have ha := a.isLt
  have hn := n.isLt
  rw [encI12_eq]
  exact decodeWord_dec5 (by unfold Fits3R; omega) (by simp [dec5, imm12_eq]) hzz

theorem trap (imm : BitVec 17) : Statement (.trap imm) := by
  intro zz hzz hz
  obtain rfl : BitVec.ofNat 32 (encI17 5 8 0 (imm.toNat)) = zz := Option.some.inj hz
  have himm := imm.isLt
  rw [encI17_eq]
  exact decodeWord_dec5 (by unfold Fits3R; omega) (by simp [dec5, needResv, imm17_eq]) hzz

theorem syscall (d : Reg) (a : Reg) : Statement (.syscall d a) := by
  intro zz hzz hz
  obtain rfl : BitVec.ofNat 32 (enc3R 5 10 (d.toNat) (a.toNat) 0 (0)) = zz := Option.some.inj hz
  have hd := d.isLt
  have ha := a.isLt
  exact decodeWord_dec5 (by unfold Fits3R; omega) (by simp [dec5, needResv]) hzz

theorem park (a : Reg) : Statement (.park a) := by
  intro zz hzz hz
  obtain rfl : BitVec.ofNat 32 (enc3R 5 11 0 (a.toNat) 0 (0)) = zz := Option.some.inj hz
  have ha := a.isLt
  exact decodeWord_dec5 (by unfold Fits3R; omega) (by simp [dec5, needResv]) hzz

theorem split (n : BitVec 4) : Statement (.split n) := by
  intro zz hzz hz
  obtain rfl : BitVec.ofNat 32 (encI17 5 16 0 (n.toNat)) = zz := Option.some.inj hz
  have hn := n.isLt
  rw [encI17_eq]
  exact decodeWord_dec5 (by unfold Fits3R; omega) (by simp [dec5, needResv, imm17_eq]; omega) hzz

theorem bar (sc : BarScope) : Statement (.bar sc) := by
  intro zz hzz hz
  obtain rfl : BitVec.ofNat 32 (encI17 5 18 0 (sc.code)) = zz := Option.some.inj hz
  rw [encI17_eq]
  cases sc <;> exact decodeWord_dec5 (by unfold Fits3R; simp only [BarScope.code]; omega) (by simp [dec5, needResv, withCode, BarScope.code, BarScope.ofCode, imm17_eq]) hzz

theorem launch (d : Reg) (a : Reg) : Statement (.launch d a) := by
  intro zz hzz hz
  obtain rfl : BitVec.ofNat 32 (enc3R 5 19 (d.toNat) (a.toNat) 0 (0)) = zz := Option.some.inj hz
  have hd := d.isLt
  have ha := a.isLt
  exact decodeWord_dec5 (by unfold Fits3R; omega) (by simp [dec5, needResv]) hzz

theorem iopen (a : Reg) : Statement (.iopen a) := by
  intro zz hzz hz
  obtain rfl : BitVec.ofNat 32 (enc3R 5 24 0 (a.toNat) 0 (0)) = zz := Option.some.inj hz
  have ha := a.isLt
  exact decodeWord_dec5 (by unfold Fits3R; omega) (by simp [dec5, needResv]) hzz

theorem waitge (d : Reg) (a : Reg) (b : Reg) : Statement (.waitge d a b) := by
  intro zz hzz hz
  obtain rfl : BitVec.ofNat 32 (enc3R 5 27 (d.toNat) (a.toNat) (b.toNat) (0)) = zz := Option.some.inj hz
  have hd := d.isLt
  have ha := a.isLt
  have hb := b.isLt
  exact decodeWord_dec5 (by unfold Fits3R; omega) (by simp [dec5, needResv]) hzz

theorem ctxsave (d : Reg) (a : Reg) : Statement (.ctxsave d a) := by
  intro zz hzz hz
  obtain rfl : BitVec.ofNat 32 (enc3R 5 32 (d.toNat) (a.toNat) 0 (0)) = zz := Option.some.inj hz
  have hd := d.isLt
  have ha := a.isLt
  exact decodeWord_dec5 (by unfold Fits3R; omega) (by simp [dec5, needResv]) hzz

theorem ctxload (d : Reg) (a : Reg) : Statement (.ctxload d a) := by
  intro zz hzz hz
  obtain rfl : BitVec.ofNat 32 (enc3R 5 33 (d.toNat) (a.toNat) 0 (0)) = zz := Option.some.inj hz
  have hd := d.isLt
  have ha := a.isLt
  exact decodeWord_dec5 (by unfold Fits3R; omega) (by simp [dec5, needResv]) hzz

theorem tlbinv (a : Reg) (e : TlbExtent) : Statement (.tlbinv a e) := by
  intro zz hzz hz
  obtain rfl : BitVec.ofNat 32 (enc3R 5 34 0 (a.toNat) 0 (e.code)) = zz := Option.some.inj hz
  have ha := a.isLt
  cases e <;> exact decodeWord_dec5 (by unfold Fits3R; simp only [TlbExtent.code]; omega) (by simp [dec5, needResv, withCode, TlbExtent.code, TlbExtent.ofCode]) hzz

theorem pfx (m : MReg) (sense : Bool) (zero : Bool) (cf : CFile) (creg : Reg) : Statement (.pfx m sense zero cf creg) := by
  intro zz hzz hz
  obtain rfl : BitVec.ofNat 32 (encPfx m.toNat (bcode sense) (bcode zero) cf.code creg.toNat) = zz := Option.some.inj hz
  have hm := m.isLt
  have hcreg := creg.isLt
  cases sense <;> cases zero <;> cases cf <;> exact decodeWord_encPfx (by simp only [bcode, CFile.code, Bool.false_eq_true, if_true, if_false]; omega) (by simp [withCode, bit, bcode, CFile.code, CFile.ofCode]) hzz

theorem setvl (d : Reg) (a : Reg) (vt : BitVec 9) : Statement (.setvl d a vt) := by
  intro zz hzz hz
  obtain rfl : BitVec.ofNat 32 (encI12 6 0 (d.toNat) (a.toNat) (vt.toNat)) = zz := Option.some.inj hz
  have hd := d.isLt
  have ha := a.isLt
  have hvt := vt.isLt
  rw [encI12_eq]
  exact decodeWord_dec6 (by unfold Fits3R; omega) (by simp [dec6, needResv, imm12_eq]; omega) hzz

theorem setshape (d : Reg) (a : Reg) (b : Reg) : Statement (.setshape d a b) := by
  intro zz hzz hz
  obtain rfl : BitVec.ofNat 32 (enc3R 6 1 (d.toNat) (a.toNat) (b.toNat) (0)) = zz := Option.some.inj hz
  have hd := d.isLt
  have ha := a.isLt
  have hb := b.isLt
  exact decodeWord_dec6 (by unfold Fits3R; omega) (by simp [dec6, needResv]) hzz

theorem vmand (d : MReg) (a : MReg) (b : MReg) (mk : Bool) : Statement (.vmand d a b mk) := by
  intro zz hzz hz
  obtain rfl : BitVec.ofNat 32 (enc3R 6 8 (d.toNat) (a.toNat) (b.toNat) (bcode mk * 64)) = zz := Option.some.inj hz
  have hd := d.isLt
  have ha := a.isLt
  have hb := b.isLt
  cases mk <;> exact decodeWord_dec6 (by unfold Fits3R; simp only [bcode, Bool.false_eq_true, if_true, if_false]; omega) (by simp [dec6, needResv, withM, bit, bcode, hd, ha, hb]) hzz

theorem vmor (d : MReg) (a : MReg) (b : MReg) (mk : Bool) : Statement (.vmor d a b mk) := by
  intro zz hzz hz
  obtain rfl : BitVec.ofNat 32 (enc3R 6 9 (d.toNat) (a.toNat) (b.toNat) (bcode mk * 64)) = zz := Option.some.inj hz
  have hd := d.isLt
  have ha := a.isLt
  have hb := b.isLt
  cases mk <;> exact decodeWord_dec6 (by unfold Fits3R; simp only [bcode, Bool.false_eq_true, if_true, if_false]; omega) (by simp [dec6, needResv, withM, bit, bcode, hd, ha, hb]) hzz

theorem vmxor (d : MReg) (a : MReg) (b : MReg) (mk : Bool) : Statement (.vmxor d a b mk) := by
  intro zz hzz hz
  obtain rfl : BitVec.ofNat 32 (enc3R 6 10 (d.toNat) (a.toNat) (b.toNat) (bcode mk * 64)) = zz := Option.some.inj hz
  have hd := d.isLt
  have ha := a.isLt
  have hb := b.isLt
  cases mk <;> exact decodeWord_dec6 (by unfold Fits3R; simp only [bcode, Bool.false_eq_true, if_true, if_false]; omega) (by simp [dec6, needResv, withM, bit, bcode, hd, ha, hb]) hzz

theorem vmnot (d : MReg) (a : MReg) (mk : Bool) : Statement (.vmnot d a mk) := by
  intro zz hzz hz
  obtain rfl : BitVec.ofNat 32 (enc3R 6 11 (d.toNat) (a.toNat) 0 (bcode mk * 64)) = zz := Option.some.inj hz
  have hd := d.isLt
  have ha := a.isLt
  cases mk <;> exact decodeWord_dec6 (by unfold Fits3R; simp only [bcode, Bool.false_eq_true, if_true, if_false]; omega) (by simp [dec6, needResv, withM, bit, bcode, hd, ha]) hzz

theorem vpopc (d : Reg) (a : MReg) (mk : Bool) : Statement (.vpopc d a mk) := by
  intro zz hzz hz
  obtain rfl : BitVec.ofNat 32 (enc3R 6 12 (d.toNat) (a.toNat) 0 (bcode mk * 64)) = zz := Option.some.inj hz
  have hd := d.isLt
  have ha := a.isLt
  cases mk <;> exact decodeWord_dec6 (by unfold Fits3R; simp only [bcode, Bool.false_eq_true, if_true, if_false]; omega) (by simp [dec6, needResv, withM, bit, bcode, ha]) hzz

theorem vfirst (d : Reg) (a : MReg) (mk : Bool) : Statement (.vfirst d a mk) := by
  intro zz hzz hz
  obtain rfl : BitVec.ofNat 32 (enc3R 6 13 (d.toNat) (a.toNat) 0 (bcode mk * 64)) = zz := Option.some.inj hz
  have hd := d.isLt
  have ha := a.isLt
  cases mk <;> exact decodeWord_dec6 (by unfold Fits3R; simp only [bcode, Bool.false_eq_true, if_true, if_false]; omega) (by simp [dec6, needResv, withM, bit, bcode, ha]) hzz

theorem vmspan (d : MReg) (a : MReg) (mk : Bool) (v : SpanVar) : Statement (.vmspan d a mk v) := by
  intro zz hzz hz
  obtain rfl : BitVec.ofNat 32 (enc3R 6 14 (d.toNat) (a.toNat) 0 (bcode mk * 64 + v.code * 8)) = zz := Option.some.inj hz
  have hd := d.isLt
  have ha := a.isLt
  cases mk <;> cases v <;> exact decodeWord_dec6 (by unfold Fits3R; simp only [bcode, SpanVar.code, Bool.false_eq_true, if_true, if_false]; omega) (by simp [dec6, needResv, withCode, withM, bit, bcode, SpanVar.code, SpanVar.ofCode, hd, ha]) hzz

theorem vmrank (d : Reg) (a : MReg) (mk : Bool) (incl : Bool) : Statement (.vmrank d a mk incl) := by
  intro zz hzz hz
  obtain rfl : BitVec.ofNat 32 (enc3R 6 15 (d.toNat) (a.toNat) 0 (bcode mk * 64 + bcode incl * 8)) = zz := Option.some.inj hz
  have hd := d.isLt
  have ha := a.isLt
  cases mk <;> cases incl <;> exact decodeWord_dec6 (by unfold Fits3R; simp only [bcode, Bool.false_eq_true, if_true, if_false]; omega) (by simp [dec6, needResv, withCode, withM, bit, bcode, Bool.ofCode, ha]) hzz

theorem vadd (d : Reg) (a : Reg) (b : Reg) (mk : Bool) (sb : Bool) : Statement (.vadd d a b mk sb) := by
  intro zz hzz hz
  obtain rfl : BitVec.ofNat 32 (enc3R 7 0 (d.toNat) (a.toNat) (b.toNat) (bcode mk * 64 + bcode sb * 32)) = zz := Option.some.inj hz
  have hd := d.isLt
  have ha := a.isLt
  have hb := b.isLt
  have hm : bcode mk * 64 + bcode sb * 32 < 128 := by cases mk <;> cases sb <;> decide
  have key : dec7 0 (d.toNat) (a.toNat) (b.toNat) (bcode mk * 64 + bcode sb * 32) = .ok (.vadd (reg d.toNat) (reg a.toNat) (reg b.toNat) mk sb) := by cases mk <;> cases sb <;> rfl
  simp only [reg_toNat] at key
  exact decodeWord_dec7 (by unfold Fits3R; omega) key hzz

theorem vsub (d : Reg) (a : Reg) (b : Reg) (mk : Bool) (sb : Bool) : Statement (.vsub d a b mk sb) := by
  intro zz hzz hz
  obtain rfl : BitVec.ofNat 32 (enc3R 7 1 (d.toNat) (a.toNat) (b.toNat) (bcode mk * 64 + bcode sb * 32)) = zz := Option.some.inj hz
  have hd := d.isLt
  have ha := a.isLt
  have hb := b.isLt
  have hm : bcode mk * 64 + bcode sb * 32 < 128 := by cases mk <;> cases sb <;> decide
  have key : dec7 1 (d.toNat) (a.toNat) (b.toNat) (bcode mk * 64 + bcode sb * 32) = .ok (.vsub (reg d.toNat) (reg a.toNat) (reg b.toNat) mk sb) := by cases mk <;> cases sb <;> rfl
  simp only [reg_toNat] at key
  exact decodeWord_dec7 (by unfold Fits3R; omega) key hzz

theorem vmul (d : Reg) (a : Reg) (b : Reg) (mk : Bool) (sb : Bool) : Statement (.vmul d a b mk sb) := by
  intro zz hzz hz
  obtain rfl : BitVec.ofNat 32 (enc3R 7 2 (d.toNat) (a.toNat) (b.toNat) (bcode mk * 64 + bcode sb * 32)) = zz := Option.some.inj hz
  have hd := d.isLt
  have ha := a.isLt
  have hb := b.isLt
  have hm : bcode mk * 64 + bcode sb * 32 < 128 := by cases mk <;> cases sb <;> decide
  have key : dec7 2 (d.toNat) (a.toNat) (b.toNat) (bcode mk * 64 + bcode sb * 32) = .ok (.vmul (reg d.toNat) (reg a.toNat) (reg b.toNat) mk sb) := by cases mk <;> cases sb <;> rfl
  simp only [reg_toNat] at key
  exact decodeWord_dec7 (by unfold Fits3R; omega) key hzz

theorem vmulh (d : Reg) (a : Reg) (b : Reg) (mk : Bool) (sb : Bool) (v : MulhVar) : Statement (.vmulh d a b mk sb v) := by
  intro zz hzz hz
  obtain rfl : BitVec.ofNat 32 (enc3R 7 3 (d.toNat) (a.toNat) (b.toNat) (bcode mk * 64 + bcode sb * 32 + v.code * 8)) = zz := Option.some.inj hz
  have hd := d.isLt
  have ha := a.isLt
  have hb := b.isLt
  have hm : bcode mk * 64 + bcode sb * 32 + v.code * 8 < 128 := by cases mk <;> cases sb <;> cases v <;> decide
  have key : dec7 3 (d.toNat) (a.toNat) (b.toNat) (bcode mk * 64 + bcode sb * 32 + v.code * 8) = .ok (.vmulh (reg d.toNat) (reg a.toNat) (reg b.toNat) mk sb v) := by cases mk <;> cases sb <;> cases v <;> rfl
  simp only [reg_toNat] at key
  exact decodeWord_dec7 (by unfold Fits3R; omega) key hzz

theorem vand (d : Reg) (a : Reg) (b : Reg) (mk : Bool) (sb : Bool) : Statement (.vand d a b mk sb) := by
  intro zz hzz hz
  obtain rfl : BitVec.ofNat 32 (enc3R 7 4 (d.toNat) (a.toNat) (b.toNat) (bcode mk * 64 + bcode sb * 32)) = zz := Option.some.inj hz
  have hd := d.isLt
  have ha := a.isLt
  have hb := b.isLt
  have hm : bcode mk * 64 + bcode sb * 32 < 128 := by cases mk <;> cases sb <;> decide
  have key : dec7 4 (d.toNat) (a.toNat) (b.toNat) (bcode mk * 64 + bcode sb * 32) = .ok (.vand (reg d.toNat) (reg a.toNat) (reg b.toNat) mk sb) := by cases mk <;> cases sb <;> rfl
  simp only [reg_toNat] at key
  exact decodeWord_dec7 (by unfold Fits3R; omega) key hzz

theorem vor (d : Reg) (a : Reg) (b : Reg) (mk : Bool) (sb : Bool) : Statement (.vor d a b mk sb) := by
  intro zz hzz hz
  obtain rfl : BitVec.ofNat 32 (enc3R 7 5 (d.toNat) (a.toNat) (b.toNat) (bcode mk * 64 + bcode sb * 32)) = zz := Option.some.inj hz
  have hd := d.isLt
  have ha := a.isLt
  have hb := b.isLt
  have hm : bcode mk * 64 + bcode sb * 32 < 128 := by cases mk <;> cases sb <;> decide
  have key : dec7 5 (d.toNat) (a.toNat) (b.toNat) (bcode mk * 64 + bcode sb * 32) = .ok (.vor (reg d.toNat) (reg a.toNat) (reg b.toNat) mk sb) := by cases mk <;> cases sb <;> rfl
  simp only [reg_toNat] at key
  exact decodeWord_dec7 (by unfold Fits3R; omega) key hzz

theorem vxor (d : Reg) (a : Reg) (b : Reg) (mk : Bool) (sb : Bool) : Statement (.vxor d a b mk sb) := by
  intro zz hzz hz
  obtain rfl : BitVec.ofNat 32 (enc3R 7 6 (d.toNat) (a.toNat) (b.toNat) (bcode mk * 64 + bcode sb * 32)) = zz := Option.some.inj hz
  have hd := d.isLt
  have ha := a.isLt
  have hb := b.isLt
  have hm : bcode mk * 64 + bcode sb * 32 < 128 := by cases mk <;> cases sb <;> decide
  have key : dec7 6 (d.toNat) (a.toNat) (b.toNat) (bcode mk * 64 + bcode sb * 32) = .ok (.vxor (reg d.toNat) (reg a.toNat) (reg b.toNat) mk sb) := by cases mk <;> cases sb <;> rfl
  simp only [reg_toNat] at key
  exact decodeWord_dec7 (by unfold Fits3R; omega) key hzz

theorem vsll (d : Reg) (a : Reg) (b : Reg) (mk : Bool) (sb : Bool) : Statement (.vsll d a b mk sb) := by
  intro zz hzz hz
  obtain rfl : BitVec.ofNat 32 (enc3R 7 7 (d.toNat) (a.toNat) (b.toNat) (bcode mk * 64 + bcode sb * 32)) = zz := Option.some.inj hz
  have hd := d.isLt
  have ha := a.isLt
  have hb := b.isLt
  have hm : bcode mk * 64 + bcode sb * 32 < 128 := by cases mk <;> cases sb <;> decide
  have key : dec7 7 (d.toNat) (a.toNat) (b.toNat) (bcode mk * 64 + bcode sb * 32) = .ok (.vsll (reg d.toNat) (reg a.toNat) (reg b.toNat) mk sb) := by cases mk <;> cases sb <;> rfl
  simp only [reg_toNat] at key
  exact decodeWord_dec7 (by unfold Fits3R; omega) key hzz

theorem vsrl (d : Reg) (a : Reg) (b : Reg) (mk : Bool) (sb : Bool) : Statement (.vsrl d a b mk sb) := by
  intro zz hzz hz
  obtain rfl : BitVec.ofNat 32 (enc3R 7 8 (d.toNat) (a.toNat) (b.toNat) (bcode mk * 64 + bcode sb * 32)) = zz := Option.some.inj hz
  have hd := d.isLt
  have ha := a.isLt
  have hb := b.isLt
  have hm : bcode mk * 64 + bcode sb * 32 < 128 := by cases mk <;> cases sb <;> decide
  have key : dec7 8 (d.toNat) (a.toNat) (b.toNat) (bcode mk * 64 + bcode sb * 32) = .ok (.vsrl (reg d.toNat) (reg a.toNat) (reg b.toNat) mk sb) := by cases mk <;> cases sb <;> rfl
  simp only [reg_toNat] at key
  exact decodeWord_dec7 (by unfold Fits3R; omega) key hzz

theorem vsra (d : Reg) (a : Reg) (b : Reg) (mk : Bool) (sb : Bool) : Statement (.vsra d a b mk sb) := by
  intro zz hzz hz
  obtain rfl : BitVec.ofNat 32 (enc3R 7 9 (d.toNat) (a.toNat) (b.toNat) (bcode mk * 64 + bcode sb * 32)) = zz := Option.some.inj hz
  have hd := d.isLt
  have ha := a.isLt
  have hb := b.isLt
  have hm : bcode mk * 64 + bcode sb * 32 < 128 := by cases mk <;> cases sb <;> decide
  have key : dec7 9 (d.toNat) (a.toNat) (b.toNat) (bcode mk * 64 + bcode sb * 32) = .ok (.vsra (reg d.toNat) (reg a.toNat) (reg b.toNat) mk sb) := by cases mk <;> cases sb <;> rfl
  simp only [reg_toNat] at key
  exact decodeWord_dec7 (by unfold Fits3R; omega) key hzz

theorem vmin (d : Reg) (a : Reg) (b : Reg) (mk : Bool) (sb : Bool) : Statement (.vmin d a b mk sb) := by
  intro zz hzz hz
  obtain rfl : BitVec.ofNat 32 (enc3R 7 10 (d.toNat) (a.toNat) (b.toNat) (bcode mk * 64 + bcode sb * 32)) = zz := Option.some.inj hz
  have hd := d.isLt
  have ha := a.isLt
  have hb := b.isLt
  have hm : bcode mk * 64 + bcode sb * 32 < 128 := by cases mk <;> cases sb <;> decide
  have key : dec7 10 (d.toNat) (a.toNat) (b.toNat) (bcode mk * 64 + bcode sb * 32) = .ok (.vmin (reg d.toNat) (reg a.toNat) (reg b.toNat) mk sb) := by cases mk <;> cases sb <;> rfl
  simp only [reg_toNat] at key
  exact decodeWord_dec7 (by unfold Fits3R; omega) key hzz

theorem vmax (d : Reg) (a : Reg) (b : Reg) (mk : Bool) (sb : Bool) : Statement (.vmax d a b mk sb) := by
  intro zz hzz hz
  obtain rfl : BitVec.ofNat 32 (enc3R 7 11 (d.toNat) (a.toNat) (b.toNat) (bcode mk * 64 + bcode sb * 32)) = zz := Option.some.inj hz
  have hd := d.isLt
  have ha := a.isLt
  have hb := b.isLt
  have hm : bcode mk * 64 + bcode sb * 32 < 128 := by cases mk <;> cases sb <;> decide
  have key : dec7 11 (d.toNat) (a.toNat) (b.toNat) (bcode mk * 64 + bcode sb * 32) = .ok (.vmax (reg d.toNat) (reg a.toNat) (reg b.toNat) mk sb) := by cases mk <;> cases sb <;> rfl
  simp only [reg_toNat] at key
  exact decodeWord_dec7 (by unfold Fits3R; omega) key hzz

theorem vminu (d : Reg) (a : Reg) (b : Reg) (mk : Bool) (sb : Bool) : Statement (.vminu d a b mk sb) := by
  intro zz hzz hz
  obtain rfl : BitVec.ofNat 32 (enc3R 7 12 (d.toNat) (a.toNat) (b.toNat) (bcode mk * 64 + bcode sb * 32)) = zz := Option.some.inj hz
  have hd := d.isLt
  have ha := a.isLt
  have hb := b.isLt
  have hm : bcode mk * 64 + bcode sb * 32 < 128 := by cases mk <;> cases sb <;> decide
  have key : dec7 12 (d.toNat) (a.toNat) (b.toNat) (bcode mk * 64 + bcode sb * 32) = .ok (.vminu (reg d.toNat) (reg a.toNat) (reg b.toNat) mk sb) := by cases mk <;> cases sb <;> rfl
  simp only [reg_toNat] at key
  exact decodeWord_dec7 (by unfold Fits3R; omega) key hzz

theorem vmaxu (d : Reg) (a : Reg) (b : Reg) (mk : Bool) (sb : Bool) : Statement (.vmaxu d a b mk sb) := by
  intro zz hzz hz
  obtain rfl : BitVec.ofNat 32 (enc3R 7 13 (d.toNat) (a.toNat) (b.toNat) (bcode mk * 64 + bcode sb * 32)) = zz := Option.some.inj hz
  have hd := d.isLt
  have ha := a.isLt
  have hb := b.isLt
  have hm : bcode mk * 64 + bcode sb * 32 < 128 := by cases mk <;> cases sb <;> decide
  have key : dec7 13 (d.toNat) (a.toNat) (b.toNat) (bcode mk * 64 + bcode sb * 32) = .ok (.vmaxu (reg d.toNat) (reg a.toNat) (reg b.toNat) mk sb) := by cases mk <;> cases sb <;> rfl
  simp only [reg_toNat] at key
  exact decodeWord_dec7 (by unfold Fits3R; omega) key hzz

theorem vsadd (d : Reg) (a : Reg) (b : Reg) (mk : Bool) (sb : Bool) (uns : Bool) : Statement (.vsadd d a b mk sb uns) := by
  intro zz hzz hz
  obtain rfl : BitVec.ofNat 32 (enc3R 7 14 (d.toNat) (a.toNat) (b.toNat) (bcode mk * 64 + bcode sb * 32 + bcode uns * 8)) = zz := Option.some.inj hz
  have hd := d.isLt
  have ha := a.isLt
  have hb := b.isLt
  have hm : bcode mk * 64 + bcode sb * 32 + bcode uns * 8 < 128 := by cases mk <;> cases sb <;> cases uns <;> decide
  have key : dec7 14 (d.toNat) (a.toNat) (b.toNat) (bcode mk * 64 + bcode sb * 32 + bcode uns * 8) = .ok (.vsadd (reg d.toNat) (reg a.toNat) (reg b.toNat) mk sb uns) := by cases mk <;> cases sb <;> cases uns <;> rfl
  simp only [reg_toNat] at key
  exact decodeWord_dec7 (by unfold Fits3R; omega) key hzz

theorem vssub (d : Reg) (a : Reg) (b : Reg) (mk : Bool) (sb : Bool) (uns : Bool) : Statement (.vssub d a b mk sb uns) := by
  intro zz hzz hz
  obtain rfl : BitVec.ofNat 32 (enc3R 7 15 (d.toNat) (a.toNat) (b.toNat) (bcode mk * 64 + bcode sb * 32 + bcode uns * 8)) = zz := Option.some.inj hz
  have hd := d.isLt
  have ha := a.isLt
  have hb := b.isLt
  have hm : bcode mk * 64 + bcode sb * 32 + bcode uns * 8 < 128 := by cases mk <;> cases sb <;> cases uns <;> decide
  have key : dec7 15 (d.toNat) (a.toNat) (b.toNat) (bcode mk * 64 + bcode sb * 32 + bcode uns * 8) = .ok (.vssub (reg d.toNat) (reg a.toNat) (reg b.toNat) mk sb uns) := by cases mk <;> cases sb <;> cases uns <;> rfl
  simp only [reg_toNat] at key
  exact decodeWord_dec7 (by unfold Fits3R; omega) key hzz

theorem vcmp (d : MReg) (a : Reg) (b : Reg) (mk : Bool) (sb : Bool) (uns : Bool) (c : ICond) : Statement (.vcmp d a b mk sb uns c) := by
  intro zz hzz hz
  obtain rfl : BitVec.ofNat 32 (enc3R 7 16 (d.toNat) (a.toNat) (b.toNat) (bcode mk * 64 + bcode sb * 32 + bcode uns * 8 + c.code)) = zz := Option.some.inj hz
  have hd := d.isLt
  have ha := a.isLt
  have hb := b.isLt
  cases mk <;> cases sb <;> cases uns <;> cases c <;> exact decodeWord_dec7 (by unfold Fits3R; simp only [bcode, ICond.code, Bool.false_eq_true, if_true, if_false]; omega) (by simp [dec7, withCode, withM, bit, bcode, Bool.ofCode, ICond.code, ICond.ofCode, hd]) hzz

theorem vmerge (d : Reg) (a : Reg) (b : Reg) (mk : Bool) (sb : Bool) : Statement (.vmerge d a b mk sb) := by
  intro zz hzz hz
  obtain rfl : BitVec.ofNat 32 (enc3R 7 17 (d.toNat) (a.toNat) (b.toNat) (bcode mk * 64 + bcode sb * 32)) = zz := Option.some.inj hz
  have hd := d.isLt
  have ha := a.isLt
  have hb := b.isLt
  have hm : bcode mk * 64 + bcode sb * 32 < 128 := by cases mk <;> cases sb <;> decide
  have key : dec7 17 (d.toNat) (a.toNat) (b.toNat) (bcode mk * 64 + bcode sb * 32) = .ok (.vmerge (reg d.toNat) (reg a.toNat) (reg b.toNat) mk sb) := by cases mk <;> cases sb <;> rfl
  simp only [reg_toNat] at key
  exact decodeWord_dec7 (by unfold Fits3R; omega) key hzz

theorem vmv (d : Reg) (b : Reg) (mk : Bool) (sb : Bool) : Statement (.vmv d b mk sb) := by
  intro zz hzz hz
  obtain rfl : BitVec.ofNat 32 (enc3R 7 18 (d.toNat) 0 (b.toNat) (bcode mk * 64 + bcode sb * 32)) = zz := Option.some.inj hz
  have hd := d.isLt
  have hb := b.isLt
  have hm : bcode mk * 64 + bcode sb * 32 < 128 := by cases mk <;> cases sb <;> decide
  have key : dec7 18 (d.toNat) 0 (b.toNat) (bcode mk * 64 + bcode sb * 32) = .ok (.vmv (reg d.toNat) (reg b.toNat) mk sb) := by cases mk <;> cases sb <;> rfl
  simp only [reg_toNat] at key
  exact decodeWord_dec7 (by unfold Fits3R; omega) key hzz

theorem vmvX (d : Reg) (a : Reg) (b : Reg) (mk : Bool) : Statement (.vmvX d a b mk) := by
  intro zz hzz hz
  obtain rfl : BitVec.ofNat 32 (enc3R 7 18 (d.toNat) (a.toNat) (b.toNat) (bcode mk * 64 + 8 + 32)) = zz := Option.some.inj hz
  have hd := d.isLt
  have ha := a.isLt
  have hb := b.isLt
  have hm : bcode mk * 64 + 8 + 32 < 128 := by cases mk <;> decide
  have key : dec7 18 (d.toNat) (a.toNat) (b.toNat) (bcode mk * 64 + 8 + 32) = .ok (.vmvX (reg d.toNat) (reg a.toNat) (reg b.toNat) mk) := by cases mk <;> rfl
  simp only [reg_toNat] at key
  exact decodeWord_dec7 (by unfold Fits3R; omega) key hzz

theorem vwadd (d : Reg) (a : Reg) (b : Reg) (mk : Bool) (sb : Bool) (uns : Bool) : Statement (.vwadd d a b mk sb uns) := by
  intro zz hzz hz
  obtain rfl : BitVec.ofNat 32 (enc3R 7 24 (d.toNat) (a.toNat) (b.toNat) (bcode mk * 64 + bcode sb * 32 + bcode uns * 8)) = zz := Option.some.inj hz
  have hd := d.isLt
  have ha := a.isLt
  have hb := b.isLt
  have hm : bcode mk * 64 + bcode sb * 32 + bcode uns * 8 < 128 := by cases mk <;> cases sb <;> cases uns <;> decide
  have key : dec7 24 (d.toNat) (a.toNat) (b.toNat) (bcode mk * 64 + bcode sb * 32 + bcode uns * 8) = .ok (.vwadd (reg d.toNat) (reg a.toNat) (reg b.toNat) mk sb uns) := by cases mk <;> cases sb <;> cases uns <;> rfl
  simp only [reg_toNat] at key
  exact decodeWord_dec7 (by unfold Fits3R; omega) key hzz

theorem vwmul (d : Reg) (a : Reg) (b : Reg) (mk : Bool) (sb : Bool) (uns : Bool) : Statement (.vwmul d a b mk sb uns) := by
  intro zz hzz hz
  obtain rfl : BitVec.ofNat 32 (enc3R 7 25 (d.toNat) (a.toNat) (b.toNat) (bcode mk * 64 + bcode sb * 32 + bcode uns * 8)) = zz := Option.some.inj hz
  have hd := d.isLt
  have ha := a.isLt
  have hb := b.isLt
  have hm : bcode mk * 64 + bcode sb * 32 + bcode uns * 8 < 128 := by cases mk <;> cases sb <;> cases uns <;> decide
  have key : dec7 25 (d.toNat) (a.toNat) (b.toNat) (bcode mk * 64 + bcode sb * 32 + bcode uns * 8) = .ok (.vwmul (reg d.toNat) (reg a.toNat) (reg b.toNat) mk sb uns) := by cases mk <;> cases sb <;> cases uns <;> rfl
  simp only [reg_toNat] at key
  exact decodeWord_dec7 (by unfold Fits3R; omega) key hzz

theorem vnarrow (d : Reg) (a : Reg) (mk : Bool) (sat : Bool) (uns : Bool) : Statement (.vnarrow d a mk sat uns) := by
  intro zz hzz hz
  obtain rfl : BitVec.ofNat 32 (enc3R 7 26 (d.toNat) (a.toNat) 0 (bcode mk * 64 + bcode sat * 16 + bcode uns * 8)) = zz := Option.some.inj hz
  have hd := d.isLt
  have ha := a.isLt
  have hm : bcode mk * 64 + bcode sat * 16 + bcode uns * 8 < 128 := by cases mk <;> cases sat <;> cases uns <;> decide
  have key : dec7 26 (d.toNat) (a.toNat) 0 (bcode mk * 64 + bcode sat * 16 + bcode uns * 8) = .ok (.vnarrow (reg d.toNat) (reg a.toNat) mk sat uns) := by cases mk <;> cases sat <;> cases uns <;> rfl
  simp only [reg_toNat] at key
  exact decodeWord_dec7 (by unfold Fits3R; omega) key hzz

theorem vext (d : Reg) (a : Reg) (mk : Bool) (f : ExtF) (zero : Bool) : Statement (.vext d a mk f zero) := by
  intro zz hzz hz
  obtain rfl : BitVec.ofNat 32 (enc3R 7 27 (d.toNat) (a.toNat) 0 (bcode mk * 64 + f.code * 8 + bcode zero)) = zz := Option.some.inj hz
  have hd := d.isLt
  have ha := a.isLt
  have hm : bcode mk * 64 + f.code * 8 + bcode zero < 128 := by cases mk <;> cases f <;> cases zero <;> decide
  have key : dec7 27 (d.toNat) (a.toNat) 0 (bcode mk * 64 + f.code * 8 + bcode zero) = .ok (.vext (reg d.toNat) (reg a.toNat) mk f zero) := by cases mk <;> cases f <;> cases zero <;> rfl
  simp only [reg_toNat] at key
  exact decodeWord_dec7 (by unfold Fits3R; omega) key hzz

theorem vfadd (d : Reg) (a : Reg) (b : Reg) (mk : Bool) (sb : Bool) (rc : Rc) : Statement (.vfadd d a b mk sb rc) := by
  intro zz hzz hz
  obtain rfl : BitVec.ofNat 32 (enc3R 8 0 (d.toNat) (a.toNat) (b.toNat) (bcode mk * 64 + bcode sb * 32 + rc.code)) = zz := Option.some.inj hz
  have hd := d.isLt
  have ha := a.isLt
  have hb := b.isLt
  have hm : bcode mk * 64 + bcode sb * 32 + rc.code < 128 := by cases mk <;> cases sb <;> cases rc <;> decide
  have key : dec8 0 (d.toNat) (a.toNat) (b.toNat) (bcode mk * 64 + bcode sb * 32 + rc.code) = .ok (.vfadd (reg d.toNat) (reg a.toNat) (reg b.toNat) mk sb rc) := by cases mk <;> cases sb <;> cases rc <;> rfl
  simp only [reg_toNat] at key
  exact decodeWord_dec8 (by unfold Fits3R; omega) key hzz

theorem vfsub (d : Reg) (a : Reg) (b : Reg) (mk : Bool) (sb : Bool) (rc : Rc) : Statement (.vfsub d a b mk sb rc) := by
  intro zz hzz hz
  obtain rfl : BitVec.ofNat 32 (enc3R 8 1 (d.toNat) (a.toNat) (b.toNat) (bcode mk * 64 + bcode sb * 32 + rc.code)) = zz := Option.some.inj hz
  have hd := d.isLt
  have ha := a.isLt
  have hb := b.isLt
  have hm : bcode mk * 64 + bcode sb * 32 + rc.code < 128 := by cases mk <;> cases sb <;> cases rc <;> decide
  have key : dec8 1 (d.toNat) (a.toNat) (b.toNat) (bcode mk * 64 + bcode sb * 32 + rc.code) = .ok (.vfsub (reg d.toNat) (reg a.toNat) (reg b.toNat) mk sb rc) := by cases mk <;> cases sb <;> cases rc <;> rfl
  simp only [reg_toNat] at key
  exact decodeWord_dec8 (by unfold Fits3R; omega) key hzz

theorem vfmul (d : Reg) (a : Reg) (b : Reg) (mk : Bool) (sb : Bool) (rc : Rc) : Statement (.vfmul d a b mk sb rc) := by
  intro zz hzz hz
  obtain rfl : BitVec.ofNat 32 (enc3R 8 2 (d.toNat) (a.toNat) (b.toNat) (bcode mk * 64 + bcode sb * 32 + rc.code)) = zz := Option.some.inj hz
  have hd := d.isLt
  have ha := a.isLt
  have hb := b.isLt
  have hm : bcode mk * 64 + bcode sb * 32 + rc.code < 128 := by cases mk <;> cases sb <;> cases rc <;> decide
  have key : dec8 2 (d.toNat) (a.toNat) (b.toNat) (bcode mk * 64 + bcode sb * 32 + rc.code) = .ok (.vfmul (reg d.toNat) (reg a.toNat) (reg b.toNat) mk sb rc) := by cases mk <;> cases sb <;> cases rc <;> rfl
  simp only [reg_toNat] at key
  exact decodeWord_dec8 (by unfold Fits3R; omega) key hzz

theorem vfdiv (d : Reg) (a : Reg) (b : Reg) (mk : Bool) (sb : Bool) (rc : Rc) : Statement (.vfdiv d a b mk sb rc) := by
  intro zz hzz hz
  obtain rfl : BitVec.ofNat 32 (enc3R 8 3 (d.toNat) (a.toNat) (b.toNat) (bcode mk * 64 + bcode sb * 32 + rc.code)) = zz := Option.some.inj hz
  have hd := d.isLt
  have ha := a.isLt
  have hb := b.isLt
  have hm : bcode mk * 64 + bcode sb * 32 + rc.code < 128 := by cases mk <;> cases sb <;> cases rc <;> decide
  have key : dec8 3 (d.toNat) (a.toNat) (b.toNat) (bcode mk * 64 + bcode sb * 32 + rc.code) = .ok (.vfdiv (reg d.toNat) (reg a.toNat) (reg b.toNat) mk sb rc) := by cases mk <;> cases sb <;> cases rc <;> rfl
  simp only [reg_toNat] at key
  exact decodeWord_dec8 (by unfold Fits3R; omega) key hzz

theorem vfsqrt (d : Reg) (a : Reg) (mk : Bool) (rc : Rc) : Statement (.vfsqrt d a mk rc) := by
  intro zz hzz hz
  obtain rfl : BitVec.ofNat 32 (enc3R 8 4 (d.toNat) (a.toNat) 0 (bcode mk * 64 + rc.code)) = zz := Option.some.inj hz
  have hd := d.isLt
  have ha := a.isLt
  have hm : bcode mk * 64 + rc.code < 128 := by cases mk <;> cases rc <;> decide
  have key : dec8 4 (d.toNat) (a.toNat) 0 (bcode mk * 64 + rc.code) = .ok (.vfsqrt (reg d.toNat) (reg a.toNat) mk rc) := by cases mk <;> cases rc <;> rfl
  simp only [reg_toNat] at key
  exact decodeWord_dec8 (by unfold Fits3R; omega) key hzz

theorem vfmadd (d : Reg) (a : Reg) (b : Reg) (mk : Bool) (sb : Bool) (negp : Bool) (negc : Bool) (rc : Rc) : Statement (.vfmadd d a b mk sb negp negc rc) := by
  intro zz hzz hz
  obtain rfl : BitVec.ofNat 32 (enc3R 8 5 (d.toNat) (a.toNat) (b.toNat) (bcode mk * 64 + bcode sb * 32 + bcode negp * 16 + bcode negc * 8 + rc.code)) = zz := Option.some.inj hz
  have hd := d.isLt
  have ha := a.isLt
  have hb := b.isLt
  have hm : bcode mk * 64 + bcode sb * 32 + bcode negp * 16 + bcode negc * 8 + rc.code < 128 := by cases mk <;> cases sb <;> cases negp <;> cases negc <;> cases rc <;> decide
  have key : dec8 5 (d.toNat) (a.toNat) (b.toNat) (bcode mk * 64 + bcode sb * 32 + bcode negp * 16 + bcode negc * 8 + rc.code) = .ok (.vfmadd (reg d.toNat) (reg a.toNat) (reg b.toNat) mk sb negp negc rc) := by cases mk <;> cases sb <;> cases negp <;> cases negc <;> cases rc <;> rfl
  simp only [reg_toNat] at key
  exact decodeWord_dec8 (by unfold Fits3R; omega) key hzz

theorem vfmin (d : Reg) (a : Reg) (b : Reg) (mk : Bool) (sb : Bool) : Statement (.vfmin d a b mk sb) := by
  intro zz hzz hz
  obtain rfl : BitVec.ofNat 32 (enc3R 8 6 (d.toNat) (a.toNat) (b.toNat) (bcode mk * 64 + bcode sb * 32)) = zz := Option.some.inj hz
  have hd := d.isLt
  have ha := a.isLt
  have hb := b.isLt
  have hm : bcode mk * 64 + bcode sb * 32 < 128 := by cases mk <;> cases sb <;> decide
  have key : dec8 6 (d.toNat) (a.toNat) (b.toNat) (bcode mk * 64 + bcode sb * 32) = .ok (.vfmin (reg d.toNat) (reg a.toNat) (reg b.toNat) mk sb) := by cases mk <;> cases sb <;> rfl
  simp only [reg_toNat] at key
  exact decodeWord_dec8 (by unfold Fits3R; omega) key hzz

theorem vfmax (d : Reg) (a : Reg) (b : Reg) (mk : Bool) (sb : Bool) : Statement (.vfmax d a b mk sb) := by
  intro zz hzz hz
  obtain rfl : BitVec.ofNat 32 (enc3R 8 7 (d.toNat) (a.toNat) (b.toNat) (bcode mk * 64 + bcode sb * 32)) = zz := Option.some.inj hz
  have hd := d.isLt
  have ha := a.isLt
  have hb := b.isLt
  have hm : bcode mk * 64 + bcode sb * 32 < 128 := by cases mk <;> cases sb <;> decide
  have key : dec8 7 (d.toNat) (a.toNat) (b.toNat) (bcode mk * 64 + bcode sb * 32) = .ok (.vfmax (reg d.toNat) (reg a.toNat) (reg b.toNat) mk sb) := by cases mk <;> cases sb <;> rfl
  simp only [reg_toNat] at key
  exact decodeWord_dec8 (by unfold Fits3R; omega) key hzz

theorem vfcmp (d : MReg) (a : Reg) (b : Reg) (mk : Bool) (sb : Bool) (c : FCond) : Statement (.vfcmp d a b mk sb c) := by
  intro zz hzz hz
  obtain rfl : BitVec.ofNat 32 (enc3R 8 8 (d.toNat) (a.toNat) (b.toNat) (bcode mk * 64 + bcode sb * 32 + c.code)) = zz := Option.some.inj hz
  have hd := d.isLt
  have ha := a.isLt
  have hb := b.isLt
  cases mk <;> cases sb <;> cases c <;> exact decodeWord_dec8 (by unfold Fits3R; simp only [bcode, FCond.code, Bool.false_eq_true, if_true, if_false]; omega) (by simp [dec8, needResv, withCode, withM, bit, bcode, FCond.code, FCond.ofCode, hd]) hzz

theorem vfcvt (d : Reg) (a : Reg) (mk : Bool) (src : CvtSrc) (rc : Rc) : Statement (.vfcvt d a mk src rc) := by
  intro zz hzz hz
  obtain rfl : BitVec.ofNat 32 (enc3R 8 9 (d.toNat) (a.toNat) (src.bField) (bcode mk * 64 + src.modBits + rc.code)) = zz := Option.some.inj hz
  have hd := d.isLt
  have ha := a.isLt
  cases mk <;> cases rc <;> rcases src with k | ⟨k, ⟨⟩⟩ <;> have hk := k.isLt <;> exact decodeWord_dec8 (by unfold Fits3R; simp only [bcode, CvtSrc.bField, CvtSrc.modBits, CtrSrc.code, Rc.code, Bool.false_eq_true, if_true, if_false]; omega) (by simp [dec8, withCode, withSrc, bit, bcode, CvtSrc.ofFields, CvtSrc.bField, CvtSrc.modBits, CtrSrc.code, CtrSrc.ofCode, Rc.code, Rc.ofCode]) hzz

theorem vfexp2 (d : Reg) (a : Reg) (mk : Bool) (rc : Rc) : Statement (.vfexp2 d a mk rc) := by
  intro zz hzz hz
  obtain rfl : BitVec.ofNat 32 (enc3R 8 10 (d.toNat) (a.toNat) 0 (bcode mk * 64 + rc.code)) = zz := Option.some.inj hz
  have hd := d.isLt
  have ha := a.isLt
  have hm : bcode mk * 64 + rc.code < 128 := by cases mk <;> cases rc <;> decide
  have key : dec8 10 (d.toNat) (a.toNat) 0 (bcode mk * 64 + rc.code) = .ok (.vfexp2 (reg d.toNat) (reg a.toNat) mk rc) := by cases mk <;> cases rc <;> rfl
  simp only [reg_toNat] at key
  exact decodeWord_dec8 (by unfold Fits3R; omega) key hzz

theorem vflog2 (d : Reg) (a : Reg) (mk : Bool) (rc : Rc) : Statement (.vflog2 d a mk rc) := by
  intro zz hzz hz
  obtain rfl : BitVec.ofNat 32 (enc3R 8 11 (d.toNat) (a.toNat) 0 (bcode mk * 64 + rc.code)) = zz := Option.some.inj hz
  have hd := d.isLt
  have ha := a.isLt
  have hm : bcode mk * 64 + rc.code < 128 := by cases mk <;> cases rc <;> decide
  have key : dec8 11 (d.toNat) (a.toNat) 0 (bcode mk * 64 + rc.code) = .ok (.vflog2 (reg d.toNat) (reg a.toNat) mk rc) := by cases mk <;> cases rc <;> rfl
  simp only [reg_toNat] at key
  exact decodeWord_dec8 (by unfold Fits3R; omega) key hzz

theorem vfrecip (d : Reg) (a : Reg) (mk : Bool) (rc : Rc) : Statement (.vfrecip d a mk rc) := by
  intro zz hzz hz
  obtain rfl : BitVec.ofNat 32 (enc3R 8 12 (d.toNat) (a.toNat) 0 (bcode mk * 64 + rc.code)) = zz := Option.some.inj hz
  have hd := d.isLt
  have ha := a.isLt
  have hm : bcode mk * 64 + rc.code < 128 := by cases mk <;> cases rc <;> decide
  have key : dec8 12 (d.toNat) (a.toNat) 0 (bcode mk * 64 + rc.code) = .ok (.vfrecip (reg d.toNat) (reg a.toNat) mk rc) := by cases mk <;> cases rc <;> rfl
  simp only [reg_toNat] at key
  exact decodeWord_dec8 (by unfold Fits3R; omega) key hzz

theorem vfscale (d : Reg) (a : Reg) (b : Reg) (mk : Bool) (sb : Bool) (rc : Rc) : Statement (.vfscale d a b mk sb rc) := by
  intro zz hzz hz
  obtain rfl : BitVec.ofNat 32 (enc3R 8 13 (d.toNat) (a.toNat) (b.toNat) (bcode mk * 64 + bcode sb * 32 + rc.code)) = zz := Option.some.inj hz
  have hd := d.isLt
  have ha := a.isLt
  have hb := b.isLt
  have hm : bcode mk * 64 + bcode sb * 32 + rc.code < 128 := by cases mk <;> cases sb <;> cases rc <;> decide
  have key : dec8 13 (d.toNat) (a.toNat) (b.toNat) (bcode mk * 64 + bcode sb * 32 + rc.code) = .ok (.vfscale (reg d.toNat) (reg a.toNat) (reg b.toNat) mk sb rc) := by cases mk <;> cases sb <;> cases rc <;> rfl
  simp only [reg_toNat] at key
  exact decodeWord_dec8 (by unfold Fits3R; omega) key hzz

theorem vmxdot (d : Reg) (a : Reg) (b : Reg) (mk : Bool) (scb : Bool) (sca : Bool) : Statement (.vmxdot d a b mk scb sca) := by
  intro zz hzz hz
  obtain rfl : BitVec.ofNat 32 (enc3R 8 16 (d.toNat) (a.toNat) (b.toNat) (bcode mk * 64 + bcode scb * 16 + bcode sca * 8)) = zz := Option.some.inj hz
  have hd := d.isLt
  have ha := a.isLt
  have hb := b.isLt
  have hm : bcode mk * 64 + bcode scb * 16 + bcode sca * 8 < 128 := by cases mk <;> cases scb <;> cases sca <;> decide
  have key : dec8 16 (d.toNat) (a.toNat) (b.toNat) (bcode mk * 64 + bcode scb * 16 + bcode sca * 8) = .ok (.vmxdot (reg d.toNat) (reg a.toNat) (reg b.toNat) mk scb sca) := by cases mk <;> cases scb <;> cases sca <;> rfl
  simp only [reg_toNat] at key
  exact decodeWord_dec8 (by unfold Fits3R; omega) key hzz

theorem vquant (d : Reg) (a : Reg) (mk : Bool) (src : CvtSrc) (rc : Rc) : Statement (.vquant d a mk src rc) := by
  intro zz hzz hz
  obtain rfl : BitVec.ofNat 32 (enc3R 8 17 (d.toNat) (a.toNat) (src.bField) (bcode mk * 64 + src.modBits + rc.code)) = zz := Option.some.inj hz
  have hd := d.isLt
  have ha := a.isLt
  cases mk <;> cases rc <;> rcases src with k | ⟨k, ⟨⟩⟩ <;> have hk := k.isLt <;> exact decodeWord_dec8 (by unfold Fits3R; simp only [bcode, CvtSrc.bField, CvtSrc.modBits, CtrSrc.code, Rc.code, Bool.false_eq_true, if_true, if_false]; omega) (by simp [dec8, withCode, withSrc, bit, bcode, CvtSrc.ofFields, CvtSrc.bField, CvtSrc.modBits, CtrSrc.code, CtrSrc.ofCode, Rc.code, Rc.ofCode]) hzz

theorem vredsum (d : Reg) (a : Reg) (b : Reg) (mk : Bool) (sb : Bool) (v : RedVar) : Statement (.vredsum d a b mk sb v) := by
  intro zz hzz hz
  obtain rfl : BitVec.ofNat 32 (enc3R 9 0 (d.toNat) (a.toNat) (b.toNat) (bcode mk * 64 + bcode sb * 32 + v.code * 8)) = zz := Option.some.inj hz
  have hd := d.isLt
  have ha := a.isLt
  have hb := b.isLt
  have hm : bcode mk * 64 + bcode sb * 32 + v.code * 8 < 128 := by cases mk <;> cases sb <;> cases v <;> decide
  have key : dec9 0 (d.toNat) (a.toNat) (b.toNat) (bcode mk * 64 + bcode sb * 32 + v.code * 8) = .ok (.vredsum (reg d.toNat) (reg a.toNat) (reg b.toNat) mk sb v) := by cases mk <;> cases sb <;> cases v <;> rfl
  simp only [reg_toNat] at key
  exact decodeWord_dec9 (by unfold Fits3R; omega) key hzz

theorem vredmax (d : Reg) (a : Reg) (b : Reg) (mk : Bool) (sb : Bool) (uns : Bool) : Statement (.vredmax d a b mk sb uns) := by
  intro zz hzz hz
  obtain rfl : BitVec.ofNat 32 (enc3R 9 1 (d.toNat) (a.toNat) (b.toNat) (bcode mk * 64 + bcode sb * 32 + bcode uns * 8)) = zz := Option.some.inj hz
  have hd := d.isLt
  have ha := a.isLt
  have hb := b.isLt
  have hm : bcode mk * 64 + bcode sb * 32 + bcode uns * 8 < 128 := by cases mk <;> cases sb <;> cases uns <;> decide
  have key : dec9 1 (d.toNat) (a.toNat) (b.toNat) (bcode mk * 64 + bcode sb * 32 + bcode uns * 8) = .ok (.vredmax (reg d.toNat) (reg a.toNat) (reg b.toNat) mk sb uns) := by cases mk <;> cases sb <;> cases uns <;> rfl
  simp only [reg_toNat] at key
  exact decodeWord_dec9 (by unfold Fits3R; omega) key hzz

theorem vredmin (d : Reg) (a : Reg) (b : Reg) (mk : Bool) (sb : Bool) (uns : Bool) : Statement (.vredmin d a b mk sb uns) := by
  intro zz hzz hz
  obtain rfl : BitVec.ofNat 32 (enc3R 9 2 (d.toNat) (a.toNat) (b.toNat) (bcode mk * 64 + bcode sb * 32 + bcode uns * 8)) = zz := Option.some.inj hz
  have hd := d.isLt
  have ha := a.isLt
  have hb := b.isLt
  have hm : bcode mk * 64 + bcode sb * 32 + bcode uns * 8 < 128 := by cases mk <;> cases sb <;> cases uns <;> decide
  have key : dec9 2 (d.toNat) (a.toNat) (b.toNat) (bcode mk * 64 + bcode sb * 32 + bcode uns * 8) = .ok (.vredmin (reg d.toNat) (reg a.toNat) (reg b.toNat) mk sb uns) := by cases mk <;> cases sb <;> cases uns <;> rfl
  simp only [reg_toNat] at key
  exact decodeWord_dec9 (by unfold Fits3R; omega) key hzz

theorem vredbit (d : Reg) (a : Reg) (b : Reg) (mk : Bool) (sb : Bool) (op : BitOp) : Statement (.vredbit d a b mk sb op) := by
  intro zz hzz hz
  obtain rfl : BitVec.ofNat 32 (enc3R 9 3 (d.toNat) (a.toNat) (b.toNat) (bcode mk * 64 + bcode sb * 32 + op.code * 8)) = zz := Option.some.inj hz
  have hd := d.isLt
  have ha := a.isLt
  have hb := b.isLt
  have hm : bcode mk * 64 + bcode sb * 32 + op.code * 8 < 128 := by cases mk <;> cases sb <;> cases op <;> decide
  have key : dec9 3 (d.toNat) (a.toNat) (b.toNat) (bcode mk * 64 + bcode sb * 32 + op.code * 8) = .ok (.vredbit (reg d.toNat) (reg a.toNat) (reg b.toNat) mk sb op) := by cases mk <;> cases sb <;> cases op <;> rfl
  simp only [reg_toNat] at key
  exact decodeWord_dec9 (by unfold Fits3R; omega) key hzz

theorem vfredsum (d : Reg) (a : Reg) (b : Reg) (mk : Bool) (sb : Bool) : Statement (.vfredsum d a b mk sb) := by
  intro zz hzz hz
  obtain rfl : BitVec.ofNat 32 (enc3R 9 4 (d.toNat) (a.toNat) (b.toNat) (bcode mk * 64 + bcode sb * 32)) = zz := Option.some.inj hz
  have hd := d.isLt
  have ha := a.isLt
  have hb := b.isLt
  have hm : bcode mk * 64 + bcode sb * 32 < 128 := by cases mk <;> cases sb <;> decide
  have key : dec9 4 (d.toNat) (a.toNat) (b.toNat) (bcode mk * 64 + bcode sb * 32) = .ok (.vfredsum (reg d.toNat) (reg a.toNat) (reg b.toNat) mk sb) := by cases mk <;> cases sb <;> rfl
  simp only [reg_toNat] at key
  exact decodeWord_dec9 (by unfold Fits3R; omega) key hzz

theorem vfredmax (d : Reg) (a : Reg) (b : Reg) (mk : Bool) (sb : Bool) : Statement (.vfredmax d a b mk sb) := by
  intro zz hzz hz
  obtain rfl : BitVec.ofNat 32 (enc3R 9 5 (d.toNat) (a.toNat) (b.toNat) (bcode mk * 64 + bcode sb * 32)) = zz := Option.some.inj hz
  have hd := d.isLt
  have ha := a.isLt
  have hb := b.isLt
  have hm : bcode mk * 64 + bcode sb * 32 < 128 := by cases mk <;> cases sb <;> decide
  have key : dec9 5 (d.toNat) (a.toNat) (b.toNat) (bcode mk * 64 + bcode sb * 32) = .ok (.vfredmax (reg d.toNat) (reg a.toNat) (reg b.toNat) mk sb) := by cases mk <;> cases sb <;> rfl
  simp only [reg_toNat] at key
  exact decodeWord_dec9 (by unfold Fits3R; omega) key hzz

theorem vargmax (d : Reg) (a : Reg) (mk : Bool) : Statement (.vargmax d a mk) := by
  intro zz hzz hz
  obtain rfl : BitVec.ofNat 32 (enc3R 9 6 (d.toNat) (a.toNat) 0 (bcode mk * 64)) = zz := Option.some.inj hz
  have hd := d.isLt
  have ha := a.isLt
  have hm : bcode mk * 64 < 128 := by cases mk <;> decide
  have key : dec9 6 (d.toNat) (a.toNat) 0 (bcode mk * 64) = .ok (.vargmax (reg d.toNat) (reg a.toNat) mk) := by cases mk <;> rfl
  simp only [reg_toNat] at key
  exact decodeWord_dec9 (by unfold Fits3R; omega) key hzz

theorem vcompress (d : Reg) (a : Reg) (mk : Bool) : Statement (.vcompress d a mk) := by
  intro zz hzz hz
  obtain rfl : BitVec.ofNat 32 (enc3R 9 8 (d.toNat) (a.toNat) 0 (bcode mk * 64)) = zz := Option.some.inj hz
  have hd := d.isLt
  have ha := a.isLt
  have hm : bcode mk * 64 < 128 := by cases mk <;> decide
  have key : dec9 8 (d.toNat) (a.toNat) 0 (bcode mk * 64) = .ok (.vcompress (reg d.toNat) (reg a.toNat) mk) := by cases mk <;> rfl
  simp only [reg_toNat] at key
  exact decodeWord_dec9 (by unfold Fits3R; omega) key hzz

theorem vexpand (d : Reg) (a : Reg) (mk : Bool) : Statement (.vexpand d a mk) := by
  intro zz hzz hz
  obtain rfl : BitVec.ofNat 32 (enc3R 9 9 (d.toNat) (a.toNat) 0 (bcode mk * 64)) = zz := Option.some.inj hz
  have hd := d.isLt
  have ha := a.isLt
  have hm : bcode mk * 64 < 128 := by cases mk <;> decide
  have key : dec9 9 (d.toNat) (a.toNat) 0 (bcode mk * 64) = .ok (.vexpand (reg d.toNat) (reg a.toNat) mk) := by cases mk <;> rfl
  simp only [reg_toNat] at key
  exact decodeWord_dec9 (by unfold Fits3R; omega) key hzz

theorem vslideup (d : Reg) (a : Reg) (b : Reg) (mk : Bool) : Statement (.vslideup d a b mk) := by
  intro zz hzz hz
  obtain rfl : BitVec.ofNat 32 (enc3R 9 10 (d.toNat) (a.toNat) (b.toNat) (bcode mk * 64 + 32)) = zz := Option.some.inj hz
  have hd := d.isLt
  have ha := a.isLt
  have hb := b.isLt
  have hm : bcode mk * 64 + 32 < 128 := by cases mk <;> decide
  have key : dec9 10 (d.toNat) (a.toNat) (b.toNat) (bcode mk * 64 + 32) = .ok (.vslideup (reg d.toNat) (reg a.toNat) (reg b.toNat) mk) := by cases mk <;> rfl
  simp only [reg_toNat] at key
  exact decodeWord_dec9 (by unfold Fits3R; omega) key hzz

theorem vslidedn (d : Reg) (a : Reg) (b : Reg) (mk : Bool) : Statement (.vslidedn d a b mk) := by
  intro zz hzz hz
  obtain rfl : BitVec.ofNat 32 (enc3R 9 11 (d.toNat) (a.toNat) (b.toNat) (bcode mk * 64 + 32)) = zz := Option.some.inj hz
  have hd := d.isLt
  have ha := a.isLt
  have hb := b.isLt
  have hm : bcode mk * 64 + 32 < 128 := by cases mk <;> decide
  have key : dec9 11 (d.toNat) (a.toNat) (b.toNat) (bcode mk * 64 + 32) = .ok (.vslidedn (reg d.toNat) (reg a.toNat) (reg b.toNat) mk) := by cases mk <;> rfl
  simp only [reg_toNat] at key
  exact decodeWord_dec9 (by unfold Fits3R; omega) key hzz

theorem vperm (d : Reg) (a : Reg) (b : Reg) (mk : Bool) (sb : Bool) : Statement (.vperm d a b mk sb) := by
  intro zz hzz hz
  obtain rfl : BitVec.ofNat 32 (enc3R 9 12 (d.toNat) (a.toNat) (b.toNat) (bcode mk * 64 + bcode sb * 32)) = zz := Option.some.inj hz
  have hd := d.isLt
  have ha := a.isLt
  have hb := b.isLt
  have hm : bcode mk * 64 + bcode sb * 32 < 128 := by cases mk <;> cases sb <;> decide
  have key : dec9 12 (d.toNat) (a.toNat) (b.toNat) (bcode mk * 64 + bcode sb * 32) = .ok (.vperm (reg d.toNat) (reg a.toNat) (reg b.toNat) mk sb) := by cases mk <;> cases sb <;> rfl
  simp only [reg_toNat] at key
  exact decodeWord_dec9 (by unfold Fits3R; omega) key hzz

theorem vscan (d : Reg) (a : Reg) (mk : Bool) (op : FoldOp) : Statement (.vscan d a mk op) := by
  intro zz hzz hz
  obtain rfl : BitVec.ofNat 32 (enc3R 9 13 (d.toNat) (a.toNat) 0 (bcode mk * 64 + op.code * 8)) = zz := Option.some.inj hz
  have hd := d.isLt
  have ha := a.isLt
  have hm : bcode mk * 64 + op.code * 8 < 128 := by cases mk <;> cases op <;> decide
  have key : dec9 13 (d.toNat) (a.toNat) 0 (bcode mk * 64 + op.code * 8) = .ok (.vscan (reg d.toNat) (reg a.toNat) mk op) := by cases mk <;> cases op <;> rfl
  simp only [reg_toNat] at key
  exact decodeWord_dec9 (by unfold Fits3R; omega) key hzz

theorem vrand (d : Reg) (a : Reg) (b : Reg) (mk : Bool) (uni : Bool) : Statement (.vrand d a b mk uni) := by
  intro zz hzz hz
  obtain rfl : BitVec.ofNat 32 (enc3R 9 16 (d.toNat) (a.toNat) (b.toNat) (bcode mk * 64 + bcode uni * 8 + 32)) = zz := Option.some.inj hz
  have hd := d.isLt
  have ha := a.isLt
  have hb := b.isLt
  have hm : bcode mk * 64 + bcode uni * 8 + 32 < 128 := by cases mk <;> cases uni <;> decide
  have key : dec9 16 (d.toNat) (a.toNat) (b.toNat) (bcode mk * 64 + bcode uni * 8 + 32) = .ok (.vrand (reg d.toNat) (reg a.toNat) (reg b.toNat) mk uni) := by cases mk <;> cases uni <;> rfl
  simp only [reg_toNat] at key
  exact decodeWord_dec9 (by unfold Fits3R; omega) key hzz

theorem vsample (d : Reg) (a : Reg) (b : Reg) (mk : Bool) (sb : Bool) : Statement (.vsample d a b mk sb) := by
  intro zz hzz hz
  obtain rfl : BitVec.ofNat 32 (enc3R 9 17 (d.toNat) (a.toNat) (b.toNat) (bcode mk * 64 + bcode sb * 32)) = zz := Option.some.inj hz
  have hd := d.isLt
  have ha := a.isLt
  have hb := b.isLt
  have hm : bcode mk * 64 + bcode sb * 32 < 128 := by cases mk <;> cases sb <;> decide
  have key : dec9 17 (d.toNat) (a.toNat) (b.toNat) (bcode mk * 64 + bcode sb * 32) = .ok (.vsample (reg d.toNat) (reg a.toNat) (reg b.toNat) mk sb) := by cases mk <;> cases sb <;> rfl
  simp only [reg_toNat] at key
  exact decodeWord_dec9 (by unfold Fits3R; omega) key hzz

theorem vgmax (d : Reg) (a : Reg) (b : Reg) (mk : Bool) : Statement (.vgmax d a b mk) := by
  intro zz hzz hz
  obtain rfl : BitVec.ofNat 32 (enc3R 9 18 (d.toNat) (a.toNat) (b.toNat) (bcode mk * 64 + 32)) = zz := Option.some.inj hz
  have hd := d.isLt
  have ha := a.isLt
  have hb := b.isLt
  have hm : bcode mk * 64 + 32 < 128 := by cases mk <;> decide
  have key : dec9 18 (d.toNat) (a.toNat) (b.toNat) (bcode mk * 64 + 32) = .ok (.vgmax (reg d.toNat) (reg a.toNat) (reg b.toNat) mk) := by cases mk <;> rfl
  simp only [reg_toNat] at key
  exact decodeWord_dec9 (by unfold Fits3R; omega) key hzz

theorem vld (d : Reg) (base : Reg) (w : VWidth) (o : Bool) (h : Bool) (pol : Policy) (mk : Bool) (x : Bool) : Statement (.vld d base w o h pol mk x) := by
  intro zz hzz hz
  obtain rfl : BitVec.ofNat 32 (encVM 0 (d.toNat) (base.toNat) (0) (w.code * 64 + bcode o * 32 + bcode h * 16 + pol.code * 4 + bcode mk * 2 + bcode x)) = zz := Option.some.inj hz
  have hd := d.isLt
  have hbase := base.isLt
  have hm : w.code * 64 + bcode o * 32 + bcode h * 16 + pol.code * 4 + bcode mk * 2 + bcode x < 512 := by cases w <;> cases o <;> cases h <;> cases pol <;> cases mk <;> cases x <;> decide
  have key : decA 0 (d.toNat) (base.toNat) (0) (w.code * 64 + bcode o * 32 + bcode h * 16 + pol.code * 4 + bcode mk * 2 + bcode x) = .ok (.vld (reg d.toNat) (reg base.toNat) w o h pol mk x) := by cases w <;> cases o <;> cases h <;> cases pol <;> cases mk <;> cases x <;> rfl
  simp only [reg_toNat] at key
  exact decodeWord_decA (by omega) key hzz

theorem vlds (d : Reg) (base : Reg) (ix : Reg) (w : VWidth) (o : Bool) (h : Bool) (pol : Policy) (mk : Bool) (x : Bool) : Statement (.vlds d base ix w o h pol mk x) := by
  intro zz hzz hz
  obtain rfl : BitVec.ofNat 32 (encVM 1 (d.toNat) (base.toNat) (ix.toNat) (w.code * 64 + bcode o * 32 + bcode h * 16 + pol.code * 4 + bcode mk * 2 + bcode x)) = zz := Option.some.inj hz
  have hd := d.isLt
  have hbase := base.isLt
  have hix := ix.isLt
  have hm : w.code * 64 + bcode o * 32 + bcode h * 16 + pol.code * 4 + bcode mk * 2 + bcode x < 512 := by cases w <;> cases o <;> cases h <;> cases pol <;> cases mk <;> cases x <;> decide
  have key : decA 1 (d.toNat) (base.toNat) (ix.toNat) (w.code * 64 + bcode o * 32 + bcode h * 16 + pol.code * 4 + bcode mk * 2 + bcode x) = .ok (.vlds (reg d.toNat) (reg base.toNat) (reg ix.toNat) w o h pol mk x) := by cases w <;> cases o <;> cases h <;> cases pol <;> cases mk <;> cases x <;> rfl
  simp only [reg_toNat] at key
  exact decodeWord_decA (by omega) key hzz

theorem vldx (d : Reg) (base : Reg) (ix : Reg) (w : VWidth) (o : Bool) (h : Bool) (pol : Policy) (mk : Bool) (x : Bool) : Statement (.vldx d base ix w o h pol mk x) := by
  intro zz hzz hz
  obtain rfl : BitVec.ofNat 32 (encVM 2 (d.toNat) (base.toNat) (ix.toNat) (w.code * 64 + bcode o * 32 + bcode h * 16 + pol.code * 4 + bcode mk * 2 + bcode x)) = zz := Option.some.inj hz
  have hd := d.isLt
  have hbase := base.isLt
  have hix := ix.isLt
  have hm : w.code * 64 + bcode o * 32 + bcode h * 16 + pol.code * 4 + bcode mk * 2 + bcode x < 512 := by cases w <;> cases o <;> cases h <;> cases pol <;> cases mk <;> cases x <;> decide
  have key : decA 2 (d.toNat) (base.toNat) (ix.toNat) (w.code * 64 + bcode o * 32 + bcode h * 16 + pol.code * 4 + bcode mk * 2 + bcode x) = .ok (.vldx (reg d.toNat) (reg base.toNat) (reg ix.toNat) w o h pol mk x) := by cases w <;> cases o <;> cases h <;> cases pol <;> cases mk <;> cases x <;> rfl
  simp only [reg_toNat] at key
  exact decodeWord_decA (by omega) key hzz

theorem vldff (d : Reg) (base : Reg) (w : VWidth) (o : Bool) (h : Bool) (pol : Policy) (mk : Bool) (x : Bool) : Statement (.vldff d base w o h pol mk x) := by
  intro zz hzz hz
  obtain rfl : BitVec.ofNat 32 (encVM 3 (d.toNat) (base.toNat) (0) (w.code * 64 + bcode o * 32 + bcode h * 16 + pol.code * 4 + bcode mk * 2 + bcode x)) = zz := Option.some.inj hz
  have hd := d.isLt
  have hbase := base.isLt
  have hm : w.code * 64 + bcode o * 32 + bcode h * 16 + pol.code * 4 + bcode mk * 2 + bcode x < 512 := by cases w <;> cases o <;> cases h <;> cases pol <;> cases mk <;> cases x <;> decide
  have key : decA 3 (d.toNat) (base.toNat) (0) (w.code * 64 + bcode o * 32 + bcode h * 16 + pol.code * 4 + bcode mk * 2 + bcode x) = .ok (.vldff (reg d.toNat) (reg base.toNat) w o h pol mk x) := by cases w <;> cases o <;> cases h <;> cases pol <;> cases mk <;> cases x <;> rfl
  simp only [reg_toNat] at key
  exact decodeWord_decA (by omega) key hzz

theorem vldxff (d : Reg) (base : Reg) (ix : Reg) (w : VWidth) (o : Bool) (h : Bool) (pol : Policy) (mk : Bool) (x : Bool) : Statement (.vldxff d base ix w o h pol mk x) := by
  intro zz hzz hz
  obtain rfl : BitVec.ofNat 32 (encVM 4 (d.toNat) (base.toNat) (ix.toNat) (w.code * 64 + bcode o * 32 + bcode h * 16 + pol.code * 4 + bcode mk * 2 + bcode x)) = zz := Option.some.inj hz
  have hd := d.isLt
  have hbase := base.isLt
  have hix := ix.isLt
  have hm : w.code * 64 + bcode o * 32 + bcode h * 16 + pol.code * 4 + bcode mk * 2 + bcode x < 512 := by cases w <;> cases o <;> cases h <;> cases pol <;> cases mk <;> cases x <;> decide
  have key : decA 4 (d.toNat) (base.toNat) (ix.toNat) (w.code * 64 + bcode o * 32 + bcode h * 16 + pol.code * 4 + bcode mk * 2 + bcode x) = .ok (.vldxff (reg d.toNat) (reg base.toNat) (reg ix.toNat) w o h pol mk x) := by cases w <;> cases o <;> cases h <;> cases pol <;> cases mk <;> cases x <;> rfl
  simp only [reg_toNat] at key
  exact decodeWord_decA (by omega) key hzz

theorem vst (d : Reg) (base : Reg) (w : VWidth) (o : Bool) (h : Bool) (pol : Policy) (mk : Bool) : Statement (.vst d base w o h pol mk) := by
  intro zz hzz hz
  obtain rfl : BitVec.ofNat 32 (encVM 5 (d.toNat) (base.toNat) (0) (w.code * 64 + bcode o * 32 + bcode h * 16 + pol.code * 4 + bcode mk * 2)) = zz := Option.some.inj hz
  have hd := d.isLt
  have hbase := base.isLt
  have hm : w.code * 64 + bcode o * 32 + bcode h * 16 + pol.code * 4 + bcode mk * 2 < 512 := by cases w <;> cases o <;> cases h <;> cases pol <;> cases mk <;> decide
  have key : decA 5 (d.toNat) (base.toNat) (0) (w.code * 64 + bcode o * 32 + bcode h * 16 + pol.code * 4 + bcode mk * 2) = .ok (.vst (reg d.toNat) (reg base.toNat) w o h pol mk) := by cases w <;> cases o <;> cases h <;> cases pol <;> cases mk <;> rfl
  simp only [reg_toNat] at key
  exact decodeWord_decA (by omega) key hzz

theorem vsts (d : Reg) (base : Reg) (ix : Reg) (w : VWidth) (o : Bool) (h : Bool) (pol : Policy) (mk : Bool) : Statement (.vsts d base ix w o h pol mk) := by
  intro zz hzz hz
  obtain rfl : BitVec.ofNat 32 (encVM 6 (d.toNat) (base.toNat) (ix.toNat) (w.code * 64 + bcode o * 32 + bcode h * 16 + pol.code * 4 + bcode mk * 2)) = zz := Option.some.inj hz
  have hd := d.isLt
  have hbase := base.isLt
  have hix := ix.isLt
  have hm : w.code * 64 + bcode o * 32 + bcode h * 16 + pol.code * 4 + bcode mk * 2 < 512 := by cases w <;> cases o <;> cases h <;> cases pol <;> cases mk <;> decide
  have key : decA 6 (d.toNat) (base.toNat) (ix.toNat) (w.code * 64 + bcode o * 32 + bcode h * 16 + pol.code * 4 + bcode mk * 2) = .ok (.vsts (reg d.toNat) (reg base.toNat) (reg ix.toNat) w o h pol mk) := by cases w <;> cases o <;> cases h <;> cases pol <;> cases mk <;> rfl
  simp only [reg_toNat] at key
  exact decodeWord_decA (by omega) key hzz

theorem vstx (d : Reg) (base : Reg) (ix : Reg) (w : VWidth) (o : Bool) (h : Bool) (pol : Policy) (mk : Bool) : Statement (.vstx d base ix w o h pol mk) := by
  intro zz hzz hz
  obtain rfl : BitVec.ofNat 32 (encVM 7 (d.toNat) (base.toNat) (ix.toNat) (w.code * 64 + bcode o * 32 + bcode h * 16 + pol.code * 4 + bcode mk * 2)) = zz := Option.some.inj hz
  have hd := d.isLt
  have hbase := base.isLt
  have hix := ix.isLt
  have hm : w.code * 64 + bcode o * 32 + bcode h * 16 + pol.code * 4 + bcode mk * 2 < 512 := by cases w <;> cases o <;> cases h <;> cases pol <;> cases mk <;> decide
  have key : decA 7 (d.toNat) (base.toNat) (ix.toNat) (w.code * 64 + bcode o * 32 + bcode h * 16 + pol.code * 4 + bcode mk * 2) = .ok (.vstx (reg d.toNat) (reg base.toNat) (reg ix.toNat) w o h pol mk) := by cases w <;> cases o <;> cases h <;> cases pol <;> cases mk <;> rfl
  simp only [reg_toNat] at key
  exact decodeWord_decA (by omega) key hzz

theorem vamo (d : Reg) (base : Reg) (ix : Reg) (w : VWidth) (o : Bool) (h : Bool) (op : VamoOp) (mk : Bool) : Statement (.vamo d base ix w o h op mk) := by
  intro zz hzz hz
  obtain rfl : BitVec.ofNat 32 (encVM 8 (d.toNat) (base.toNat) (ix.toNat) (w.code * 64 + bcode o * 32 + bcode h * 16 + op.code / 2 * 4 + op.code % 2 + bcode mk * 2)) = zz := Option.some.inj hz
  have hd := d.isLt
  have hb := base.isLt
  have hx := ix.isLt
  obtain ⟨h1, h2, h3, h4, h5, h6⟩ := vamo_fields w o h op mk _ rfl
  refine decodeWord_decA (by omega) ?_ hzz
  simp only [decA, h1, h2, h3, h4, h5, withCode, reg_toNat]

theorem vlock (d : MReg) (base : Reg) (ix : Reg) (s : Bool) (h : Bool) (mk : Bool) : Statement (.vlock d base ix s h mk) := by
  intro zz hzz hz
  obtain rfl : BitVec.ofNat 32 (encVM 9 (d.toNat) (base.toNat) (ix.toNat) (bcode s * 32 + bcode h * 16 + bcode mk * 2)) = zz := Option.some.inj hz
  have hd := d.isLt
  have hbase := base.isLt
  have hix := ix.isLt
  cases s <;> cases h <;> cases mk <;> exact decodeWord_decA (by simp only [bcode, Bool.false_eq_true, if_true, if_false]; omega) (by simp [decA, needResv, withM, bit, bcode, hd]) hzz

theorem vunlock (d : MReg) (ix : Reg) (h : Bool) (mk : Bool) : Statement (.vunlock d ix h mk) := by
  intro zz hzz hz
  obtain rfl : BitVec.ofNat 32 (encVM 10 (d.toNat) (0) (ix.toNat) (bcode h * 16 + bcode mk * 2)) = zz := Option.some.inj hz
  have hd := d.isLt
  have hix := ix.isLt
  cases h <;> cases mk <;> exact decodeWord_decA (by simp only [bcode, Bool.false_eq_true, if_true, if_false]; omega) (by simp [decA, needResv, withM, bit, bcode, hd]) hzz

theorem vsave (d : Reg) (base : Reg) (h : Bool) (pol : Policy) : Statement (.vsave d base h pol) := by
  intro zz hzz hz
  obtain rfl : BitVec.ofNat 32 (encVM 11 (d.toNat) (base.toNat) (0) (bcode h * 16 + pol.code * 4)) = zz := Option.some.inj hz
  have hd := d.isLt
  have hbase := base.isLt
  have hm : bcode h * 16 + pol.code * 4 < 512 := by cases h <;> cases pol <;> decide
  have key : decA 11 (d.toNat) (base.toNat) (0) (bcode h * 16 + pol.code * 4) = .ok (.vsave (reg d.toNat) (reg base.toNat) h pol) := by cases h <;> cases pol <;> rfl
  simp only [reg_toNat] at key
  exact decodeWord_decA (by omega) key hzz

theorem vrestore (d : Reg) (base : Reg) (h : Bool) (pol : Policy) : Statement (.vrestore d base h pol) := by
  intro zz hzz hz
  obtain rfl : BitVec.ofNat 32 (encVM 12 (d.toNat) (base.toNat) (0) (bcode h * 16 + pol.code * 4)) = zz := Option.some.inj hz
  have hd := d.isLt
  have hbase := base.isLt
  have hm : bcode h * 16 + pol.code * 4 < 512 := by cases h <;> cases pol <;> decide
  have key : decA 12 (d.toNat) (base.toNat) (0) (bcode h * 16 + pol.code * 4) = .ok (.vrestore (reg d.toNat) (reg base.toNat) h pol) := by cases h <;> cases pol <;> rfl
  simp only [reg_toNat] at key
  exact decodeWord_decA (by omega) key hzz

theorem tset (d : TReg) (a : Reg) (mk : Bool) : Statement (.tset d a mk) := by
  intro zz hzz hz
  obtain rfl : BitVec.ofNat 32 (enc3R 11 0 (d.toNat) (a.toNat) 0 (bcode mk * 64)) = zz := Option.some.inj hz
  have hd := d.isLt
  have ha := a.isLt
  cases mk <;> exact decodeWord_decB (by unfold Fits3R; simp only [bcode, Bool.false_eq_true, if_true, if_false]; omega) (by simp [decB, needResv, withM, bit, bcode, hd]) hzz

theorem tget (d : Reg) (a : TReg) (mk : Bool) : Statement (.tget d a mk) := by
  intro zz hzz hz
  obtain rfl : BitVec.ofNat 32 (enc3R 11 1 (d.toNat) (a.toNat) 0 (bcode mk * 64)) = zz := Option.some.inj hz
  have hd := d.isLt
  have ha := a.isLt
  cases mk <;> exact decodeWord_decB (by unfold Fits3R; simp only [bcode, Bool.false_eq_true, if_true, if_false]; omega) (by simp [decB, needResv, withM, bit, bcode, ha]) hzz

theorem tup (d : Reg) (a : TReg) (b : Reg) (mk : Bool) (op : FoldOp) : Statement (.tup d a b mk op) := by
  intro zz hzz hz
  obtain rfl : BitVec.ofNat 32 (enc3R 11 2 (d.toNat) (a.toNat) (b.toNat) (bcode mk * 64 + op.code * 8)) = zz := Option.some.inj hz
  have hd := d.isLt
  have ha := a.isLt
  have hb := b.isLt
  cases mk <;> cases op <;> exact decodeWord_decB (by unfold Fits3R; simp only [bcode, FoldOp.code, Bool.false_eq_true, if_true, if_false]; omega) (by simp [decB, needResv, withCode, withM, bit, bcode, FoldOp.code, FoldOp.ofCode, ha]) hzz

theorem tdown (d : Reg) (a : TReg) (b : Reg) (mk : Bool) (op : FoldOp) : Statement (.tdown d a b mk op) := by
  intro zz hzz hz
  obtain rfl : BitVec.ofNat 32 (enc3R 11 3 (d.toNat) (a.toNat) (b.toNat) (bcode mk * 64 + op.code * 8)) = zz := Option.some.inj hz
  have hd := d.isLt
  have ha := a.isLt
  have hb := b.isLt
  cases mk <;> cases op <;> exact decodeWord_decB (by unfold Fits3R; simp only [bcode, FoldOp.code, Bool.false_eq_true, if_true, if_false]; omega) (by simp [decB, needResv, withCode, withM, bit, bcode, FoldOp.code, FoldOp.ofCode, ha]) hzz

theorem tbcast (d : Reg) (a : TReg) (b : Reg) (mk : Bool) (par : Bool) : Statement (.tbcast d a b mk par) := by
  intro zz hzz hz
  obtain rfl : BitVec.ofNat 32 (enc3R 11 4 (d.toNat) (a.toNat) (b.toNat) (bcode mk * 64 + bcode par * 8)) = zz := Option.some.inj hz
  have hd := d.isLt
  have ha := a.isLt
  have hb := b.isLt
  cases mk <;> cases par <;> exact decodeWord_decB (by unfold Fits3R; simp only [bcode, Bool.false_eq_true, if_true, if_false]; omega) (by simp [decB, needResv, withCode, withM, bit, bcode, Bool.ofCode, ha]) hzz

theorem tdepth (d : Reg) (a : TReg) (mk : Bool) : Statement (.tdepth d a mk) := by
  intro zz hzz hz
  obtain rfl : BitVec.ofNat 32 (enc3R 11 5 (d.toNat) (a.toNat) 0 (bcode mk * 64)) = zz := Option.some.inj hz
  have hd := d.isLt
  have ha := a.isLt
  cases mk <;> exact decodeWord_decB (by unfold Fits3R; simp only [bcode, Bool.false_eq_true, if_true, if_false]; omega) (by simp [decB, needResv, withM, bit, bcode, ha]) hzz

theorem tanc (d : MReg) (a : TReg) (b : Reg) (mk : Bool) : Statement (.tanc d a b mk) := by
  intro zz hzz hz
  obtain rfl : BitVec.ofNat 32 (enc3R 11 6 (d.toNat) (a.toNat) (b.toNat) (bcode mk * 64 + 32)) = zz := Option.some.inj hz
  have hd := d.isLt
  have ha := a.isLt
  have hb := b.isLt
  cases mk <;> exact decodeWord_decB (by unfold Fits3R; simp only [bcode, Bool.false_eq_true, if_true, if_false]; omega) (by simp [decB, needResv, needCode, withM, bit, bcode, hd, ha]) hzz

theorem tancUp (d : Reg) (a : TReg) (b : Reg) (mk : Bool) (sb : Bool) : Statement (.tancUp d a b mk sb) := by
  intro zz hzz hz
  obtain rfl : BitVec.ofNat 32 (enc3R 11 6 (d.toNat) (a.toNat) (b.toNat) (bcode mk * 64 + bcode sb * 32 + 8)) = zz := Option.some.inj hz
  have hd := d.isLt
  have ha := a.isLt
  have hb := b.isLt
  cases mk <;> cases sb <;> exact decodeWord_decB (by unfold Fits3R; simp only [bcode, Bool.false_eq_true, if_true, if_false]; omega) (by simp [decB, needResv, withM, bit, bcode, ha]) hzz

theorem troot (d : Reg) (a : TReg) (mk : Bool) : Statement (.troot d a mk) := by
  intro zz hzz hz
  obtain rfl : BitVec.ofNat 32 (enc3R 11 7 (d.toNat) (a.toNat) 0 (bcode mk * 64)) = zz := Option.some.inj hz
  have hd := d.isLt
  have ha := a.isLt
  cases mk <;> exact decodeWord_decB (by unfold Fits3R; simp only [bcode, Bool.false_eq_true, if_true, if_false]; omega) (by simp [decB, needResv, withM, bit, bcode, ha]) hzz

theorem tcontract (d : TReg) (a : TReg) (b : Reg) (mk : Bool) : Statement (.tcontract d a b mk) := by
  intro zz hzz hz
  obtain rfl : BitVec.ofNat 32 (enc3R 11 8 (d.toNat) (a.toNat) (b.toNat) (bcode mk * 64 + 32)) = zz := Option.some.inj hz
  have hd := d.isLt
  have ha := a.isLt
  have hb := b.isLt
  cases mk <;> exact decodeWord_decB (by unfold Fits3R; simp only [bcode, Bool.false_eq_true, if_true, if_false]; omega) (by simp [decB, needResv, needCode, withM, bit, bcode, hd, ha]) hzz

theorem tcontractM (d : MReg) (a : TReg) (b : Reg) (mk : Bool) : Statement (.tcontractM d a b mk) := by
  intro zz hzz hz
  obtain rfl : BitVec.ofNat 32 (enc3R 11 8 (d.toNat) (a.toNat) (b.toNat) (bcode mk * 64 + 8 + 32)) = zz := Option.some.inj hz
  have hd := d.isLt
  have ha := a.isLt
  have hb := b.isLt
  cases mk <;> exact decodeWord_decB (by unfold Fits3R; simp only [bcode, Bool.false_eq_true, if_true, if_false]; omega) (by simp [decB, needResv, needCode, withM, bit, bcode, hd, ha]) hzz

theorem tleaf (d : MReg) (a : TReg) (mk : Bool) : Statement (.tleaf d a mk) := by
  intro zz hzz hz
  obtain rfl : BitVec.ofNat 32 (enc3R 11 9 (d.toNat) (a.toNat) 0 (bcode mk * 64)) = zz := Option.some.inj hz
  have hd := d.isLt
  have ha := a.isLt
  cases mk <;> exact decodeWord_decB (by unfold Fits3R; simp only [bcode, Bool.false_eq_true, if_true, if_false]; omega) (by simp [decB, needResv, withM, bit, bcode, hd, ha]) hzz

theorem tcheck (d : MReg) (a : TReg) (mk : Bool) (dng : Bool) : Statement (.tcheck d a mk dng) := by
  intro zz hzz hz
  obtain rfl : BitVec.ofNat 32 (enc3R 11 10 (d.toNat) (a.toNat) 0 (bcode mk * 64 + bcode dng * 8)) = zz := Option.some.inj hz
  have hd := d.isLt
  have ha := a.isLt
  cases mk <;> cases dng <;> exact decodeWord_decB (by unfold Fits3R; simp only [bcode, Bool.false_eq_true, if_true, if_false]; omega) (by simp [decB, needResv, withCode, withM, bit, bcode, Bool.ofCode, hd, ha]) hzz

theorem torder (d : Reg) (a : TReg) (mk : Bool) : Statement (.torder d a mk) := by
  intro zz hzz hz
  obtain rfl : BitVec.ofNat 32 (enc3R 11 11 (d.toNat) (a.toNat) 0 (bcode mk * 64)) = zz := Option.some.inj hz
  have hd := d.isLt
  have ha := a.isLt
  cases mk <;> exact decodeWord_decB (by unfold Fits3R; simp only [bcode, Bool.false_eq_true, if_true, if_false]; omega) (by simp [decB, needResv, withM, bit, bcode, ha]) hzz

theorem hcfg (a : Reg) (b : Reg) : Statement (.hcfg a b) := by
  intro zz hzz hz
  obtain rfl : BitVec.ofNat 32 (enc3R 12 0 0 (a.toNat) (b.toNat) (0)) = zz := Option.some.inj hz
  have ha := a.isLt
  have hb := b.isLt
  exact decodeWord_decC (by unfold Fits3R; omega) (by simp [decC, needResv]) hzz

theorem hins (d : MReg) (a : Reg) (b : Reg) (mk : Bool) : Statement (.hins d a b mk) := by
  intro zz hzz hz
  obtain rfl : BitVec.ofNat 32 (enc3R 12 1 (d.toNat) (a.toNat) (b.toNat) (bcode mk * 64)) = zz := Option.some.inj hz
  have hd := d.isLt
  have ha := a.isLt
  have hb := b.isLt
  cases mk <;> exact decodeWord_decC (by unfold Fits3R; simp only [bcode, Bool.false_eq_true, if_true, if_false]; omega) (by simp [decC, needResv, withM, bit, bcode, hd]) hzz

theorem hprb (d : Reg) (a : Reg) (b : MReg) (mk : Bool) : Statement (.hprb d a b mk) := by
  intro zz hzz hz
  obtain rfl : BitVec.ofNat 32 (enc3R 12 2 (d.toNat) (a.toNat) (b.toNat) (bcode mk * 64)) = zz := Option.some.inj hz
  have hd := d.isLt
  have ha := a.isLt
  have hb := b.isLt
  cases mk <;> exact decodeWord_decC (by unfold Fits3R; simp only [bcode, Bool.false_eq_true, if_true, if_false]; omega) (by simp [decC, needResv, withM, bit, bcode, hb]) hzz

theorem hdel (d : MReg) (a : Reg) (mk : Bool) : Statement (.hdel d a mk) := by
  intro zz hzz hz
  obtain rfl : BitVec.ofNat 32 (enc3R 12 3 (d.toNat) (a.toNat) 0 (bcode mk * 64)) = zz := Option.some.inj hz
  have hd := d.isLt
  have ha := a.isLt
  cases mk <;> exact decodeWord_decC (by unfold Fits3R; simp only [bcode, Bool.false_eq_true, if_true, if_false]; omega) (by simp [decC, needResv, withM, bit, bcode, hd]) hzz

theorem hacc (d : MReg) (a : Reg) (b : Reg) (mk : Bool) (op : HaccOp) : Statement (.hacc d a b mk op) := by
  intro zz hzz hz
  obtain rfl : BitVec.ofNat 32 (enc3R 12 4 (d.toNat) (a.toNat) (b.toNat) (bcode mk * 64 + op.code)) = zz := Option.some.inj hz
  have hd := d.isLt
  have ha := a.isLt
  have hb := b.isLt
  cases mk <;> cases op <;> exact decodeWord_decC (by unfold Fits3R; simp only [bcode, HaccOp.code, Bool.false_eq_true, if_true, if_false]; omega) (by simp [decC, needResv, withCode, withM, bit, bcode, HaccOp.code, HaccOp.ofCode, hd]) hzz

theorem hdrn (d : Reg) (a : Reg) : Statement (.hdrn d a) := by
  intro zz hzz hz
  obtain rfl : BitVec.ofNat 32 (enc3R 12 5 (d.toNat) (a.toNat) 0 (0)) = zz := Option.some.inj hz
  have hd := d.isLt
  have ha := a.isLt
  exact decodeWord_decC (by unfold Fits3R; omega) (by simp [decC, needResv]) hzz

theorem strike (a : Reg) (b : Reg) : Statement (.strike a b) := by
  intro zz hzz hz
  obtain rfl : BitVec.ofNat 32 (enc3R 12 16 0 (a.toNat) (b.toNat) (0)) = zz := Option.some.inj hz
  have ha := a.isLt
  have hb := b.isLt
  exact decodeWord_decC (by unfold Fits3R; omega) (by simp [decC, needResv]) hzz

theorem lde (d : Reg) (a : Reg) (b : MReg) (mk : Bool) : Statement (.lde d a b mk) := by
  intro zz hzz hz
  obtain rfl : BitVec.ofNat 32 (enc3R 12 17 (d.toNat) (a.toNat) (b.toNat) (bcode mk * 64)) = zz := Option.some.inj hz
  have hd := d.isLt
  have ha := a.isLt
  have hb := b.isLt
  cases mk <;> exact decodeWord_decC (by unfold Fits3R; simp only [bcode, Bool.false_eq_true, if_true, if_false]; omega) (by simp [decC, needResv, withM, bit, bcode, hb]) hzz

theorem tsite (d : Reg) (a : Reg) : Statement (.tsite d a) := by
  intro zz hzz hz
  obtain rfl : BitVec.ofNat 32 (enc3R 12 18 (d.toNat) (a.toNat) 0 (0)) = zz := Option.some.inj hz
  have hd := d.isLt
  have ha := a.isLt
  exact decodeWord_decC (by unfold Fits3R; omega) (by simp [decC, needResv]) hzz

theorem ttag (a : Reg) (b : Reg) : Statement (.ttag a b) := by
  intro zz hzz hz
  obtain rfl : BitVec.ofNat 32 (enc3R 12 19 0 (a.toNat) (b.toNat) (0)) = zz := Option.some.inj hz
  have ha := a.isLt
  have hb := b.isLt
  exact decodeWord_decC (by unfold Fits3R; omega) (by simp [decC, needResv]) hzz

theorem tremap (d : Reg) (a : Reg) (b : Reg) : Statement (.tremap d a b) := by
  intro zz hzz hz
  obtain rfl : BitVec.ofNat 32 (enc3R 12 20 (d.toNat) (a.toNat) (b.toNat) (0)) = zz := Option.some.inj hz
  have hd := d.isLt
  have ha := a.isLt
  have hb := b.isLt
  exact decodeWord_decC (by unfold Fits3R; omega) (by simp [decC, needResv]) hzz

theorem tapDot (d : PaReg) (a : Reg) (b : Reg) (mk : Bool) (tap : BitVec 3) : Statement (.tapDot d a b mk tap) := by
  intro zz hzz hz
  obtain rfl : BitVec.ofNat 32 (enc3R 12 32 (d.toNat) (a.toNat) (b.toNat) (bcode mk * 64 + tap.toNat)) = zz := Option.some.inj hz
  have hd := d.isLt
  have ha := a.isLt
  have hb := b.isLt
  have htap := tap.isLt
  cases mk <;> rcases bv3_cases tap with rfl | rfl | rfl | rfl | rfl | rfl | rfl | rfl <;> exact decodeWord_decC (by unfold Fits3R; simp only [bcode, Bool.false_eq_true, if_true, if_false]; omega) (by simp [decC, needResv, withPa, bit, bcode, hd]) hzz

theorem tapFin (d : PaReg) (mk : Bool) (tap : BitVec 3) : Statement (.tapFin d mk tap) := by
  intro zz hzz hz
  obtain rfl : BitVec.ofNat 32 (enc3R 12 33 (d.toNat) 0 0 (bcode mk * 64 + tap.toNat)) = zz := Option.some.inj hz
  have hd := d.isLt
  have htap := tap.isLt
  cases mk <;> rcases bv3_cases tap with rfl | rfl | rfl | rfl | rfl | rfl | rfl | rfl <;> exact decodeWord_decC (by unfold Fits3R; simp only [bcode, Bool.false_eq_true, if_true, if_false]; omega) (by simp [decC, needResv, withPa, bit, bcode, hd]) hzz

theorem tapSteer (d : Reg) (a : PaReg) (b : Reg) (mk : Bool) (tap : BitVec 3) : Statement (.tapSteer d a b mk tap) := by
  intro zz hzz hz
  obtain rfl : BitVec.ofNat 32 (enc3R 12 34 (d.toNat) (a.toNat) (b.toNat) (bcode mk * 64 + tap.toNat)) = zz := Option.some.inj hz
  have hd := d.isLt
  have ha := a.isLt
  have hb := b.isLt
  have htap := tap.isLt
  cases mk <;> rcases bv3_cases tap with rfl | rfl | rfl | rfl | rfl | rfl | rfl | rfl <;> exact decodeWord_decC (by unfold Fits3R; simp only [bcode, Bool.false_eq_true, if_true, if_false]; omega) (by simp [decC, needResv, withPa, bit, bcode, ha]) hzz

theorem mlds (d : Reg) (a : Reg) (push : Bool) (pop : Bool) (late : Bool) (fmt : WFmt) : Statement (.mlds d a push pop late fmt) := by
  intro zz hzz hz
  obtain rfl : BitVec.ofNat 32 (enc3R 13 0 (d.toNat) (a.toNat) 0 (bcode push * 64 + bcode pop * 32 + bcode late * 16 + fmt.code)) = zz := Option.some.inj hz
  have hd := d.isLt
  have ha := a.isLt
  have hm : bcode push * 64 + bcode pop * 32 + bcode late * 16 + fmt.code < 128 := by cases push <;> cases pop <;> cases late <;> cases fmt <;> decide
  have key : decD 0 (d.toNat) (a.toNat) 0 (bcode push * 64 + bcode pop * 32 + bcode late * 16 + fmt.code) = .ok (.mlds (reg d.toNat) (reg a.toNat) push pop late fmt) := by cases push <;> cases pop <;> cases late <;> cases fmt <;> rfl
  simp only [reg_toNat] at key
  exact decodeWord_decD (by unfold Fits3R; omega) key hzz

theorem mswap (d : Reg) (push : Bool) (pop : Bool) (late : Bool) : Statement (.mswap d push pop late) := by
  intro zz hzz hz
  obtain rfl : BitVec.ofNat 32 (enc3R 13 1 (d.toNat) 0 0 (bcode push * 64 + bcode pop * 32 + bcode late * 16)) = zz := Option.some.inj hz
  have hd := d.isLt
  have hm : bcode push * 64 + bcode pop * 32 + bcode late * 16 < 128 := by cases push <;> cases pop <;> cases late <;> decide
  have key : decD 1 (d.toNat) 0 0 (bcode push * 64 + bcode pop * 32 + bcode late * 16) = .ok (.mswap (reg d.toNat) push pop late) := by cases push <;> cases pop <;> cases late <;> rfl
  simp only [reg_toNat] at key
  exact decodeWord_decD (by unfold Fits3R; omega) key hzz

theorem mmac (d : Reg) (a : Reg) (b : Reg) (push : Bool) (pop : Bool) (late : Bool) (op : MmacOp) : Statement (.mmac d a b push pop late op) := by
  intro zz hzz hz
  obtain rfl : BitVec.ofNat 32 (enc3R 13 2 (d.toNat) (a.toNat) (b.toNat) (bcode push * 64 + bcode pop * 32 + bcode late * 16 + op.code)) = zz := Option.some.inj hz
  have hd := d.isLt
  have ha := a.isLt
  have hb := b.isLt
  have hm : bcode push * 64 + bcode pop * 32 + bcode late * 16 + op.code < 128 := by cases push <;> cases pop <;> cases late <;> cases op <;> decide
  have key : decD 2 (d.toNat) (a.toNat) (b.toNat) (bcode push * 64 + bcode pop * 32 + bcode late * 16 + op.code) = .ok (.mmac (reg d.toNat) (reg a.toNat) (reg b.toNat) push pop late op) := by cases push <;> cases pop <;> cases late <;> cases op <;> rfl
  simp only [reg_toNat] at key
  exact decodeWord_decD (by unfold Fits3R; omega) key hzz

theorem mfeed (a : Reg) (push : Bool) (pop : Bool) (mk : Bool) : Statement (.mfeed a push pop mk) := by
  intro zz hzz hz
  obtain rfl : BitVec.ofNat 32 (enc3R 13 3 0 (a.toNat) 0 (bcode push * 64 + bcode pop * 32 + bcode mk * 16)) = zz := Option.some.inj hz
  have ha := a.isLt
  have hm : bcode push * 64 + bcode pop * 32 + bcode mk * 16 < 128 := by cases push <;> cases pop <;> cases mk <;> decide
  have key : decD 3 0 (a.toNat) 0 (bcode push * 64 + bcode pop * 32 + bcode mk * 16) = .ok (.mfeed (reg a.toNat) push pop mk) := by cases push <;> cases pop <;> cases mk <;> rfl
  simp only [reg_toNat] at key
  exact decodeWord_decD (by unfold Fits3R; omega) key hzz

theorem mpull (d : Reg) (push : Bool) (pop : Bool) (mk : Bool) : Statement (.mpull d push pop mk) := by
  intro zz hzz hz
  obtain rfl : BitVec.ofNat 32 (enc3R 13 4 (d.toNat) 0 0 (bcode push * 64 + bcode pop * 32 + bcode mk * 16)) = zz := Option.some.inj hz
  have hd := d.isLt
  have hm : bcode push * 64 + bcode pop * 32 + bcode mk * 16 < 128 := by cases push <;> cases pop <;> cases mk <;> decide
  have key : decD 4 (d.toNat) 0 0 (bcode push * 64 + bcode pop * 32 + bcode mk * 16) = .ok (.mpull (reg d.toNat) push pop mk) := by cases push <;> cases pop <;> cases mk <;> rfl
  simp only [reg_toNat] at key
  exact decodeWord_decD (by unfold Fits3R; omega) key hzz

theorem vopacc (d : Reg) (a : Reg) (b : Reg) (push : Bool) (pop : Bool) (mk : Bool) (n1 : BitVec 3) : Statement (.vopacc d a b push pop mk n1) := by
  intro zz hzz hz
  obtain rfl : BitVec.ofNat 32 (enc3R 13 5 (d.toNat) (a.toNat) (b.toNat) (bcode push * 64 + bcode pop * 32 + bcode mk * 16 + n1.toNat)) = zz := Option.some.inj hz
  have hd := d.isLt
  have ha := a.isLt
  have hb := b.isLt
  have hn1 := n1.isLt
  cases push <;> cases pop <;> cases mk <;> rcases bv3_cases n1 with rfl | rfl | rfl | rfl | rfl | rfl | rfl | rfl <;> exact decodeWord_decD (by unfold Fits3R; simp only [bcode, Bool.false_eq_true, if_true, if_false]; omega) (by simp [decD, needResv, bit, bcode]) hzz

theorem xcopy (a : Reg) (push : Bool) (pop : Bool) : Statement (.xcopy a push pop) := by
  intro zz hzz hz
  obtain rfl : BitVec.ofNat 32 (enc3R 13 16 0 (a.toNat) 0 (bcode push * 64 + bcode pop * 32)) = zz := Option.some.inj hz
  have ha := a.isLt
  have hm : bcode push * 64 + bcode pop * 32 < 128 := by cases push <;> cases pop <;> decide
  have key : decD 16 0 (a.toNat) 0 (bcode push * 64 + bcode pop * 32) = .ok (.xcopy (reg a.toNat) push pop) := by cases push <;> cases pop <;> rfl
  simp only [reg_toNat] at key
  exact decodeWord_decD (by unfold Fits3R; omega) key hzz

theorem xred (a : Reg) (push : Bool) (pop : Bool) : Statement (.xred a push pop) := by
  intro zz hzz hz
  obtain rfl : BitVec.ofNat 32 (enc3R 13 17 0 (a.toNat) 0 (bcode push * 64 + bcode pop * 32)) = zz := Option.some.inj hz
  have ha := a.isLt
  have hm : bcode push * 64 + bcode pop * 32 < 128 := by cases push <;> cases pop <;> decide
  have key : decD 17 0 (a.toNat) 0 (bcode push * 64 + bcode pop * 32) = .ok (.xred (reg a.toNat) push pop) := by cases push <;> cases pop <;> rfl
  simp only [reg_toNat] at key
  exact decodeWord_decD (by unfold Fits3R; omega) key hzz

theorem strcfg (d : SlotReg) (a : Reg) (b : Reg) (push : Bool) (pop : Bool) (w : VWidth) : Statement (.strcfg d a b push pop w) := by
  intro zz hzz hz
  obtain rfl : BitVec.ofNat 32 (enc3R 13 24 (d.toNat) (a.toNat) (b.toNat) (bcode push * 64 + bcode pop * 32 + w.code)) = zz := Option.some.inj hz
  have hd := d.isLt
  have ha := a.isLt
  have hb := b.isLt
  cases push <;> cases pop <;> cases w <;> exact decodeWord_decD (by unfold Fits3R; simp only [bcode, VWidth.code, Bool.false_eq_true, if_true, if_false]; omega) (by simp [decD, needResv, withCode, withSlot, bit, bcode, VWidth.code, VWidth.ofCode, hd]) hzz

theorem vldS (d : Reg) (a : SlotReg) (push : Bool) (pop : Bool) (mk : Bool) : Statement (.vldS d a push pop mk) := by
  intro zz hzz hz
  obtain rfl : BitVec.ofNat 32 (enc3R 13 25 (d.toNat) (a.toNat) 0 (bcode push * 64 + bcode pop * 32 + bcode mk * 16)) = zz := Option.some.inj hz
  have hd := d.isLt
  have ha := a.isLt
  cases push <;> cases pop <;> cases mk <;> exact decodeWord_decD (by unfold Fits3R; simp only [bcode, Bool.false_eq_true, if_true, if_false]; omega) (by simp [decD, needResv, withSlot, bit, bcode, ha]) hzz

theorem tokpush (d : Reg) : Statement (.tokpush d) := by
  intro zz hzz hz
  obtain rfl : BitVec.ofNat 32 (enc3R 13 32 (d.toNat) 0 0 (0)) = zz := Option.some.inj hz
  have hd := d.isLt
  exact decodeWord_decD (by unfold Fits3R; omega) (by simp [decD, needResv]) hzz

theorem tokpop (d : Reg) : Statement (.tokpop d) := by
  intro zz hzz hz
  obtain rfl : BitVec.ofNat 32 (enc3R 13 33 (d.toNat) 0 0 (0)) = zz := Option.some.inj hz
  have hd := d.isLt
  exact decodeWord_decD (by unfold Fits3R; omega) (by simp [decD, needResv]) hzz

theorem viqPush (w : BitVec 32) : Statement (.viqPush w) := by
  intro w _ h
  cases (show none = some w from h)

theorem illegalWord (w : BitVec 32) (code : Nat) : Statement (.illegalWord w code) := by
  intro w _ h
  cases (show none = some w from h)

theorem fetchFault (addr : Word) (code : Nat) : Statement (.fetchFault addr code) := by
  intro w _ h
  cases (show none = some w from h)

theorem budgetExhausted (p : Nat) : Statement (.budgetExhausted p) := by
  intro w _ h
  cases (show none = some w from h)

theorem parkWake (p : Nat) (sup : Bool) : Statement (.parkWake p sup) := by
  intro w _ h
  cases (show none = some w from h)

theorem waitgeReread (p : Nat) (sup : Bool) : Statement (.waitgeReread p sup) := by
  intro w _ h
  cases (show none = some w from h)

theorem vectorStorePerformed (p : Nat) (slice : Nat) : Statement (.vectorStorePerformed p slice) := by
  intro w _ h
  cases (show none = some w from h)

theorem scalarStorePerformed (p : Nat) (sup : Bool) : Statement (.scalarStorePerformed p sup) := by
  intro w _ h
  cases (show none = some w from h)

theorem mxaCommand (c : Nat) : Statement (.mxaCommand c) := by
  intro w _ h
  cases (show none = some w from h)

theorem mxaCommandDone (c : Nat) : Statement (.mxaCommandDone c) := by
  intro w _ h
  cases (show none = some w from h)

theorem copyIssue (ce : Nat) (k : Nat) : Statement (.copyIssue ce k) := by
  intro w _ h
  cases (show none = some w from h)

theorem releasedAdd (ce : Nat) (k : Nat) : Statement (.releasedAdd ce k) := by
  intro w _ h
  cases (show none = some w from h)

theorem visibleAdd (ce : Nat) (k : Nat) : Statement (.visibleAdd ce k) := by
  intro w _ h
  cases (show none = some w from h)

theorem copyFailure (ce : Nat) (k : Nat) (code : Nat) (item : Nat) : Statement (.copyFailure ce k code item) := by
  intro w _ h
  cases (show none = some w from h)

theorem streamFetch (p : Nat) (k : Nat) : Statement (.streamFetch p k) := by
  intro w _ h
  cases (show none = some w from h)

theorem missReply (die : Nat) (line : Nat) : Statement (.missReply die line) := by
  intro w _ h
  cases (show none = some w from h)

theorem preemptDelivery (p : Nat) (k : Nat) : Statement (.preemptDelivery p k) := by
  intro w _ h
  cases (show none = some w from h)

theorem restoreSuspended (p : Nat) (va : Word) : Statement (.restoreSuspended p va) := by
  intro w _ h
  cases (show none = some w from h)

theorem launchCompletion (n : Nat) : Statement (.launchCompletion n) := by
  intro w _ h
  cases (show none = some w from h)

theorem prgResponse (die : Nat) (k : Nat) (ok : Bool) : Statement (.prgResponse die k ok) := by
  intro w _ h
  cases (show none = some w from h)

theorem claim (port : Nat) (req : Nat) (v : Word) : Statement (.claim port req v) := by
  intro w _ h
  cases (show none = some w from h)

theorem cmdProd (master : Nat) (v : Word) : Statement (.cmdProd master v) := by
  intro w _ h
  cases (show none = some w from h)

theorem registerBlockWrite (master : Nat) (off : Nat) (v : Word) : Statement (.registerBlockWrite master off v) := by
  intro w _ h
  cases (show none = some w from h)

theorem fflagsWrite (v : Word) : Statement (.fflagsWrite v) := by
  intro w _ h
  cases (show none = some w from h)

theorem vtypeWrite (v : Word) : Statement (.vtypeWrite v) := by
  intro w _ h
  cases (show none = some w from h)

theorem vlWrite (v : Word) : Statement (.vlWrite v) := by
  intro w _ h
  cases (show none = some w from h)

theorem fmaskWrite (v : Word) : Statement (.fmaskWrite v) := by
  intro w _ h
  cases (show none = some w from h)

theorem vdirtyWrite (v : Word) : Statement (.vdirtyWrite v) := by
  intro w _ h
  cases (show none = some w from h)

theorem shtcurWrite (v : Word) : Statement (.shtcurWrite v) := by
  intro w _ h
  cases (show none = some w from h)

theorem shtovfWrite (v : Word) : Statement (.shtovfWrite v) := by
  intro w _ h
  cases (show none = some w from h)

theorem pntbaseWrite (v : Word) : Statement (.pntbaseWrite v) := by
  intro w _ h
  cases (show none = some w from h)

theorem pfxsWrite (v : Word) : Statement (.pfxsWrite v) := by
  intro w _ h
  cases (show none = some w from h)

theorem peerTrainAck (p : Nat) (pkg : Nat) : Statement (.peerTrainAck p pkg) := by
  intro w _ h
  cases (show none = some w from h)

theorem dirtyEviction (die : Nat) (line : Nat) : Statement (.dirtyEviction die line) := by
  intro w _ h
  cases (show none = some w from h)

theorem hbmScrub (die : Nat) (sector : Nat) : Statement (.hbmScrub die sector) := by
  intro w _ h
  cases (show none = some w from h)

theorem unitGrant (core : Nat) (u : Nat) : Statement (.unitGrant core u) := by
  intro w _ h
  cases (show none = some w from h)

theorem atsInvalidation (va : Word) : Statement (.atsInvalidation va) := by
  intro w _ h
  cases (show none = some w from h)

theorem hostAccess (addr : Nat) (data : List Byte) : Statement (.hostAccess addr data) := by
  intro w _ h
  cases (show none = some w from h)

theorem launchPacket (data : List Byte) : Statement (.launchPacket data) := by
  intro w _ h
  cases (show none = some w from h)

theorem ringCons (master : Nat) (v : Word) : Statement (.ringCons master v) := by
  intro w _ h
  cases (show none = some w from h)

theorem submitLaunch (desc : Word) (report : Word) (cpl : Word) : Statement (.submitLaunch desc report cpl) := by
  intro w _ h
  cases (show none = some w from h)

theorem loadObject (addr : Word) (size : Word) (refusal : Word) (cpl : Word) : Statement (.loadObject addr size refusal cpl) := by
  intro w _ h
  cases (show none = some w from h)

theorem unload (handle : Word) (cpl : Word) : Statement (.unload handle cpl) := by
  intro w _ h
  cases (show none = some w from h)

theorem readDescriptor (handle : Word) (name : BitVec 192) (buf : Word) (cpl : Word) : Statement (.readDescriptor handle name buf cpl) := by
  intro w _ h
  cases (show none = some w from h)

theorem registerAsid (asid : Word) (root : Word) (cpl : Word) : Statement (.registerAsid asid root cpl) := by
  intro w _ h
  cases (show none = some w from h)

theorem defaultAsid (asid : Word) (cpl : Word) : Statement (.defaultAsid asid cpl) := by
  intro w _ h
  cases (show none = some w from h)

theorem clusterMask (mask : BitVec 128) (cpl : Word) : Statement (.clusterMask mask cpl) := by
  intro w _ h
  cases (show none = some w from h)

theorem suspendLaunch (n : Word) (cpl : Word) : Statement (.suspendLaunch n cpl) := by
  intro w _ h
  cases (show none = some w from h)

theorem terminateLaunch (n : Word) (cpl : Word) : Statement (.terminateLaunch n cpl) := by
  intro w _ h
  cases (show none = some w from h)

theorem resume (n : Word) (cpl : Word) : Statement (.resume n cpl) := by
  intro w _ h
  cases (show none = some w from h)

theorem invalidate (asid : Word) (va : Word) (extent : Word) (cpl : Word) : Statement (.invalidate asid va extent cpl) := by
  intro w _ h
  cases (show none = some w from h)

theorem readCounters (buf : Word) (flags : Word) (cpl : Word) : Statement (.readCounters buf flags cpl) := by
  intro w _ h
  cases (show none = some w from h)

theorem handOver (master : Word) (cpl : Word) : Statement (.handOver master cpl) := by
  intro w _ h
  cases (show none = some w from h)

theorem attest (nonce : BitVec 256) (buf : Word) (cpl : Word) : Statement (.attest nonce buf cpl) := by
  intro w _ h
  cases (show none = some w from h)

theorem restartCanvas (pscore : Word) (cpl : Word) : Statement (.restartCanvas pscore cpl) := by
  intro w _ h
  cases (show none = some w from h)

theorem stageCanvas (addr : Word) (size : Word) (cpl : Word) : Statement (.stageCanvas addr size cpl) := by
  intro w _ h
  cases (show none = some w from h)

theorem packageReset (image : List Byte) : Statement (.packageReset image) := by
  intro w _ h
  cases (show none = some w from h)

theorem bootOffer (pkg : Nat) (images : List Byte) : Statement (.bootOffer pkg images) := by
  intro w _ h
  cases (show none = some w from h)

theorem throttleStep (die : Nat) (up : Bool) : Statement (.throttleStep die up) := by
  intro w _ h
  cases (show none = some w from h)

theorem thermalTrip (die : Nat) : Statement (.thermalTrip die) := by
  intro w _ h
  cases (show none = some w from h)

theorem peerAccess (pkg : Nat) (addr : Nat) (data : List Byte) : Statement (.peerAccess pkg addr data) := by
  intro w _ h
  cases (show none = some w from h)

theorem fenceSv : Statement (.fenceSv) := by
  intro zz hzz hz
  obtain rfl : BitVec.ofNat 32 (enc3R 4 41 0 0 0 (0)) = zz := Option.some.inj hz
  exact decodeWord_dec4 (by unfold Fits3R; omega) (by simp [dec4, needResv]) hzz

theorem vdrain : Statement (.vdrain) := by
  intro zz hzz hz
  obtain rfl : BitVec.ofNat 32 (enc3R 4 42 0 0 0 (0)) = zz := Option.some.inj hz
  exact decodeWord_dec4 (by unfold Fits3R; omega) (by simp [dec4, needResv]) hzz

theorem lsync : Statement (.lsync) := by
  intro zz hzz hz
  obtain rfl : BitVec.ofNat 32 (enc3R 4 43 0 0 0 (0)) = zz := Option.some.inj hz
  exact decodeWord_dec4 (by unfold Fits3R; omega) (by simp [dec4, needResv]) hzz

theorem tret : Statement (.tret) := by
  intro zz hzz hz
  obtain rfl : BitVec.ofNat 32 (enc3R 5 9 0 0 0 (0)) = zz := Option.some.inj hz
  exact decodeWord_dec5 (by unfold Fits3R; omega) (by simp [dec5, needResv]) hzz

theorem join : Statement (.join) := by
  intro zz hzz hz
  obtain rfl : BitVec.ofNat 32 (enc3R 5 17 0 0 0 (0)) = zz := Option.some.inj hz
  exact decodeWord_dec5 (by unfold Fits3R; omega) (by simp [dec5, needResv]) hzz

theorem exit : Statement (.exit) := by
  intro zz hzz hz
  obtain rfl : BitVec.ofNat 32 (enc3R 5 20 0 0 0 (0)) = zz := Option.some.inj hz
  exact decodeWord_dec5 (by unfold Fits3R; omega) (by simp [dec5, needResv]) hzz

theorem icommit : Statement (.icommit) := by
  intro zz hzz hz
  obtain rfl : BitVec.ofNat 32 (enc3R 5 25 0 0 0 (0)) = zz := Option.some.inj hz
  exact decodeWord_dec5 (by unfold Fits3R; omega) (by simp [dec5, needResv]) hzz

theorem iabort : Statement (.iabort) := by
  intro zz hzz hz
  obtain rfl : BitVec.ofNat 32 (enc3R 5 26 0 0 0 (0)) = zz := Option.some.inj hz
  exact decodeWord_dec5 (by unfold Fits3R; omega) (by simp [dec5, needResv]) hzz

theorem placementScan : Statement (.placementScan) := by
  intro w _ h
  cases (show none = some w from h)

theorem eventRecord : Statement (.eventRecord) := by
  intro w _ h
  cases (show none = some w from h)

theorem linkDown : Statement (.linkDown) := by
  intro w _ h
  cases (show none = some w from h)

end RoundTrip
end Sys2Proof.Laws
end

