-- ==== Sys2Proof/Tests/Slice0.lean ====
section
/-! SUPPORT. Tests/Slice0.lean: small tests of the model against values that the spec gives, an ill-formed term for each check
of `Instr.check`, and for every obligation states and operands that meet its hypotheses (`witness_…`: the obligation is applied
to them). -/

set_option maxRecDepth 100000

namespace Sys2Proof.Tests

-- one theorem after another: their checks side by side take too much memory
set_option Elab.async false

open Sys2Proof.Machine Sys2Proof.Claims

/-! ## States -/

/-- A hart about to run the word at 0x1_0000, as after reset (log 9), with 0x1_0040 in x1. -/
def user : State := (State.reset.withFetchWord 32 0x100A6380).wx 1 0x10040

/-- Its supervisor thread executes. -/
def sup : State := { user with agent := .sup 0 }.wx 1 0x17FC0041000

/-- A supervisor thread with a trap in service. -/
def serving : State := { sup with sups := Tbl.set sup.sups 0 { sup.sup 0 with svc := true } }

/-- The MCC of cluster 0 executes; hart 0 belongs to its launch. -/
def mcc : State := { user with agent := .mcc 0 }

/-- The next state of a row, when it answers one. -/
def after (i : Instr) (s : State) : State :=
  match exec i s with
  | .next t => t
  | _ => s

/-- A VIQ entry of a word, with its captured operands. -/
def entry (i : Instr) (a b : Word) : VEntry :=
  ⟨i, 0x10000, none, a, b, 0, 0, 0, 0, 0, false, none, .fresh, 0, false, false, .zero⟩

/-- A word waits in the VIQ of the hart that executes. -/
def pushed (i : Instr) : State := user.updHart 0 (fun h => { h with viq := [entry i 0 0] })

/-- A prefix at 0x1_0000 waits for the word that follows it. -/
def prefixed : State := user.updHart 0 (fun h => { h with
  latch := some (⟨3, true, true, .v, 7⟩, 0x10000), thr := { h.thr with pc := 0x10004 } })

/-- An owner serves the system-call ring. -/
def owned : State := { user with peg := { user.peg with state := .owned, owner := 7 } }

/-- A computation answers this value. -/
def isOk {ε α : Type} [DecidableEq α] (x : Except ε α) (a : α) : Bool :=
  match x with
  | .ok b => decide (b = a)
  | .error _ => false

theorem ok_of_isOk {ε α : Type} [DecidableEq α] {x : Except ε α} {a : α} (h : isOk x a = true) : x = .ok a := by
  cases x with
  | ok b => rw [of_decide_eq_true h]
  | error e => cases h

/-! ## Scalar instructions -/

theorem witness_IntegerRegisterResults (h : Obligations.IntegerRegisterResults) :
    (∃ t, exec (.add 0 1 1) user = .next t ∧ t.rx 0 = 0) ∧ ∃ t, exec (.div 3 1 2) user = .next t ∧ (t.rx 3).toInt = 2 ^ 63 - 1 := by
  refine ⟨?_, ?_⟩
  · obtain ⟨t, ht, _, h0, _⟩ := h.1 (.add 0 1 1) user [1, 1] 0 _ rfl nofun ⟨rfl, rfl, rfl, rfl⟩
    exact ⟨t, ht, h0⟩
  · obtain ⟨q, r, qu, ru, hq, _, _, _, hv⟩ := h.2 user 3 1 2 nofun ⟨rfl, rfl, rfl, rfl⟩ (by decide)
    exact ⟨q, hq, hv.1⟩

theorem witness_ImmediateResults (h : Obligations.ImmediateResults) :
    (∃ t, exec (.pcadd 5 0x10) user = .next t) ∧ ∀ i, decodeWord 0x210A6043#32 ≠ .ok i := by
  obtain ⟨t, ht, _⟩ := h.1 (.pcadd 5 0x10) user [] 5 _ rfl nofun ⟨rfl, rfl, rfl, rfl⟩
  exact ⟨⟨t, ht⟩, h.2 0x210A6043#32 (by decide) (by decide) (by decide) (by decide)⟩

theorem witness_ControlTransfers (h : Obligations.ControlTransfers) :
    (∃ t, exec (.bne 1 0 0x7FFD) user = .next t) ∧ ∃ t, exec (.jalr 1 1 1) user = .next t := by
  obtain ⟨t, ht, _⟩ := h.1 (.bne 1 0 0x7FFD) user _ true _ rfl nofun ⟨rfl, rfl, rfl, rfl⟩
  obtain ⟨u, hu, _⟩ := h.2 (.jalr 1 1 1) user _ 1 _ rfl nofun ⟨rfl, rfl, rfl, rfl⟩
  exact ⟨⟨t, ht⟩, u, hu⟩

theorem witness_ScalarFloatResults (h : Obligations.ScalarFloatResults) : ∃ t, exec (.fmadd 4 5 6 true false .b32 .rne) user = .next t := by
  obtain ⟨t, ht, _⟩ := h (.fmadd 4 5 6 true false .b32 .rne) user _ _ _ rfl nofun ⟨rfl, rfl, rfl, rfl⟩
  exact ⟨t, ht⟩

/-- f2 holds a signalling binary32 NaN. -/
def nan : State := user.wf 2 0x7F800001

theorem witness_FloatOperandsAndExactResults (h : Obligations.FloatOperandsAndExactResults) :
    (∃ t, exec (.fdiv 3 1 2 .b32 .rne) nan = .next t) ∧ roundTo .e4m3 .rne true (FFmt.e4m3.decode 0x7E) = (0x7E, 0) ∧
    (∃ q, addX .rdn (.fin false 0 0) (.fin false 0 0) = (.fin true 0 q, 0)) ∧
    ∃ q, addX .rne (.fin true 1 0) (.fin false 1 0) = (.fin false 0 q, 0) := by
  obtain ⟨t, ht, _⟩ := h.1 (.fdiv 3 1 2 .b32 .rne) nan .b32 3 [1, 2] 0 rfl rfl ⟨rfl, rfl, rfl, rfl⟩ ⟨2, by decide, by decide⟩
  exact ⟨⟨t, ht⟩, h.2.1 .e4m3 .rne true 0x7E (by decide) ⟨_, _, _, rfl⟩, h.2.2.1 .rdn false false 0 0, h.2.2.2 .rne true 1 0 (by decide)⟩

/-! ## Scalar memory -/

/-- A load of the 8 bytes at 0x1_0040 to x4 that is not performed yet, and the choice that performs it. -/
def lateLoad : Late := ⟨false, 4, false, 8, .key (devKey 0x100040), 0x10040, 0, []⟩
def loading : State := { user.updHart 0 (fun h => { h with late := [lateLoad] }) with sched := [.late (.user 0) 8] }

/-- The launch of the hart has the L1 fusion flag, and the sector of 0x10_0400 is in L2 and in the L1D of core 1, where its line lies
(R205). The event counters select L1D hits and misses. -/
def fusedL1 : State := { user.updHart 0 (fun h => { h with evsel := 0x210020 }) with
  l1 := [(1, [⟨8200, 1, false⟩])], l2 := [(8200, (1, true))]
  cores := [(0, { user.vcore 0 with claims := [⟨1, 0, 0, 0⟩] })]
  peg := { user.peg with launches := user.peg.launches.map (fun l => { l with desc := { l.desc with fuse := true } }) } }

theorem witness_PlainLoads (h : Obligations.PlainLoads) : (∃ t, exec (.ldS8 4 1 0xFFF) user = .next t) ∧ (∃ t, step loading = .next t) ∧
    (∃ t, exec (.ldZ32 4 1 0x3C0) fusedL1 = .next t ∧ vget 0 (t.hart 0).evcnt 0 = vget 0 (fusedL1.hart 0).evcnt 0 + 1) ∧
    ∃ t, exec (.ldZ32 4 1 0) user = .next t ∧ HoldsSector t 0 16385 := by
  obtain ⟨h1, hc, h2, h3, h4⟩ := h
  have _ := h3 user (.at_ (devKey 0x10003F) .dev) (by simp)
  have _ := h4 user (.at_ (devKey 0x10003F) .dev) 1 trivial
  obtain ⟨u, hu, _⟩ := h2 loading (.user 0) lateLoad [] [] rfl rfl rfl rfl (by decide) (by decide)
  obtain ⟨t, ht, _⟩ := h1 (.ldS8 4 1 0xFFF) user 4 1 false 0xFFF 1 true (.at_ (devKey 0x10003F) .dev) rfl nofun ⟨rfl, rfl, rfl, rfl⟩ rfl rfl
  obtain ⟨v, hv, _, vh, _⟩ := hc (.ldZ32 4 1 0x3C0) fusedL1 0 4 1 false 0x3C0 4 false (devKey 0x100400) 1 rfl rfl ⟨rfl, rfl, rfl, rfl⟩ rfl
    rfl (by decide) rfl ⟨fun _ => rfl, fun h => absurd ⟨_, .head _, _, rfl, rfl⟩ h⟩ (fun _ => rfl)
  obtain ⟨w, hw, ws, _⟩ := hc (.ldZ32 4 1 0) user 0 4 1 false 0 4 false (devKey 0x100040) 0 rfl rfl ⟨rfl, rfl, rfl, rfl⟩ rfl
    rfl (by decide) rfl ⟨fun _ => rfl, fun _ => rfl⟩ (fun _ => rfl)
  exact ⟨⟨t, ht⟩, ⟨u, hu⟩, ⟨v, hv, (vh ⟨rfl, _, .head _, rfl, rfl⟩).1 0 (by decide) rfl⟩, w, hw, ws⟩

/-- The hart's scalar stores may wait. -/
def lazy_ : State := user.updHart 0 (fun h => { h with lazyS := true })

theorem witness_PlainStores (h : Obligations.PlainStores) :
    (∃ t, exec (.st16 4 1 2) user = .next t) ∧ ∃ t, exec (.st16 4 1 2) lazy_ = .next t := by
  obtain ⟨t, ht, _⟩ := (h (.st16 4 1 2) user 4 1 false 2 2 (.at_ (devKey 0x100042) .dev) rfl nofun rfl ⟨rfl, rfl, rfl, rfl⟩ rfl rfl).2
    user (devKey 0x100042) rfl rfl rfl
  obtain ⟨u, hu, _⟩ := (h (.st16 4 1 2) lazy_ 4 1 false 2 2 (.at_ (devKey 0x100042) .dev) rfl nofun rfl ⟨rfl, rfl, rfl, rfl⟩ rfl rfl).1 rfl
  exact ⟨⟨t, ht⟩, u, hu⟩

theorem witness_OrderedAndAtomicAccesses (h : Obligations.OrderedAndAtomicAccesses) :
    (∃ t, exec (.lda 4 1 .package .w64) user = .next t) ∧ (∃ t, exec (.stl 4 1 .core .w8) user = .next t) ∧
    ∃ t, exec (.cas 4 1 5 .acqRel .system .w32) user = .next t := by
  obtain ⟨t, ht, _⟩ := h.1.1 user 4 1 .package .w64 (.at_ (devKey 0x100040) .dev) nofun ⟨rfl, rfl, rfl, rfl⟩ rfl rfl rfl
  obtain ⟨u, hu, _⟩ := h.1.2 user user 4 1 .core .w8 (.at_ (devKey 0x100040) .dev) (devKey 0x100040) nofun rfl
    ⟨rfl, rfl, rfl, rfl⟩ rfl rfl rfl rfl
  obtain ⟨v, hv, _⟩ := h.2 (.cas 4 1 5 .acqRel .system .w32) user user 4 1 5 .system .w32 _ (.at_ (devKey 0x100040) .dev) (devKey 0x100040)
    rfl nofun rfl ⟨rfl, rfl, rfl, rfl⟩ rfl rfl (by simp) rfl rfl
  exact ⟨⟨t, ht⟩, ⟨u, hu⟩, v, hv⟩

theorem witness_FencesAndDrains (h : Obligations.FencesAndDrains) : (∃ t, exec (.fence .both .core) user = .next t) ∧
    (∃ t, exec .fenceSv user = .next t) ∧ (∃ t, exec .vdrain user = .next t) ∧ ∃ t, exec .lsync (pushed (.vld 1 1 .e32 false false .l2 true false)) = .next t := by
  obtain ⟨t, ht, _⟩ := h.1 user .both .core nofun rfl
  obtain ⟨u, hu, _⟩ := h.2.1 user nofun
  obtain ⟨v, hv, _⟩ := h.2.2.1 .vdrain user 0 rfl (.inl ⟨rfl, rfl⟩)
  obtain ⟨w, hw, _⟩ := h.2.2.2 (pushed (.vld 1 1 .e32 false false .l2 true false)) 0 rfl nofun
  exact ⟨⟨t, ht⟩, ⟨u, hu⟩, ⟨v, hv⟩, w, hw⟩

/-! ## CSRs and traps -/

theorem witness_CsrInstructions (h : Obligations.CsrInstructions) :
    exec (.csrw 3 1 0x101) user = .next (((user.updHart 0 (fun h => { h with frm := 0 })).wx 3 0).advance) :=
  h (.csrw 3 1 0x101) user _ 3 0x101 _ false 0 rfl rfl ⟨rfl, rfl, rfl, rfl⟩ ⟨fun _ => ⟨by decide, fun _ => by decide⟩, fun _ => .inl rfl⟩ rfl

theorem witness_CsrWritesReachTheirFields (h : Obligations.CsrWritesReachTheirFields) :
    (csrVal (user.updHart 0 (fun h => { h with fflags := 0x5 })) 0 0x100 = 5) ∧ (∃ t, exec (.vtypeWrite 0x1B) user = .next t) ∧
    (∃ t, exec (.pntbaseWrite 0x12345) sup = .next t) ∧ (∃ t, exec (.vlWrite 3) sup = .next t) ∧
    (∃ t, exec (.fmaskWrite 3) sup = .next t) ∧ (csrPut user true 0 0x103 3 = some user) ∧
    ∃ u, csrPut sup true 0 0x405 0x12345 = some u ∧ (u.vcore 0).pntbase = csrVal u 0 0x405 := by
  have h1 := (h.1.1 user (user.updHart 0 (fun h => { h with fflags := 0x5 })) false 0 0x100 0xFF 5 (by decide) rfl rfl).1
  have _ := h.1.2.1 user user false 0 0x000 5 (by decide) rfl
  have _ := h.1.2.2.1 user _ false 0 0 5 (by decide) rfl rfl
  have _ := h.1.2.2.2.1 user _ false 0 0x1B rfl rfl
  have h5 := h.1.2.2.2.2.1 user user 0 3 rfl
  have _ := (h.1.2.2.2.2.1 user _ 0 3 rfl).1 rfl
  have _ := (h.1.2.2.2.2.1 user _ 0 3 rfl).2.1 rfl
  have _ := (h.1.2.2.2.2.1 user _ 0 3 rfl).2.2.1 rfl
  have _ := h5.2.2.2 rfl
  have _ := h.1.2.2.2.2.2.1 user _ false 0 5 rfl rfl
  have h7 := (h.1.2.2.2.2.2.2 sup _ 0 0x12345 rfl).1
  obtain ⟨t, ht, _⟩ := (h.2.1 user 0 0x1B rfl rfl rfl).2.2.2.2.2.2 (by decide)
  obtain ⟨u, hu, _⟩ := (h.2.2 sup 0 0x12345 rfl).1
  obtain ⟨w, hw, _⟩ := ((h.2.2 sup 0 3 rfl).2 rfl rfl).2.2.1
  obtain ⟨v, hv, _⟩ := ((h.2.2 sup 0 3 rfl).2 rfl rfl).2.2.2 (by decide)
  exact ⟨h1, ⟨t, ht⟩, ⟨u, hu⟩, ⟨w, hw⟩, ⟨v, hv⟩, rfl, _, rfl, h7⟩

theorem witness_TrapAndPrivilegeCauses (h : Obligations.TrapAndPrivilegeCauses) :
    (∃ t, exec (.trap 7) user = .next t) ∧ ∃ t, exec .tret user = .next t := by
  obtain ⟨t, ht, _⟩ := h.1 user 0 7 ⟨rfl, rfl, rfl, rfl, rfl, rfl⟩
  obtain ⟨u, hu, _⟩ := h.2 .tret user 0 _ rfl rfl ⟨rfl, rfl, rfl, rfl, rfl, rfl⟩
  exact ⟨⟨t, ht⟩, u, hu⟩

theorem witness_DecodeCausesAndHaltedSupervisors (h : Obligations.DecodeCausesAndHaltedSupervisors) :
    (∃ t, exec (.illegalWord 0 1) user = .next t) ∧ (∃ t, exec (.illegalWord 0x100A6380 3) prefixed = .next t) ∧
    (∃ t, exec (.fetchFault 0x2000000000000000 causeNoncanon) user = .next t) ∧ ∃ t, exec (.trap 7) sup = .next t := by
  obtain ⟨t, ht, _⟩ := h.1.1 user 0 0 1 ⟨rfl, rfl, rfl, rfl, rfl, rfl⟩ (.inl rfl)
  obtain ⟨u, hu, _⟩ := h.1.2.1 prefixed 0 0x100A6380 _ ⟨3, true, true, .v, 7⟩ 0x10000 ⟨rfl, rfl, rfl, rfl, rfl, rfl⟩ rfl rfl
  obtain ⟨v, hv, _⟩ := h.1.2.2 user 0 0x2000000000000000 causeNoncanon ⟨rfl, rfl, rfl, rfl, rfl, rfl⟩ rfl (by decide)
  obtain ⟨w, hw, _⟩ := h.2 sup 0 7 rfl
  exact ⟨⟨t, ht⟩, ⟨u, hu⟩, ⟨v, hv⟩, w, hw⟩

/-- A PAGE trap at 0x2_0010 in service. -/
def paging : State := { sup with sups := Tbl.set sup.sups 0 { sup.sup 0 with svc := true, scause := 8, stval := 0x20010 } }

theorem witness_TretResumesTheUserThread (h : Obligations.TretResumesTheUserThread) :
    (∃ t, exec .tret serving = .next t) ∧ (∃ t, exec .tret sup = .next t) ∧
    ∃ t, exec .tret paging = .next t ∧ t.outstanding 0 = [(0, [2])] := by
  obtain ⟨t, ht, _⟩ := h.1 serving 0 rfl rfl rfl rfl rfl rfl rfl (by decide) rfl nofun
  obtain ⟨u, hu, _⟩ := h.2.1 sup 0 rfl rfl
  obtain ⟨_, _, v, hv, hp, _⟩ := h.2.2 paging 0 rfl rfl rfl rfl rfl rfl rfl rfl rfl nofun (by decide)
  exact ⟨⟨t, ht⟩, ⟨u, hu⟩, v, hv, hp⟩

theorem witness_SyscallEntersTheRing (h : Obligations.SyscallEntersTheRing) : ∃ t, exec (.syscall 8 1) owned = .next t := by
  obtain ⟨t, ht, _⟩ := h owned 0 8 1 (.at_ (devKey 0x100040) .dev) ⟨rfl, rfl, rfl, rfl, rfl, rfl⟩
    (show user.mem.wf = true by decide) ⟨rfl, rfl, rfl, rfl⟩ rfl rfl rfl rfl
  exact ⟨t, ht⟩

/-- Hart 0 parked on its line, which has been written; and parked on a cell, whose count has reached its target, 5. -/
def woken : State := (after (.park 1) user).poke (cellsAt (devKey 0x100048) (toBytes 1 1))
def reached : State := (after (.waitge 3 1 2) (user.wx 2 5)).poke (cellsAt (devKey 0x100040) (toBytes 8 5))

/-- Hart 0 parked on a cell whose count has not reached its target; the supervisor thread parked on a cell without an address. -/
def early : State := (after (.waitge 3 1 2) (user.wx 2 5)).poke (cellsAt (devKey 0x100040) (toBytes 8 4))
def lost : State := { (setPark sup (.sup 0) (some (.cell 3 0x3000000000000000 5))) with watches := [⟨true, 0, 2 ^ 64, none, none, true⟩] }

theorem witness_WaitingOnMemory (h : Obligations.WaitingOnMemory) : (∃ t, exec (.park 1) user = .next t) ∧
    (∃ t, exec (.waitge 3 1 2) user = .next t) ∧ (∃ t, exec (.parkWake 0 false) woken = .next t) ∧
    (∃ t, exec (.waitgeReread 0 false) reached = .next t) ∧ (∃ t, exec (.waitgeReread 0 false) early = .next t) ∧
    ∃ t, exec (.waitgeReread 0 true) lost = .next t := by
  obtain ⟨t, ht, _⟩ := h.1 user 0 false 1 (.at_ (devKey 0x100040) .dev) (.at_ (devKey 0x100040) .dev) rfl ⟨rfl, rfl, rfl, rfl⟩ rfl rfl
    (ok_of_isOk (by decide)) (ok_of_isOk (by decide))
  obtain ⟨u, hu, _⟩ := h.2.1 user 0 false 3 1 2 (devKey 0x100040) .dev rfl ⟨rfl, rfl, rfl, rfl⟩ rfl rfl rfl (.inl rfl)
  obtain ⟨v, hv, _⟩ := h.2.2.1 woken 0 false (by decide) rfl (by decide)
  obtain ⟨w, hw, _⟩ := h.2.2.2.1 reached 0 false 3 0x10040 5 (devKey 0x100040) .dev (by decide) rfl rfl (by decide) rfl (.inl rfl)
  obtain ⟨x, hx, _⟩ := h.2.2.2.1 early 0 false 3 0x10040 5 (devKey 0x100040) .dev (by decide) rfl rfl (by decide) rfl (.inl rfl)
  obtain ⟨y, hy, _⟩ := h.2.2.2.2 lost 0 true 3 0x3000000000000000 5 causeAccess false (by decide) rfl rfl rfl
  exact ⟨⟨t, ht⟩, ⟨u, hu⟩, ⟨v, hv⟩, ⟨w, hw⟩, ⟨x, hx⟩, y, hy⟩

/-! ## Splits, barriers, regions, launches, contexts -/

/-- Hart 0 has split into four; and three of the four children wait at their join, the fourth about to execute its own. -/
def four : State := after (.split 4) user
def joining : State := [0, 1, 2].foldl (fun s q => after .join { s with agent := .user q }) four
def lastJoin : State := { joining with agent := .user 3 }

theorem noBarriers_of {s : State} (h : s.harts.all (fun e => match e.2.park with
    | some (.bar _) => false
    | _ => true) = true) : NoBarriers s := by
  intro e he sc hp
  have := List.all_eq_true.mp h e he
  rw [hp] at this
  cases this

theorem witness_SplitMakesChildren (h : Obligations.SplitMakesChildren) :
    (∃ t, exec (.split 4) user = .next t) ∧ ∃ t, exec (.split 3) user = .next t := by
  obtain ⟨t, ht, _⟩ := h.1 user 0 4 rfl rfl rfl rfl
  obtain ⟨u, hu, _⟩ := h.2 user 0 1 3 ⟨rfl, rfl, rfl, rfl, rfl, rfl⟩ rfl
  exact ⟨⟨t, ht⟩, u, hu⟩

theorem witness_JoinReassemblesTheParent (h : Obligations.JoinReassemblesTheParent) :
    (∃ t, exec .join lastJoin = .next t) ∧ (∃ t, exec .join four = .next t) ∧ ∃ t, exec .join user = .next t := by
  obtain ⟨t, _, ht, _⟩ := h.1 lastJoin 3 _ rfl rfl rfl rfl (by decide) (by decide) rfl (noBarriers_of (by decide)) (by decide)
  obtain ⟨u, hu, _⟩ := h.2.1 four 0 _ rfl rfl rfl rfl rfl ⟨1, by decide, by decide, by decide⟩
  obtain ⟨v, hv, _⟩ := h.2.2 user 0 ⟨rfl, rfl, rfl, rfl, rfl, rfl⟩ rfl
  exact ⟨⟨t, ht⟩, ⟨u, hu⟩, v, hv⟩

/-- Hart 0 has opened a region; its budget is at 1, and is spent; and it has split into four there, of which child 1 executes. -/
def opened : State := after (.iopen 0) user
def lastOne : State := opened.updRegion 0 0 (fun g => { g with budget := 1 })
def spent : State := opened.updRegion 0 0 (fun g => { g with budget := 0, spent := some (0, 0x10008) })
def inner : State := { after (.split 4) opened with agent := .user 1 }

theorem opened_inRegion : ∃ g, InRegion opened 0 g ∧ opened.regionOf 0 = some g ∧ g.opener = 0 ∧ g.split = (opened.vcore 0).split ∧
    g.pennant = 0 :=
  ⟨_, ⟨rfl, rfl, ⟨rfl, .inl ⟨rfl, rfl, rfl⟩⟩, rfl⟩, rfl, rfl, rfl, rfl⟩

theorem inner_inRegion : ∃ g, InRegion inner 1 g ∧ g.opener = 0 :=
  ⟨_, ⟨rfl, rfl, ⟨rfl, .inr ⟨_, rfl, rfl, rfl, by decide, by decide, by decide⟩⟩, rfl⟩, rfl⟩

theorem witness_BarriersAndExits (h : Obligations.BarriersAndExits) : (∃ t, exec (.bar .core) user = .next t) ∧
    (∃ t, exec (.bar .core) four = .next t) ∧ (∃ t, exec .exit user = .next t) ∧ (∃ t, exec .exit four = .next t) ∧
    (∃ t, exec .exit opened = .next t) ∧ (∃ t, exec .exit inner = .next t) ∧ ∃ t, exec .exit mcc = .next t := by
  obtain ⟨t, ht, _⟩ := h.1 user 0 .core rfl rfl (by unfold OneHartEach; decide) rfl rfl
    (fun e he _ => by
      obtain rfl : e = (0, user.hart 0) := List.mem_singleton.mp he
      exact ⟨rfl, fun _ _ hr => absurd hr (by decide)⟩)
    (fun e he hne _ => absurd ((by decide : ∀ e ∈ user.harts, e.1 = 0) e he) hne)
    (fun l hl u hu => by obtain rfl : placedLaunch = l := Option.some.inj hl; cases hu)
  obtain ⟨u, hu, _⟩ := h.2.1 four 0 .core rfl rfl (noBarriers_of (by decide)) rfl ⟨(1, four.hart 1), by decide, by decide, rfl, rfl⟩
  obtain ⟨v, hv, _⟩ := h.2.2.1 user 0 rfl rfl rfl rfl rfl rfl (noBarriers_of (by decide))
  obtain ⟨c, hc, _⟩ := h.2.2.2.1 four 0 ⟨rfl, rfl, rfl, rfl, rfl, rfl⟩ rfl
  obtain ⟨g, hg, _⟩ := opened_inRegion
  obtain ⟨x, hx, _⟩ := h.2.2.2.2.1 opened 0 g _ hg rfl
  obtain ⟨k, hk, _⟩ := inner_inRegion
  obtain ⟨y, hy, _⟩ := h.2.2.2.2.1 inner 1 k _ hk rfl
  obtain ⟨w, hw, _⟩ := h.2.2.2.2.2 mcc 0 rfl
  exact ⟨⟨t, ht⟩, ⟨u, hu⟩, ⟨v, hv⟩, ⟨c, hc⟩, ⟨x, hx⟩, ⟨y, hy⟩, w, hw⟩

theorem witness_RegionsOpenAndSpendABudget (h : Obligations.RegionsOpenAndSpendABudget) : (∃ t, exec (.iopen 1) user = .next t) ∧
    (∃ t, exec (.iopen 1) opened = .next t) ∧ (∃ t, exec (.add 4 1 1) lastOne = .next t) ∧ (∃ t, exec (.pcadd 4 1) opened = .next t) ∧
    spent.runnable (.user 0) = false ∧ step spent = exec (.budgetExhausted 0) spent := by
  obtain ⟨t, _, ht, _⟩ := h.1.1 user 0 1 rfl ⟨rfl, rfl, rfl, rfl⟩ rfl rfl rfl
  obtain ⟨g, hg, _⟩ := opened_inRegion
  obtain ⟨u, hu, _⟩ := h.1.2 opened 0 1 g _ hg ⟨rfl, rfl, rfl, rfl⟩ rfl
  obtain ⟨v, _, hv, _⟩ := h.2.1 (.add 4 1 1) lastOne 0 [1, 1] 4 _ _ (.inl rfl) rfl ⟨rfl, rfl, rfl, rfl⟩ rfl
  obtain ⟨w, _, hw, _⟩ := h.2.1 (.pcadd 4 1) opened 0 [] 4 _ _ (.inr rfl) rfl ⟨rfl, rfl, rfl, rfl⟩ rfl
  exact ⟨⟨t, ht⟩, ⟨u, hu⟩, ⟨v, hv⟩, ⟨w, hw⟩, (h.2.2.1 spent 0 _ rfl rfl).1, h.2.2.2 spent 0 rfl rfl (by decide) (by decide) rfl⟩

theorem witness_AbandonedRegionsRestoreTheSnapshot (h : Obligations.AbandonedRegionsRestoreTheSnapshot) :
    (∃ t, exec .iabort opened = .next t) ∧ (∃ t, exec (.budgetExhausted 0) spent = .next t) ∧
    (∃ t, exec (.ld64 4 0 1) opened = .next t) ∧ (∃ t, exec (.illegalWord 7 1) opened = .next t) ∧ (∃ t, exec .tret opened = .next t) ∧
    (∃ t, exec (.trap 7) opened = .next t) ∧ (∃ t, exec (.syscall 4 1) opened = .next t) ∧ ∃ t, exec .icommit user = .next t := by
  obtain ⟨g, hg, hr, _⟩ := opened_inRegion
  obtain ⟨t, ht, _⟩ := h.1 opened 0 g rfl hr hg.harts
  obtain ⟨u, hu, _⟩ := h.2.1 spent 0 0 _ 0x10008 ⟨rfl, .inl ⟨rfl, rfl, rfl⟩⟩ rfl rfl (by decide) rfl rfl
  obtain ⟨v, hv, _⟩ := h.2.2.1 (.ld64 4 0 1) opened 0 g 4 0 false 1 8 8 false false rfl hg ⟨rfl, rfl, rfl, rfl⟩ rfl rfl
  have h4 := h.2.2.2.1 .tret opened 0 g
  obtain ⟨a, ha, _⟩ := (h4 7 hg).1
  obtain ⟨b, hb, _⟩ := (h4 _ hg).2 rfl rfl
  obtain ⟨c, hc, _⟩ := h.2.2.2.2.1 opened 0 g 7 hg
  obtain ⟨d, _, hd, _⟩ := h.2.2.2.2.2.1 opened 0 g 4 1 hg ⟨rfl, rfl, rfl, rfl⟩
  obtain ⟨w, hw, _⟩ := h.2.2.2.2.2.2 .icommit user 0 _ rfl rfl ⟨rfl, rfl, rfl, rfl, rfl, rfl⟩
  exact ⟨⟨t, ht⟩, ⟨u, hu⟩, ⟨v, hv⟩, ⟨a, ha⟩, ⟨b, hb⟩, ⟨c, hc⟩, ⟨d, hd⟩, w, hw⟩

theorem witness_IcommitCommits (h : Obligations.IcommitCommits) : (∃ t, exec .icommit opened = .next t) ∧
    ∃ t, exec .icommit inner = .next t := by
  obtain ⟨g, _, hr, ho, hs, _⟩ := opened_inRegion
  obtain ⟨t, _, ht, _⟩ := h.1 opened 0 g rfl hr ho (show user.mem.wf = true by decide) hs rfl rfl
  obtain ⟨k, hk, hz⟩ := inner_inRegion
  obtain ⟨u, hu, _⟩ := h.2 inner 1 k _ hk (.inl (by rw [hz]; decide)) rfl
  exact ⟨⟨t, ht⟩, u, hu⟩

/-- A sound launch descriptor at 0x1_0100 in x2, its object loaded (R309). -/
def submitting : State :=
  let bs := toBytes 8 0x10000 ++ toBytes 8 5 ++ toBytes 2 1 ++ toBytes 1 1 ++ toBytes 1 1 ++ toBytes 2 1 ++ toBytes 4 0 ++ toBytes 2 1 ++
    toBytes 4 512 ++ toBytes 8 0 ++ toBytes 8 0 ++ toBytes 4 1 ++ toBytes 4 0 ++ toBytes 8 0 ++ toBytes 8 0 ++ toBytes 8 0x10040
  { (user.wx 2 0x10100).poke (cellsAt (devKey 0x100100) bs) with
    peg := { user.peg with objects := [⟨5, [⟨0, 0x10000, 65536, true⟩], []⟩] } }

theorem witness_LaunchSubmits (h : Obligations.LaunchSubmits) :
    (∃ t, exec (.launch 9 2) submitting = .next t) ∧ (∃ t, exec (.launch 9 2) (user.wx 2 0x10100) = .next t) ∧
    ∃ t, exec (.launch 9 1) sup = .next t := by
  obtain ⟨t, ht, _⟩ := h.1 submitting 0 9 2 (.at_ (devKey 0x100100) .dev) 0 1 (devKey 0x100040) .dev rfl ⟨rfl, rfl, rfl, rfl⟩ rfl rfl
    (ok_of_isOk (by decide)) (by decide) (fun _ => ok_of_isOk (by decide)) (by decide) (fun hr => absurd rfl hr)
  obtain ⟨u, hu, _⟩ := h.1 (user.wx 2 0x10100) 0 9 2 (.at_ (devKey 0x100100) .dev) 1 0 0 .dev rfl ⟨rfl, rfl, rfl, rfl⟩ rfl rfl
    (ok_of_isOk (by decide)) (by decide) nofun (by decide) (fun hr => absurd rfl hr)
  obtain ⟨v, hv, _⟩ := h.2 sup 0 9 1 (.at_ (devKey 0x17FC0041000) .dev) 1 0 0 .dev rfl ⟨rfl, rfl, rfl, rfl⟩ rfl
    (ok_of_isOk (by decide)) (by decide) nofun (by decide)
  exact ⟨⟨t, ht⟩, ⟨u, hu⟩, v, hv⟩

/-- A trap in service after PREEMPT; the hart's image saved then; and the slot empty, its launch suspended. -/
def preempted : State := { serving with sups := Tbl.set serving.sups 0 { serving.sup 0 with scause := 21 } }
def saved : State := after (.ctxsave 5 1) preempted

theorem loaded_ok {x : Loaded} {f : State → Bool} (h : (match x with
    | .ok a => f a
    | _ => false) = true) : ∃ s, x = .ok s ∧ f s = true := by
  cases x with
  | ok a => exact ⟨a, rfl, h⟩
  | _ => cases h

theorem witness_ContextSaveAndLoad (h : Obligations.ContextSaveAndLoad) : (∃ t, exec (.ctxsave 5 1) preempted = .next t) ∧
    (∃ t, exec (.ctxload 5 1) saved = .next t) ∧ (∃ t, exec (.ctxload 5 2) (sup.wx 2 8) = .next t) ∧
    ∃ t, exec (.restoreSuspended 0 0x17FC0041000) saved = .next t := by
  obtain ⟨t, ht, _⟩ := h.1 preempted 0 5 1 _ rfl ⟨rfl, rfl, rfl, rfl⟩ (by decide) rfl rfl rfl rfl (.inr rfl) rfl rfl
  obtain ⟨s', hs, hl⟩ := loaded_ok (x := loadImage saved 0 0x17FC0041000)
    (f := fun a => match saved.launch? (a.hart 0).launch with
      | some l => l.suspended.any fun u => u.p == 0 && !u.byOwner && (saved.vcore 0).part == u.part
      | none => false) (by decide)
  obtain ⟨u, _, hu, _⟩ := h.2.1 saved s' 0 5 1 rfl ⟨rfl, rfl, rfl, rfl⟩ rfl
    (by rw [show saved.drainS (.sup 0) = saved from rfl, show (saved.rx 1).toNat = 0x17FC0041000 by decide]; exact hs)
  obtain ⟨v, hv, _⟩ := h.2.2.1 (.ctxload 5 2) (sup.wx 2 8) 0 5 2 (.inr rfl) rfl ⟨rfl, rfl, rfl, rfl⟩ (by decide)
  obtain ⟨w, _, hw, _⟩ := h.2.2.2 saved s' 0 0x17FC0041000 (by decide) hs (by
    cases hn : saved.launch? (s'.hart 0).launch with
    | none => rw [hn] at hl; cases hl
    | some l =>
      rw [hn] at hl
      obtain ⟨x, hx, hp⟩ := List.any_eq_true.mp hl
      simp only [Bool.and_eq_true, Bool.not_eq_true', beq_iff_eq] at hp
      exact ⟨l, rfl, ⟨x, hx, hp.1.1, hp.1.2, hp.2⟩, fun y _ _ _ _ => Nat.zero_le y.p⟩)
  exact ⟨⟨t, ht⟩, ⟨u, hu⟩, ⟨v, hv⟩, w, hw⟩

theorem witness_ContextImagesHoldTheUserState (h : Obligations.ContextImagesHoldTheUserState) :
    let s := pushed (.vld 1 1 .e32 false false .l2 true false)
    (imageHart s 0 (imageOf s 0)).thr.pc = (s.sup 0).sepc := by
  refine (h _ 0 ⟨.inl rfl, by decide, by decide, ⟨15, by decide⟩, by decide⟩ (by decide) (fun e he => ?_) (by decide)
    (fun _ => rfl) (by decide) (by decide) (by decide) (by decide) rfl rfl).2.2.1
  obtain rfl := List.mem_singleton.mp he
  exact ⟨⟨_, rfl, rfl, by decide, by decide⟩, rfl, nofun, nofun⟩

theorem witness_TlbinvRemovesTranslations (h : Obligations.TlbinvRemovesTranslations) : ∃ t, exec (.tlbinv 1 .page) sup = .next t := by
  obtain ⟨t, ht, _⟩ := h sup 0 1 .page rfl ⟨rfl, rfl, rfl, rfl⟩ (by unfold NothingWaits; decide)
  exact ⟨t, ht⟩

theorem witness_PrefixesWaitForTheirWord (h : Obligations.PrefixesWaitForTheirWord) : ∃ t, exec (.pfx 3 true true .v 7) user = .next t := by
  obtain ⟨t, ht, _⟩ := h user 0 3 true true .v 7 rfl
  exact ⟨t, ht⟩

/-! ## Vector words -/

/-- Hart 0's vector half at an entry, with VTYPE and VL; Reply Queue slot 3 awaits a value for x5, and the launch's claim is
64 KiB, its upper half for hash tables. -/
def atWord (e : VEntry) (vt : BitVec 9) (vl : BitVec 16) : State :=
  { user with
    agent := .vec 0
    harts := [(0, { user.hart 0 with
      viq := [e], vtype := vt, vl := vl, replies := vset (Vector.replicate 16 none) 3 (some ⟨false, 5, none, none⟩) })]
    cores := [(0, { user.vcore 0 with claims := [⟨1, 0, 65536, 32768⟩] })] }

theorem atWord_head (e : VEntry) (vt : BitVec 9) (vl : BitVec 16) (h : e.needs = 0 ∧ e.joined = false ∧ e.bad = false ∧ e.done = .zero) (ht : vtypeOk vt.toNat = true)
    (hl : vl.toNat ≤ vlmaxOf user 0 vt) : AtHead (atWord e vt vl) 0 e :=
  ⟨rfl, rfl, h.1, h.2.1, rfl, rfl, h.2.2.1, h.2.2.2, nofun, ⟨.inl rfl, Nat.zero_lt_one, ⟨15, by decide, rfl⟩, ht, hl,
    show 1 ≤ (user.hart 0).rows.toNat by decide, show (user.hart 0).rows.toNat ≤ 8 by decide⟩⟩

theorem fits_of {c : VCtx} {d n : Nat} (h : d + n ≤ 32) (hc : c.copy .v = none) : Fits c d n :=
  ⟨h, fun x hx => by rw [hc] at hx; cases hx⟩

/-- The entry of a word that replies through slot 3. -/
def asking (i : Instr) (a b : Word) : VEntry := { entry i a b with slot := some 3 }

theorem witness_VectorWordsArePushed (h : Obligations.VectorWordsArePushed) :
    (∃ t, exec (.vadd 1 2 3 false false) (pushed (.vadd 1 2 3 false false)) = .next t) ∧
    (∃ t e, Pushed user t 0 (.vadd 1 2 3 false false) e) ∧ ∃ t, exec (.viqPush 0x70022180) user = .next t := by
  have hw : UserPushes (.vadd 1 2 3 false false) := ⟨0x70022180, rfl, by decide, by decide, rfl⟩
  obtain ⟨t, _, ht, _⟩ := h.1 _ (pushed (.vadd 1 2 3 false false)) 0 hw rfl ⟨rfl, rfl, rfl, rfl⟩ rfl rfl nofun
  obtain ⟨u, e, hu, _⟩ := h.2.1 _ user 0 hw rfl ⟨rfl, rfl, rfl, rfl⟩ rfl rfl rfl rfl rfl
  obtain ⟨v, _, hv, _⟩ := h.2.2 0x70022180 (.vadd 1 2 3 false false) user 0 (by decide) (by decide) rfl rfl ⟨rfl, rfl, rfl, rfl⟩ rfl rfl
  exact ⟨⟨t, ht⟩, ⟨u, e, hu⟩, v, hv⟩

theorem witness_LengthAndMaskInstructions (h : Obligations.LengthAndMaskInstructions) :
    (∃ s t, exec (.setvl 5 6 0x1B) s = .next t) ∧ (∃ s t, exec (.setshape 5 6 7) s = .next t) ∧
    (∃ s t, exec (.vmand 1 2 3 false) s = .next t) ∧ (∃ s t, exec (.vpopc 5 1 false) s = .next t) ∧
    (∃ s t, exec (.vmspan 1 2 false .thru) s = .next t) ∧ ∃ s t, exec (.vmrank 4 1 false true) s = .next t := by
  let s (i : Instr) : State := atWord (entry i 9 2) 0x05 5
  have hs (i : Instr) : AtHead (s i) 0 (entry i 9 2) := atWord_head _ _ _ ⟨rfl, rfl, rfl, rfl⟩ rfl (by decide)
  obtain ⟨t, ht, _⟩ := h.1.1 (s (.setvl 5 6 0x1B)) 0 _ 5 6 0x1B (hs _) rfl rfl
  obtain ⟨u, hu, _⟩ := h.1.2 (s (.setshape 5 6 7)) 0 _ 5 6 7 (hs _) rfl
  obtain ⟨v, hv, _⟩ := h.2.1 (.vmand 1 2 3 false) (s (.vmand 1 2 3 false)) 0 _ 1 2 3 _ rfl (hs _) rfl
  obtain ⟨w, hw, _⟩ := (h.2.2.1 (atWord (asking (.vpopc 5 1 false) 0 0) 0x05 5) 0 _ 5 1 false
    (atWord_head _ _ _ ⟨rfl, rfl, rfl, rfl⟩ rfl (by decide)) ⟨3, _, by decide, rfl, rfl⟩).1
  obtain ⟨x, hx, _⟩ := h.2.2.2.1 (s (.vmspan 1 2 false .thru)) 0 _ 1 2 false .thru (hs _) rfl
  obtain ⟨y, hy, _⟩ := h.2.2.2.2 (s (.vmrank 4 1 false true)) 0 _ 4 1 false true (hs _) rfl (fits_of (by decide) rfl)
  exact ⟨⟨_, t, ht⟩, ⟨_, u, hu⟩, ⟨_, v, hv⟩, ⟨_, w, hw⟩, ⟨_, x, hx⟩, _, y, hy⟩

theorem witness_VectorIntegerInstructions (h : Obligations.VectorIntegerInstructions) :
    (∃ s t, exec (.vsadd 1 2 3 false true false) s = .next t) ∧ (∃ s t, exec (.vcmp 1 2 9 false true false .gt) s = .next t) ∧
    (∃ s t, exec (.vmerge 1 2 3 true false) s = .next t) ∧ (∃ s t, exec (.vmv 31 2 false true) s = .next t) ∧
    (∃ s t, exec (.vmvX 5 3 4 false) s = .next t) ∧ (∃ s t, exec (.vwmul 30 2 3 false false true) s = .next t) ∧
    (∃ s t, exec (.vnarrow 1 30 false true false) s = .next t) ∧ ∃ s t, exec (.vext 1 4 false .x8 true) s = .next t := by
  let s (i : Instr) : State := atWord (entry i 9 2) 0x04 5
  have hs (i : Instr) : AtHead (s i) 0 (entry i 9 2) := atWord_head _ _ _ ⟨rfl, rfl, rfl, rfl⟩ rfl (by decide)
  obtain ⟨t, ht, _⟩ := h.1 (.vsadd 1 2 3 false true false) (s (.vsadd 1 2 3 false true false)) 0 _ 1 2 3 true _ rfl (hs _) rfl
    (fits_of (by decide) rfl) (by decide) (.inl rfl)
  obtain ⟨u, hu, _⟩ := h.2.1 (s (.vcmp 1 2 9 false true false .gt)) 0 _ 1 2 9 false true false .gt (hs _) rfl
  obtain ⟨v, hv, _⟩ := h.2.2.1 (s (.vmerge 1 2 3 true false)) 0 _ 1 2 3 true false (hs _) rfl (fits_of (by decide) rfl) (by decide)
    (.inr (by decide))
  obtain ⟨w, hw, _⟩ := h.2.2.2.1 (s (.vmv 31 2 false true)) 0 _ 31 2 false true (hs _) rfl (fits_of (by decide) rfl) (.inl rfl)
  obtain ⟨x, hx, _⟩ := h.2.2.2.2.1 (atWord (asking (.vmvX 5 3 4 false) 0 4) 0x04 5) 0 _ 5 3 4 false
    (atWord_head _ _ _ ⟨rfl, rfl, rfl, rfl⟩ rfl (by decide)) ⟨3, _, by decide, rfl, rfl⟩
  obtain ⟨y, hy, _⟩ := h.2.2.2.2.2.1 (.vwmul 30 2 3 false false true) (s (.vwmul 30 2 3 false false true)) 0 _ 30 2 3 false true _ false
    (.inr ⟨rfl, rfl⟩) (hs _) rfl (by decide) (fits_of (by decide) rfl) (by decide) (fun _ => by decide)
  obtain ⟨z, hz, _⟩ := h.2.2.2.2.2.2.1 (s (.vnarrow 1 30 false true false)) 0 _ 1 30 false true false (hs _) rfl (by decide)
    (fits_of (by decide) rfl) (by decide) (by decide)
  obtain ⟨r, hr, _⟩ := h.2.2.2.2.2.2.2 (s (.vext 1 4 false .x8 true)) 0 _ 1 4 false true .x8 (hs _) rfl (by decide) (by decide)
    (fits_of (by decide) rfl)
  exact ⟨⟨_, t, ht⟩, ⟨_, u, hu⟩, ⟨_, v, hv⟩, ⟨_, w, hw⟩, ⟨_, x, hx⟩, ⟨_, y, hy⟩, ⟨_, z, hz⟩, _, r, hr⟩

/-- The word at the VIQ head, with three elements of a VTYPE and captured operands 9 and 2; and one that replies. -/
def running (vt : BitVec 9) (i : Instr) : State := atWord (entry i 9 2) vt 3
def replying (vt : BitVec 9) (i : Instr) : State := atWord (asking i 9 2) vt 3

theorem witness_FloatElements (h : Obligations.FloatElements) :
    (∃ s t, exec (.vfmadd 2 4 6 false true false true .rne) s = .next t) ∧ ∃ s t, exec (.vfmin 2 4 6 true false) s = .next t := by
  have hs (i : Instr) : AtHead (running 0x14 i) 0 (entry i 9 2) := atWord_head _ _ _ ⟨rfl, rfl, rfl, rfl⟩ rfl (by decide)
  obtain ⟨t, ht, _⟩ := h (.vfmadd 2 4 6 false true false true .rne) (running 0x14 (.vfmadd 2 4 6 false true false true .rne)) 0 _ _ _ _ (hs _) rfl rfl
    (.inl rfl) (fits_of (by decide) rfl) (by decide)
  obtain ⟨u, hu, _⟩ := h (.vfmin 2 4 6 true false) (running 0x14 (.vfmin 2 4 6 true false)) 0 _ _ _ _ (hs _) rfl rfl
    (.inl rfl) (fits_of (by decide) rfl) (by decide)
  exact ⟨⟨_, t, ht⟩, _, u, hu⟩

theorem witness_FloatComparisonsAndConversions (h : Obligations.FloatComparisonsAndConversions) :
    (∃ s t, exec (.vfcmp 1 2 3 false true .lt) s = .next t) ∧ (∃ s t, exec (.vfexp2 1 2 false .dyn) s = .next t) ∧
    (∃ s t, exec (.vfcvt 1 2 false (.code 13) .sr) s = .next t) ∧ (∃ s t, exec (.vquant 2 8 false (.code 13) .rne) s = .next t) ∧
    ∃ s t, exec (.vmxdot 2 8 9 false true true) s = .next t := by
  have hs (i : Instr) : AtHead (running 0x14 i) 0 (entry i 9 2) := atWord_head _ _ _ ⟨rfl, rfl, rfl, rfl⟩ rfl (by decide)
  have hq (i : Instr) : AtHead (running 0x22 i) 0 (entry i 9 2) := atWord_head _ _ _ ⟨rfl, rfl, rfl, rfl⟩ rfl (by decide)
  have hb (i : Instr) : AtHead (running 0x1B i) 0 (entry i 9 2) := atWord_head _ _ _ ⟨rfl, rfl, rfl, rfl⟩ rfl (by decide)
  obtain ⟨t, ht, _⟩ := h.1 (running 0x14 (.vfcmp 1 2 3 false true .lt)) 0 _ 1 2 3 false true .lt (hs _) rfl (.inl rfl)
  obtain ⟨u, hu, _⟩ := h.2.1 (.vfexp2 1 2 false .dyn) (running 0x14 (.vfexp2 1 2 false .dyn)) 0 _ 1 2 .dyn _ rfl (hs _) rfl (.inl rfl)
    (fits_of (by decide) rfl)
  obtain ⟨v, hv, _⟩ := h.2.2.1 (running 0x1B (.vfcvt 1 2 false (.code 13) .sr)) 0 _ 1 2 false (.code 13) .sr (hb _) rfl
    ⟨fun hi => absurd hi (by decide), fun _ _ => nofun, by decide, fun _ => by decide, by decide⟩ (fits_of (by decide) rfl)
  obtain ⟨w, hw, _⟩ := h.2.2.2.1 (running 0x22 (.vquant 2 8 false (.code 13) .rne)) 0 _ 2 8 false (.code 13) .rne (hq _) rfl (.inl rfl)
    (by decide) (fun _ => by decide) (by decide) (by decide) (fits_of (by decide) rfl) nofun
  obtain ⟨x, hx, _⟩ := h.2.2.2.2 (running 0x22 (.vmxdot 2 8 9 false true true)) 0 _ 2 8 9 false true true (hq _) rfl rfl (by decide) (by decide)
    (by decide) (fits_of (by decide) rfl)
  exact ⟨⟨_, t, ht⟩, ⟨_, u, hu⟩, ⟨_, v, hv⟩, ⟨_, w, hw⟩, _, x, hx⟩

theorem witness_ReductionsPermutationsAndSearches (h : Obligations.ReductionsPermutationsAndSearches) :
    (∃ s t, exec (.vredsum 1 2 3 false true .satS) s = .next t) ∧ (∃ s t, exec (.vfredsum 1 2 3 false false) s = .next t) ∧ (∃ s t, exec (.vslideup 1 2 3 false) s = .next t) ∧
    ∃ s t, exec (.vscan 1 2 false .sum) s = .next t := by
  have hs (i : Instr) : AtHead (running 0x05 i) 0 (entry i 9 2) := atWord_head _ _ _ ⟨rfl, rfl, rfl, rfl⟩ rfl (by decide)
  obtain ⟨t, ht, _⟩ := h.1.1 (.vredsum 1 2 3 false true .satS) (running 0x05 (.vredsum 1 2 3 false true .satS)) 0 _ 1 2 3 true false _ (hs _) rfl rfl nofun
    (fits_of (by decide) rfl)
  obtain ⟨x, hx, _⟩ := h.1.2.1 (running 0x14 (.vfredsum 1 2 3 false false)) 0 _ 1 2 3 false false
    (atWord_head _ _ _ ⟨rfl, rfl, rfl, rfl⟩ rfl (by decide)) rfl (.inl rfl) (fits_of (by decide) rfl)
  obtain ⟨u, hu, _⟩ := h.1.2.2.1 (.vslideup 1 2 3 false) (running 0x05 (.vslideup 1 2 3 false)) 0 _ 1 2 _ (hs _) rfl rfl (fits_of (by decide) rfl)
  obtain ⟨v, hv, _⟩ := h.1.2.2.2 (running 0x05 (.vscan 1 2 false .sum)) 0 _ 1 2 false .sum (hs _) rfl (by decide) (fits_of (by decide) rfl)
  exact ⟨⟨_, t, ht⟩, ⟨_, x, hx⟩, ⟨_, u, hu⟩, _, v, hv⟩

theorem witness_ReductionsPermutationsAndSearches_searches (h : Obligations.ReductionsPermutationsAndSearches) :
    (∃ s t, exec (.vrand 1 2 3 false true) s = .next t) ∧ (∃ s t, exec (.vargmax 5 2 false) s = .next t) ∧
    (∃ s t, exec (.vsample 5 2 3 false true) s = .next t) ∧ ∃ s t, exec (.vgmax 5 2 4 false) s = .next t := by
  have hs (i : Instr) : AtHead (replying 0x14 i) 0 (asking i 9 2) := atWord_head _ _ _ ⟨rfl, rfl, rfl, rfl⟩ rfl (by decide)
  have ha (i : Instr) : Awaits (replying 0x14 i) 0 (asking i 9 2) := ⟨3, _, by decide, rfl, rfl⟩
  obtain ⟨t, ht, _⟩ := h.2.1 (atWord (entry (.vrand 1 2 3 false true) 9 2) 0x14 2) 0 _ 1 2 3 false true
    (atWord_head _ _ _ ⟨rfl, rfl, rfl, rfl⟩ rfl (by decide)) rfl ⟨rfl, rfl⟩ (fits_of (by decide) rfl)
  obtain ⟨u, _, _, hu, _⟩ := h.2.2.1 (replying 0x14 (.vargmax 5 2 false)) 0 _ 5 2 false (hs _) (ha _) (by decide) (by decide)
  obtain ⟨v, hv, _⟩ := h.2.2.2.1 (replying 0x14 (.vsample 5 2 3 false true)) 0 _ 5 2 3 false true (hs _) (ha _) rfl rfl
  obtain ⟨w, _, _, hw, _⟩ := h.2.2.2.2 (replying 0x14 (.vgmax 5 2 4 false)) 0 _ 5 2 4 false (hs _) (ha _) (.inl ⟨rfl, rfl⟩)
  exact ⟨⟨_, t, ht⟩, ⟨_, u, hu⟩, ⟨_, v, hv⟩, _, w, hw⟩

theorem witness_TreeInstructions (h : Obligations.TreeInstructions) : ∃ s t, exec (.tup 1 2 3 false .sum) s = .next t := by
  obtain ⟨t, ht, _⟩ := h (.tup 1 2 3 false .sum) (atWord (entry (.tup 1 2 3 false .sum) 0 0) 0x05 3) 0 _ true (some 1) _ _
    (atWord_head _ _ _ ⟨rfl, rfl, rfl, rfl⟩ rfl (by decide)) rfl rfl (by decide) (fun _ => by decide)
    (fun r hr => by cases hr; exact fits_of (by decide) rfl) nofun nofun
  exact ⟨_, t, ht⟩

/-- Nodes 0 and 1 of the forest in t2 are each other's parents; VTYPE.CYC is set. -/
def cycling : State :=
  let s := atWord (entry (.tup 1 2 3 false .sum) 0 0) 0x105 3
  { s with cores := [(0, { s.vcore 0 with t := vset (s.vcore 0).t 2 1 })] }

theorem cycling_head : AtHead cycling 0 (entry (.tup 1 2 3 false .sum) 0 0) :=
  ⟨rfl, rfl, rfl, rfl, rfl, rfl, rfl, rfl, nofun, ⟨.inl rfl, Nat.zero_lt_one, ⟨15, by decide, rfl⟩, show vtypeOk (0x105#9).toNat = true by decide,
    show 3 ≤ vlmaxOf user 0 0x105 by decide, show 1 ≤ (user.hart 0).rows.toNat by decide, show (user.hart 0).rows.toNat ≤ 8 by decide⟩⟩

theorem witness_VectorStreamCauses (h : Obligations.VectorStreamCauses) :
    (∃ s t, exec (.vext 1 1 false .x8 true) s = .next t) ∧ (∃ s t, exec (.vfadd 1 2 3 false false .rne) s = .next t) ∧ ∃ s t, exec (.tup 1 2 3 false .sum) s = .next t := by
  obtain ⟨t, ht, _⟩ := h.1 (.vext 1 1 false .x8 true) (running 0x05 (.vext 1 1 false .x8 true)) 0 _
    (atWord_head _ _ _ ⟨rfl, rfl, rfl, rfl⟩ rfl (by decide)) ⟨rfl, rfl, rfl, rfl, rfl⟩ rfl
  obtain ⟨v, hv, _⟩ := h.1 (.vfadd 1 2 3 false false .rne) (running 0x22 (.vfadd 1 2 3 false false .rne)) 0 _
    (atWord_head _ _ _ ⟨rfl, rfl, rfl, rfl⟩ rfl (by decide)) ⟨rfl, rfl, rfl, rfl, rfl⟩ (.inr (.inl (by decide)))
  obtain ⟨_, u, _, hu, _⟩ := h.2 (.tup 1 2 3 false .sum) cycling 0 _ true (some 1) _ _ cycling_head ⟨rfl, rfl, rfl, rfl, rfl⟩ rfl rfl (by decide) (fun _ => by decide)
    (fun r hr => by cases hr; exact fits_of (by decide) rfl) nofun rfl (by decide)
  exact ⟨⟨_, t, ht⟩, ⟨_, v, hv⟩, _, u, hu⟩

theorem witness_DoublingFindsRoots (h : Obligations.DoublingFindsRoots) : (resolve 0 [0xFFFF, 0]).root 1 = climb 0 [0xFFFF, 0] 1 1 :=
  ((h 0 [0xFFFF, 0] 1 (by decide)).2 (by decide)).1

/-! ## Vector memory -/

theorem all_ok {ε α : Type} [DecidableEq α] {l : List Nat} {f : Nat → Except ε α} {g : Nat → α}
    (h : l.all (fun k => isOk (f k) (g k)) = true) : ∀ k ∈ l, f k = .ok (g k) :=
  fun k hk => ok_of_isOk (List.all_eq_true.mp h k hk)

theorem below_ok {ε α : Type} [DecidableEq α] {l : List Nat} {n : Nat} {f : Nat → Except ε α} {g : Nat → α}
    (h : l.all (fun k => decide (n ≤ k) || isOk (f k) (g k)) = true) : ∀ k ∈ l, k < n → f k = .ok (g k) := by
  intro k hk hn
  have := List.all_eq_true.mp h k hk
  rw [decide_eq_false (by omega), Bool.false_or] at this
  exact ok_of_isOk this

theorem somewhere_ok {l : List Nat} {f : Nat → Except AFail Place} {key : Nat → Nat} (loc : Loc)
    (h : l.all (fun k => isOk (f k) (.at_ (key k) loc)) = true) : ∀ k ∈ l, ∃ l, f k = .ok (.at_ (key k) l) :=
  fun k hk => ⟨loc, all_ok (g := fun k => Place.at_ (key k) loc) h k hk⟩

theorem never_waits {l : List Nat} {f : Nat → Except AFail Place}
    (h : l.all (fun k => match f k with
      | .error .wait => false
      | _ => true) = true) : ∀ k ∈ l, f k ≠ .error .wait := by
  intro k hk e
  have := List.all_eq_true.mp h k hk
  simp [e] at this

/-- The word at the VIQ head with two e64 elements and captured operands, its hart's stores lazy or not. -/
def atMemory (i : Instr) (a b : Word) : State := atWord (entry i a b) 0x05 2
def lazily (i : Instr) (a b : Word) : State := (atMemory i a b).updHart 0 (fun h => { h with lazyV := true })

theorem atMemory_head (i : Instr) (a b : Word) : MemHead (atMemory i a b) 0 (entry i a b) :=
  ⟨atWord_head _ _ _ ⟨rfl, rfl, rfl, rfl⟩ rfl (by decide), nofun, rfl⟩

theorem lazily_head (i : Instr) (a b : Word) : MemHead (lazily i a b) 0 (entry i a b) :=
  ⟨⟨rfl, rfl, rfl, rfl, rfl, rfl, rfl, rfl, nofun, ⟨.inl rfl, Nat.zero_lt_one, ⟨15, by decide, rfl⟩, show vtypeOk (5#9).toNat = true by decide, show 2 ≤ vlmaxOf user 0 0x05 by decide,
    show 1 ≤ (user.hart 0).rows.toNat by decide, show (user.hart 0).rows.toNat ≤ 8 by decide⟩⟩, nofun, rfl⟩

/-- The launch of hart 0 has one tent of a 4 KiB tile: its entry at frame 0x10_8000 + 0, present with tag 6 at frame 0x10_0000. -/
def tented (s : State) (w : Nat) : State :=
  { s.poke (cellsAt (devKey 0x108000) (toBytes 8 w)) with
    peg := { s.peg with launches := s.peg.launches.map (fun l =>
      { l with tents := [⟨0, 2, 4096, 7, 0, [0x109000], 4, 0, [0x108000]⟩] }) } }

theorem tented_head (i : Instr) (a b : Word) (w : Nat) : MemHead (tented (atMemory i a b) w) 0 (entry i a b) := by
  refine ⟨⟨?_, ?_, ?_, ?_, ?_, ?_, ?_, ?_, ?_, ⟨?_, ?_, ?_, ?_, ?_, ?_⟩⟩, ?_, rfl⟩
  · rfl
  · rfl
  · rfl
  · rfl
  · rfl
  · rfl
  · rfl
  · rfl
  · exact nofun
  · exact .inl rfl
  · exact Nat.zero_lt_one
  · exact ⟨15, by decide, rfl⟩
  · exact show vtypeOk (5#9).toNat = true by decide
  · exact show 2 ≤ vlmaxOf user 0 0x05 by decide
  · exact show 1 ≤ (user.hart 0).rows.toNat ∧ (user.hart 0).rows.toNat ≤ 8 by decide
  · exact nofun

def expand : Instr := .vld 1 2 .sew false false .dflt false true
def expanding : State := tented (atMemory expand 0x3000000000000000 0) (2 ^ 63 + 6 * 2 ^ 59 + 0x100000)

/-- A first-fault load, executed again after its trap; one whose first element fails; and one whose second fails. -/
def firstFault : Instr := .vldff 1 2 .sew false false .dflt false false
def replayed (i : Instr) (a b : Word) : State := atWord { entry i a b with st := .replay } 0x05 2

theorem expand_tile : (vctx expanding 0 (entry expand 0x3000000000000000 0) expand).baseTile (expanding.drainV 0) =
    .tile ⟨6, 4096, 0x100000, 0⟩ := rfl

theorem expand_noWait {u : State} (hu : u = expanding.drainV 0) (w : Nat) :
    NoWait (vctx expanding 0 (entry expand 0x3000000000000000 0) expand) expanding u .unit w true := by
  subst hu
  unfold NoWait
  rw [expand_tile, show (tagOf (vctx expanding 0 (entry expand 0x3000000000000000 0) expand).e.a == 3) = true from rfl]
  exact (by decide : VCtx.tileWaits (expanding.drainV 0) ⟨6, 4096, 0x100000, 0⟩ (vctx expanding 0 (entry expand 0x3000000000000000 0) expand).actives = false)

theorem witness_VectorLoads (h : Obligations.VectorLoads) :
    (∃ s t, exec (.vlds 1 2 3 .sew false false .dflt false false) s = .next t) ∧ (∃ t, exec expand expanding = .next t) ∧
    (∃ t, exec firstFault (replayed firstFault 0x10040 0) = .next t) ∧ (∃ s t, exec firstFault s = .next t ∧ (t.hart 0).vl = 1) ∧
    ∃ t, exec firstFault (atMemory firstFault 0x20000 0) = .next t := by
  obtain ⟨t, ht, _⟩ := h.1 (.vlds 1 2 3 .sew false false .dflt false false)
    (atMemory (.vlds 1 2 3 .sew false false .dflt false false) 0x10040 16) 0 _ 1 .strided .sew false false false
    rfl (atMemory_head _ _ _).head rfl nofun ⟨by unfold WidthOk; decide, nofun⟩ (fits_of (by decide) rfl)
    trivial (never_waits (by decide)) (by decide)
  have he := h.1 expand expanding 0 (entry expand 0x3000000000000000 0) 1 .unit .sew false true false rfl (tented_head _ _ _ _).head rfl
    nofun ⟨by unfold WidthOk; decide, fun _ => ⟨rfl, by decide, fun _ => by decide⟩⟩ (fits_of (by decide) rfl) trivial
  simp only [if_true] at he
  obtain ⟨u, hu, _⟩ := he (expand_noWait rfl _) (by decide)
  obtain ⟨v, hv, _⟩ := h.1 firstFault (replayed firstFault 0x10040 0) 0 _ 1 .unit .sew false false true
    rfl (atWord_head _ _ _ ⟨rfl, rfl, rfl, rfl⟩ rfl (by decide)) rfl (fun _ => rfl) ⟨by unfold WidthOk; decide, nofun⟩
    (fits_of (by decide) rfl) trivial (never_waits (by decide)) (by decide)
  obtain ⟨w, hw, hm, _⟩ := h.2.1 firstFault (atMemory firstFault 0x1FFF8 0) 0 _ 1 .unit .sew false false
    ⟨1, causePage, 0, 0x20000⟩ [] rfl (atMemory_head _ _ _).head rfl ⟨by unfold WidthOk; decide, nofun⟩
    (fits_of (by decide) rfl) trivial (never_waits (by decide)) (by decide) ⟨0, by decide, by decide⟩ (by decide)
  obtain ⟨x, hx, _⟩ := h.2.2 firstFault (atMemory firstFault 0x20000 0) 0 _ 1 .unit .sew false false
    ⟨0, causePage, 0, 0x20000⟩ [⟨1, causePage, 0, 0x20008⟩] rfl (atMemory_head _ _ _).head rfl ⟨by unfold WidthOk; decide, nofun⟩
    (fits_of (by decide) rfl) trivial (never_waits (by decide)) (by decide) (by decide)
  exact ⟨⟨_, t, ht⟩, ⟨u, hu⟩, ⟨v, hv⟩, ⟨_, w, hw, by rw [hm.hart]; rfl⟩, _, hx⟩

/-- Two e64 elements at an address in a VIQ entry of three address forms of a store, eager and lazy. -/
def storing : Instr := .vsts 1 2 3 .sew true false .dflt false

theorem witness_VectorStores (h : Obligations.VectorStores) : (∃ s t, exec storing s = .next t) ∧
    ∃ s t, exec (.vst 1 2 .sew false false .dflt false) s = .next t := by
  obtain ⟨t, _, ht, _⟩ := h storing (atMemory storing 0x10040 16) 0 _ 1 .strided .sew true .dflt (fun k => devKey (0x100040 + 16 * k))
    (fun _ => .dev) rfl (atMemory_head _ _ _) (by unfold WidthOk; decide) trivial (all_ok (by decide))
  obtain ⟨u, _, hu, _⟩ := h (.vst 1 2 .sew false false .dflt false) (lazily (.vst 1 2 .sew false false .dflt false) 0x10040 16) 0 _ 1 .unit
    .sew false .dflt (fun k => devKey (0x100040 + 8 * k)) (fun _ => .dev) rfl (lazily_head _ _ _) (by unfold WidthOk; decide) trivial
    (all_ok (by decide))
  exact ⟨⟨_, t, ht⟩, _, u, hu⟩

/-- Its hart's stores wait, and the elements go to package 3: the page at 0x2_0000 is a peer's. -/
def toPeer (i : Instr) : State :=
  let s := lazily i 0x4000000000020040 0
  s.poke (cellsAt (devKey 0x2C010) (toBytes 8 (0x0300000000020037)))

theorem toPeer_head (i : Instr) : MemHead (toPeer i) 0 (entry i 0x4000000000020040 0) :=
  ⟨⟨rfl, rfl, rfl, rfl, rfl, rfl, rfl, rfl, nofun, ⟨.inl rfl, Nat.zero_lt_one, ⟨15, by decide, rfl⟩, show vtypeOk (5#9).toNat = true by decide, show 2 ≤ vlmaxOf user 0 0x05 by decide,
    show 1 ≤ (user.hart 0).rows.toNat by decide, show (user.hart 0).rows.toNat ≤ 8 by decide⟩⟩, nofun, rfl⟩

theorem witness_VectorStores_waiting (h : Obligations.VectorStores) :
    (∃ t, exec (.vst 1 2 .sew false false .dflt false) (lazily (.vst 1 2 .sew false false .dflt false) 0x10040 16) = .next t ∧ t.trains = []) ∧
    ∃ t, exec (.vst 1 2 .sew false false .dflt false) (toPeer (.vst 1 2 .sew false false .dflt false)) = .next t ∧ t.trains ≠ [] := by
  obtain ⟨u, o, hu, _, ho, _, _, hl, _⟩ := h (.vst 1 2 .sew false false .dflt false) (lazily (.vst 1 2 .sew false false .dflt false) 0x10040 16) 0 _ 1 .unit
    .sew false .dflt (fun k => devKey (0x100040 + 8 * k)) (fun _ => .dev) rfl (lazily_head _ _ _) (by unfold WidthOk; decide) trivial
    (all_ok (by decide))
  obtain rfl := ho (.inr rfl)
  obtain ⟨v, o, hv, _, ho, _, _, _, hp⟩ := h (.vst 1 2 .sew false false .dflt false) (toPeer (.vst 1 2 .sew false false .dflt false)) 0 _ 1 .unit
    .sew false .dflt (fun k => peerKey 3 (0x20040 + 8 * k)) (fun _ => .peer 3) rfl (toPeer_head _) (by unfold WidthOk; decide) trivial
    (all_ok (by decide))
  obtain rfl := ho (.inr rfl)
  refine ⟨⟨u, hu, (hl rfl rfl (fun _ _ => .inl rfl) (by decide) rfl nofun (by decide)).2.1⟩, v, hv, ?_⟩
  rw [(hp rfl (by decide) (fun k hk => .inr ⟨3, rfl, by unfold peerKey; omega⟩) (by decide) nofun).2]
  decide

/-- An atomic of two elements on the scratchpad line at offset 64, and locks there: v3 holds the locks' addresses. -/
def adding : Instr := .vamo 1 2 3 .sew false false .add false
def locking : Instr := .vlock 1 2 3 true false false
def unlocking : Instr := .vunlock 1 3 false false
def lockAt (i : Instr) : State :=
  let s := atMemory i 7 0
  { s with cores := [(0, { s.vcore 0 with v := vset (s.vcore 0).v 3 0x10000000000000801000000000000040 })] }

theorem lockAt_head (i : Instr) : MemHead (lockAt i) 0 (entry i 7 0) :=
  ⟨⟨rfl, rfl, rfl, rfl, rfl, rfl, rfl, rfl, nofun, ⟨.inl rfl, Nat.zero_lt_one, ⟨15, by decide, rfl⟩, show vtypeOk (5#9).toNat = true by decide,
    show 2 ≤ vlmaxOf user 0 0x05 by decide, show 1 ≤ (user.hart 0).rows.toNat ∧ (user.hart 0).rows.toNat ≤ 8 by decide⟩⟩, nofun, rfl⟩

theorem nil_of_sub {l : List Nat} (h : ∀ k ∈ l, k ∈ ([] : List Nat)) : l = [] := List.eq_nil_iff_forall_not_mem.mpr (fun k hk => by
  cases h k hk)

theorem scratch_place {u : State} {c : ACtx} {z : Int} {off key : Nat} (hz : z = ((2 ^ 60 + off : Nat) : Int)) (ho : off + 8 ≤ 65536) (ha : off % 8 = 0)
    (hx : c.launch = some 1 ∧ c.core = 0) (hc : claimPlace u (some 1) 0 off 8 = .ok (.at_ key .spm)) (hb : badAt u key 8 = false) (he : u.ces = []) (ht : u.tripped = []) :
    accPlace u c .atomic .natural 1 z 8 = .ok (.at_ key .spm) := by
  subst hz
  have h1 : (2 ^ 60 + off) / 2 ^ 60 = 1 := by omega
  have h2 : (2 ^ 60 + off) % 2 ^ 60 = off := by omega
  have h3 : ¬ (((2 ^ 60 + off : Nat) : Int) < 0 ∨ 2 ^ 64 ≤ ((2 ^ 60 + off : Nat) : Int)) := by omega
  have h4 : offsetBound 1 = Config.spmBytes := rfl
  have h6 : Config.spmBytes = 3145728 := rfl
  unfold accPlace checkAddr checkBy
  rw [if_neg h3]
  simp only [Int.toNat_natCast, h1, h2, h4, h6]
  rw [if_neg (by omega), if_neg (by omega)]
  have h5 : alignOk .natural (2 ^ 60 + off) 8 = true := by simp [alignOk]; omega
  revert h5
  generalize 2 ^ 60 + off = m
  intro h5
  simp [h5, hx.1, hx.2, hc, hb, engineHeld, homeStopped, he, ht]

theorem adding_addr : ∀ i ∈ [0, 1], elementAddress (vctx (atMemory adding 0x1000000000000040 0) 0 (entry adding 0x1000000000000040 0) adding)
    (atMemory adding 0x1000000000000040 0) (.indexed 3) 64 i = ((2 ^ 60 + 64 : Nat) : Int) := by decide

theorem witness_VectorAtomics (h : Obligations.VectorAtomics) : ∃ s t, exec adding s = .next t := by
  obtain ⟨t, _, ht, _⟩ := h (atMemory adding 0x1000000000000040 0) 0 _ 1 2 3 .sew false false false .add (fun _ => spmKey 0 64) (fun _ => .spm)
    (atMemory_head _ _ _) rfl (by decide) (by decide) (fits_of (by decide) rfl) (by
      intro u hu hh _ hb hl i hi
      refine scratch_place (adding_addr i hi) (by decide) (by decide) ⟨congrArg some ((congrArg Hart.launch (hh 0)).trans rfl), rfl⟩ (by rw [hu]; rfl) ?_ (by rw [hu]; rfl) (by rw [hu]; rfl)
      rw [badAt, nil_of_sub hb, nil_of_sub hl]; rfl) nofun (all_ok (by decide)) nofun
  exact ⟨_, t, ht⟩

/-- A register's image at 0x1_0000, VCAP 512 in an eighth of a core, and a memory that holds one. -/
def saving : Instr := .vsave 4 2 false .dflt
def restoring : Instr := .vrestore 4 2 false .dflt
def imaged (i : Instr) (m : Memory) : State :=
  let s := (atMemory i 0x10000 0).updHart 0 (fun h => { h with vcap := 512 })
  { s with mem := m, cores := [(0, { s.vcore 0 with part := 8 })] }
def restorable : Memory := user.mem.puts (cellsAt (devKey 0x100000) (toBytes 4 4096 ++ toBytes 4 512))
def sectorKey (j : Nat) : Nat := devKey (0x100000 + 64 * j)

theorem imaged_head (i : Instr) (m : Memory) : MemHead (imaged i m) 0 (entry i 0x10000 0) :=
  ⟨⟨rfl, rfl, rfl, rfl, rfl, rfl, rfl, rfl, nofun, ⟨.inr (.inr (.inr rfl)), show 0 < 8 by decide, ⟨9, by decide, rfl⟩, show vtypeOk (5#9).toNat = true by decide,
    show 2 ≤ vlmaxOf (imaged .vdrain user.mem) 0 0x05 by decide,
    show 1 ≤ (user.hart 0).rows.toNat ∧ (user.hart 0).rows.toNat ≤ 8 by decide⟩⟩, nofun, rfl⟩

theorem image_at {c : VCtx} {s : State} {k : AKind} {key : Nat → Nat} {loc : Nat → Loc}
    (h : tagOf c.e.a ≤ 2 ∧
      isOk (checkAddr s (s.actx (.vec c.p)) k (.multiple 64) (tagOf c.e.a) c.e.a.toNat (64 + c.vlen / 8)) (.at_ (key 0) (loc 0)) = true ∧
      (List.range (1 + c.vlen / 512)).all (fun j => isOk (if k = .load then accPlace s (s.actx (.vec c.p)) k .natural (tagOf c.e.a)
        ((c.e.a.toNat : Int) + (64 * j : Nat)) 64 else checkAddr s (s.actx (.vec c.p)) k .natural (tagOf c.e.a)
        ((c.e.a.toNat : Int) + (64 * j : Nat)) 64) (.at_ (key j) (loc j))) = true ∧
      (List.range (1 + c.vlen / 512)).all (fun j => !engineHeld s (key j / 128)) = true) : ImageAt c s k key loc :=
by
  refine ⟨h.1, ⟨fun code dev he => ?_, fun j hj => ⟨?_, ?_⟩⟩⟩
  · rw [ok_of_isOk h.2.1] at he; cases he
  · exact all_ok (g := fun j => Place.at_ (key j) (loc j)) h.2.2.1 j (List.mem_range.mpr hj)
  · simpa using List.all_eq_true.mp h.2.2.2 j (List.mem_range.mpr hj)

theorem witness_VectorLocksAndImages (h : Obligations.VectorLocksAndImages) : (∃ s t, exec locking s = .next t) ∧
    ∃ s t, exec unlocking s = .next t := by
  obtain ⟨t, ht, _⟩ := h.1.1 (lockAt locking) 0 _ 1 2 3 true false false (fun a => spmKey 0 (a % 2 ^ 60)) (fun _ => .spm)
    (lockAt_head _) rfl (by decide) (by decide) (by
      intro u hu hh _ hb hl a ha
      obtain rfl | rfl : a = 2 ^ 60 + 64 ∨ a = 2 ^ 60 + 128 := (by decide : ∀ k ∈ [2 ^ 60 + 64, 2 ^ 60 + 128], k = 2 ^ 60 + 64 ∨ k = 2 ^ 60 + 128) a ha
      · refine scratch_place rfl (by decide) (by decide) ⟨congrArg some ((congrArg Hart.launch (hh 0)).trans rfl), rfl⟩ (by rw [hu]; rfl) ?_ (by rw [hu]; rfl) (by rw [hu]; rfl)
        rw [badAt, nil_of_sub hb, nil_of_sub hl]; rfl
      · refine scratch_place rfl (by decide) (by decide) ⟨congrArg some ((congrArg Hart.launch (hh 0)).trans rfl), rfl⟩ (by rw [hu]; rfl) ?_ (by rw [hu]; rfl) (by rw [hu]; rfl)
        rw [badAt, nil_of_sub hb, nil_of_sub hl]; rfl)
  obtain ⟨u, hu, _⟩ := h.1.2 (lockAt unlocking) 0 _ 1 3 false false (fun k => spmKey 0 (64 + 64 * k)) (fun _ => .spm)
    (lockAt_head _) rfl rfl (by decide) (by
      intro u hu hh _ hb hl k hk
      obtain rfl | rfl : k = 0 ∨ k = 1 := (by decide : ∀ k ∈ [0, 1], k = 0 ∨ k = 1) k hk
      · refine scratch_place (off := 64) (by decide) (by decide) (by decide) ⟨congrArg some ((congrArg Hart.launch (hh 0)).trans rfl), rfl⟩ (by rw [hu]; rfl) ?_ (by rw [hu]; rfl) (by rw [hu]; rfl)
        rw [badAt, nil_of_sub hb, nil_of_sub hl]; rfl
      · refine scratch_place (off := 128) (by decide) (by decide) (by decide) ⟨congrArg some ((congrArg Hart.launch (hh 0)).trans rfl), rfl⟩ (by rw [hu]; rfl) ?_ (by rw [hu]; rfl) (by rw [hu]; rfl)
        rw [badAt, nil_of_sub hb, nil_of_sub hl]; rfl) (by
      intro u hu hh _ hb hl k hk
      obtain rfl | rfl : k = 0 ∨ k = 1 := (by decide : ∀ k ∈ [0, 1], k = 0 ∨ k = 1) k hk
      · refine scratch_place (off := 64) (by decide) (by decide) (by decide) ⟨congrArg some ((congrArg Hart.launch (hh 0)).trans rfl), rfl⟩ (by rw [hu]; rfl) ?_ (by rw [hu]; rfl) (by rw [hu]; rfl)
        rw [badAt, nil_of_sub hb, nil_of_sub hl]; rfl
      · refine scratch_place (off := 128) (by decide) (by decide) (by decide) ⟨congrArg some ((congrArg Hart.launch (hh 0)).trans rfl), rfl⟩ (by rw [hu]; rfl) ?_ (by rw [hu]; rfl) (by rw [hu]; rfl)
        rw [badAt, nil_of_sub hb, nil_of_sub hl]; rfl)
  exact ⟨⟨_, t, ht⟩, _, u, hu⟩

theorem witness_VectorLocksAndImages_images (h : Obligations.VectorLocksAndImages) : (∃ t, exec saving (imaged saving user.mem) = .next t) ∧
    (∃ t, exec restoring (imaged restoring restorable) = .next t) ∧ ∃ t, exec restoring (imaged restoring user.mem) = .next t := by
  obtain ⟨v, hv, _⟩ := h.2.1 (imaged saving user.mem) 0 _ 4 2 false .dflt sectorKey (fun _ => .dev) (imaged_head _ _)
    (image_at (by decide)) (image_at (by decide))
  obtain ⟨w, hw, _⟩ := (h.2.2 (imaged restoring restorable) 0 _ 4 2 false .dflt sectorKey (fun _ => .dev) (imaged_head _ _) (image_at (by decide))
    (image_at (by decide)) (fits_of (by decide) rfl)).1 (by decide)
  have hx := (h.2.2 (imaged restoring user.mem) 0 _ 4 2 false .dflt sectorKey (fun _ => .dev) (imaged_head _ _) (image_at (by decide))
    (image_at (by decide)) (fits_of (by decide) rfl)).2 ⟨1, by decide, by decide⟩
  exact ⟨⟨v, hv⟩, ⟨w, hw⟩, _, hx⟩

/-- Two elements 64 KiB apart, the second on an unmapped page. -/
def failing : Instr := .vlds 1 2 3 .sew false false .dflt false false

theorem witness_FailingElementsAwaitReplay (h : Obligations.FailingElementsAwaitReplay) : (∃ s t, exec failing s = .next t) ∧
    ∃ s t, exec storing s = .next t := by
  obtain ⟨_, ht, _⟩ := h.1 failing (atMemory failing 0x10040 65536) 0 _ 1 .strided .sew false false ⟨1, causePage, 0, 0x20040⟩ [] rfl
    (atMemory_head _ _ _) ⟨by unfold WidthOk; decide, nofun⟩ (fits_of (by decide) rfl) trivial (never_waits (by decide)) (by decide)
  obtain ⟨_, _, _, hu, _⟩ := h.2 storing (atMemory storing 0x10040 65536) 0 _ 1 .strided .sew true .dflt
    (fun k => devKey (0x100040 + 65536 * k)) rfl
    (atMemory_head _ _ _) rfl rfl rfl (by unfold WidthOk; decide) trivial (.inr rfl) (by decide)
    (somewhere_ok .dev (by decide))
  exact ⟨⟨_, _, ht⟩, _, _, hu⟩

/-! ## Hash tables, tents, taps -/

/-- The launch's hash table on core 0, of 16 buckets at the start of the claim's hash area, the home buckets 11 and 13 of
the keys 5 and 6 in v2 with one empty slot each. -/
def shtcfg : Word := 0x80000000 ||| 0x10000000 ||| 0x8000
def hashing (e : VEntry) (vl : BitVec 16) : State :=
  let s := atWord e 0x05 vl
  { s.poke ([11, 13].flatMap (fun n => cellsAt (spmKey 0 (0x8000 + 128 * n)) (toBytes 8 (2 ^ 64 - 1)))) with
    cores := [(0, { s.vcore 0 with hash := [⟨1, shtcfg, 0, 0, 0⟩], v := vset (s.vcore 0).v 2 0x60000000000000005 })] }

theorem hashing_table (e : VEntry) (vl : BitVec 16) : TableAt (hashing e vl) 0 ⟨1, shtcfg, 0, 0, 0⟩ (spmKey 0 0x8000) :=
  ⟨rfl, ⟨_, rfl, rfl⟩, rfl, ⟨rfl, rfl⟩, rfl, rfl⟩

theorem hashing_legal (e : VEntry) (vl : BitVec 16) (hl : vl.toNat ≤ vlmaxOf user 0 0x05) : Legal (hashing e vl) 0 :=
  ⟨.inl rfl, Nat.zero_lt_one, ⟨15, by decide, rfl⟩, show vtypeOk (5#9).toNat = true by decide, hl,
    show 1 ≤ (user.hart 0).rows.toNat ∧ (user.hart 0).rows.toNat ≤ 8 by decide⟩

def hins : Instr := .hins 1 2 3 false
def inserting : State := hashing (entry hins 0 0) 2
def drawing : State := hashing (asking (.hdrn 4 5) 0 0) 2
def drawn : State := drawing.updHart 0 (fun h => { h with shtcur := 2 ^ 17 })
def insCtx : VCtx := vctx inserting 0 (entry hins 0 0) hins

theorem some_parts {α β γ : Type} {x : Option (α × β × γ)} (h : x.isSome = true) : ∃ a b c, x = some (a, b, c) := by
  cases x with
  | none => cases h
  | some x => exact ⟨x.1, x.2.1, x.2.2, rfl⟩

theorem insert_runs : (keysRun (fun m key => keyStep hins insCtx inserting (hashSlots shtcfg (spmKey 0 0x8000) key) m key
    (insCtx.actives.filter (fun k => insCtx.ev inserting 2 64 k == key))) (insCtx.actives.map (insCtx.ev inserting 2 64)).eraseDups
    (inserting.mem, [], 0)).isSome = true := by decide

theorem witness_HashInstructions (h : Obligations.HashInstructions) : (∃ s t, exec (.hcfg 2 3) s = .next t) ∧
    (∃ t, exec (.hcfg 2 3) (atMemory (.hcfg 2 3) 0 0) = .next t) ∧ (∃ t, exec hins inserting = .next t) ∧
    (∃ t, exec (.hdrn 4 5) drawing = .next t) ∧ ∃ t, exec (.hdrn 4 5) drawn = .next t := by
  obtain ⟨t, ht, _⟩ := (h.1 (atMemory (.hcfg 2 3) shtcfg 0) 0 _ 2 3 (atMemory_head _ _ _)).2 _ rfl rfl rfl rfl (by decide) (by decide) rfl rfl
    (by decide) (by decide)
  obtain ⟨w, hw, _⟩ := (h.1 (atMemory (.hcfg 2 3) 0 0) 0 _ 2 3 (atMemory_head _ _ _)).1 rfl
  obtain ⟨m, outs, fl, hr⟩ := some_parts insert_runs
  obtain ⟨u, hu, _⟩ := h.2.1 hins inserting 0 (entry hins 0 0) ⟨1, shtcfg, 0, 0, 0⟩ (spmKey 0 0x8000) 2 _ m outs fl
    ⟨⟨rfl, rfl, rfl, rfl, rfl, rfl, rfl, rfl, nofun, hashing_legal _ 2 (by decide)⟩, nofun, rfl⟩ (hashing_table _ 2) rfl rfl rfl (by decide) hr
  obtain ⟨v, hv, _⟩ := (h.2.2 drawing 0 _ _ _ 4 5 ⟨rfl, rfl, rfl, rfl, rfl, rfl, rfl, rfl, nofun, hashing_legal _ 2 (by decide)⟩
    ⟨3, _, by decide, rfl, rfl⟩ (hashing_table _ 2) rfl (by decide) rfl).2 rfl rfl
  obtain ⟨x, hx, _⟩ := (h.2.2 drawn 0 _ _ _ 4 5 ⟨rfl, rfl, rfl, rfl, rfl, rfl, rfl, rfl, nofun,
    ⟨.inl rfl, Nat.zero_lt_one, ⟨15, by decide, rfl⟩, show vtypeOk (5#9).toNat = true by decide, show 2 ≤ vlmaxOf user 0 0x05 by decide,
    show 1 ≤ (user.hart 0).rows.toNat ∧ (user.hart 0).rows.toNat ≤ 8 by decide⟩⟩
    ⟨3, _, by decide, rfl, rfl⟩ ⟨rfl, ⟨_, rfl, rfl⟩, rfl, ⟨rfl, rfl⟩, rfl, rfl⟩ rfl (by decide) rfl).1 rfl
  exact ⟨⟨_, t, ht⟩, ⟨w, hw⟩, ⟨u, hu⟩, ⟨v, hv⟩, x, hx⟩

/-- Tile 0 of the tent is at 0x3 · 2^60, present with tag 6 at frame 0x10_0000, and tile 1 absent. -/
def tile0 : Word := 0x3000000000000000
def inTent (e : VEntry) : State := tented (atWord e 0x05 2) (2 ^ 63 + 6 * 2 ^ 59 + 0x100000)

theorem inTent_head (e : VEntry) (h : e.needs = 0 ∧ e.joined = false ∧ e.bad = false ∧ e.done = .zero) : AtHead (inTent e) 0 e :=
  ⟨rfl, rfl, h.1, h.2.1, rfl, rfl, h.2.2.1, h.2.2.2, nofun, ⟨.inl rfl, Nat.zero_lt_one, ⟨15, by decide, rfl⟩, show vtypeOk (5#9).toNat = true by decide,
    show 2 ≤ vlmaxOf user 0 0x05 by decide, show 1 ≤ (user.hart 0).rows.toNat ∧ (user.hart 0).rows.toNat ≤ 8 by decide⟩⟩

/-- As `inTent`, the hart in a region. -/
def inTentRegion (e : VEntry) : State := (inTent e).updHart 0 (fun h => { h with region := some 0 })

theorem inTentRegion_head (e : VEntry) (h : e.needs = 0 ∧ e.joined = false ∧ e.bad = false ∧ e.done = .zero) :
    AtHead (inTentRegion e) 0 e :=
  ⟨rfl, rfl, h.1, h.2.1, rfl, rfl, h.2.2.1, h.2.2.2, nofun, ⟨.inl rfl, Nat.zero_lt_one, ⟨15, by decide, rfl⟩, show vtypeOk (5#9).toNat = true by decide,
    show 2 ≤ vlmaxOf user 0 0x05 by decide, show 1 ≤ (user.hart 0).rows.toNat ∧ (user.hart 0).rows.toNat ≤ 8 by decide⟩⟩

theorem witness_TentInstructions (h : Obligations.TentInstructions) : (∃ s t, exec (.strike 1 2) s = .next t) ∧
    (∃ t, exec (.strike 1 2) (inTentRegion (entry (.strike 1 2) tile0 2)) = .next t) ∧
    (∃ t, exec (.strike 1 2) (inTent (entry (.strike 1 2) tile0 3)) = .next t) ∧
    (∃ s t, exec (.tsite 5 1) s = .next t) ∧ (∃ s t, exec (.ttag 1 2) s = .next t) ∧ (∃ s t, exec (.tremap 5 1 2) s = .next t) ∧
    (∃ s t, exec (.lde 1 2 3 false) s = .next t) ∧ ∃ t, exec (.lde 1 2 3 false) (atMemory (.lde 1 2 3 false) 0x10040 0) = .next t := by
  obtain ⟨t, ht, _⟩ := (h.1 (inTent (entry (.strike 1 2) tile0 2)) 0 _ 1 2 0 _ 0 ⟨inTent_head _ ⟨rfl, rfl, rfl, rfl⟩, nofun, rfl⟩ rfl
    ⟨rfl, by decide, rfl, rfl⟩ rfl).1 (by decide) rfl rfl rfl
  obtain ⟨r, hr, _⟩ := (h.1 (inTentRegion (entry (.strike 1 2) tile0 2)) 0 _ 1 2 0 _ 0 ⟨inTentRegion_head _ ⟨rfl, rfl, rfl, rfl⟩, nofun, rfl⟩ rfl
    ⟨rfl, by decide, rfl, rfl⟩ rfl).2.1 0 (by decide) rfl (by decide)
  have hs := (h.1 (inTent (entry (.strike 1 2) tile0 3)) 0 _ 1 2 0 _ 0 ⟨inTent_head _ ⟨rfl, rfl, rfl, rfl⟩, nofun, rfl⟩ rfl
    ⟨rfl, by decide, rfl, rfl⟩ rfl).2.2 (by decide)
  obtain ⟨u, hu, _⟩ := h.2.1 (inTent (asking (.tsite 5 1) tile0 0)) 0 _ 5 1 0 _ 0 (2 ^ 63 + 6 * 2 ^ 59 + 0x100000) (inTent_head _ ⟨rfl, rfl, rfl, rfl⟩)
    ⟨3, _, by decide, rfl, rfl⟩ rfl ⟨rfl, by decide, rfl, rfl⟩ (by decide)
  obtain ⟨v, hv, _⟩ := h.2.2.1 (inTent (entry (.ttag 1 2) tile0 5)) 0 _ 1 2 0 _ 0 (2 ^ 63 + 6 * 2 ^ 59 + 0x100000)
    ⟨inTent_head _ ⟨rfl, rfl, rfl, rfl⟩, nofun, rfl⟩ (by decide) rfl ⟨rfl, by decide, rfl, rfl⟩ (by decide)
  obtain ⟨w, hw, _⟩ := h.2.2.2.1 (inTent (asking (.tremap 5 1 2) tile0 (tile0 + 4096))) 0 _ 5 1 2 0 _ 0 1
    (inTent_head _ ⟨rfl, rfl, rfl, rfl⟩) ⟨3, _, by decide, rfl, rfl⟩ rfl rfl ⟨rfl, by decide, rfl, rfl⟩ ⟨rfl, by decide, rfl, rfl⟩ rfl rfl rfl
  obtain ⟨x, hx, _⟩ := h.2.2.2.2.1 (inTent (entry (.lde 1 2 3 false) (tile0 + 4088) 0)) 0 _ 1 2 3 false
    (fun k => if k = 0 then .at_ (devKey 0x100FF8) .dev else .absent 1 0 1 0 7) ⟨inTent_head _ ⟨rfl, rfl, rfl, rfl⟩, nofun, rfl⟩ (by decide) rfl rfl
    (all_ok (by decide))
  obtain ⟨y, hy, _⟩ := h.2.2.2.2.2 (atMemory (.lde 1 2 3 false) 0x10040 0) 0 _ 1 2 3 false ⟨0, causeAccess, 0, 0x10040⟩
    [⟨1, causeAccess, 0, 0x10048⟩] (atMemory_head _ _ _) (by decide) rfl (by decide) (by decide) (by decide) (by decide)
  exact ⟨⟨_, t, ht⟩, ⟨r, hr⟩, ⟨_, hs⟩, ⟨_, u, hu⟩, ⟨_, v, hv⟩, ⟨_, w, hw⟩, ⟨_, x, hx⟩, _, hy⟩

/-- The tap table at 0x1_0040: tap 0 is enabled with one probe at 0x1_0080 and steering entries at 0x1_0100, of 32 values each; tap 1 is
not enabled. PNTBASE was captured. -/
def tapped (i : Instr) (rows : BitVec 4) (region : Option Nat) : State :=
  let e : VEntry := { entry i 0 0 with pntbase := 0x10040 }
  let s := atWord e 0x14 32
  let s := s.updHart 0 (fun h => { h with rows := rows, region := region })
  s.poke (cellsAt (devKey 0x100040) ([1, 1, 32, 0] ++ toBytes 4 0 ++ toBytes 8 0x10080 ++ toBytes 8 0x10100) ++
    cellsAt (devKey 0x100080) (toBytes 4 0 ++ toBytes 4 0x3F800000 ++ [1, 7]) ++ cellsAt (devKey 0x100104) [1])
def tapEntry (i : Instr) : VEntry := { entry i 0 0 with pntbase := 0x10040 }

theorem tapped_head (i : Instr) (g : Option Nat) : MemHead (tapped i 1 g) 0 (tapEntry i) :=
  ⟨⟨rfl, rfl, rfl, rfl, rfl, rfl, rfl, rfl, nofun, ⟨.inl rfl, Nat.zero_lt_one, ⟨15, by decide, rfl⟩, show vtypeOk (0x14#9).toNat = true by decide,
    show 32 ≤ vlmaxOf user 0 0x14 by decide, show 1 ≤ (1#4).toNat ∧ (1#4).toNat ≤ 8 by decide⟩⟩, nofun, rfl⟩

def tap0 : Tap := ⟨1, 32, 0x10080, 0x10100⟩
def probe0 : Probe := ⟨0, 0x3F800000, true, true, true, true⟩

theorem witness_TapInstructions (h : Obligations.TapInstructions) : (∃ s t, exec (.tapDot 0 2 3 false 1) s = .next t) ∧
    (∃ s t, exec (.tapDot 0 2 3 false 0) s = .next t) ∧ (∃ s t, exec (.tapFin 0 false 0) s = .next t) ∧ (∃ s t, exec (.tapFin 0 false 0) s = .next t) ∧
    ∃ s t, exec (.tapSteer 2 0 3 false 0) s = .next t := by
  obtain ⟨t, ht, _⟩ := h.1 (.tapDot 0 2 3 false 1) (tapped (.tapDot 0 2 3 false 1) 1 none) 0 _ 1 (.inl ⟨0, 2, 3, false, rfl⟩) (tapped_head _ _)
    (ok_of_isOk (by decide))
  obtain ⟨u, hu, _⟩ := h.2.1 (tapped (.tapDot 0 2 3 false 0) 1 none) 0 _ 0 2 3 false 0 tap0 [probe0] (fun _ => List.replicate 32 0)
    (tapped_head _ _) (ok_of_isOk (by decide)) (ok_of_isOk (by decide)) ⟨.inl ⟨rfl, .inr rfl⟩, by decide, by decide⟩
    (fun q hq => by obtain rfl : q = 0 := by change q < 1 at hq; omega
                    exact ok_of_isOk (by decide))
  obtain ⟨v, _, _, _, _, hv⟩ := (h.2.2.1 (tapped (.tapFin 0 false 0) 1 none) 0 _ 0 false 0 tap0 [probe0] (tapped_head _ _)
    (ok_of_isOk (by decide)) (ok_of_isOk (by decide))).1 rfl
  obtain ⟨x, hx, _⟩ := (h.2.2.1 (tapped (.tapFin 0 false 0) 1 (some 0)) 0 _ 0 false 0 tap0 [probe0] (tapped_head _ _)
    (ok_of_isOk (by decide)) (ok_of_isOk (by decide))).2 0 rfl
  obtain ⟨w, hw, _⟩ := h.2.2.2 (tapped (.tapSteer 2 0 3 false 0) 1 none) 0 _ 2 0 3 false 0 tap0 [probe0] (fun _ => (0, true))
    (fun _ => List.replicate 32 0) (tapped_head _ _) rfl (ok_of_isOk (by decide)) (ok_of_isOk (by decide)) ⟨.inl ⟨rfl, .inr rfl⟩, by decide, by decide⟩
    (fun r hr => by obtain rfl : r = 0 := by change r < 1 at hr; omega
                    exact ⟨ok_of_isOk (by decide), ok_of_isOk (by decide)⟩)
  exact ⟨⟨_, t, ht⟩, ⟨_, u, hu⟩, ⟨_, _, hv.2 (by decide)⟩, ⟨_, x, hx⟩, _, w, hw⟩

/-! ## Engines and the MCC -/

/-- A hart's word at its VIQ head in a cluster whose MCC its launch holds, with e16.bf16 elements or others; the engines' queues of the
cluster may hold rows. -/
def engine (e : VEntry) (vt : BitVec 9) : State :=
  let s := (atWord e vt 4).updHart 0 (fun h => { h with tokIn := 2, rows := 1 })
  { s with clusters := [(0, { s.cluster 0 with drain := [0x3F800000, 0x40000000] })] }

theorem engine_head (e : VEntry) (vt : BitVec 9) (h : e.needs = 0 ∧ e.joined = false ∧ e.bad = false ∧ e.st ≠ .replay ∧ e.done = .zero ∧ e.slot = none)
    (ht : vtypeOk vt.toNat = true) (hl : 4 ≤ vlmaxOf user 0 vt) : MemHead (engine e vt) 0 e :=
  ⟨⟨rfl, rfl, h.1, h.2.1, rfl, rfl, h.2.2.1, h.2.2.2.2.1, nofun, ⟨.inl rfl, Nat.zero_lt_one, ⟨15, by decide, rfl⟩, ht, hl,
    show 1 ≤ (1#4).toNat ∧ (1#4).toNat ≤ 8 by decide⟩⟩, h.2.2.2.1, h.2.2.2.2.2⟩

theorem engine_tokens (e : VEntry) (vt : BitVec 9) (push pop : Bool) : TokensAt (engine e vt) 0 push pop :=
  ⟨fun _ => rfl, fun _ => show 2 ≠ 0 by decide, fun _ => show 0 < 16 by decide, rfl⟩

/-- A copy block's address, and a stream's base, length and stride. -/
def blockEntry (i : Instr) : VEntry := entry i 0x10080 0
def streamEntry (i : Instr) : VEntry := { entry i 0x10040 8 with b1 := 16 }

def streaming (i : Instr) (failed : List (Nat × Nat × Nat)) : State := (engine (entry i 0 0) 0x05).updHart 0 (fun h => { h with
  streams := vset h.streams 1 ⟨0x10040, 8, 16, 0, 4, .sew, true, [(0, 3)], failed⟩ })

theorem streaming_head (i : Instr) (failed : List (Nat × Nat × Nat)) : MemHead (streaming i failed) 0 (entry i 0 0) :=
  ⟨⟨rfl, rfl, rfl, rfl, rfl, rfl, rfl, rfl, nofun, ⟨.inl rfl, Nat.zero_lt_one, ⟨15, by decide, rfl⟩, show vtypeOk (5#9).toNat = true by decide,
    show 4 ≤ vlmaxOf user 0 0x05 by decide, show 1 ≤ (1#4).toNat ∧ (1#4).toNat ≤ 8 by decide⟩⟩, nofun, rfl⟩

theorem tagged_ok {ε α : Type} [DecidableEq α] {l : List Nat} {f : Nat → Except ε α} {g : Nat → α} {b q : Nat → Prop} {c : Prop}
    (hb : ∀ k, b k) (hc : c) (h : l.all (fun k => isOk (f k) (g k)) = true) : ∀ k ∈ l, q k → b k ∧ c ∧ f k = .ok (g k) :=
  fun k hk _ => ⟨hb k, hc, all_ok h k hk⟩

/-- Elements 1 to 3 of a stream, whose fetches have failed. -/
def missing : List (Nat × Nat × Nat) := [(1, causePage, 0), (2, causePage, 0), (3, causeAccess, 0)]

theorem witness_EngineInstructions (h : Obligations.EngineInstructions) : (∃ s t, exec (.mfeed 2 true true false) s = .next t) ∧
    (∃ s t, exec (.mpull 4 true false false) s = .next t) ∧ (∃ s t, exec (.vopacc 4 2 3 false true false 1) s = .next t) ∧
    (∃ s t, exec (.xcopy 2 true false) s = .next t) ∧ (∃ s t, exec (.strcfg 1 2 4 false false .e32) s = .next t) ∧
    (∃ s t, exec (.vldS 4 1 false true false) s = .next t) ∧
    (∃ t, exec (.vldS 4 1 false true false) (streaming (.vldS 4 1 false true false) missing) = .next t) ∧
    (∃ s t, exec (.tokpush 1) s = .next t) ∧ (∃ s t, exec (.tokpop 1) s = .next t) ∧
    ∃ t, exec (.tokpop 1) (atMemory (.tokpop 1) 0 0) = .next t := by
  have hh (e : VEntry) (h : e.needs = 0 ∧ e.joined = false ∧ e.bad = false ∧ e.st ≠ .replay ∧ e.done = .zero ∧ e.slot = none) : MemHead (engine e 0x1B) 0 e :=
    engine_head e 0x1B h rfl (by decide)
  obtain ⟨t, ht, _⟩ := h.1 (engine (entry (.mfeed 2 true true false) 0 0) 0x1B) 0 _ 2 true true false (hh _ ⟨rfl, rfl, rfl, nofun, rfl, rfl⟩)
    (engine_tokens _ _ _ _) (by unfold FeedFits; decide) rfl (by decide) rfl (by decide)
  obtain ⟨u, hu, _⟩ := h.2.1 (engine (entry (.mpull 4 true false false) 0 0) 0x1B) 0 _ 4 true false false (hh _ ⟨rfl, rfl, rfl, nofun, rfl, rfl⟩)
    (engine_tokens _ _ _ _) (by unfold PullFits; decide) rfl (fits_of (by decide) rfl) (by decide)
  obtain ⟨v, hv, _⟩ := h.2.2.1 (engine (entry (.vopacc 4 2 3 false true false 1) 0 0) 0x1B) 0 _ 4 2 3 false true false 1
    (hh _ ⟨rfl, rfl, rfl, nofun, rfl, rfl⟩) (engine_tokens _ _ _ _) (.inr rfl) (by decide) (fits_of (by decide) rfl) (by decide) (by decide)
  obtain ⟨w, hw, _⟩ := h.2.2.2.1 (.xcopy 2 true false) (engine (blockEntry (.xcopy 2 true false)) 0x1B) 0 _ 2 true false false
    (.at_ (devKey 0x100080) .dev) rfl (hh _ ⟨rfl, rfl, rfl, nofun, rfl, rfl⟩) (engine_tokens _ _ _ _) rfl (by decide) (ok_of_isOk (by decide)) (by decide)
  obtain ⟨x, hx, _⟩ := h.2.2.2.2.1 (engine (streamEntry (.strcfg 1 2 4 false false .e32)) 0x1B) 0 _ 1 2 4 false false .e32
    (hh _ ⟨rfl, rfl, rfl, nofun, rfl, rfl⟩) (engine_tokens _ _ _ _) (.inr (by decide))
  obtain ⟨y, hy, _⟩ := h.2.2.2.2.2.1 (streaming (.vldS 4 1 false true false) []) 0 _ 4 1 false true false
    (fun i => .at_ (devKey (0x100040 + 16 * i)) .dev)
    (streaming_head _ _)
    ⟨fun _ => rfl, fun _ => show 2 ≠ 0 by decide, fun _ => show 0 < 16 by decide, rfl⟩ rfl (by unfold WidthOk; decide) (fits_of (by decide) rfl)
    (tagged_ok (fun _ => nofun) (by decide) (by decide))
  obtain ⟨f, hf, _⟩ := h.2.2.2.2.2.2.1 (streaming (.vldS 4 1 false true false) missing) 0 _ 4 1 false true false
    ⟨1, causePage, 0, 0x10050⟩ [⟨2, causePage, 0, 0x10060⟩, ⟨3, causeAccess, 0, 0x10070⟩] (streaming_head _ _)
    ⟨fun _ => rfl, fun _ => show 2 ≠ 0 by decide, fun _ => show 0 < 16 by decide, rfl⟩ rfl (by unfold WidthOk; decide) (fits_of (by decide) rfl)
    (by decide) (by decide)
  obtain ⟨z, hz, _⟩ := (h.2.2.2.2.2.2.2 (engine (entry (.tokpush 1) 0 0) 0x1B) 0 _ 1 (hh _ ⟨rfl, rfl, rfl, nofun, rfl, rfl⟩) rfl).1 (by decide)
  obtain ⟨r, hr, _⟩ := (h.2.2.2.2.2.2.2 (engine (entry (.tokpop 1) 0 0) 0x1B) 0 _ 1 (hh _ ⟨rfl, rfl, rfl, nofun, rfl, rfl⟩) rfl).2.1 (by decide)
  have hn := (h.2.2.2.2.2.2.2 (atMemory (.tokpop 1) 0 0) 0 _ 1 (atMemory_head _ _ _) rfl).2.2 rfl
  exact ⟨⟨_, t, ht⟩, ⟨_, u, hu⟩, ⟨_, v, hv⟩, ⟨_, w, hw⟩, ⟨_, x, hx⟩, ⟨_, y, hy⟩, ⟨_, hf⟩, ⟨_, z, hz⟩, ⟨_, r, hr⟩, _, hn⟩

/-- The MCC of cluster 0 with its partner's index 0 in x3 and a count of one row in x4, a token waiting from the hart. -/
def mccWord : State := (mcc.updHart 0 (fun h => { h with tokOut := 1 })).wx 4 1

theorem witness_MccInstructions (h : Obligations.MccInstructions) : (∃ t, exec (.mmac 3 4 0 false true false .dfifo) mccWord = .next t) ∧
    (∃ t, exec (.tokpush 3) mccWord = .next t) ∧ ∃ t, exec (.tokpop 3) mccWord = .next t := by
  obtain ⟨t, ht, _⟩ := h.1 (.mmac 3 4 0 false true false .dfifo) mccWord 0 0 3 false true false _ _ rfl rfl
    ⟨fun _ => rfl, fun _ => show 1 ≠ 0 by decide, fun hp => (by cases hp.1), rfl⟩ (by decide)
  obtain ⟨u, hu, _⟩ := (h.2 mccWord 0 0 3 rfl rfl).1 (by decide)
  obtain ⟨v, hv, _⟩ := (h.2 mccWord 0 0 3 rfl rfl).2 (by decide)
  exact ⟨⟨t, ht⟩, ⟨u, hu⟩, v, hv⟩

/-! ## The device's own steps -/

/-- A waiting store of one byte at 0x10_0040. -/
def waitingStore : Pend := ⟨.key (devKey 0x100040), .bytes [7], 0, 8192, [], 0, .dflt, false⟩
def stores : State :=
  let s := user.updHart 0 (fun h => { h with sbuf := [waitingStore], ssq := vset h.ssq 2 [waitingStore] })
  { s with
    sups := Tbl.set s.sups 0 { s.sup 0 with sbuf := [waitingStore] }, trains := [(0, 3, [waitingStore])], misses := [(1, [7])]
    l2 := [(7, (1, true))] }
/-- A copy of 4 raw bytes from 0x1_0040 to 0x1_0080, its released count at 0x1_0100; queued, issued and read on engine 0. -/
def copyBlk : CopyBlk := ⟨0x10040, 0x10080, #v[4, 1, 1, 1], #v[0, 0, 0], #v[0, 0, 0], 0xFF, 0xFF, 0, 0, 0x10100, 0, 1, true, false⟩
def copyCmd (ph : CopyPhase) : Cmd := ⟨5, 0, ⟨0, 0, 1⟩, [], .copy copyBlk 0x10180 ph (some (devKey 0x100100)) none⟩
def copyQueued : State := { user with ces := [(0, ⟨[copyCmd .queued], [], false⟩)] }
def badQueued : State := { user with ces := [(0, ⟨[{ copyCmd .queued with
  kind := .copy { copyBlk with op := 9 } 0x10180 .queued (some (devKey 0x100100)) none }], [], false⟩)] }
def copyRuns (ph : CopyPhase) : State := { user with ces := [(0, ⟨[], [copyCmd ph], false⟩)] }
/-- A copy that holds the line of an address; one whose released cell is in host page 1; and an L2 set of 12 lines beside line 7. -/
def copyHolding (addr : Nat) : State := copyRuns (.issued ⟨[], []⟩ [devKey addr / 128] [])
def copyToHost : State := { user with ces := [(0, ⟨[], [{ copyCmd .queued with
  kind := .copy copyBlk 0x10180 (.issued ⟨[], []⟩ [] []) (some (hostKey 0x10040)) none }], false⟩)] }
def fullSet : State := { stores with l2 := (List.range 12).map (fun n => (7 + 65536 * (n + 1), (2, false))) }
def poisoned (lost : List Nat) : State := { stores with badSectors := [14], lostSectors := lost }

theorem witness_MemorySystemSteps (h : Obligations.MemorySystemSteps) :
    (∃ t, exec (.vectorStorePerformed 0 2) stores = .next t) ∧ (∃ t, exec (.scalarStorePerformed 0 false) stores = .next t) ∧
    (∃ t, exec (.scalarStorePerformed 0 true) stores = .next t) ∧ (∃ t, exec (.peerTrainAck 0 3) stores = .next t) ∧
    (∃ t, exec (.missReply 1 7) stores = .next t) ∧ (∃ t, exec (.missReply 1 7) fullSet = .next t) ∧ (∃ t, exec (.dirtyEviction 0 7) stores = .next t) ∧
    (∃ t, exec (.dirtyEviction 0 7) (poisoned []) = .next t) ∧ (∃ t, exec (.dirtyEviction 0 7) (poisoned (List.replicate 4096 0)) = .next t) ∧
    (∃ t, exec (.hostAccess 64 [1, 2]) user = .next t) ∧ (∃ t, exec (.peerAccess 1 64 []) user = .next t) ∧
    exec (.hostAccess 0x100080 [1]) (copyHolding 0x100080) = .next (copyHolding 0x100080) ∧
    (∃ t, exec (.hostAccess (2 ^ 61) [1]) user = .next t) ∧ (∃ t, exec (.peerAccess 3 (peerKey 3 0) [1]) user = .next t) ∧
    (∃ t, exec (.hbmScrub 0 3) user = .next t) ∧ (∃ t, exec (.atsInvalidation 0x10000) user = .next t) ∧
    exec (.atsInvalidation 0x10000) copyToHost = .next copyToHost ∧ exec (.vectorStorePerformed 0 3) stores = .next stores ∧
    exec (.scalarStorePerformed 1 true) stores = .next (stores.settleLate (.sup 1)) ∧ exec (.peerTrainAck 0 2) stores = .next stores := by
  obtain ⟨h0, h1, h2', h2, h3, h4', h4, h5, h6, h7, h8, h9, h10, h11⟩ := h
  obtain ⟨_, a, _, _, ha, _⟩ := h1 stores 0 2 waitingStore [] rfl
  obtain ⟨_, b, _, hb, _⟩ := h2 stores 0 (by decide)
  obtain ⟨_, c, _, hc, _⟩ := h3 stores 0 (by decide)
  obtain ⟨_, _, d, _, _, _, hd, _⟩ := h4 stores 0 3 ⟨_, List.mem_singleton.2 rfl, rfl, rfl, by decide⟩
  obtain ⟨e, he, _⟩ := (h5 stores 1 7 rfl).1 (by decide)
  obtain ⟨l, _, _, hl, _⟩ := (h5 fullSet 1 7 rfl).2 (by decide)
  obtain ⟨f, hf, _⟩ := (h8 (.hostAccess 64 [1, 2]) user 64 [1, 2] rfl (by decide)).1 (by decide) (by decide) |>.1 nofun rfl rfl
  obtain ⟨g, hg, _⟩ := (h8 (.peerAccess 1 64 []) user 64 [] rfl (by decide)).1 (by decide) (by decide) |>.2 rfl
  have hw := (h8 (.hostAccess 0x100080 [1]) (copyHolding 0x100080) 0x100080 [1] rfl (by decide)).2 (.inl (by decide))
  obtain ⟨i, hi, _⟩ := h9 user (2 ^ 61) [1] (by decide) (by decide)
  obtain ⟨m, hm, _⟩ := h10 user 3 (peerKey 3 0) [1] (by decide) (by decide)
  obtain ⟨j, hj, _⟩ := h7 user 0 3
  obtain ⟨k, hk, _⟩ := (h11 user 0x10000).2 (by decide)
  obtain ⟨e1, he1, _⟩ := (h6 stores 0 7 rfl rfl).1 (by decide)
  obtain ⟨e2, he2, _⟩ := (h6 (poisoned []) 0 7 rfl rfl).1 (by decide)
  obtain ⟨e3, he3, _⟩ := (h6 (poisoned (List.replicate 4096 0)) 0 7 rfl rfl).2 14 rfl (by decide)
  exact ⟨⟨a, ha⟩, ⟨b, hb⟩, ⟨c, hc⟩, ⟨d, hd⟩, ⟨e, he⟩, ⟨l, hl⟩, ⟨e1, he1⟩, ⟨e2, he2⟩, ⟨e3, he3⟩, ⟨f, hf⟩, ⟨g, hg⟩, hw, ⟨i, hi⟩, ⟨m, hm⟩, ⟨j, hj⟩, ⟨k, hk⟩,
    (h11 copyToHost 0x10000).1 (by decide), h0 stores 0 3 rfl, h2' stores 1 true rfl, h4' stores 0 2 (by decide)⟩

/-- A Matrix Array command of cluster 0's MCC; the cluster with it queued, and with it in execution. -/
def arrayCmd (op : MxaOp) (rows : Nat) (got : List (Nat × Byte)) : Cmd := ⟨0, 0, ⟨0xFFFF, 0, 1⟩, [], .mxa op 0x10000 (some 0) rows got⟩
def arrayQueued (op : MxaOp) (f : Option WFmt) : State :=
  { user with clusters := [(0, { user.cluster 0 with queue := [arrayCmd op 0 []], active := ⟨5, f⟩ })] }
def arrayRuns (op : MxaOp) (rows : Nat) (got : List (Nat × Byte)) : State := { user with
  clusters := [(0, { user.cluster 0 with mxa := [arrayCmd op rows got], feed := [0x3F80] })]
  cores := [(0, { user.vcore 0 with claims := [⟨1, 0, 65536, 32768⟩] })] }

theorem array_late (op : MxaOp) (rows : Nat) (got : List (Nat × Byte)) : LateRoom (arrayRuns op rows got) 0 (some 0) := fun i hi => by
  obtain rfl : 0 = i := Option.some.inj hi
  exact ⟨0, rfl, show 0 < 16 by decide⟩

theorem witness_MatrixArraySteps (h : Obligations.MatrixArraySteps) :
    (∃ t, exec (.mxaCommand 0) (arrayQueued .swap none) = .next t) ∧
    (∃ t, exec (.mxaCommand 0) (arrayQueued (.mac .acc 0x40001 0) (some .bf16)) = .next t) ∧
    (∃ t, exec (.mxaCommandDone 0) (arrayRuns .swap 0 []) = .next t) ∧
    (∃ t, exec (.mxaCommandDone 0) (arrayRuns (.lds 0x2000000000000000 .bf16) 1 []) = .next t) ∧
    (∃ t, exec (.mxaCommandDone 0) (arrayRuns (.lds 0x2000000000000000 .bf16) 0 [(0, 5)]) = .next t) ∧
    (∃ t, exec (.mxaCommandDone 0) (arrayRuns (.mac .acc 0x102 0) 1 []) = .next t) ∧
    (∃ t, exec (.mxaCommandDone 0) (arrayRuns (.mac .dfifo 0x101 0) 0 []) = .next t) ∧
    (∃ t, exec (.mxaCommandDone 0) (arrayRuns (.mac .dspm 0x101 0x2000000000000000) 0 []) = .next t) ∧
    ∃ t, exec (.mxaCommandDone 0) (arrayRuns (.mac .dspm 0x101 0x2000000000000000) 1 []) = .next t := by
  obtain ⟨h1, h2⟩ := h
  obtain ⟨a, ha, _⟩ := (h1 (arrayQueued .swap none) 0 (arrayCmd .swap 0 []) rfl rfl rfl).1 (fun _ _ _ _ _ _ hk => by cases hk)
  obtain ⟨b, hb, _⟩ := (h1 (arrayQueued (.mac .acc 0x40001 0) (some .bf16)) 0 _ rfl rfl rfl).2 0x40001 0 _ _ _ _ rfl (by
    show ¬ (0x40001#64).toNat / 2 ^ 18 % 8 = 0
    decide)
  obtain ⟨c, hc, _⟩ := (h2 (arrayRuns .swap 0 []) 0 _ _ _ _ _ _ rfl rfl (array_late _ _ _)).1 rfl
  obtain ⟨i, hi, _⟩ := (h2 (arrayRuns (.lds 0x2000000000000000 .bf16) 1 []) 0 _ _ _ _ _ _ rfl rfl (array_late _ _ _)).2.1 _ _ rfl rfl
  obtain ⟨d, hd, _⟩ := (h2 (arrayRuns (.lds 0x2000000000000000 .bf16) 0 [(0, 5)]) 0 _ _ _ _ _ _ rfl rfl (array_late _ _ _)).2.2.1 _ _ (spmKey 0 0)
    rfl rfl (ok_of_isOk (by decide)) rfl rfl (by unfold Ascending; decide)
  obtain ⟨e, _, he, _⟩ := (h2 (arrayRuns (.mac .acc 0x102 0) 1 []) 0 _ _ _ _ _ _ rfl rfl (array_late _ _ _)).2.2.2.1 0x102 0 rfl (by decide)
    (by decide) (by decide)
  obtain ⟨f, hf, _⟩ := (h2 (arrayRuns (.mac .dfifo 0x101 0) 0 []) 0 _ _ _ _ _ _ rfl rfl (array_late _ _ _)).2.2.2.2.1 0x101 0 rfl (by decide)
    (by decide)
  obtain ⟨g, hg, _⟩ := (h2 (arrayRuns (.mac .dspm 0x101 0x2000000000000000) 0 []) 0 _ _ _ _ _ _ rfl rfl (array_late _ _ _)).2.2.2.2.2 0x101
    0x2000000000000000 (spmKey 0 0) rfl (by decide) (by decide) (.inl rfl) (ok_of_isOk (by decide))
  obtain ⟨j, hj, _⟩ := (h2 (arrayRuns (.mac .dspm 0x101 0x2000000000000000) 1 []) 0 _ _ _ _ _ _ rfl rfl (array_late _ _ _)).2.2.2.2.2 0x101
    0x2000000000000000 (spmKey 0 0) rfl (by decide) (by decide) (.inr (by decide)) (ok_of_isOk (by decide))
  exact ⟨⟨a, ha⟩, ⟨b, hb⟩, ⟨c, hc⟩, ⟨i, hi⟩, ⟨d, hd⟩, ⟨e, he⟩, ⟨f, hf⟩, ⟨g, hg⟩, j, hj⟩

/-- A copy from a page that is not mapped, and one to such a page, whose bytes have been read or not. -/
def copyOf (b : CopyBlk) (ph : CopyPhase) : State :=
  { user with ces := [(0, ⟨[], [{ copyCmd .queued with kind := .copy b 0x10180 ph (some (devKey 0x100100)) none }], false⟩)] }
def fromNowhere : CopyBlk := { copyBlk with src := 0x20040 }
def toNowhere : CopyBlk := { copyBlk with dst := 0x20080 }
def noTrans : DstTrans := ⟨[], []⟩
def bytes4 : Tbl (List (Nat × Byte)) := [(0, [(0, 1), (1, 2), (2, 3), (3, 4)])]

theorem some_ok {ε α : Type} {x : Except ε α} (h : (match x with
    | .ok _ => true
    | _ => false) = true) : ∃ a, x = .ok a := by
  cases x with
  | ok a => exact ⟨a, rfl⟩
  | error e => cases h

theorem some_error {ε α : Type} {x : Except (Nat × ε) α} {c : Nat} (h : (match x with
    | .ok _ => false
    | .error e => e.1 == c) = true) : ∃ a, x = .error (c, a) := by
  cases x with
  | ok a => cases h
  | error e => exact ⟨e.2, by rw [← beq_iff_eq.mp h]⟩

theorem some_fail {x : State × Option ItemFail} (h : x.2.isSome = true) : ∃ f u, x = (u, some f) := by
  obtain ⟨u, f⟩ := x
  cases f with
  | none => cases h
  | some f => exact ⟨f, u, rfl⟩

theorem copy_writes : ∃ u, writeItem { copyRuns (.read noTrans [] [[1, 2, 3, 4]] 0) with agent := .mcc 0 }
    (copyCmd (.read noTrans [] [[1, 2, 3, 4]] 0)) copyBlk noTrans 0 [1, 2, 3, 4] = .ok u :=
  some_ok (by decide +kernel)

theorem witness_CopyStreamAndGrantSteps (h : Obligations.CopyStreamAndGrantSteps) :
    (∃ t, exec (.copyIssue 0 0) copyQueued = .next t) ∧ (∃ t, exec (.copyIssue 0 0) badQueued = .next t) ∧
    (∃ t, exec (.releasedAdd 0 0) (copyRuns (.issued noTrans [] [])) = .next t) ∧
    (∃ t, exec (.releasedAdd 0 0) (copyRuns (.issued noTrans [] bytes4)) = .next t) ∧
    (∃ s c i t, exec (.copyFailure 0 0 c i) s = .next t) ∧
    (∃ t, exec (.visibleAdd 0 0) (copyRuns (.read noTrans [] [[1, 2, 3, 4]] 1)) = .next t) ∧
    (∃ t, exec (.visibleAdd 0 0) (copyRuns (.read noTrans [] [[1, 2, 3, 4]] 0)) = .next t) ∧
    (∃ t, exec (.visibleAdd 0 0) (copyOf toNowhere (.read noTrans [] [[1, 2, 3, 4]] 0)) = .next t) ∧
    ∃ s t, exec (.streamFetch 0 1) s = .next t := by
  obtain ⟨h1, h2, h3, h4, h5, -⟩ := h
  obtain ⟨a, ha, _⟩ := h1 copyQueued 0 0 _ copyBlk 0x10180 .queued (some (devKey 0x100100)) none _ _ rfl rfl (by decide) rfl rfl (by decide)
    (ok_of_isOk (by decide)) (ok_of_isOk (by decide)) (by decide) (by decide)
  obtain ⟨i, hi, _⟩ := h2 badQueued 0 0 _ { copyBlk with op := 9 } 0x10180 .queued _ _ causeIllegal rfl rfl (by decide) rfl rfl
    (.inl ⟨by decide, rfl⟩)
  obtain ⟨b, _, hb, _⟩ := (h3 (copyRuns (.issued noTrans [] [])) 0 0 _ copyBlk 0x10180 noTrans [] [] _ _ rfl rfl).1
    (fun _ _ => ⟨.nil, nofun⟩) ⟨0, by decide, by unfold rowRead; decide⟩ rfl rfl (fun i j h1 h2 _ => by
      obtain rfl : i = 0 := by change i < 1 at h1; omega
      have : ∀ j, j < 4 → (sourceByte (copyRuns (.issued noTrans [] [])) (copyCmd (.issued noTrans [] [])) copyBlk 0 j).isSome = true := by decide
      exact this j h2)
  obtain ⟨c, hc, _⟩ := (h3 (copyRuns (.issued noTrans [] bytes4)) 0 0 _ copyBlk 0x10180 noTrans [] bytes4 _ _ rfl rfl).2.1 (by
    intro i h1
    obtain rfl : i = 0 := by change i < 1 at h1; omega
    rfl)
  obtain ⟨f1, u1, hf⟩ := some_fail (x := runItems (copyCmd .queued) fromNowhere noTrans
    (fun s i => readItem s (copyCmd .queued) fromNowhere [] i) 0 1 (copyOf fromNowhere (.issued noTrans [] []))) (by decide)
  obtain ⟨d, hd, _⟩ := (h3 (copyOf fromNowhere (.issued noTrans [] [])) 0 0 _ _ _ _ _ _ _ _ rfl rfl).2.2 f1 u1 hf
  obtain ⟨e, he, _⟩ := (h4 (copyRuns (.read noTrans [] [[1, 2, 3, 4]] 1)) 0 0 _ copyBlk 0x10180 noTrans [] _ 1 _ _ rfl rfl).1 (by decide)
  obtain ⟨u, hu⟩ := copy_writes
  obtain ⟨f, hf, _⟩ := (h4 (copyRuns (.read noTrans [] [[1, 2, 3, 4]] 0)) 0 0 (copyCmd (.read noTrans [] [[1, 2, 3, 4]] 0)) copyBlk 0x10180
    noTrans [] [[1, 2, 3, 4]] 0 (some (devKey 0x100100)) none rfl rfl).2.1 u (by decide) hu
  obtain ⟨x, hx⟩ := some_error (c := causePage) (x := writeItem { copyOf toNowhere (.read noTrans [] [[1, 2, 3, 4]] 0) with agent := .mcc 0 }
    { copyCmd .queued with kind := .copy toNowhere 0x10180 (.read noTrans [] [[1, 2, 3, 4]] 0) (some (devKey 0x100100)) none } toNowhere
    noTrans 0 [1, 2, 3, 4]) (by decide)
  obtain ⟨j, hj, _⟩ := (h4 (copyOf toNowhere (.read noTrans [] [[1, 2, 3, 4]] 0)) 0 0 _ toNowhere 0x10180 noTrans [] _ 0 _ _ rfl rfl).2.2.1
    causePage x (by decide) hx
  obtain ⟨f2, u2, h8⟩ := some_fail (x := runItems { copyCmd .queued with
      kind := .copy toNowhere 0x10180 (.read noTrans [] [[1, 2, 3, 4]] 0) (some (devKey 0x100100)) none } toNowhere noTrans
    (fun _ i => .ok ([[1, 2, 3, 4]].getD i [])) 0 1 (copyOf toNowhere (.read noTrans [] [[1, 2, 3, 4]] 0))) (by decide)
  obtain ⟨l, hl, _⟩ := (h4 (copyOf toNowhere (.read noTrans [] [[1, 2, 3, 4]] 0)) 0 0 _ toNowhere 0x10180 noTrans [] _ 0 _ _ rfl rfl).2.2.2
    f2 u2 h8
  obtain ⟨g, _, hg, _⟩ := h5 (streaming (.vldS 4 1 false true false) []) 0 1 rfl rfl (by decide)
  exact ⟨⟨a, ha⟩, ⟨i, hi⟩, ⟨b, hb⟩, ⟨c, hc⟩, ⟨_, _, _, d, hd⟩, ⟨e, he⟩, ⟨f, hf⟩, ⟨j, hj⟩, _, g, hg⟩

/-- A vld waits in the VIQ of slot 0, whose turn it is at no unit, and then with credit at unit 0. -/
def wanting : State := atWord (entry (.vld 1 2 .sew false false .dflt false false) 0x10040 0) 0x05 4
def credited : State := { wanting with cores := [(0, { wanting.vcore 0 with
  turn := Vector.replicate 3 0, deficit := Vector.replicate 3 (vset (Vector.replicate 8 0) 0 1) })] }

theorem witness_CopyStreamAndGrantSteps_grants (h : Obligations.CopyStreamAndGrantSteps) :
    (∃ t, exec (.unitGrant 0 0) credited = .next t) ∧ ∃ t, exec (.unitGrant 0 0) wanting = .next t := by
  obtain ⟨a, ha, _⟩ := (h.2.2.2.2.2 credited 0 0 (by decide) (by decide) (by decide)).1 (by decide) (by decide)
  obtain ⟨b, hb, _⟩ := (h.2.2.2.2.2 wanting 0 0 (by decide) (by decide) (by decide)).2 (.inr (by decide)) 1 (by decide) (by decide)
    (fun m h1 h2 => absurd h2 (by omega)) (by decide) (by decide)
  exact ⟨⟨a, ha⟩, b, hb⟩

/-! ## Launches, the host, the package -/

/-- The launch that reset placed, its hart gone; a launch queued behind it; and one that needs 200 clusters. -/
def ended : State := { user with harts := [] }
def second (c : Nat) : Launch := { placedLaunch with n := 2, state := .queued, place := [], desc := { placedLaunch.desc with c := c } }
def queuing (c : Nat) : State := { user with peg := { user.peg with
  launches := user.peg.launches ++ [second c], levels := vset user.peg.levels 0 [2] } }

/-- A packet of a rack node: 64 bytes of header and the descriptor at 0x10_0100. -/
def packet : List Byte := List.replicate 64 0 ++ submitting.mem.gets (devKey 0x100100) 256
def packetState : State := { submitting with peg := { submitting.peg with defaultAsid := some 1 } }

/-- A hart with a held request, and one that waits for two batches of page requests, then for one. -/
def held : State := user.updHart 0 (fun h => { h with preempt := some 2 })
def waitsPages (bs : List (List Nat)) (f : Option Nat) : State :=
  { user.updHart 0 (fun h => { h with pageWait := some ⟨bs, f, [2], ⟨8, false, 0x10000, 0x10000, 0x20000, 0, false, false⟩, []⟩ }) with
    peg := { user.peg with state := .owned, pageReqs := [(0, [(0, [2])])] } }
def unownedPages : State := { waitsPages [[2]] none with peg := { (waitsPages [[2]] none).peg with state := .unowned } }

theorem witness_LaunchSteps (h : Obligations.LaunchSteps) : (∃ t, exec (.launchCompletion 1) ended = .next t) ∧
    (∃ t, exec (.launchCompletion 1) user = .next t) ∧ (∃ t, exec .placementScan user = .next t) ∧
    ∃ t, exec .placementScan (queuing 200) = .next t := by
  obtain ⟨h1, h2, h3, -⟩ := h
  obtain ⟨a, ha, _⟩ := (h1 ended 1 placedLaunch rfl).2 rfl (fun e he => by cases he) rfl (by decide)
  obtain ⟨d, hd, _⟩ := h3 (queuing 200) (second 200) rfl (by decide)
  exact ⟨⟨a, ha⟩, ⟨_, (h1 user 1 placedLaunch rfl).1 (by decide)⟩, ⟨_, h2 user (by decide)⟩, d, hd⟩

theorem packet_checked : descCheck packetState .owner (packet.drop 64) = (0, 1) ∧ descCheck user .owner (packet.drop 64) = (1, 0) ∧
    devPlace packetState 1 .store (descOf (packet.drop 64)).cell.toNat = .ok (.at_ (devKey 0x100040) .dev) :=
  ⟨by decide, by decide, ok_of_isOk (by decide)⟩

theorem witness_LaunchSteps_packets (h : Obligations.LaunchSteps) : (∃ t, exec (.launchPacket packet) packetState = .next t) ∧
    ∃ t, exec (.launchPacket packet) user = .next t := by
  have hp := (h.2.2.2.2.2.1 packetState packet (by decide)).2 0 1 (by decide) packet_checked.1
  have he := (h.2.2.2.2.2.1 user packet (by decide)).2 1 0 (by decide) packet_checked.2.1
  exact ⟨⟨_, (hp.2 _ _ rfl packet_checked.2.2).2 rfl (by decide)⟩, _, he.1 (by decide)⟩

theorem witness_LaunchSteps_requests (h : Obligations.LaunchSteps) : (∃ t, exec (.preemptDelivery 0 3) held = .next t) ∧
    (∃ t, exec (.prgResponse 0 0 false) (waitsPages [[2], [3]] none) = .next t) ∧
    (∃ t, exec (.prgResponse 0 0 false) (waitsPages [[2]] none) = .next t) ∧ (∃ t, exec (.prgResponse 0 0 true) (waitsPages [[2]] none) = .next t) ∧
    exec (.prgResponse 0 0 true) unownedPages = .next unownedPages := by
  obtain ⟨-, -, -, -, -, -, h6, h7⟩ := h
  obtain ⟨e, he, _⟩ := h6 held 0 3 2 rfl rfl rfl rfl rfl rfl rfl rfl (.inl rfl)
  obtain ⟨f, hf, _⟩ := ((h7 (waitsPages [[2], [3]] none) 0 0 0 false [2] _ rfl rfl rfl).2 nofun).1 (by decide)
  obtain ⟨g, hg, _⟩ := ((h7 (waitsPages [[2]] none) 0 0 0 false [2] _ rfl rfl rfl).2 nofun).2.1 2 (by decide) rfl rfl
  obtain ⟨i, hi, _⟩ := ((h7 (waitsPages [[2]] none) 0 0 0 true [2] _ rfl rfl rfl).2 nofun).2.2 (by decide) rfl rfl rfl
  exact ⟨⟨e, he⟩, ⟨f, hf⟩, ⟨g, hg⟩, ⟨i, hi⟩, (h7 unownedPages 0 0 0 true [2] _ rfl rfl rfl).1 rfl⟩

/-- A launch that needs every core is queued while the launch of reset runs: at its level, and at a higher one. -/
def needsAll (q : Nat) : Launch := { second 128 with desc := { (second 128).desc with k := 4, prio := q } }
def whole (q : Nat) : State := { user with peg := { user.peg with
  launches := user.peg.launches ++ [needsAll q], levels := vset user.peg.levels q [2] } }

theorem no_candidates : (candidatesBelow (whole 0) (needsAll 0).desc.prio).length = 0 := by decide

theorem witness_LaunchSteps_placement (h : Obligations.LaunchSteps) : (∃ t, exec .placementScan (queuing 1) = .next t) ∧
    exec .placementScan (whole 0) = .next (whole 0) ∧ ∃ t, exec .placementScan (whole 1) = .next t := by
  obtain ⟨t, ht, _⟩ := h.2.2.2.1 (queuing 1) (second 1) ((scan (queuing 1) (second 1) []).getD []) [] rfl (by decide) (by decide) (by decide) (by decide)
  have hw := (h.2.2.2.2.1 (whole 0) (needsAll 0) rfl (by decide) (by decide)).1 (fun n h1 h2 => absurd (no_candidates ▸ h2) (by omega))
  have hb := (h.2.2.2.2.1 (whole 1) (needsAll 1) rfl (by decide) (by decide)).2 1 (by decide) (by decide) (fun m h1 h2 => absurd h2 (by omega)) (by decide)
  exact ⟨⟨t, ht⟩, hw, _, hb⟩

/-- Master 9 of port 0 owns the device, an event waiting; and the same with its nominee 7 at a hand-over. -/
def ruled : State := { user with peg := { user.peg with state := .owned, owner := 9, masters := [9], events := [eventBytes 3 1 0 0] } }
def handing : State := { ruled with peg := { ruled.peg with state := .handOver, nominee := 7 } }

/-- A package that waits for its boot offer. -/
def offerless : State := { user with peg := { user.peg with waiting := true } }

theorem witness_OwnerRegisters (h : Obligations.OwnerRegisters) :
    exec (.claim 0 5 9) { ruled with peg := { ruled.peg with masters := [8, 9] } } =
      .next { ruled with peg := { ruled.peg with masters := [8, 9] } } ∧
    (∃ t, exec (.claim 0 5 5) ruled = .next t) ∧ (∃ t, exec (.claim 0 7 7) handing = .next t) ∧
    (∃ t, exec (.ringCons 8 1) { ruled with peg := { ruled.peg with masters := [7, 9] } } = .next t) ∧
    (∃ t, exec (.ringCons 8 1) ruled = .next t) ∧ (∃ t, exec (.registerBlockWrite 9 0x028 64) ruled = .next t) ∧
    exec (.claim 0 5 5) offerless = .next offerless ∧ (∃ t, exec .linkDown ruled = .next t) ∧ (∃ t, exec .eventRecord user = .next t ∨ exec .eventRecord ruled = .next t) := by
  obtain ⟨h1, h2, h3, h4, h5⟩ := h
  have many : ¬Answered { ruled.peg with masters := [8, 9] } 5 := by unfold Answered; decide
  have few : ¬Answered { ruled.peg with masters := [7, 9] } 8 := by unfold Answered; decide
  obtain ⟨u, hu, _⟩ := (h5 ruled _ _ rfl).2 (by decide) (by decide)
  refine ⟨((h1 _ 0 5 9 (by decide) (by decide)).2 rfl).1 many, ⟨_, ((h1 ruled 0 5 5 (by decide) (by decide)).2 rfl).2.1 (.inr (by decide)) (.inr (.inr (.inl rfl)))⟩,
    ⟨_, ((h1 handing 0 7 7 (by decide) (by decide)).2 rfl).2.2 (.inr (by decide)) rfl rfl (.inr ⟨rfl, rfl⟩) rfl⟩,
    ⟨_, (h2 (.ringCons 8 1) _ 8 _ rfl).1 few⟩, ⟨_, (h2 (.ringCons 8 1) ruled 8 _ rfl).2.1 (.inr (by decide)) (.inr (.inl (by decide)))⟩,
    ⟨_, (h2 (.registerBlockWrite 9 0x028 64) ruled 9 _ rfl).2.2 (.inl rfl) (by decide) rfl rfl rfl (fun bs hb => by cases hb)⟩,
    (h1 offerless 0 5 5 (by decide) (by decide)).1 rfl, ⟨_, (h4 ruled).2 (by decide)⟩, u, .inr hu⟩

/-- The owner's machine with the table of objects, a default address space and a queued launch; a die tripped; a supervisor halted. -/
def commanded : State := { ruled with
  peg := { ruled.peg with
    objects := [⟨5, [], [(77, [1, 2])]⟩], defaultAsid := some 1, launches := ruled.peg.launches ++ [second 1] } }
def tripped : State := { commanded with tripped := [2] }
def crashed : State := { commanded with sups := Tbl.set commanded.sups 3 { commanded.sup 3 with halted := true } }

/-- A command of the ring (R388): its number, its arguments and where its completion goes. -/
def cmdBytes (op : Nat) (args : List Nat) (cpl : Nat) : List Byte :=
  let b := toBytes 8 op ++ args.flatMap (toBytes 8)
  b ++ List.replicate (48 - b.length) 0 ++ toBytes 8 cpl ++ toBytes 8 0

/-- The ring's next command is these bytes, at host address 4096, and none follows it; and the machine after it is taken. -/
def rung (s : State) (bs : List Byte) : State :=
  { s.poke (cellsAt (hostKey 4096) bs) with peg := { s.peg with state := .owned, cmdBase := 4096, cmdProd := 1, cmdCons := 0 } }
def taken (s : State) : State := { s with peg := { s.peg with cmdCons := s.peg.cmdCons + 1 } }

theorem takes_of {s : State} {j : HostCmd} (h : (nextCommand s).bind cmdOf = some j) (hn : nextCommand (taken s) = none) : Takes s (taken s) j :=
  ⟨h, rfl, hn⟩

theorem witness_PegCommands (h : Obligations.PegCommands) :
    (∃ s t, exec (.unload 5 64) s = .next t) ∧ (∃ s t, exec (.readDescriptor 5 77 128 64) s = .next t) ∧
    (∃ s t, exec (.registerAsid 4 0x40000 64) s = .next t) ∧ (∃ s t, exec (.clusterMask 3 64) s = .next t) ∧
    (∃ s t, exec (.submitLaunch 256 512 64) s = .next t) ∧ (∃ s t, exec (.terminateLaunch 2 64) s = .next t) ∧
    (∃ s t, exec (.invalidate 1 0x10000 0 64) s = .next t) ∧ ∃ s t, exec (.restartCanvas 3 64) s = .next t := by
  obtain ⟨h1, h2, h3, h4, h5, h6⟩ := h
  obtain ⟨a, ha, _⟩ := (h1 (.unload 5 64) (rung commanded (cmdBytes 3 [5] 64)) _ _ _ rfl (takes_of (by decide) (by decide))).1 _ 0 none (.inl rfl) rfl
  obtain ⟨b, hb, _⟩ := (h1 (.readDescriptor 5 77 128 64) (rung commanded (cmdBytes 4 [5, 77, 0, 0, 128] 64)) _ _ _ rfl (takes_of (by decide) (by decide))).1 _ 0 none (.inl rfl) rfl
  obtain ⟨c, hc, _⟩ := (h1 (.registerAsid 4 0x40000 64) (rung commanded (cmdBytes 5 [4, 0x40000] 64)) _ _ _ rfl (takes_of (by decide) (by decide))).1 _ 0 none (.inl rfl) rfl
  obtain ⟨d, _, _, hd, _⟩ := (h1 (.clusterMask 3 64) (rung tripped (cmdBytes 7 [3] 64)) _ _ _ rfl (takes_of (by decide) (by decide))).2 (by decide) nofun
  obtain ⟨e, he, _⟩ := (h2 (rung commanded (cmdBytes 1 [256, 512] 64)) _ 256 512 64 1 0 rfl (takes_of (by decide) (by decide)) (by decide)).1 1 (.inl ⟨by decide, rfl⟩)
  obtain ⟨f, _, _, hf, _⟩ := h4 (rung commanded (cmdBytes 8 [2, 1] 64)) _ 2 64 (second 1) rfl (takes_of (by decide) (by decide)) ⟨rfl, nofun, nofun⟩ (.inr nofun)
  obtain ⟨g, _, hg, _⟩ := h5 (rung commanded (cmdBytes 10 [1, 0x10000, 0] 64)) _ 1 0x10000 0 64 _ rfl (takes_of (by decide) (by decide)) rfl
  obtain ⟨i, _, hi, _⟩ := h6 (rung crashed (cmdBytes 14 [3] 64)) _ 3 64 rfl (takes_of (by decide) (by decide)) (by decide) (by decide) rfl
  exact ⟨⟨_, a, ha⟩, ⟨_, b, hb⟩, ⟨_, c, hc⟩, ⟨_, d, hd⟩, ⟨_, e, he⟩, ⟨_, f, hf⟩, ⟨_, g, hg⟩, _, i, hi⟩

/-- A descriptor at host address 256, for a submission that succeeds. -/
def submits : State := rung (packetState.poke (cellsAt (hostKey 256) (submitting.mem.gets (devKey 0x100100) 256))) (cmdBytes 1 [256, 512] 64)

theorem submits_checked : descCheck (taken submits) .owner ((taken submits).mem.gets (hostKey 256) 256) = (0, 1) ∧
    devPlace (taken submits) 1 .store (descOf ((taken submits).mem.gets (hostKey 256) 256)).cell.toNat = .ok (.at_ (devKey 0x100040) .dev) :=
  ⟨by decide, ok_of_isOk (by decide)⟩

/-- The same after a machine check. -/
def checked : State := { submits with peg := { submits.peg with machineCheck := true } }

theorem checked_full : descCheck (taken checked) .owner ((taken checked).mem.gets (hostKey 256) 256) = (0, 1) ∧
    devPlace (taken checked) 1 .store (descOf ((taken checked).mem.gets (hostKey 256) 256)).cell.toNat = .ok (.at_ (devKey 0x100040) .dev) :=
  ⟨by decide, ok_of_isOk (by decide)⟩

/-- An object of one empty note section, at host address 1024, for the one space, where nothing is mapped yet. -/
def objectBytes : List Byte :=
  toBytes 4 0x014F4C5A ++ toBytes 2 1 ++ toBytes 2 0 ++ toBytes 4 1 ++ toBytes 4 1 ++ toBytes 8 64 ++ toBytes 8 112 ++ toBytes 32 0 ++
  toBytes 2 6 ++ toBytes 2 0 ++ toBytes 4 4 ++ toBytes 8 0 ++ toBytes 8 0 ++ toBytes 8 0 ++ toBytes 4 0 ++ toBytes 12 0
def loads : State :=
  let s := rung { commanded with mem := ⟨[]⟩ } (cmdBytes 2 [1024, 112, 512] 64)
  { s.poke (cellsAt (hostKey 1024) objectBytes) with peg := { s.peg with roots := [(1, 0x800000)] } }

theorem nothing_laid (va : Nat) (cs : List ZSec) (h : cs.all (fun c => !c.placed) = true) : layout va cs = [] := by
  induction cs with
  | nil => rfl
  | cons c rest ih =>
    rw [List.all_cons, Bool.and_eq_true] at h
    simp [layout, ih h.2, (by simpa using h.1 : c.placed = false)]

theorem range_unused (s : State) {n len lo hi : Nat} (h : lo + len ≤ hi) : ∃ a, freeRange s [] n len lo hi = some a := by
  simp only [freeRange]
  split
  · exact ⟨_, rfl⟩
  · simp only [nextFree, List.find?_nil]
    exact ⟨lo, if_neg (by omega)⟩

theorem loads_placed : ∃ r w, placeObject (taken loads) ((taken loads).mem.gets (hostKey 1024) 112) 0x800000 = some (r, w) := by
  have hv : (mappedBelow (taken loads) 3 0x800000 0).vas = [] := by decide
  have hl : layoutSize (zSecs ((taken loads).mem.gets (hostKey 1024) 112)) = 0 := by decide
  obtain ⟨va, hf⟩ := range_unused (taken loads) (n := 65536) (len := 0) (lo := 65536) (hi := 2 ^ 57) (by decide)
  simp only [placeObject, hv, hl, hf, nothing_laid va _ (by decide : (zSecs ((taken loads).mem.gets (hostKey 1024) 112)).all (fun c => !c.placed) = true),
    placeSections, Option.map_some]
  exact ⟨_, _, rfl⟩

theorem loads_checked : zCheck (taken loads) ((taken loads).mem.gets (hostKey 1024) 112) = [] := by decide

theorem witness_PegCommands_accepted (h : Obligations.PegCommands) : (∃ t, exec (.submitLaunch 256 512 64) submits = .next t) ∧
    (∃ t, exec (.submitLaunch 256 512 64) checked = .next t) ∧ ∃ t, exec (.loadObject 1024 112 512 64) loads = .next t := by
  have ha := (h.2.1 submits _ 256 512 64 0 1 rfl (takes_of (by decide) (by decide)) submits_checked.1).2 _ _ rfl submits_checked.2 rfl (by decide)
  obtain ⟨c, hc, _⟩ := (h.2.1 checked _ 256 512 64 0 1 rfl (takes_of (by decide) (by decide)) checked_full.1).1 5
    (.inr ⟨rfl, ⟨_, _, checked_full.2⟩, .inl rfl, rfl⟩)
  obtain ⟨r, w, hp⟩ := loads_placed
  obtain ⟨b, _, hb, _⟩ := (h.2.2.1 loads (taken loads) 1024 112 512 64 1 0x800000 rfl (takes_of (by decide) (by decide)) loads_checked rfl rfl).1 r w hp (by decide)
  exact ⟨⟨_, ha⟩, ⟨c, hc⟩, b, hb⟩

/-- A package that waits for an offer. -/
def waitingBoot : State := { user with peg := { user.peg with waiting := true } }

theorem witness_PackageSteps (h : Obligations.PackageSteps) : (∃ t, exec (.packageReset []) user = .next t) ∧
    (∃ t, exec (.packageReset [1]) user = .next t) ∧ (∃ t, exec (.bootOffer 3 [0, 0, 0, 0, 0, 0, 0, 0, 1]) waitingBoot = .next t) ∧
    (∃ t, exec (.bootOffer 3 []) user = .next t) ∧
    (∃ t, exec (.throttleStep 2 false) user = .next t ∧ Tbl.get 4000 t.clock 2 + 250 = 4000) ∧
    (∃ t, exec (.thermalTrip 15) user = .next t) ∧ exec (.thermalTrip 16) user = .next user := by
  obtain ⟨h1, h2, h3, h4⟩ := h
  obtain ⟨t, ht, _, _, _, _, hd⟩ := h3 user 2 false
  refine ⟨⟨_, (h1 user []).1 rfl⟩, ?_, ?_, ⟨_, (h2 user 3 []).1 (.inl rfl)⟩,
    ⟨t, ht, (hd rfl (by decide) (by decide)).2.2 (by decide)⟩, ⟨_, (h4 user 15).2 (by decide) (by decide)⟩,
    (h4 user 16).1 (.inr (by decide))⟩
  · by_cases hv : Config.imageVerifies Config.flashPeg = true ∧ Config.imageVerifies (user.peg.staged.getD [1]) = true
    · obtain ⟨t, ht, _⟩ := (h1 user [1]).2.1 (by decide) hv
      exact ⟨t, ht⟩
    · obtain ⟨t, ht, _⟩ := (h1 user [1]).2.2 (by decide) hv
      exact ⟨t, ht⟩
  · by_cases hv : Config.imageVerifies (([0, 0, 0, 0, 0, 0, 0, 0, 1].drop 8).take (bytesField [0, 0, 0, 0, 0, 0, 0, 0, 1] 0 8)) = true ∧
        Config.imageVerifies ([0, 0, 0, 0, 0, 0, 0, 0, 1].drop (8 + bytesField [0, 0, 0, 0, 0, 0, 0, 0, 1] 0 8)) = true
    · obtain ⟨t, ht, _⟩ := (h2 waitingBoot 3 [0, 0, 0, 0, 0, 0, 0, 0, 1]).2.2 rfl (fun h => h.1 rfl) hv
      exact ⟨t, ht⟩
    · exact ⟨_, (h2 waitingBoot 3 [0, 0, 0, 0, 0, 0, 0, 0, 1]).2.1 rfl (fun h => h.1 rfl) hv⟩

/-! ## Encoding, the step, the invariant -/

theorem witness_EncodeThenDecode (h : Obligations.EncodeThenDecode) : decodeWord 0x32507FFD = .ok (.bne 5 0 0x7FFD) :=
  h (.bne 5 0 0x7FFD) 0x32507FFD (by decide) (by decide)

theorem witness_DecodeThenEncode (h : Obligations.DecodeThenEncode) : encode (.amoadd 9 7 8 .acqRel .package .w64) = some 0x47127473 :=
  (h 0x47127473 _ (by rfl)).2

/-- Words at 0x1_0000: one that runs, one that decodes to nothing, a supervisor's and one that a prefix does not precede. -/
theorem at_word {s : State} (ha : s.agent = .user 0) (h : s.halted = false ∧ s.sched = [] ∧ s.runnable s.agent = true ∧ tagOf s.pc = 0 ∧
    badAt s (devKey 0x100000) 4 = false ∧ engineHeld s (devKey 0x100000 / 128) = false) (hd : due s = none)
    (hp : isOk (checkPtr s (s.actx s.agent) .fetch .natural s.pc 4) (.at_ (devKey 0x100000) .dev) = true) : AtWord s (devKey 0x100000) :=
  ⟨h.1, h.2.1, hd, h.2.2.1, fun p => by rw [ha]; nofun, h.2.2.2.1, ok_of_isOk hp, h.2.2.2.2.1, h.2.2.2.2.2⟩

def placed (w : Nat) : State := State.reset.withFetchWord 32 w
def privileged : State := { user with mem := user.mem.puts (cellsAt (devKey 0x100000) (toBytes 4 0x52400000)) }
def latched : State := (placed 0x32507FFD).updHart 0 (fun h => { h with latch := some (⟨3, true, true, .v, 7⟩, 0xFFFC) })

/-- A vld waits at the VIQ head, and the environment lets it perform 2 element groups. -/
def grouping : State := { wanting with sched := [.groups 0 2] }

/-- A row runs in a state. -/
def RunsIn (i : Instr) (s : State) : Prop := ∃ o, Runs i s o

theorem witness_StepRunsTheDecodedWord (h : Obligations.StepRunsTheDecodedWord) :
    RunsIn (.add 5 6 7) user.noteFetch ∧ RunsIn (.illegalWord 0 1) (placed 0).noteFetch ∧
    RunsIn (.illegalWord 0x52400000 2) privileged.noteFetch ∧ RunsIn (.illegalWord 0x32507FFD 3) latched.noteFetch ∧
    (∃ t, user.turn (.next (user.setPc (user.pc - 4))) = .next t ∧ t.agent = (user.setPc (user.pc - 4)).rotate) ∧
    user.turn (.next (user.setPc (user.pc + 4))) = .next (user.setPc (user.pc + 4)) ∧
    user.turn (.next { user with harts := [] }) = .next { user with harts := [] } ∧
    (∃ t, user.turn (.next { user with agent := .vec 0 }) = .next t ∧ t.agent = .vec 0) ∧
    (∃ t, (running 5 (.vadd 1 2 3 false false)).turn (.next (running 5 (.vadd 1 2 3 false false))) = .next t) ∧
    RunsIn (.vadd 1 2 3 false false) (running 5 (.vadd 1 2 3 false false)) ∧
    (∃ i, step { user with sched := [.ev .linkDown] } = exec .linkDown i) ∧
    step { user with sched := [.run (.user 9)] } = .next { user with agent := .user 9 } ∧
    (∃ t, RunsIn (.vld 1 2 .sew false false .dflt false false) t) ∧
    (∃ t, step { user with sched := [.early 0 0x10040] } = .next t) ∧ (∃ t, step { user with sched := [.corrected 1 0 none] } = .next t) ∧
    (∃ t, step { user with sched := [.upset (.sector 7)] } = .next t) ∧
    step (user.updHart 0 (fun h => { h with park := some .line })) = .next { user.updHart 0 (fun h => { h with park := some .line }) with
      agent := (user.updHart 0 (fun h => { h with park := some .line })).rotate } ∧
    step spent = exec (.budgetExhausted 0) spent ∧
    step { user with halted := true } = .fault .bootFailure ∧
    step { user with halted := true, sched := [.ev (.packageReset [])] } = exec (.packageReset []) { user with halted := true } := by
  obtain ⟨-, -, -, h1, ht, h2, h3, h4, h5, h6, h8, h9, h7⟩ := h
  obtain ⟨a, ha, _⟩ := (h6 { user with sched := [.early 0 0x10040] } 0 1 0 none 0x10040 (.sector 7) [] rfl).1 rfl
  obtain ⟨b, hb, _⟩ := (h6 { user with sched := [.corrected 1 0 none] } 0 1 0 none 0x10040 (.sector 7) [] rfl).2.1 rfl
  obtain ⟨c, hc, _⟩ := (h6 { user with sched := [.upset (.sector 7)] } 0 1 0 none 0x10040 (.sector 7) [] rfl).2.2 rfl (by decide)
  obtain ⟨o5, r5, _⟩ := h2 (running 5 (.vadd 1 2 3 false false)) 0 _ [] rfl rfl (by decide) rfl (by decide) rfl
  obtain ⟨u1, e1, f1⟩ := (ht user (user.setPc (user.pc - 4))).1 ⟨by decide, fun _ => by decide, nofun⟩
  obtain ⟨u2, e2, f2⟩ := (ht user { user with agent := .vec 0 }).1 ⟨by decide, fun _ => by decide, nofun⟩
  obtain ⟨u3, e3, _⟩ := (ht (running 5 (.vadd 1 2 3 false false)) (running 5 (.vadd 1 2 3 false false))).1 ⟨by decide, fun h => absurd rfl (h 0), fun _ _ => rfl⟩
  obtain ⟨o1, r1, _⟩ := (h1 user _ (at_word rfl (by decide) (by decide) (by decide))).1 (.add 5 6 7) (ok_of_isOk (by decide)) rfl nofun
  obtain ⟨o2, r2, _⟩ := (h1 (placed 0) _ (at_word rfl (by decide) (by decide) (by decide))).2.1 .illegalClass (by rfl)
  obtain ⟨o3, r3, _⟩ := (h1 privileged _ (at_word rfl (by decide) (by decide) (by decide))).2.2.2.1 .tret (ok_of_isOk (by decide)) rfl
  obtain ⟨o4, r4, _⟩ := (h1 latched _ (at_word rfl (by decide) (by decide) (by decide))).2.2.2.2 (.bne 5 0 0x7FFD) _ _ (ok_of_isOk (by decide))
    rfl rfl rfl
  refine ⟨⟨_, r1⟩, ⟨_, r2⟩, ⟨_, r3⟩, ⟨_, r4⟩,
    ⟨u1, e1, by rw [f1]; rfl⟩, (ht user _).2 (fun h => absurd (h.2.1 nofun) (by decide)),
    (ht user _).2 (fun h => absurd h.1 (by decide)), ⟨u2, e2, by rw [f2]; rfl⟩, ⟨u3, e3⟩, ⟨_, r5⟩,
    ⟨_, (h3 { user with sched := [.ev .linkDown] } _ [] rfl rfl).1 (by decide)⟩, (h4 _ _ [] rfl rfl).1 (by decide),
    ⟨_, _, h5 grouping 0 2 _ [] [] rfl rfl rfl rfl (by decide)⟩, ⟨a, ha⟩, ⟨b, hb⟩, ⟨c, hc⟩,
    h8 _ rfl rfl (by decide) (by decide), ?_, (h7 _ rfl).2 nofun, (h7 _ rfl).1 [] [] rfl⟩
  exact (h9 spent (exec (.budgetExhausted 0) spent) rfl rfl (by rfl)).trans (if_neg (by decide))

theorem user_next : user.nextInstr = .add 5 6 7 := by decide
theorem placed_next : (placed 0x70022180).nextInstr = .vadd 1 2 3 false false := by decide

theorem witness_StepRunsTheDecodedWord_choices (h : Obligations.StepRunsTheDecodedWord) :
    RunsIn (.add 5 6 7) user.noteFetch ∧ RunsIn (.viqPush 0x70022180) (placed 0x70022180).noteFetch ∧
    RunsIn (.vadd 1 2 3 false false) (running 5 (.vadd 1 2 3 false false)) := by
  obtain ⟨-, -, -, -, -, -, -, h4, -⟩ := h
  exact ⟨⟨_, ((h4 { user with sched := [.run (.user 0)] } (.user 0) [] rfl rfl).2.2.1 0 (.add 5 6 7) (by decide) rfl (by decide) user_next).1
      (fun w hw => by obtain rfl : (0x100A6380#32) = w := Option.some.inj hw; decide)⟩,
    ⟨_, ((h4 { placed 0x70022180 with sched := [.run (.user 0)] } (.user 0) [] rfl rfl).2.2.1 0 (.vadd 1 2 3 false false) (by decide) rfl (by decide)
      placed_next).2 0x70022180 rfl (by decide) (by decide)⟩,
    ⟨_, (h4 { running 5 (.vadd 1 2 3 false false) with sched := [.run (.vec 0)] } (.vec 0) [] rfl rfl).2.2.2.2 0 _ [] rfl (by decide) rfl⟩⟩

theorem witness_StepsKeepTheForm (h : Obligations.StepsKeepTheForm) : ∀ t, step user = .next t → Inv t :=
  fun t ht => h user t ⟨show user.mem.wf = true by decide, by unfold OneHartEach; decide⟩ ht

/-! ## Decoding: a word of every row, its fields set by hand in the pattern that the opcode table gives (R71–R77): d = 6, a = 5, b = 3 or,
where those are no registers of the field's file, 1, 2 and 0 -/

theorem test_decode_integer_and_float : ([
  (0x100C5180, .add 6 5 3), (0x104C5180, .sub 6 5 3), (0x108C5180, .mul 6 5 3), (0x10CC5180, .mulh 6 5 3), (0x110C5180, .mulhu 6 5 3),
  (0x114C5180, .div 6 5 3), (0x118C5180, .divu 6 5 3), (0x11CC5180, .rem 6 5 3), (0x120C5180, .remu 6 5 3), (0x124C5180, .and 6 5 3),
  (0x128C5180, .or 6 5 3), (0x12CC5180, .xor 6 5 3), (0x130C5180, .sll 6 5 3), (0x134C5180, .srl 6 5 3), (0x138C5180, .sra 6 5 3),
  (0x13CC5180, .slt 6 5 3), (0x140C5180, .sltu 6 5 3), (0x144C5180, .min 6 5 3), (0x148C5180, .max 6 5 3), (0x14CC5180, .minu 6 5 3)] ++ [
  (0x150C5180, .maxu 6 5 3), (0x154C5000, .clz 6 5), (0x158C5000, .ctz 6 5), (0x15CC5000, .popc 6 5), (0x160C5180, .rotl 6 5 3),
  (0x164C5180, .rotr 6 5 3), (0x168C51D5, .ext 6 5 3 true 21), (0x180C5192, .fadd 6 5 3 .b16 .rup), (0x184C5192, .fsub 6 5 3 .b16 .rup),
  (0x188C5192, .fmul 6 5 3 .b16 .rup), (0x18CC5192, .fdiv 6 5 3 .b16 .rup), (0x190C5012, .fsqrt 6 5 .b16 .rup),
  (0x194C51F2, .fmadd 6 5 3 true true .b16 .rup), (0x198C5190, .fmin 6 5 3 .b16), (0x19CC5190, .fmax 6 5 3 .b16),
  (0x1A0C5192, .fcmp 6 5 3 .b16 .le), (0x1A4C5192, .fcvt 6 5 (.ff .bf) .b16 .rup), (0x1A822008, .fmv 1 2 .ff .b32),
  (0x1ACC5010, .fclass 6 5 .b16)] : List (BitVec 32 × Instr)).all
    (fun e => isOk (decodeWord e.1) e.2) = true := by decide

theorem test_decode_immediate : ([
  (0x200C5105, .addi 6 5 0x105), (0x204C5105, .andi 6 5 0x105), (0x208C5105, .ori 6 5 0x105), (0x20CC5105, .xori 6 5 0x105),
  (0x210C5015, .slli 6 5 21), (0x214C5015, .srli 6 5 21), (0x218C5015, .srai 6 5 21), (0x21CC5105, .slti 6 5 0x105),
  (0x220C5105, .sltui 6 5 0x105), (0x224C0105, .lih 6 0x105), (0x228C0105, .pcadd 6 0x105)] : List (BitVec 32 × Instr)).all
    (fun e => isOk (decodeWord e.1) e.2) = true := by decide

theorem test_decode_control : ([
  (0x30518105, .beq 5 3 0x105), (0x32518105, .bne 5 3 0x105), (0x34518105, .blt 5 3 0x105), (0x36518105, .bge 5 3 0x105),
  (0x38518105, .bltu 5 3 0x105), (0x3A518105, .bgeu 5 3 0x105), (0x3C600105, .jal 6 0x105), (0x3E628105, .jalr 6 5 0x105)] : List (BitVec 32 × Instr)).all
    (fun e => isOk (decodeWord e.1) e.2) = true := by decide

theorem test_decode_memory : ([
  (0x400C5105, .ldS8 6 5 0x105), (0x404C5105, .ldZ8 6 5 0x105), (0x408C5105, .ldS16 6 5 0x105), (0x40CC5105, .ldZ16 6 5 0x105),
  (0x410C5105, .ldS32 6 5 0x105), (0x414C5105, .ldZ32 6 5 0x105), (0x418C5105, .ld64 6 5 0x105), (0x420C5105, .st8 6 5 0x105),
  (0x424C5105, .st16 6 5 0x105), (0x428C5105, .st32 6 5 0x105), (0x42CC5105, .st64 6 5 0x105), (0x430C5105, .fld16 6 5 0x105),
  (0x434C5105, .fld32 6 5 0x105), (0x438C5105, .fld64 6 5 0x105), (0x440C5105, .fst16 6 5 0x105), (0x444C5105, .fst32 6 5 0x105),
  (0x448C5105, .fst64 6 5 0x105), (0x460C500A, .lda 6 5 .cluster .w32), (0x464C500A, .stl 6 5 .cluster .w32),
  (0x468C51CA, .cas 6 5 3 .release .cluster .w32)] ++ [
  (0x46CC51CA, .amoswap 6 5 3 .release .cluster .w32), (0x470C51CA, .amoadd 6 5 3 .release .cluster .w32),
  (0x474C51CA, .amoand 6 5 3 .release .cluster .w32), (0x478C51CA, .amoor 6 5 3 .release .cluster .w32),
  (0x47CC51CA, .amoxor 6 5 3 .release .cluster .w32), (0x480C51CA, .amomin 6 5 3 .release .cluster .w32),
  (0x484C51CA, .amomax 6 5 3 .release .cluster .w32), (0x4A000048, .fence .stores .cluster), (0x4A400000, .fenceSv),
  (0x4A800000, .vdrain), (0x4AC00000, .lsync)] : List (BitVec 32 × Instr)).all
    (fun e => isOk (decodeWord e.1) e.2) = true := by decide

theorem test_decode_system : ([
  (0x500C0105, .csrr 6 0x105), (0x504C5105, .csrw 6 5 0x105), (0x508C5105, .csrs 6 5 0x105), (0x50CC5105, .csrc 6 5 0x105),
  (0x52000105, .trap 0x105), (0x52400000, .tret), (0x528C5000, .syscall 6 5), (0x52C05000, .park 5), (0x54000002, .split 2),
  (0x54400000, .join), (0x54800002, .bar .cluster), (0x54CC5000, .launch 6 5), (0x55000000, .exit), (0x56005000, .iopen 5),
  (0x56400000, .icommit), (0x56800000, .iabort), (0x56CC5180, .waitge 6 5 3), (0x580C5000, .ctxsave 6 5), (0x584C5000, .ctxload 6 5),
  (0x58805002, .tlbinv 5 .pkPage)] : List (BitVec 32 × Instr)).all
    (fun e => isOk (decodeWord e.1) e.2) = true := by decide

theorem test_decode_masks : ([
  (0x600C5105, .setvl 6 5 0x105), (0x604C5180, .setshape 6 5 3), (0x620C51C0, .vmand 6 5 3 true), (0x624C51C0, .vmor 6 5 3 true),
  (0x628C51C0, .vmxor 6 5 3 true), (0x62CC5040, .vmnot 6 5 true), (0x630C5040, .vpopc 6 5 true), (0x634C5040, .vfirst 6 5 true),
  (0x638C5050, .vmspan 6 5 true .post), (0x63C22048, .vmrank 1 2 true true)] : List (BitVec 32 × Instr)).all
    (fun e => isOk (decodeWord e.1) e.2) = true := by decide

theorem test_decode_vector_integer : ([
  (0x700C51E0, .vadd 6 5 3 true true), (0x704C51E0, .vsub 6 5 3 true true), (0x708C51E0, .vmul 6 5 3 true true),
  (0x70CC51F0, .vmulh 6 5 3 true true .su), (0x710C51E0, .vand 6 5 3 true true), (0x714C51E0, .vor 6 5 3 true true),
  (0x718C51E0, .vxor 6 5 3 true true), (0x71CC51E0, .vsll 6 5 3 true true), (0x720C51E0, .vsrl 6 5 3 true true),
  (0x724C51E0, .vsra 6 5 3 true true), (0x728C51E0, .vmin 6 5 3 true true), (0x72CC51E0, .vmax 6 5 3 true true),
  (0x730C51E0, .vminu 6 5 3 true true), (0x734C51E0, .vmaxu 6 5 3 true true), (0x73822068, .vsadd 1 2 0 true true true),
  (0x73C22068, .vssub 1 2 0 true true true), (0x74022069, .vcmp 1 2 0 true true true .ne), (0x744C51E0, .vmerge 6 5 3 true true),
  (0x748C01E0, .vmv 6 3 true true), (0x748C51E8, .vmvX 6 5 3 true)] ++ [
  (0x76022068, .vwadd 1 2 0 true true true), (0x76422068, .vwmul 1 2 0 true true true), (0x768C5050, .vnarrow 6 5 true true false),
  (0x76C22049, .vext 1 2 true .x4 true)] : List (BitVec 32 × Instr)).all
    (fun e => isOk (decodeWord e.1) e.2) = true := by decide

theorem test_decode_vector_float : ([
  (0x800C51E2, .vfadd 6 5 3 true true .rup), (0x804C51E2, .vfsub 6 5 3 true true .rup), (0x808C51E2, .vfmul 6 5 3 true true .rup),
  (0x80CC51E2, .vfdiv 6 5 3 true true .rup), (0x810C5042, .vfsqrt 6 5 true .rup), (0x814C51F2, .vfmadd 6 5 3 true true true false .rup),
  (0x818C51E0, .vfmin 6 5 3 true true), (0x81CC51E0, .vfmax 6 5 3 true true), (0x820C51E2, .vfcmp 6 5 3 true true .le),
  (0x824C51F2, .vfcvt 6 5 true (.ctr 3 .f16) .rup), (0x828C5042, .vfexp2 6 5 true .rup), (0x82CC5042, .vflog2 6 5 true .rup),
  (0x830C5042, .vfrecip 6 5 true .rup), (0x834C51E2, .vfscale 6 5 3 true true .rup), (0x840C51D0, .vmxdot 6 5 3 true true false),
  (0x844C51F2, .vquant 6 5 true (.ctr 3 .f16) .rup)] : List (BitVec 32 × Instr)).all
    (fun e => isOk (decodeWord e.1) e.2) = true := by decide

theorem test_decode_reductions : ([
  (0x900C51F0, .vredsum 6 5 3 true true .satU), (0x90422068, .vredmax 1 2 0 true true true), (0x90822068, .vredmin 1 2 0 true true true),
  (0x90CC51F0, .vredbit 6 5 3 true true .xor), (0x910C51E0, .vfredsum 6 5 3 true true), (0x914C51E0, .vfredmax 6 5 3 true true),
  (0x918C5040, .vargmax 6 5 true), (0x920C5040, .vcompress 6 5 true), (0x924C5040, .vexpand 6 5 true),
  (0x928C51E0, .vslideup 6 5 3 true), (0x92CC51E0, .vslidedn 6 5 3 true), (0x930C51E0, .vperm 6 5 3 true true),
  (0x934C5050, .vscan 6 5 true .min), (0x94022068, .vrand 1 2 0 true true), (0x944C51E0, .vsample 6 5 3 true true),
  (0x94822060, .vgmax 1 2 0 true)] : List (BitVec 32 × Instr)).all
    (fun e => isOk (decodeWord e.1) e.2) = true := by decide

theorem test_decode_vector_memory : ([
  (0xA030C0BB, .vld 6 3 .e8 true true .keep true true), (0xA130D2BB, .vlds 6 3 9 .e8 true true .keep true true),
  (0xA230D2BB, .vldx 6 3 9 .e8 true true .keep true true), (0xA330C0BB, .vldff 6 3 .e8 true true .keep true true),
  (0xA430D2BB, .vldxff 6 3 9 .e8 true true .keep true true), (0xA530C0BA, .vst 6 3 .e8 true true .keep true),
  (0xA630D2BA, .vsts 6 3 9 .e8 true true .keep true), (0xA730D2BA, .vstx 6 3 9 .e8 true true .keep true),
  (0xA830D2BB, .vamo 6 3 9 .e8 true true .min true), (0xA930D232, .vlock 6 3 9 true true true), (0xAA301212, .vunlock 6 9 true true),
  (0xAB30C018, .vsave 6 3 true .keep), (0xAC30C018, .vrestore 6 3 true .keep)] : List (BitVec 32 × Instr)).all
    (fun e => isOk (decodeWord e.1) e.2) = true := by decide

theorem test_decode_trees : ([
  (0xB00C5040, .tset 6 5 true), (0xB04C5040, .tget 6 5 true), (0xB08C51D0, .tup 6 5 3 true .min), (0xB0CC51D0, .tdown 6 5 3 true .min),
  (0xB1022048, .tbcast 1 2 0 true true), (0xB14C5040, .tdepth 6 5 true), (0xB18C51E0, .tanc 6 5 3 true),
  (0xB18C51E8, .tancUp 6 5 3 true true), (0xB1CC5040, .troot 6 5 true), (0xB20C51E0, .tcontract 6 5 3 true),
  (0xB20C51E8, .tcontractM 6 5 3 true), (0xB24C5040, .tleaf 6 5 true), (0xB2822048, .tcheck 1 2 true true), (0xB2CC5040, .torder 6 5 true)] : List (BitVec 32 × Instr)).all
    (fun e => isOk (decodeWord e.1) e.2) = true := by decide

theorem test_decode_claimed : ([
  (0xC0005180, .hcfg 5 3), (0xC04C51C0, .hins 6 5 3 true), (0xC08C51C0, .hprb 6 5 3 true), (0xC0CC5040, .hdel 6 5 true),
  (0xC10C51C2, .hacc 6 5 3 true .max), (0xC14C5000, .hdrn 6 5), (0xC4005180, .strike 5 3), (0xC44C51C0, .lde 6 5 3 true),
  (0xC48C5000, .tsite 6 5), (0xC4C05180, .ttag 5 3), (0xC50C5180, .tremap 6 5 3), (0xC8022041, .tapDot 1 2 0 true 1),
  (0xC8420041, .tapFin 1 true 1), (0xC8821181, .tapSteer 1 1 3 false 1)] : List (BitVec 32 × Instr)).all
    (fun e => isOk (decodeWord e.1) e.2) = true := by decide

theorem test_decode_engines : ([
  (0xD00C5072, .mlds 6 5 true true true .e5m2), (0xD04C0070, .mswap 6 true true true), (0xD08C51F2, .mmac 6 5 3 true true true .dspm),
  (0xD0C05070, .mfeed 5 true true true), (0xD10C0070, .mpull 6 true true true), (0xD14C51F2, .vopacc 6 5 3 true true true 2),
  (0xD4005060, .xcopy 5 true true), (0xD4405060, .xred 5 true true), (0xD6022061, .strcfg 1 2 0 true true .e4),
  (0xD6422070, .vldS 1 2 true true true), (0xD80C0000, .tokpush 6), (0xD84C0000, .tokpop 6)] : List (BitVec 32 × Instr)).all
    (fun e => isOk (decodeWord e.1) e.2) = true := by decide

theorem test_decode_pfx : ([
  (0xE5C20000, .pfx 2 true true .x 2)] : List (BitVec 32 × Instr)).all
    (fun e => isOk (decodeWord e.1) e.2) = true := by decide

/-! ## An ill-formed term for each check of `Instr.check` -/

/-- R84 and the encoding tables: R121, R225, R130, R142, R77, R149, R166, R167, R177, R239, R281, R287–R289, R300. -/
theorem test_ill_formed : ([
  (.fadd 1 2 3 .b32 .sr, .reservedCode), (.amoadd 1 2 3 .relaxed .core .w8, .reservedCode), (.csrr 1 0x1FF, .badCsr),
  (.csrw 1 2 0x800, .readOnlyCsr), (.tlbinv 1 .all, .resvField), (.pfx 0 true false .none 1, .resvField), (.pfx 0 true false .t 8, .badRegister),
  (.setvl 1 2 0x07, .badVtype), (.vfadd 1 2 3 false false .sr, .reservedCode)] ++ [
  (.vfcvt 1 2 false (.code 21) .rne, .reservedCode), (.vquant 1 2 false (.code 11) .rne, .reservedCode), (.vgmax 1 2 3 false, .badRegister),
  (.vamo 1 2 3 .e2 false false .add false, .reservedCode), (.mlds 1 2 false false true .bf16, .lateWithoutPush),
  (.mswap 1 false false false, .resvField), (.mmac 1 2 3 true false false .acc, .resvField), (.strcfg 1 2 3 false false .e8, .badRegister)]
    : List (Instr × Reject)).all (fun e => decide (e.1.check = some e.2)) = true := by decide

/-! ## Values that the spec works out -/

/-- The instruction's next state at the VIQ head. -/
def headAfter (i : Instr) (vt : BitVec 9) (v2 v3 : Nat) : State :=
  let s := atWord (entry i 0 0) vt 1
  after i { s with cores := [(0, { s.vcore 0 with v := vset (vset (s.vcore 0).v 2 (BitVec.ofNat 32768 v2)) 3 (BitVec.ofNat 32768 v3) })] }

/-- R126: fclass.32 of −0.375, and fclass.64 of the smallest binary64 subnormal. -/
theorem test_fclass_32 : (after (.fclass 5 2 .b32) (user.wf 2 0xBEC00000)).rx 5 = 0x00FFFE0A := by decide
theorem test_fclass_64 : (after (.fclass 5 2 .b64) (user.wf 2 1)).rx 5 = 0x00FBCE01 := by decide

/-- The worked run of 06_ins_scalar.md: 1.0 / +0.0 gives +∞ and sets DZ; 1 / 0 gives 2^63 − 1 and traps on nothing. -/
theorem test_fdiv_by_zero : (after (.fdiv 3 1 2 .b64 .rne) (user.wf 1 0x3FF0000000000000)).rf 3 = 0x7FF0000000000000 ∧
    ((after (.fdiv 3 1 2 .b64 .rne) (user.wf 1 0x3FF0000000000000)).hart 0).fflags = 0x08 := by decide
theorem test_div_by_zero : (after (.div 9 6 0) (user.wx 6 1)).rx 9 = 0x7FFFFFFFFFFFFFFF := by decide
theorem test_bne_target : (after (.bne 5 0 10) (user.wx 5 1)).pc = 0x10028 := by decide

/-- 03_numbers.md: the word 0xC000_0000_0000_0000 has the uniform 0.75. -/
theorem test_uniform : rneTo .f32 (uniformX 0xC000000000000000) = 0x3F400000 := by decide

/-- 07_ins_vector.md: at SEW 2, vsadd of 1 and 1 gives 1 and sets SAT. -/
theorem test_vsadd_sew2 : vreg (headAfter (.vsadd 1 2 3 false false false) 0x00 1 1) 0 1 % 4 = 1 ∧
    ((headAfter (.vsadd 1 2 3 false false false) 0x00 1 1).hart 0).fflags = fSAT := by decide

/-- The worked tent access of 09_memories.md: an absent tile gives byte 5 of the default; a present one, of its frame. -/
def region0 (w : Nat) : State :=
  { user.poke (cellsAt (devKey 0x108020) (toBytes 8 w)) with
    peg := { user.peg with launches := user.peg.launches.map (fun l =>
      { l with tents := [⟨0x400000, 64, 16384, 0x0102030405060708, 0, [0x109000], 4, 0, [0x108000]⟩] }) } }
theorem test_tent_absent : (after (.ldZ8 5 1 0) ((region0 0).wx 1 0x3000000000412345)).rx 5 = 0x03 := by decide
theorem test_tent_present : isOk (sPlace ((region0 0x8800009300008005).wx 1 0x3000000000412345) .load .natural 1 0 1)
    (.at_ (devKey 0x930000A345) .dev) = true := by decide

/-- The worked case of 02_execution.md (R22): VL = 700 at SEW 32 and `split 4` leave child 0 the elements 0–255, and child 2 those left, 188. -/
theorem test_split_lengths : (([0, 1, 2, 3].map (fun q =>
    ((after (.split 4) (user.updHart 0 (fun h => { h with vtype := 0x04, vl := 700 }))).hart q).vl))) = [256, 256, 188, 0] := by decide

/-- R225: amoadd writes the sum and returns the old value. -/
theorem test_amoadd : (after (.amoadd 4 1 1 .relaxed .core .w32) user).mem.num (devKey 0x100040) 4 = 0x10040 ∧
    (after (.amoadd 4 1 1 .relaxed .core .w32) user).rx 4 = 0 := by decide

/-- R215, R253: a struck tile is absent with its GEN one greater, and its frame is on the pool. -/
theorem test_strike : (let t := after (.strike 1 2) (inTent (entry (.strike 1 2) tile0 1))
    (t.mem.num (devKey 0x108000) 8, t.mem.num (devKey 0x109000) 8, t.mem.num (devKey 0x109040) 8)) = (1, 1, 0x100000) := by decide

end Sys2Proof.Tests
end

/-! PROOFS. The statements about numbers (03_numbers.md): what the exact operations answer to NaN operands (R53), that a value
a format holds rounds to itself (R54, R57), and the sign of a zero sum (R52). -/

namespace Sys2Proof.Machine

open Sys2Proof.Claims

/-! ## NaN operands (R53) -/

@[simp] theorem FVal.isNan_neg (x : FVal) : x.neg.isNan = x.isNan := by cases x <;> rfl
@[simp] theorem FVal.isSig_neg (x : FVal) : x.neg.isSig = x.isSig := by cases x <;> rfl

theorem FVal.eq_nan_of_isNan {x : FVal} (h : x.isNan = true) : ∃ sig, x = .nan sig := by
  cases x with
  | nan sig => exact ⟨sig, rfl⟩
  | inf _ | fin _ _ _ => cases h

theorem addX_of_isNan (m : RMode) {x y : FVal} (h : x.isNan = true ∨ y.isNan = true) :
    addX m x y = (.nan false, flagsIf (x.isSig || y.isSig) fNV) := by
  obtain h | h := h <;> obtain ⟨sig, rfl⟩ := FVal.eq_nan_of_isNan h
  · rfl
  · cases x <;> rfl

theorem mulX_of_isNan {x y : FVal} (h : x.isNan = true ∨ y.isNan = true) :
    mulX x y = (.nan false, flagsIf (x.isSig || y.isSig) fNV) := by
  obtain h | h := h <;> obtain ⟨sig, rfl⟩ := FVal.eq_nan_of_isNan h
  · rfl
  · cases x <;> rfl

theorem divX_of_isNan {x y : FVal} (h : x.isNan = true ∨ y.isNan = true) :
    divX x y = (.nan false, flagsIf (x.isSig || y.isSig) fNV) := by
  obtain h | h := h <;> obtain ⟨sig, rfl⟩ := FVal.eq_nan_of_isNan h
  · rfl
  · cases x <;> rfl

theorem sqrtX_of_isNan {x : FVal} (h : x.isNan = true) : sqrtX x = (.nan false, flagsIf x.isSig fNV) := by
  obtain ⟨sig, rfl⟩ := FVal.eq_nan_of_isNan h
  rfl

/-- A NaN result is delivered to a scalar precision as its canonical NaN; the rounding adds no flag. -/
theorem finish_nan (p : Prec) (m : RMode) (f : Flags) :
    finish (Prec.fmt p) m (.nan false, f) = ((Prec.fmt p).nan, f) := by
  cases p <;> simp [finish, roundTo, flagsIf, Prec.fmt]

/-! ## The five operations of R121 -/

/-- fadd, fsub, fmul, fdiv and fsqrt write f[d] with a rounding of an exact result and raise its flags; with a NaN among the
operands the result is a quiet NaN, with NV when an operand is signalling. -/
theorem exec_roundsOf {i : Instr} {s : State} {p : Prec} {d : Reg} {rs : List Reg} (h : roundsOf i = some (p, d, rs)) :
    ∃ m r, exec i s = withRegs s { rf := rs, wf := [d] }
        (done ((putF s d (finish (Prec.fmt p) m r).1).orFlags (finish (Prec.fmt p) m r).2)) ∧
      ((∃ r ∈ rs, (fval s p r).isNan = true) → r = (.nan false, flagsIf (rs.any fun r => (fval s p r).isSig) fNV)) := by
  cases i <;> simp only [roundsOf, reduceCtorEq, Option.some.injEq, Prod.mk.injEq] at h <;> obtain ⟨rfl, rfl, rfl⟩ := h
  case fadd => exact ⟨_, _, rfl, fun hn => by simpa using addX_of_isNan _ (by simpa using hn)⟩
  case fsub => exact ⟨_, _, rfl, fun hn => by simpa using addX_of_isNan _ (y := FVal.neg _) (by simpa using hn)⟩
  case fmul => exact ⟨_, _, rfl, fun hn => by simpa using mulX_of_isNan (by simpa using hn)⟩
  case fdiv => exact ⟨_, _, rfl, fun hn => by simpa using divX_of_isNan (by simpa using hn)⟩
  case fsqrt => exact ⟨_, _, rfl, fun hn => by simpa using sqrtX_of_isNan (by simpa using hn)⟩

theorem Thread.f_wf_self (t : Thread) (r : Reg) (v : Word) : (t.wf r v).f[r.toFin] = v := by
  simp [Thread.wf]

/-- A user thread that has written f[d], raised flags and gone on: its register and its hart's flags. -/
theorem user_putF_advance {s : State} {q : Nat} (hq : s.agent = .user q) (d : Reg) (c : Nat) (f : Flags) :
    ((putF s d c).orFlags f).advance.rf d = BitVec.ofNat 64 c ∧
      (((putF s d c).orFlags f).advance.hart q).fflags = (s.hart q).fflags ||| f := by
  have hs : (s.cleaned true d).isScalar := fun p => by simp [hq]
  have h := stepped_flags hs (th := s.me.wf d (BitVec.ofNat 64 c)) (by rw [Thread.wf_pc, State.cleaned_pc]; rfl) f
  rw [State.cleaned_agent, ← State.wf_eq] at h
  have hh := h.threads.hart q
  rw [State.cleaned_agent, if_pos hq] at hh
  have ha : ((putF s d c).orFlags f).advance.agent = .user q := by
    simp [State.advance, State.setPc, putF, State.wf_eq, hq]
  constructor
  · rw [State.rf, ha, State.thread, putF, hh]
    exact Thread.f_wf_self ..
  · rw [putF, hh]
    simp [hartFlags, State.cleaned]

/-! ## A value that a format holds (R54, R57) -/

/-- `k` times 2^j smallest quanta is a finite magnitude of the format, its significand as long as it can be. -/
structure FFmt.OnGrid (f : FFmt) (k j : Nat) : Prop where
  short : k < 2 ^ (f.frac + 1)
  long : 2 ^ f.frac ≤ k ∨ j = 0
  max : j * 2 ^ f.frac + k ≤ f.maxCode

/-- Sign and magnitude of a code (R42). -/
theorem signed_testBit {f : FFmt} {c : Nat} (hc : c < 2 ^ f.width) :
    signed f (c.testBit (f.width - 1)) (c % 2 ^ (f.width - 1)) = c := by
  have hw : 2 ^ f.width = 2 * 2 ^ (f.width - 1) := by cases f <;> rfl
  have hd : c / 2 ^ (f.width - 1) < 2 := Nat.div_lt_of_lt_mul (by omega)
  have hm := Nat.mod_add_div c (2 ^ (f.width - 1))
  have ht : c.testBit (f.width - 1) = decide (c / 2 ^ (f.width - 1) = 1) := by
    rw [Nat.testBit_eq_decide_div_mod_eq, Nat.mod_eq_of_lt hd]
  rw [ht]
  generalize c / 2 ^ (f.width - 1) = b at *
  obtain rfl | rfl : b = 0 ∨ b = 1 := by omega
  · simpa [signed] using hm
  · simpa [signed] using hm

/-- Exponent and fraction fields make up the magnitude of a code (R42). -/
theorem exp_frac_fields (f : FFmt) (c : Nat) :
    getBits c f.frac (f.width - 1 - f.frac) * 2 ^ f.frac + getBits c 0 f.frac = c % 2 ^ (f.width - 1) := by
  have hw : 2 ^ (f.width - 1) = 2 ^ f.frac * 2 ^ (f.width - 1 - f.frac) := by cases f <;> rfl
  rw [hw, Nat.mod_mul, getBits, getBits, Nat.shiftRight_eq_div_pow, Nat.shiftRight_zero,
    Nat.mul_comm, Nat.add_comm]

/-- The value of a code's sign, exponent and fraction when they stand for no infinity and no NaN (R42). -/
def FFmt.finite (f : FFmt) (c : Nat) : FVal :=
  if getBits c f.frac (f.width - 1 - f.frac) = 0 then .fin (c.testBit (f.width - 1)) (getBits c 0 f.frac) f.qMin
  else .fin (c.testBit (f.width - 1)) (getBits c 0 f.frac + 2 ^ f.frac)
    (f.qMin + (getBits c f.frac (f.width - 1 - f.frac) : Int) - 1)

/-- What decodes to a finite value is no infinity and no NaN, and its magnitude is at most the format's largest (R42). -/
theorem decode_fin {f : FFmt} {c : Nat} {neg : Bool} {k : Nat} {e : Int} (h : f.decode c = .fin neg k e) :
    f.finite c = .fin neg k e ∧ c % 2 ^ (f.width - 1) ≤ f.maxCode := by
  have hm := exp_frac_fields f c
  have hx : getBits c f.frac (f.width - 1 - f.frac) < 2 ^ (f.width - 1 - f.frac) := Nat.mod_lt _ (Nat.two_pow_pos _)
  have hr : getBits c 0 f.frac < 2 ^ f.frac := Nat.mod_lt _ (Nat.two_pow_pos _)
  unfold FFmt.decode at h
  unfold FFmt.finite
  generalize getBits c f.frac (f.width - 1 - f.frac) = ex at *
  generalize getBits c 0 f.frac = fr at *
  cases f
  case e2m1 => exact ⟨h, by simp only [FFmt.width, FFmt.frac, FFmt.maxCode] at *; omega⟩
  case e4m3 =>
    dsimp only at h
    split at h
    · cases h
    · exact ⟨h, by simp only [FFmt.width, FFmt.frac, FFmt.maxCode] at *; omega⟩
  -- the five formats whose all-ones exponent stands for infinities and NaNs
  all_goals
    dsimp only at h
    split at h
    · split at h <;> cases h
    · exact ⟨h, by simp only [FFmt.expMax, FFmt.width, FFmt.frac, FFmt.maxCode] at *; omega⟩

/-- A finite value of a code lies on the format's grid, and its magnitude there is the code's (R42). -/
theorem decode_onGrid {f : FFmt} {c : Nat} {neg : Bool} {k : Nat} {e : Int} (h : f.decode c = .fin neg k e) :
    ∃ j : Nat, neg = c.testBit (f.width - 1) ∧ e = f.qMin + j ∧ f.OnGrid k j ∧ j * 2 ^ f.frac + k = c % 2 ^ (f.width - 1) := by
  obtain ⟨hf, hmax⟩ := decode_fin h
  unfold FFmt.finite at hf
  have hm := exp_frac_fields f c
  have hr : getBits c 0 f.frac < 2 ^ f.frac := Nat.mod_lt _ (Nat.two_pow_pos _)
  generalize getBits c f.frac (f.width - 1 - f.frac) = ex at *
  generalize getBits c 0 f.frac = fr at *
  cases ex with
  | zero =>
    obtain ⟨rfl, rfl, rfl⟩ := FVal.fin.inj ((if_pos rfl).symm.trans hf)
    rw [Nat.zero_mul] at hm
    exact ⟨0, rfl, by simp, ⟨by omega, .inr rfl, by omega⟩, by omega⟩
  | succ j =>
    obtain ⟨rfl, rfl, rfl⟩ := FVal.fin.inj ((if_neg j.succ_ne_zero).symm.trans hf)
    rw [Nat.succ_mul] at hm
    exact ⟨j, rfl, by omega, ⟨by omega, .inl (by omega), by omega⟩, by omega⟩

theorem FFmt.OnGrid.log2_le {f : FFmt} {k j : Nat} (h : f.OnGrid k j) (hk : k ≠ 0) : Nat.log2 k ≤ f.frac :=
  Nat.le_of_lt_succ ((Nat.log2_lt hk).2 h.short)

/-- A value on the grid is a whole number of the quanta that it is rounded to. -/
theorem quantum_of_onGrid {f : FFmt} {k j : Nat} (h : f.OnGrid k j) (hk : k ≠ 0) :
    (if f.qMin ≤ FVal.lg k (f.qMin + j) - (f.frac : Int) then FVal.lg k (f.qMin + j) - (f.frac : Int) else f.qMin)
      = f.qMin + j := by
  have hle := h.log2_le hk
  unfold FVal.lg
  obtain hlong | rfl := h.long
  · have := (Nat.le_log2 hk).2 hlong
    split <;> omega
  · split <;> omega

/-- A value on the grid does not overflow. -/
theorem lg_of_onGrid {f : FFmt} {k j : Nat} (h : f.OnGrid k j) (hk : k ≠ 0) :
    FVal.lg k (f.qMin + j) ≤ (f.bias : Int) + 2 := by
  have hle := h.log2_le hk
  have hj : j ≤ 2 * f.bias + 1 := by
    have hmax := h.max
    cases f <;> simp only [FFmt.frac, FFmt.bias, FFmt.maxCode] at * <;> omega
  unfold FVal.lg FFmt.qMin
  omega

theorem toQuantum_self (m : RMode) (neg : Bool) (k : Nat) (e : Int) : toQuantum m neg k e e = (k, false) := by
  simp [toQuantum]

/-- A value on the grid is delivered unchanged and raises no flag. -/
theorem roundTo_onGrid {f : FFmt} {k j : Nat} (h : f.OnGrid k j) (m : RMode) (sat neg : Bool) :
    roundTo f m sat (.fin neg k (f.qMin + j)) = (signed f neg (j * 2 ^ f.frac + k), 0) := by
  by_cases hk : k = 0
  · obtain rfl : j = 0 := h.long.resolve_left (by have := Nat.two_pow_pos f.frac; omega)
    simp [roundTo, hk]
  · have hquanta : (f.qMin + (j : Int) - f.qMin).toNat = j := by omega
    have hpack : packMag f k (f.qMin + j) = j * 2 ^ f.frac + k := by rw [packMag, hquanta]
    simp only [roundTo, if_neg hk, quantum_of_onGrid h hk, if_neg (Int.not_lt.2 (lg_of_onGrid h hk)), toQuantum_self, hpack,
      if_neg (Nat.not_lt.2 h.max)]
    simp [flagsIf]

/-- R54, R57: a finite value that a format holds is delivered to that format unchanged and raises no flag. -/
theorem roundTo_decode {f : FFmt} {c : Nat} (hc : c < 2 ^ f.width) (hf : ∃ neg k e, f.decode c = .fin neg k e)
    (m : RMode) (sat : Bool) : roundTo f m sat (f.decode c) = (c, 0) := by
  obtain ⟨neg, k, e, h⟩ := hf
  obtain ⟨j, rfl, rfl, hg, hmag⟩ := decode_onGrid h
  rw [h, roundTo_onGrid hg, hmag, signed_testBit hc]

/-! ## The sign of a zero sum (R52) -/

theorem addX_zeros (m : RMode) (a b : Bool) (e g : Int) :
    addX m (.fin a 0 e) (.fin b 0 g) = (.fin (a && b || m == .rdn) 0 0, 0) := by
  simp [addX, FVal.zero, zeroSign]

theorem addX_cancel (m : RMode) (a : Bool) {k : Nat} (e : Int) (hk : k ≠ 0) :
    addX m (.fin a k e) (.fin (!a) k e) = (.fin (m == .rdn) 0 e, 0) := by
  have hsum : FVal.at_ a k e e + FVal.at_ (!a) k e e = 0 := by
    cases a
    · exact Int.add_right_neg _
    · exact Int.add_left_neg _
  simp [addX, hk, hsum, FVal.ofInt, zeroSign]

/-! ## O5 -/

/-- Settles O5: the NaN rules of the exact operations, the grid of values that a format holds, and the two zero sums. -/
theorem floatOperandsAndExactResults : Obligations.FloatOperandsAndExactResults := by
  refine ⟨fun i s p d rs q hi hq hready hnan => ?_, fun f m sat c hc hf => roundTo_decode hc hf m sat,
    fun m a b e g => ⟨0, addX_zeros m a b e g⟩, fun m a k e hk => ⟨e, addX_cancel m a e hk⟩⟩
  obtain ⟨m, r, hexec, hr⟩ := exec_roundsOf (s := s) hi
  rw [withRegs_ready hready, hr hnan, finish_nan] at hexec
  exact ⟨_, hexec, user_putF_advance hq ..⟩

end Sys2Proof.Machine
